-- ==== Sys2Proof/Word.lean ====
section
/-! DEFINITION. The plain word types of the SK-3240: bytes, 16-bit and 32-bit counts. -/

namespace Sys2Proof

/-- One byte of branch memory. -/
abbrev Byte := BitVec 8

/-- A 16-bit count that wraps: journal sequences (R110), the business day (R180). -/
abbrev Word16 := BitVec 16

/-- A 32-bit count that wraps: ring indexes (Conventions, Rings), monotonic seconds (R181), check values (R129). -/
abbrev Word32 := BitVec 32

end Sys2Proof
end

