-- ==== Sys2Proof/Syntax.lean ====
section
/-! DEFINITION. The commands of the SK-3240: one constructor of Instr for each row of spec/opcode_table.json, in the
table's order, and the transaction that the system link delivers. -/

namespace Sys2Proof

/-- Direction of a transaction. -/
inductive Direction where
  | read
  | write
  deriving DecidableEq, Repr

/-- One transaction of the system link: master tag 0 to 15, direction, 32-bit address, length in bytes and, for a
write, the data and the byte mask (chapter Introduction, The Part in Its Setting). -/
structure Transaction where
  tag  : Fin 16
  dir  : Direction
  addr : Word32
  len  : Nat
  data : List Byte
  mask : List Bool
  deriving DecidableEq, Repr

/-- The commands. A transaction command offers its transaction on the system link; every other command is the event
that its row names. -/
inductive Instr where
  /-- RESET_N_ASSERT (R177): Assertion of RESET_N empties every queue, loses unanswered transactions and pending own requests, and ends any load, apply or record in hand. -/
  | resetNAssert
  /-- RESET_N_RISE (R177): The rise of RESET_N latches CHB0 to CHB7, places the charter window, and puts the part in PASS with every unit at its reset values. -/
  | resetNRise (straps : Byte)
  /-- SECOND_ADVANCE (R181): The seconds timer advances the monotonic count and the store clock by one and hands the advance to the units that keep time. -/
  | secondAdvance
  /-- DUE_PROCESSING (R13): Due items of the timed part of the changeover list have CHANGEOVER_DUE requests placed, waiting for room in the entry update queue. -/
  | dueProcessing
  /-- IDLE_CLOSE (R135): Open blocks whose idle close time has run are closed with the flag IDLE, in till order, as one piece of journal work. -/
  | idleClose
  /-- PFW_SAMPLE (R183): The power-fail filter samples PFW_N each millisecond and updates its run count. -/
  | pfwSample (asserted : Bool)
  /-- WARNING_STANDS (R184): After 4 asserted samples the warning comes to stand; the sweep cancels its visit, journal writes are refused POWER, and POWER_WARNING is written. -/
  | warningStands
  /-- WARNING_CLEARS (R185): After 16 unasserted samples the warning clears; POWER_CLEAR is written, the sweep selects in AUTO, and the apply gate is examined. -/
  | warningClears
  /-- POWER_CLOSE (R136): Once no record is in hand, the open block of every till is closed with the flag POWER. -/
  | powerClose
  /-- PACING_PERIOD_BOUNDARY (R148): At each 1 ms boundary the guest pacer adjusts the level, sets the period byte count to 0 and releases held transactions. -/
  | pacingPeriodBoundary
  /-- GUEST_TRANSACTION (R146): A GUEST-class transaction is judged by rights, refused PHASE in OPENING or NIGHT, and otherwise passed or held by the budget. -/
  | guestTransaction (tx : Transaction)
  /-- PASS_TRANSACTION (R169): In PASS or the LOADING that follows reset, a transaction is forwarded unchanged, with no class, window or refusal. -/
  | passTransaction (tx : Transaction)
  /-- PLAIN_TRANSACTION (R162): A non-guest transaction in a PLAIN window or open memory is forwarded when its class right allows its direction, and otherwise refused NO_RIGHT. -/
  | plainTransaction (tx : Transaction)
  /-- SPECIAL_WINDOW_ACCESS (R163): An access to a window of special kind or to the charter window passes when its fixed access allows it and is refused KIND otherwise. -/
  | specialWindowAccess (tx : Transaction)
  /-- REGISTER_WRITE (R163): A write to an index word or control slot that no unit observes passes unchanged. -/
  | registerWrite (tx : Transaction)
  /-- PORT_GRANT (R175): When the memory port can take a request, the arbiter grants it to a promoted write, to an aged or crowded own-request queue, to the pass-through stream, or to the own-request queue. -/
  | portGrant
  /-- PASS_THROUGH_READ_RETURN (R175): The data of a forwarded read returns to its master, rewritten into the till view for a price read served by the price book unit. -/
  | passThroughReadReturn
  /-- PASS_THROUGH_WRITE_COMPLETE (R175): Memory answers a forwarded write and its completion returns to the master. -/
  | passThroughWriteComplete
  /-- OWN_REQUEST_QUEUE_ROOM (R173): A place freed in the own-request queue goes to the unit that has waited longest, which places its request and goes on with its work. -/
  | ownRequestQueueRoom
  /-- PASS_THROUGH_STREAM_ROOM (R174): Places freed in the pass-through stream are taken by the waiting heads in the order in which they came to wait. -/
  | passThroughStreamRoom
  /-- ENTRY_UPDATE_QUEUE_ROOM (R6): A place freed in the entry update queue goes to the source that has waited longest, which places its request. -/
  | entryUpdateQueueRoom
  /-- TILL_PRICE_READ (R24): A TILL read of 16 bytes at an entry start is forwarded for till-view rewriting, answered with zeros beyond the item count, or held behind an update in progress. -/
  | tillPriceRead (tx : Transaction)
  /-- ENTRY_READ_COMPLETE (R7): The own read of the head entry update request returns and the price book unit works out the new content, placing a write or ending the request. -/
  | entryReadComplete
  /-- ENTRY_WRITE_COMPLETE (R7): The own write of an entry completes, the request leaves the queue with its reports and answers, held till reads are released, and the next request begins. -/
  | entryWriteComplete
  /-- STAGE (R9): A STAGE request merges one change into the pending tuple, sets its timing, increments the generation, and recomputes the label target, or is refused LIST_FULL. -/
  | stage
  /-- CHANGEOVER_DUE (R13): A CHANGEOVER_DUE request takes a due item to changeover or forces a waiting increase at its label deadline. -/
  | changeoverDue
  /-- PRICE_CHECK (R8): A PRICE_CHECK request reads an entry and answers the journal unit with its state, WEIGHED flag, charges and changeover second, which completes the record's findings. -/
  | priceCheck
  /-- QUEUE_JOIN (R22): A QUEUE_JOIN request offers a waiting item to its zone queue. -/
  | queueJoin
  /-- FRAME_SENT (R22): A FRAME_SENT request makes a due label SENT with its sent price and generation, or tells the sweep that no frame is to be sent. -/
  | frameSent
  /-- LABEL_ACK (R22): A LABEL_ACK request records the label-shown price, confirms or redues the label, and may release a waiting increase. -/
  | labelAck
  /-- LABEL_UNANSWERED (R82): A LABEL_UNANSWERED request counts a retry and returns the label to DUE with a late record, or makes it FAULT with a LABEL_FAULT report. -/
  | labelUnanswered
  /-- LABEL_RETURN (R22): A LABEL_RETURN request returns a SENT label to DUE and offers it to its zone queue. -/
  | labelReturn
  /-- LABEL_RESYNC_REQUEST (R22): A LABEL_RESYNC request makes a CONFIRMED or FAULT label DUE with retry count 0 and offers it to its zone queue. -/
  | labelResyncRequest
  /-- KEEP (R28): A KEEP request of the charter-load walk writes a FRESH entry, or checks, repairs and recomputes a kept entry under the new charter. -/
  | keep
  /-- RESCAN_WALK (R67): The RESCAN walk places QUEUE_JOIN requests item by item from the scan cursor, pausing at a pool used count of 1,536, until it comes round to its start point. -/
  | rescanWalk
  /-- FRAME_PUBLISH (R76): When every taken item is answered, the frames are written into LABEL_TX and the producer index write is placed. -/
  | framePublish
  /-- VISIT_START (R76): The completion of the LABEL_TX producer index write starts the visit in BLANK and fixes its base time, blank interval and settle interval. -/
  | visitStart
  /-- BLANK_END (R78): When the blank interval has run, a PRICE or probe visit enters LISTEN and a SYNC visit enters SETTLE. -/
  | blankEnd
  /-- FORCED_END (R81): When the base time passes with OPEN records, the late list is aged and LABEL_UNANSWERED requests are placed for the remaining records. -/
  | forcedEnd
  /-- SETTLE_END (R80): When the settle interval has run, the visit closes once every record has left the outstanding table. -/
  | settleEnd
  /-- VISIT_CLOSE (R80): The visit closes when every record has left the outstanding table, records a duration, recomputes the base time, updates the zone counts, and selects again or goes to MANUAL_WAIT. -/
  | visitClose
  /-- ACKNOWLEDGMENT (R86): A 16-byte LABEL write into LABEL_RX is refused BAD_ACK or forwarded, then discarded, ignored, or matched to an outstanding or late record. -/
  | acknowledgment (tx : Transaction)
  /-- LABEL_TX_CONSUMER_WRITE (R74): A LABEL write of the LABEL_TX consumer index word is observed into the consumer copy, which may let a visit leave TX_WAIT. -/
  | labelTxConsumerWrite (tx : Transaction)
  /-- JOURNAL_CONSUMER_WRITE (R100): An ADMIN write of the JOURNAL consumer index word is observed and taken into the host consumer copy, lowering the backlog. -/
  | journalConsumerWrite (tx : Transaction)
  /-- UPLOAD_CONSUMER_WRITE (R137): An ADMIN write of the UPLOAD consumer index word is observed into the upload consumer copy and starts a drain of the hold list. -/
  | uploadConsumerWrite (tx : Transaction)
  /-- SIGN_ON (R114): An accepted SIGN_ON journal record in OPENING or TRADING with the till CLOSED makes the till READY and sets its signed-on mark. -/
  | signOn (tx : Transaction)
  /-- ITEM (R115): An accepted ITEM journal record opens or extends the basket and is taken through the price check, adding the part line amount. -/
  | item (tx : Transaction)
  /-- VOID_LINE (R116): An accepted VOID_LINE journal record voids a tracked line of the basket, or is flagged VOID_REFUSED. -/
  | voidLine (tx : Transaction)
  /-- BASKET_TOTAL (R117): An accepted BASKET_TOTAL journal record adds the basket total to the day and block sales and makes the till READY. -/
  | basketTotal (tx : Transaction)
  /-- BASKET_CANCEL (R118): An accepted BASKET_CANCEL journal record discards the basket, counts a cancel and makes the till READY. -/
  | basketCancel (tx : Transaction)
  /-- REFUND (R119): An accepted REFUND journal record in READY adds its part line amount to the day and block refunds. -/
  | refund (tx : Transaction)
  /-- NO_SALE (R120): An accepted NO_SALE journal record in READY increments the till's no-sale count. -/
  | noSale (tx : Transaction)
  /-- SIGN_OFF (R121): An accepted SIGN_OFF journal record in READY closes the block with SIGN_OFF and makes the till CLOSED. -/
  | signOff (tx : Transaction)
  /-- UNKNOWN_JOURNAL_KIND (R113): An accepted journal record of unknown kind joins the block and chain flagged OUT_OF_STATE. -/
  | unknownJournalKind (tx : Transaction)
  /-- JOURNAL_RECORD_FORWARDED (R103): The stamped journal write completes; the producer count and index word advance, the till gets its completion, and any PRICE_MISMATCH report and SIGN_OFF or FULL close follow. -/
  | journalRecordForwarded
  /-- NIGHT_ENTRY (R141): When the journal unit allows NIGHT, the phase changes, baskets are abandoned, tills signed off, blocks closed, and the TILL_DAY and BRANCH_DAY records handed on; otherwise SET_PHASE is refused. -/
  | nightEntry
  /-- NEW_DAY_WORK (R107): At the change from NIGHT to OPENING, every till context has its day totals zeroed, its signed-on mark cleared, and its chain reseeded or marked to seed. -/
  | newDayWork
  /-- INTAKE_LOWER_HALF (R45): A LINK write at a slot start of INTAKE is judged as a lower half and forwarded with its half-block record set, or refused with its reason. -/
  | intakeLowerHalf (tx : Transaction)
  /-- INTAKE_UPPER_HALF (R46): A LINK upper-half write completes the block check and is forwarded, or is refused BAD_CHECK or WRONG_SLOT and may break the batch. -/
  | intakeUpperHalf (tx : Transaction)
  /-- BLOCK_ACCEPTED (R46): The accepted upper half's write completes and the block's transition is made: counts advance, a new batch starts or is superseded, or the batch becomes COMPLETE. -/
  | blockAccepted
  /-- INTAKE_BLOCK_READ (R57): The own read of an applying block returns; its records are validated and clamped, skipped, or placed as STAGE requests. -/
  | intakeBlockRead
  /-- CONTROL_PRODUCER_WRITE (R192): An ADMIN write of the CONTROL producer index word is observed and taken into the producer copy. -/
  | controlProducerWrite (tx : Transaction)
  /-- SET_PHASE (R179): A SET_PHASE control record moves the store phase one step, with PHASE_CHANGED and each unit's entry work, or is refused. -/
  | setPhase
  /-- SET_CLOCK (R182): A SET_CLOCK control record sets the store clock, or gives BAD_RECORD for a value above 86,399. -/
  | setClock
  /-- URGENT_MARKDOWN (R194): An URGENT_MARKDOWN control record is checked, clamped and placed as a STAGE request for SET_MARKDOWN. -/
  | urgentMarkdown
  /-- LABEL_RESYNC (R94): A LABEL_RESYNC control record places LABEL_RESYNC requests for one item, or for every item of one zone. -/
  | labelResync
  /-- TILL_RESET (R126): A TILL_RESET control record abandons the till's basket, closes its block with RESET and makes it CLOSED with an unknown sequence. -/
  | tillReset
  /-- SWEEP_MODE (R92): A SWEEP_MODE control record sets the sweep mode to AUTO or MANUAL. -/
  | sweepMode
  /-- STEP_SWEEP (R93): A STEP_SWEEP control record in MANUAL_WAIT makes one selection, or is refused REFUSED_BUSY. -/
  | stepSweep
  /-- BATCH_DISCARD (R61): A BATCH_DISCARD control record frees the slots of a COMPLETE or BROKEN batch and makes it IDLE, or is refused REFUSED_BUSY. -/
  | batchDiscard
  /-- RELOAD_CHARTER (R191): A RELOAD_CHARTER control record in NIGHT with intake and journal empty starts a reload in LOADING, or is refused. -/
  | reloadCharter
  /-- UNKNOWN_CONTROL_KIND (R193): A control record of unknown kind has the result BAD_RECORD. -/
  | unknownControlKind
  /-- CONTROL_DONE (R193): When a control record's result is known, the consumer count advances with its index write and a CONTROL_DONE report is written. -/
  | controlDone
  /-- REPORT_PUBLISHED (R196): The completion of a REPORT producer index write sets the published count, which asserts ATTN_N. -/
  | reportPublished
  /-- REPORT_CONSUMER_WRITE (R196): An ADMIN write of the REPORT consumer index word is observed into the consumer copy, and ATTN_N is deasserted when it equals the published count. -/
  | reportConsumerWrite (tx : Transaction)
  /-- LOAD_WORD_WRITE (R188): A write of 1 to the charter load word begins a load in PASS and writes the result word LOADING, or writes it BUSY in LOADING or ACTIVE. -/
  | loadWordWrite (tx : Transaction)
  /-- CHARTER_CHECK (R190): When the charter's own reads have returned, it is checked; a refused charter ends the load with its code, and an accepted one goes on to the walk. -/
  | charterCheck
  /-- WALK_START (R29): Once the queued requests and the sweep's cancel are done, the walk begins: queues and late lists are emptied and the first KEEP request is placed. -/
  | walkStart
  /-- CHARTER_ACCEPT (R189): After the walk, the new charter is accepted, units reset their rings and state, reports are written, the result word reads LOADED and the part goes ACTIVE. -/
  | charterAccept
  deriving DecidableEq, Repr

end Sys2Proof
end

