-- ==== Sys2Proof/WellFormed.lean ====
section
/-! DEFINITION. The checks on a command's operands: the shape of a transaction (chapter Introduction, The Part in Its
Setting) and what a row's name says of its transaction whatever the charter. -/

namespace Sys2Proof

def Transaction.isRead (tx : Transaction) : Bool := tx.dir == .read

def Transaction.isWrite (tx : Transaction) : Bool := tx.dir == .write

/-- 8 to 128 bytes in whole words of 8; a write carries its data and a mask bit for each byte, a read carries none. -/
def Transaction.wf (tx : Transaction) : Bool :=
  8 ≤ tx.len && tx.len ≤ 128 && tx.len % 8 == 0 &&
  match tx.dir with
  | .read => tx.data.isEmpty && tx.mask.isEmpty
  | .write => tx.data.length == tx.len && tx.mask.length == tx.len

/-- A write whose byte 1, the record kind of a journal slot (section 11.3), is of the kinds asked for. -/
def Transaction.isJournalKind (tx : Transaction) (p : Nat → Bool) : Bool :=
  tx.isWrite && p (tx.data.getD 1 0).toNat

/-- A command whose operands are well formed. -/
def Instr.wf : Instr → Bool
  | .resetNAssert => true
  | .resetNRise _ => true
  | .secondAdvance => true
  | .dueProcessing => true
  | .idleClose => true
  | .pfwSample _ => true
  | .warningStands => true
  | .warningClears => true
  | .powerClose => true
  | .pacingPeriodBoundary => true
  | .guestTransaction tx => tx.wf
  | .passTransaction tx => tx.wf
  | .plainTransaction tx => tx.wf
  | .specialWindowAccess tx => tx.wf
  | .registerWrite tx => tx.wf && tx.isWrite
  | .portGrant => true
  | .passThroughReadReturn => true
  | .passThroughWriteComplete => true
  | .ownRequestQueueRoom => true
  | .passThroughStreamRoom => true
  | .entryUpdateQueueRoom => true
  | .tillPriceRead tx => tx.wf && tx.isRead && tx.len == 16
  | .entryReadComplete => true
  | .entryWriteComplete => true
  | .stage => true
  | .changeoverDue => true
  | .priceCheck => true
  | .queueJoin => true
  | .frameSent => true
  | .labelAck => true
  | .labelUnanswered => true
  | .labelReturn => true
  | .labelResyncRequest => true
  | .keep => true
  | .rescanWalk => true
  | .framePublish => true
  | .visitStart => true
  | .blankEnd => true
  | .forcedEnd => true
  | .settleEnd => true
  | .visitClose => true
  | .acknowledgment tx => tx.wf && tx.isWrite && tx.len == 16
  | .labelTxConsumerWrite tx => tx.wf && tx.isWrite && tx.len == 8
  | .journalConsumerWrite tx => tx.wf && tx.isWrite && tx.len == 8
  | .uploadConsumerWrite tx => tx.wf && tx.isWrite && tx.len == 8
  | .signOn tx => tx.wf && tx.isJournalKind (· == 1)
  | .item tx => tx.wf && tx.isJournalKind (· == 2)
  | .voidLine tx => tx.wf && tx.isJournalKind (· == 3)
  | .basketTotal tx => tx.wf && tx.isJournalKind (· == 4)
  | .basketCancel tx => tx.wf && tx.isJournalKind (· == 5)
  | .refund tx => tx.wf && tx.isJournalKind (· == 6)
  | .noSale tx => tx.wf && tx.isJournalKind (· == 7)
  | .signOff tx => tx.wf && tx.isJournalKind (· == 8)
  | .unknownJournalKind tx => tx.wf && tx.isJournalKind (fun k => k == 0 || 8 < k)
  | .journalRecordForwarded => true
  | .nightEntry => true
  | .newDayWork => true
  | .intakeLowerHalf tx => tx.wf && tx.isWrite
  | .intakeUpperHalf tx => tx.wf && tx.isWrite
  | .blockAccepted => true
  | .intakeBlockRead => true
  | .controlProducerWrite tx => tx.wf && tx.isWrite && tx.len == 8
  | .setPhase => true
  | .setClock => true
  | .urgentMarkdown => true
  | .labelResync => true
  | .tillReset => true
  | .sweepMode => true
  | .stepSweep => true
  | .batchDiscard => true
  | .reloadCharter => true
  | .unknownControlKind => true
  | .controlDone => true
  | .reportPublished => true
  | .reportConsumerWrite tx => tx.wf && tx.isWrite && tx.len == 8
  | .loadWordWrite tx => tx.wf && tx.isWrite
  | .charterCheck => true
  | .walkStart => true
  | .charterAccept => true

end Sys2Proof
end

