-- ==== Sys2Proof/Decode.lean ====
section
/-! DEFINITION. The command that a word spells by the table's bits. No row of spec/opcode_table.json gives bits: every
command comes from outside as an event or as a transaction of the system link, so no word spells a command. -/

namespace Sys2Proof

/-- No row gives bits, so no word of any width spells a command (log 9). -/
def decodeTableWord (_nbits _w : Nat) : Option Instr := none

end Sys2Proof
end

