-- ==== Sys2Proof/Config.lean ====
section
/-! DEFINITION. What the part fixes for good (the depths of its queues and tables) and the free values: values the
manual leaves unstated after a step that goes on. -/

namespace Sys2Proof.Config

/-- Places of the own-request queue (R173). -/
def ownDepth : Nat := 32
/-- Requests at which the own-request queue takes the port ahead of the stream (R175). -/
def ownCrowded : Nat := 8
/-- Age in microseconds at which an own request takes the port ahead of the stream (R175). -/
def ownAged : Nat := 50
/-- Places of the pass-through stream (R174). -/
def streamDepth : Nat := 16
/-- Places of one accept queue (R159). -/
def acceptDepth : Nat := 4
/-- Places of the guest hold queue (R151). -/
def holdDepth : Nat := 8
/-- Places of the entry update queue (R6). -/
def entryDepth : Nat := 64
/-- Places of the changeover list, both parts together (R12). -/
def listDepth : Nat := 8192
/-- Places of the pool that the zone queues share (R64). -/
def poolDepth : Nat := 2048
/-- Pool used count below which a RESCAN walk begins or resumes (R66, R67). -/
def rescanBelow : Nat := 512
/-- Pool used count at which a RESCAN walk pauses (R67). -/
def rescanPause : Nat := 1536
/-- Records of a zone's late list (R89). -/
def lateDepth : Nat := 32
/-- Durations held in the history (R83). -/
def historyDepth : Nat := 8
/-- Forced visits in a row without an acknowledgment that make a zone DARK (R70). -/
def darkAfter : Nat := 4
/-- Passes of the slot table after which a probe of a DARK zone is due (R70). -/
def probeAfter : Nat := 16
/-- Lines of a basket that are tracked (R108). -/
def trackedLines : Nat := 128
/-- Records that fill a block (R134). -/
def blockRecords : Nat := 32
/-- Asserted samples after which the warning stands, and unasserted ones after which it clears (R183). -/
def warnAfter : Nat := 4
def clearAfter : Nat := 16
/-- Largest price (R31). -/
def maxPrice : Nat := 99999999
/-- Largest markdown, in basis points (R31). -/
def maxMarkdown : Nat := 9000
/-- Top of line amounts, basket totals and block totals (R38, R39). -/
def maxAmount : Nat := 999999999
/-- Top of the day totals of money (R39). -/
def maxMoney : Nat := 2 ^ 47 - 1
/-- Top of the day counts (R39). -/
def maxCount : Nat := 16777215
/-- Seconds of a day. -/
def daySeconds : Nat := 86400
/-- Microseconds of one sweep tick. -/
def tickMicros : Nat := 100
/-- Bytes of the charter that a load reads (R200), in own reads of 128 bytes (R189). -/
def charterBytes : Nat := 768
/-- Bytes of the address space. -/
def addressSpace : Nat := 2 ^ 32

/-- FREE VALUE (log 12): the tick of an acknowledgment that is matched before its visit has started; R87 counts ticks
from the visit start and states no value before it. The argument counts the free values drawn so far. -/
opaque freeTick : Nat → Nat

/-- FREE VALUE (log 17): the slot that a refused write into a ring's index area addressed; R47 and R102 record the
slot of a write and state none for a write that addresses no slot. -/
opaque freeSlot : Nat → Word32

/-- FREE VALUE (log 18): bytes 12 to 13 of a TILL_DAY record whose expected sequence is unknown; section 11.8 gives
byte 14 for that case and states no sequence. -/
opaque freeSequence : Nat → Word16

/-- FREE VALUE (log 25): a byte that a read forwarded in PASS asks for at or above 2^32; R175 has the read issued and states
nothing of the byte. -/
opaque freeByte : Nat → Byte

end Sys2Proof.Config
end

