-- ==== Sys2Proof/Machine/Types.lean ====
section
/-! DEFINITION. The data of the part: the codes of section 11.1 as inductive types, and the records that its units keep
(charter, price entry, changeover list, visit, till context, own requests, reports). Plain data only. -/

namespace Sys2Proof.Machine

/-! ## Link interface and window decoder -/

/-- The seven master classes (R158), in class-code order. -/
inductive Class where
  | admin | till | label | guest | link | lan | other
  deriving DecidableEq, Repr

/-- A right of a class in a window or in open memory (R160, R162). -/
inductive Right where
  | none | read | readWrite
  deriving DecidableEq, Repr

/-- Window kinds (R160); the first nine are the special kinds. -/
inductive WindowKind where
  | price | journal | upload | intake | labelTx | labelRx | control | report | status | guest | plain
  deriving DecidableEq, Repr

/-- One window of an accepted table (R160). -/
structure Window where
  kind   : WindowKind
  base   : Nat
  size   : Nat
  slots  : Nat
  rights : List Right
  deriving DecidableEq, Repr

/-- One slot of the sweep's slot table (R68). -/
structure SweepSlot where
  enabled : Bool
  zone    : Nat
  sync    : Bool
  quota   : Nat
  deriving DecidableEq, Repr

/-- The store phases (R178). -/
inductive Phase where
  | opening | trading | closing | night
  deriving DecidableEq, Repr

/-- A charter that has passed the check (section 11.10, R190). -/
structure Charter where
  revision      : Word32
  keep          : Bool
  resume        : Option Phase
  unit          : Nat
  itemCount     : Nat
  tillCount     : Nat
  retryLimit    : Nat
  trickle       : Nat
  averaging     : Nat
  labelDeadline : Nat
  grace         : Nat
  idleClose     : Nat
  syncMinutes   : Nat
  blankFraction : Nat
  settleFraction : Nat
  baseMin       : Nat
  baseMax       : Nat
  baseInitial   : Nat
  qualityMin    : Nat
  sweepFloor    : Nat
  tradingFloor  : Nat
  closingFloor  : Nat
  lowTrigger    : Nat
  highTrigger   : Nat
  budgets       : List Nat
  classes       : List Class
  openRights    : List Right
  slots         : List SweepSlot
  windows       : List Window
  deriving DecidableEq, Repr

/-- Why a transaction is refused (section 11.1, Refusal reason). -/
inductive Reason where
  | straddle | noRight | kind | phase | badAck | wrongSlot | busy | power | ringFull | holdList | badTill
  | notStart | outOfOrder | badCheck | broken | tooLong
  deriving DecidableEq, Repr

/-- Who refuses a transaction (R170). -/
inductive RefusalSource where
  | decoder | pacer | sweep | journal | intake
  deriving DecidableEq, Repr

/-- The first-refusal record (R171). -/
structure Refused where
  tag    : Fin 16
  cls    : Class
  dir    : Direction
  addr   : Word32
  len    : Nat
  source : RefusalSource
  reason : Reason
  deriving DecidableEq, Repr

/-- The answer a master gets on the system link: its tag, whether it is a REFUSED completion (R170), and the data of a
read. -/
structure Answer where
  tag     : Fin 16
  refused : Bool
  data    : List Byte
  deriving DecidableEq, Repr

/-- What a forwarded transaction is to the part when memory answers it (R175): a plain one, a till read to be
rewritten into the till view (R24), the journal record in hand (R103), the upper half of an intake block (R46). -/
inductive Role where
  | plain | tillView | journalRecord | intakeUpper
  deriving DecidableEq, Repr

/-- One transaction of the pass-through stream (R174). -/
structure StreamItem where
  tx   : Transaction
  role : Role
  deriving DecidableEq, Repr

/-- The units that place own requests (section 8.7). -/
inductive PartUnit where
  | book | intake | sweep | journal | control
  deriving DecidableEq, Repr

/-- What the completion of an own request means to its unit. labelTxIndex is the index write whose completion starts a
visit (R76), with the count it writes; reportIndex carries the ring's epoch and the value that becomes the published count (R196). -/
inductive Purpose where
  | entryRead | entryWrite | charterRead | controlRead | intakeRead
  | labelTxIndex (value : Word32)
  | reportIndex (epoch : Nat) (value : Word32)
  | silent
  deriving DecidableEq, Repr

/-- The content of an own request (R173): a read, a write of given bytes, an 8-byte write of both index words whose
other word carries that word's last value (R198), or the write of the result word (R188). -/
inductive OwnBody where
  | read (len : Nat)
  | write (data : List Byte)
  | indexWords (producer consumer : Option Word32)
  | resultWord (value : Word32)
  deriving DecidableEq, Repr

/-- One own request (R173): its unit, address, content, meaning, placing time and promotion (R176). -/
structure OwnRequest where
  unit     : PartUnit
  addr     : Nat
  body     : OwnBody
  purpose  : Purpose
  placedAt : Nat := 0
  promoted : Bool := false
  deriving DecidableEq, Repr

/-- A request that has taken the port; a read holds the data that memory found for it. -/
inductive Issued where
  | own (req : OwnRequest) (data : List Byte)
  | pass (item : StreamItem) (data : List Byte)
  deriving DecidableEq, Repr

/-! ## Price book unit -/

inductive ItemState where
  | unused | active | retired
  deriving DecidableEq, Repr

inductive LabelState where
  | noLabel | unconfirmed | due | sent | confirmed | fault
  deriving DecidableEq, Repr

/-- Effective kind; `unset` is code 0, which an entry without a pending tuple may hold (R27, R199). -/
inductive EffKind where
  | unset | now | atOpen | atTime
  deriving DecidableEq, Repr

/-- A price entry as taken by R199: the fields of section 1.1. -/
structure Entry where
  item        : ItemState
  label       : LabelState
  zone        : Nat
  weighed     : Bool
  noMarkdown  : Bool
  pending     : Bool
  waiting     : Bool
  forced      : Bool
  queued      : Bool
  base        : Nat
  markdown    : Nat
  floor       : Nat
  address     : Nat
  charge      : Nat
  previous    : Nat
  changeover  : Word32
  pBase       : Nat
  pMarkdown   : Nat
  pFloor      : Nat
  pAddress    : Nat
  pZone       : Nat
  pWeighed    : Bool
  pNoMarkdown : Bool
  pRetire     : Bool
  eff         : EffKind
  due         : Word32
  generation  : Byte
  target      : Nat
  sentPrice   : Nat
  sentGen     : Byte
  shown       : Nat
  retry       : Nat
  deriving DecidableEq, Repr

/-- One change of a STAGE request (R9). -/
inductive Change where
  | setPrice (base : Nat)
  | setMarkdown (markdown : Nat)
  | clearMarkdown
  | setFloor (floor : Nat)
  | setFlags (weighed noMarkdown : Bool)
  | setLabel (address zone : Nat)
  | retire
  deriving DecidableEq, Repr

/-- Who placed a STAGE request and hears its answer (R11): a record of the batch in hand, or the control record. -/
inductive StageSource where
  | intake (block record : Nat)
  | control
  deriving DecidableEq, Repr

/-- The mark of a late acknowledgment's request (R90): label address, generation, and whether the status was OK. -/
structure LateAck where
  address : Nat
  gen     : Byte
  ok      : Bool
  deriving DecidableEq, Repr

/-- The request kinds of the entry update queue (R7). -/
inductive ReqKind where
  | stage (change : Change) (eff : EffKind) (second : Nat) (source : StageSource) (clamped : Bool)
  | changeoverDue
  | priceCheck
  | queueJoin
  | frameSent
  | labelAck (late : Option LateAck)
  | labelUnanswered
  | labelReturn
  | labelResync (zone : Option Nat) (last : Bool)
  | keep
  deriving DecidableEq, Repr

/-- One request of the entry update queue (R6). -/
structure EntryReq where
  item : Nat
  kind : ReqKind
  deriving DecidableEq, Repr

/-- The six sources that place requests (section 1.2). -/
inductive Source where
  | intake | control | due | sweep | journal | keepWalk
  deriving DecidableEq, Repr

/-- One item of the changeover list (R12). The open group uses item and mark alone. -/
structure ListItem where
  item   : Nat
  key    : Word32
  due    : Word32
  marked : Bool
  deriving DecidableEq, Repr

/-- Answer of a PRICE_CHECK request (R8). -/
structure PriceAnswer where
  item       : ItemState
  weighed    : Bool
  charge     : Nat
  previous   : Nat
  changeover : Word32
  deriving DecidableEq, Repr

/-- A label frame as the sweep controller builds it from a FRAME_SENT answer (R22, R76). -/
structure FrameInfo where
  item      : Nat
  address   : Nat
  price     : Nat
  gen       : Byte
  withdrawn : Bool
  deriving DecidableEq, Repr

/-- One record of a zone's late list (R89). -/
structure LateRecord where
  item    : Nat
  address : Nat
  gen     : Byte
  age     : Nat
  deriving DecidableEq, Repr

/-! ## Reports and upload records -/

/-- Why an intake record is skipped (R58, R59). -/
inductive SkipReason where
  | unknownKind | badItem | badTime | badValue | listFull
  deriving DecidableEq, Repr

structure FirstSkip where
  block  : Nat
  record : Nat
  reason : SkipReason
  deriving DecidableEq, Repr

inductive ControlResult where
  | done | badRecord | refusedPhase | refusedBusy | refusedFull
  deriving DecidableEq, Repr

/-- The reports and their fields (R195, section 11.7). -/
inductive Report where
  | guardRefusal (r : Refused)
  | controlDone (tag : Word16) (kind : Byte) (result : ControlResult) (clamped : Bool)
  | charterLoaded (revision : Word32) (keep : Bool) (phase : Option Phase)
  | keepRepaired (repaired recomputed discarded demoted : Nat)
  | batchDone (batch : Word32) (urgent : Bool) (blocks applied skipped clamped listFull : Nat) (first : Option FirstSkip)
  | batchBroken (batch : Word32) (reason : Reason) (claimed blocks : Nat)
  | superseded (old : Word32) (blocks : Nat) (new : Word32)
  | forcedChangeover (item : Nat) (label : LabelState) (previous charge shown : Nat)
  | priceMismatch (till : Nat) (seq : Word16) (item unitPrice charge previous : Nat) (changeover : Word32)
  | labelFault (item zone address retry : Nat)
  | zoneDark (zone : Nat)
  | zoneLit (zone : Nat)
  | powerWarning
  | powerClear
  | phaseChanged (old new : Option Phase) (day : Word16) (clock : Nat)
  | daySummaryReady (day : Word16) (count : Word32)
  deriving DecidableEq, Repr

/-- The causes of a block close with START (R133). -/
structure BlockFlags where
  full    : Bool := false
  signOff : Bool := false
  gap     : Bool := false
  idle    : Bool := false
  reset   : Bool := false
  power   : Bool := false
  night   : Bool := false
  start   : Bool := false
  deriving DecidableEq, Repr

/-- The day totals of R107. -/
structure DayTotals where
  sales       : Nat := 0
  refunds     : Nat := 0
  baskets     : Nat := 0
  refundCount : Nat := 0
  cancelled   : Nat := 0
  abandoned   : Nat := 0
  voids       : Nat := 0
  noSales     : Nat := 0
  mismatches  : Nat := 0
  outOfState  : Nat := 0
  lineFaults  : Nat := 0
  gaps        : Nat := 0
  duplicates  : Nat := 0
  deriving DecidableEq, Repr

/-- The upload records (R133, R142, R143). -/
inductive UploadRecord where
  | block (till : Nat) (day : Word16) (second : Nat) (check : Word32) (first last : Word16) (count baskets : Nat)
      (flags : BlockFlags) (sales refunds : Nat)
  | tillDay (till : Nat) (day : Word16) (second : Nat) (check : Word32) (seq : Word16) (known : Bool) (totals : DayTotals)
  | branchDay (tills : Nat) (day : Word16) (second : Nat) (totals : DayTotals)
  deriving DecidableEq, Repr

/-- What is handed on when a request leaves the entry update queue (R7). -/
inductive LeaveAct where
  | report (r : Report)
  | staged (source : StageSource) (clamped listFull : Bool)
  | price (a : PriceAnswer)
  | join (item zone : Nat)
  | late (zone : Nat) (r : LateRecord)
  | close (item : Nat)
  | frame (item : Nat) (f : Option FrameInfo)
  | resynced (last : Bool)
  | kept
  deriving DecidableEq, Repr

/-- How far the request at the head of the entry update queue is (R7). `freshWrite` is a KEEP request that writes without
reading first (R27). -/
inductive HeadPhase where
  | notBegun
  | reading
  | freshWrite
  | writing (acts : List LeaveAct)
  deriving DecidableEq, Repr

/-! ## Intake unit -/

inductive BatchState where
  | idle | receiving | complete | applying | broken
  deriving DecidableEq, Repr

/-- The header fields of an intake block (section 11.5). -/
structure BlockHeader where
  batch  : Word32
  block  : Nat
  count  : Nat
  ends   : Bool
  urgent : Bool
  check  : Word32
  deriving DecidableEq, Repr

/-- The outcome a lower half's header would have if its block were accepted (R44): the next block of the batch in hand,
the start of a batch in IDLE or BROKEN, or a start that supersedes the batch in hand (R49 to R52). -/
inductive BlockOutcome where
  | continues | starts | supersedes
  deriving DecidableEq, Repr

/-- The half-block record (R44). -/
structure HalfBlock where
  slot    : Nat
  header  : BlockHeader
  running : Word32
  outcome : BlockOutcome
  deriving DecidableEq, Repr

/-- The last intake refusal record (R47). -/
structure IntakeRefusal where
  reason : Reason
  slot   : Word32
  block  : Nat
  batch  : Word32
  deriving DecidableEq, Repr

/-! ## Sweep controller -/

inductive SweepState where
  | stopped | idle | txWait | blank | listen | settle | manualWait
  deriving DecidableEq, Repr

inductive VisitKind where
  | price | probe | sync
  deriving DecidableEq, Repr

inductive OutStatus where
  | opened | answeredFault | closing
  deriving DecidableEq, Repr

/-- One record of the outstanding table (R77). -/
structure OutRecord where
  item    : Nat
  address : Nat
  gen     : Byte
  status  : OutStatus
  deriving DecidableEq, Repr

/-- An item taken for the visit whose FRAME_SENT request has not left the queue (R75), and whether R21 released it. -/
structure TakenItem where
  item     : Nat
  released : Bool
  deriving DecidableEq, Repr

/-- How far a visit is: items not yet taken, frames being built, index write placed, started (R75, R76). -/
inductive VisitStage where
  | selected | building | publishing | onAir
  deriving DecidableEq, Repr

/-- How a started visit ends: not yet; in SETTLE with the settle interval running; settle interval run; forced (R81);
closed at once with no match (R79). -/
inductive Ending where
  | running | settling | settled | forced | silent
  deriving DecidableEq, Repr

/-- The visit in hand (R75 to R81, R95). -/
structure Visit where
  slot      : Nat
  zone      : Nat
  kind      : VisitKind
  stage     : VisitStage := .selected
  taken     : List TakenItem := []
  frames    : List FrameInfo := []
  table     : List OutRecord := []
  start     : Nat := 0
  base      : Nat := 0
  blank     : Nat := 0
  settle    : Nat := 0
  isMatched : Bool := false
  lastAck   : Nat := 0
  ending    : Ending := .running
  cancelled : Bool := false
  deriving DecidableEq, Repr

/-- One zone record (R69); the late list holds its newest record first. -/
structure ZoneRecord where
  dark        : Bool := false
  emptyForced : Nat := 0
  lastSync    : Option Word32 := none
  probeCycle  : Nat := 0
  late        : List LateRecord := []
  deriving DecidableEq, Repr

/-- A RESCAN walk that has begun (R67): its start point and whether it is paused. -/
structure RescanWalk where
  start  : Nat
  paused : Bool
  deriving DecidableEq, Repr

/-- A zone resync in hand (R94): its zone and the next item. -/
structure ZoneResync where
  zone : Nat
  next : Nat
  deriving DecidableEq, Repr

/-! ## Journal unit -/

inductive TillState where
  | closed | ready | basket
  deriving DecidableEq, Repr

/-- One tracked line of a basket (R108). -/
structure BasketLine where
  number : Nat
  item   : Nat
  amount : Nat
  voided : Bool
  deriving DecidableEq, Repr

/-- The open block of a till (R106, R132). -/
structure OpenBlock where
  first   : Word16 := 0
  last    : Word16 := 0
  count   : Nat := 0
  sales   : Nat := 0
  refunds : Nat := 0
  baskets : Nat := 0
  start   : Bool := false
  check   : Word32 := 0
  day     : Word16 := 0
  deriving DecidableEq, Repr

/-- A till context (R106); the seed mark is the START flag for the next block (R130). -/
structure TillContext where
  state      : TillState := .closed
  expected   : Option Word16 := none
  signedOn   : Bool := false
  basket     : Nat := 0
  lines      : Nat := 0
  lineList   : List BasketLine := []
  totals     : DayTotals := {}
  acc        : Word32 := 0xFFFFFFFF
  seedMark   : Bool := true
  block      : OpenBlock := {}
  lastSecond : Word32 := 0
  deriving DecidableEq, Repr

/-- The eight journal record kinds (section 11.1). -/
inductive JournalKind where
  | signOn | item | voidLine | basketTotal | basketCancel | refund | noSale | signOff
  deriving DecidableEq, Repr

/-- Disposition flags of a record (R105), in the bit order of section 11.3. -/
structure Disposition where
  seqStart       : Bool := false
  duplicate      : Bool := false
  gapBefore      : Bool := false
  lineFault      : Bool := false
  outOfState     : Bool := false
  voidRefused    : Bool := false
  priceMismatch  : Bool := false
  notListed      : Bool := false
  amountMismatch : Bool := false
  totalMismatch  : Bool := false
  untracked      : Bool := false
  saturated      : Bool := false
  deriving DecidableEq, Repr

/-- How far the record in hand is (R103): waiting for its PRICE_CHECK, ready to be forwarded with its stamp, forwarded. -/
inductive HandStage where
  | pricing | ready | sent
  deriving DecidableEq, Repr

/-- The record in hand (R103): the write (with its stamp once it is ready), the class of the accept queue at whose head it
stands, its arrival, its findings, the open block as it stood before the record (R132), and what follows when it leaves
hand. -/
structure JournalHand where
  tx      : Transaction
  queue   : Class := .till
  clock   : Nat
  day     : Word16
  mono    : Word32
  phase   : Option Phase
  flags   : Disposition := {}
  amount  : Nat := 0
  counted : Option JournalKind := none
  before  : OpenBlock := {}
  stage   : HandStage := .pricing
  report  : Option Report := none
  closes  : BlockFlags := {}
  deriving DecidableEq, Repr

/-- Work on till contexts that is due (R104). -/
inductive JournalWork where
  | idleClose | powerClose | nightEntry | newDay | tillReset (till : Nat)
  deriving DecidableEq, Repr

/-- The last journal refusal record (R102). -/
structure JournalRefusal where
  reason : Reason
  slot   : Word32
  till   : Nat
  deriving DecidableEq, Repr

/-! ## Control unit -/

inductive PartState where
  | pass | loading | active
  deriving DecidableEq, Repr

/-- The control record in hand (R193): `kind` and `tag` once its read has returned, its result when known. -/
structure ControlRecord where
  fetched : Bool := false
  tag     : Word16 := 0
  kind    : Byte := 0
  result  : Option ControlResult := none
  clamped : Bool := false
  deriving DecidableEq, Repr

/-- The stages of a load (R189): reading, checked and awaiting the walk, walking, walked, and accepted, while the requests of
stage 4 that precede ACTIVE wait for room. -/
inductive LoadStage where
  | reading | checked | walking | walked | accepted
  deriving DecidableEq, Repr

/-- The load in progress (R189, R28): the charter read, the KEEP requests performed, the second of the load and the four
counts of the walk; `warned`, that stage 4 has written its POWER_WARNING report. The walk cursor stands in the price book unit (R29). -/
structure Load where
  stage      : LoadStage := .reading
  charter    : Option Charter := none
  performed  : Nat := 0
  second     : Word32 := 0
  repaired   : Nat := 0
  recomputed : Nat := 0
  discarded  : Nat := 0
  demoted    : Nat := 0
  warned     : Bool := false
  deriving DecidableEq, Repr

/-! ## Work that follows a request (R6, R173) -/

/-- What a unit has still to do once a request of its own that found its queue full is placed: the request first, then the
work that follows it, in order (R6, R173, log 7). -/
inductive Task where
  /-- Place an own request (R173). -/
  | own (r : OwnRequest)
  /-- Place a request into the entry update queue (R6). -/
  | entry (source : Source) (r : EntryReq)
  /-- Control unit: write a report that was handed to it (R195). -/
  | report (r : Report)
  /-- Control unit: read the next control record (R193). -/
  | fetch
  /-- Control unit: take a write of 1 to the load word (R188). -/
  | loadWord
  /-- Control unit: count a report whose slot write is placed, and place its producer index write (R195). -/
  | countReport
  /-- Control unit: end the load of a refused charter (R189). -/
  | endLoad
  /-- Control unit: accept the new charter, write the POWER_WARNING report of a first load, and go ACTIVE (R189). -/
  | accept
  | loadWarning
  | activate
  /-- Intake unit: examine the apply gate (R55). -/
  | gate
  /-- Intake unit: hear the answer of a STAGE request (R59). -/
  | staged (block record : Nat) (clamped listFull : Bool)
  /-- Intake unit: end the apply of a batch of so many blocks (R60). -/
  | batchDone (blocks : Nat)
  /-- Intake unit: take a BATCH_DISCARD record, and be IDLE once its index write is placed (R61). -/
  | discard
  | discarded
  /-- Sweep controller: count the frames and place their index write (R76). -/
  | frameIndex (n : Nat)
  /-- Sweep controller: close one record of the outstanding table with a request of a kind (R80, R81, R95). -/
  | closing (item : Nat) (kind : ReqKind)
  /-- Sweep controller: end LISTEN (R79). -/
  | listen
  /-- Sweep controller: end a cancel (R95). -/
  | finishCancel
  /-- Sweep controller: a selection of an IDLE sweep (R72). -/
  | wake
  /-- Sweep controller: go on with a visit that waits for LABEL_TX (R75). -/
  | retry
  /-- Sweep controller: examine an acknowledgment (R86). -/
  | ack (data : List Byte)
  /-- Sweep controller: take a SWEEP_MODE, a STEP_SWEEP or a LABEL_RESYNC record (R92 to R94). -/
  | mode (code : Nat)
  | stepSweep
  | resync (selector n : Nat)
  /-- Journal unit: hand an upload record on, count one placed, write the producer index, and hand on what follows (R138,
  R143). -/
  | upload (r : UploadRecord)
  | countUpload
  | uploadIndex
  | summary (r : UploadRecord)
  /-- Journal unit: drain the hold list, move one record of it, and report a summary that was moved (R138, R143). -/
  | drain
  | drainOne
  | handReport (r : Report)
  /-- Journal unit: close the open block of a till (R133). -/
  | close (till : Nat) (cause : BlockFlags)
  /-- Journal unit: go on with the record in hand: take it, stamp it, let it leave hand (R103). -/
  | take
  | stamp
  | leave
  /-- Journal unit: take the work that is due (R104). -/
  | works
  /-- Journal unit: close a till whose block a TILL_RESET has closed (R126). -/
  | resetDone (till : Nat)
  /-- Journal unit: hand on the summaries of a day, as of NIGHT entry (R141). -/
  | summaries (day : Word16) (clock : Nat)
  deriving DecidableEq, Repr

/-- The unit that a source of the entry update queue belongs to. -/
def Source.unit : Source → PartUnit
  | .intake => .intake
  | .control => .control
  | .due => .book
  | .sweep => .sweep
  | .journal => .journal
  | .keepWalk => .book

end Sys2Proof.Machine
end

