-- ==== Sys2Proof/Machine/Flags.lean ====
section
/-! DEFINITION. Flag words and check values: the CRC-32 register of R129 and the three checks made with it (R5, R46,
R131), the disposition flags (section 11.3), the block flags (section 11.8) and the sums that stop at their top (R39). -/

namespace Sys2Proof.Machine

/-- One of the eight repetitions of R129. -/
def crcShift (r : Word32) : Word32 :=
  if r.getLsbD 0 then (r >>> 1) ^^^ 0xEDB88320 else r >>> 1

def crcShifts : Nat → Word32 → Word32
  | 0, r => r
  | n + 1, r => crcShifts n (crcShift r)

/-- Feed one byte into the register (R129). -/
def crcByte (r : Word32) (b : Byte) : Word32 :=
  crcShifts 8 (r ^^^ b.setWidth 32)

/-- Feed a run of bytes in ascending address order (R129). -/
def crcFeed (r : Word32) (bs : List Byte) : Word32 :=
  bs.foldl crcByte r

/-- The seed of every check (R5, R46, R130). -/
def crcSeed : Word32 := 0xFFFFFFFF

/-- The entry check byte over the other 63 bytes of an entry (R5). -/
def entryCheck (body : List Byte) : Byte :=
  (~~~ crcFeed crcSeed body).setWidth 8

/-- Bytes 8 to 11 of an intake block, the check field, taken as zero (R46). -/
def withoutCheckField (lower : List Byte) : List Byte :=
  lower.take 8 ++ List.replicate 4 0 ++ lower.drop 12

/-- The number whose bits, lowest first, are the flags given. -/
def flagBits : List Bool → Nat
  | [] => 0
  | b :: bs => b.toNat + 2 * flagBits bs

/-- Disposition flag word of a stamp (section 11.3). -/
def Disposition.word (d : Disposition) : Nat :=
  flagBits [d.seqStart, d.duplicate, d.gapBefore, d.lineFault, d.outOfState, d.voidRefused, d.priceMismatch,
    d.notListed, d.amountMismatch, d.totalMismatch, d.untracked, d.saturated]

/-- Block flag word of a block record (section 11.8). -/
def BlockFlags.word (f : BlockFlags) : Nat :=
  flagBits [f.full, f.signOff, f.gap, f.idle, f.reset, f.power, f.night, f.start]

/-- A close has a cause (R133); START alone is none. -/
def BlockFlags.anyCause (f : BlockFlags) : Bool :=
  f.full || f.signOff || f.gap || f.idle || f.reset || f.power || f.night

/-- Addition that stays at the top of the total's range (R39). -/
def addUpTo (top a b : Nat) : Nat := min top (a + b)

/-- A count that stops at its top (R39). -/
def countUp (top a : Nat) : Nat := min top (a + 1)

end Sys2Proof.Machine
end

