-- ==== Sys2Proof/Machine/State.lean ====
section
/-! DEFINITION. The state of the part, every piece that the manual names, each unit's piece with its reset values; and
the two ways in which a step can stop. -/

namespace Sys2Proof.Machine

/-- Why the machine stops: for no reason, since the manual lets the part go on after every command. -/
inductive Fault where
  deriving DecidableEq, Repr

/-- Why a command has no meaning. -/
inductive Refusal where
  /-- Raised by exec alone, for a command that has no meaning yet. Safe. No command of this model is in this case. -/
  | notModelled (mnemonic : String)
  deriving DecidableEq, Repr

/-- Branch memory: the bytes that differ from what an unlisted address reads as, by rising address (log 1, 2). -/
abbrev Memory := List Host.Cell

/-- Link interface (R158 to R177). `ownWait` names the units that wait for room in the own-request queue, longest first;
`tasks` is what the units that wait, there or for the entry update queue, have still to do, each in order (R6, R173). -/
structure LinkState where
  waiting      : List Transaction
  passQueue    : List Transaction
  accept       : Vector (List Transaction) 7
  hold         : List Transaction
  stream       : List StreamItem
  streamWait   : List (Option Class)
  own          : List OwnRequest
  ownWait      : List PartUnit
  tasks        : List (PartUnit × Task)
  issued       : List Issued
  answers      : List Answer
  refusals     : Nat
  firstRefusal : Option Refused
  deriving DecidableEq, Repr

/-- R157, R170, R171, R173, R177. -/
def LinkState.reset : LinkState where
  waiting := []
  passQueue := []
  accept := Vector.replicate 7 []
  hold := []
  stream := []
  streamWait := []
  own := []
  ownWait := []
  tasks := []
  issued := []
  answers := []
  refusals := 0
  firstRefusal := none

/-- Price book unit: the entry update queue, the changeover list and the walk cursor (R6, R7, R12, R13, R29). `wait` names the
sources that wait for room in the queue, longest first. -/
structure BookState where
  queue     : List EntryReq
  headPhase : HeadPhase
  wait      : List Source
  timed     : List ListItem
  openGroup : List ListItem
  dueTo     : Option Word32
  cursor    : Nat
  deriving DecidableEq, Repr

/-- R6, R12, R29. -/
def BookState.reset : BookState where
  queue := []
  headPhase := .notBegun
  wait := []
  timed := []
  openGroup := []
  dueTo := none
  cursor := 0

/-- Intake unit (R43 to R60). `block` is the block read back while applying; `next` the next record of it to hand on;
`awaiting` the STAGE requests not yet answered; `handedOn` the records skipped or answered. `accepting` has one place for each
upper half forwarded and not yet completed, in that order: the block whose transition its completion makes, or none when a
charter has been taken since (R46, R63). -/
structure IntakeState where
  state        : BatchState
  producer     : Word32
  consumer     : Word32
  batch        : Word32
  urgent       : Bool
  brokenReason : Reason
  half         : Option HalfBlock
  accepting    : List (Option HalfBlock)
  applyBlock   : Nat
  block        : Option (List Byte)
  next         : Nat
  awaiting     : Nat
  handedOn     : Nat
  applied      : Nat
  skipped      : Nat
  clamped      : Nat
  listFull     : Nat
  firstSkip    : Option FirstSkip
  lastRefusal  : Option IntakeRefusal
  deriving DecidableEq, Repr

/-- R47, R62; the batch number, URGENT, the broken reason and the apply position after reset are log 10. -/
def IntakeState.reset : IntakeState where
  state := .idle
  producer := 0
  consumer := 0
  batch := 0
  urgent := false
  brokenReason := .badCheck
  half := none
  accepting := []
  applyBlock := 0
  block := none
  next := 0
  awaiting := 0
  handedOn := 0
  applied := 0
  skipped := 0
  clamped := 0
  listFull := 0
  firstSkip := none
  lastRefusal := none

/-- Sweep controller (R64 to R98). -/
structure SweepUnit where
  state      : SweepState
  manual     : Bool
  slots      : List SweepSlot
  current    : Nat
  zones      : Vector ZoneRecord 12
  queues     : Vector (List Nat) 12
  poolUsed   : Nat
  rescan     : Bool
  scanCursor : Nat
  scan       : Option RescanWalk
  visit      : Option Visit
  history    : List Nat
  base       : Nat
  blank      : Nat
  settle     : Nat
  txProducer : Word32
  txConsumer : Word32
  resync     : Option ZoneResync
  deriving DecidableEq, Repr

/-- R68, R69, R74, R83, R84, R98. -/
def SweepUnit.reset : SweepUnit where
  state := .stopped
  manual := false
  slots := List.replicate 15 { enabled := false, zone := 0, sync := false, quota := 0 }
  current := 0
  zones := Vector.replicate 12 {}
  queues := Vector.replicate 12 []
  poolUsed := 0
  rescan := false
  scanCursor := 0
  scan := none
  visit := none
  history := []
  base := 0
  blank := 0
  settle := 0
  txProducer := 0
  txConsumer := 0
  resync := none

/-- Journal unit (R99 to R145). -/
structure JournalState where
  producer    : Word32
  consumer    : Word32
  upProducer  : Word32
  upConsumer  : Word32
  holdList    : List UploadRecord
  tills       : Vector TillContext 48
  hand        : Option JournalHand
  works       : List JournalWork
  lastRefusal : Option JournalRefusal
  deriving DecidableEq, Repr

/-- R99, R102, R106, R128, R145. -/
def JournalState.reset : JournalState where
  producer := 0
  consumer := 0
  upProducer := 0
  upConsumer := 0
  holdList := []
  tills := Vector.replicate 48 {}
  hand := none
  works := []
  lastRefusal := none

/-- Guest pacer (R148, R149, R154); its hold queue stands in the link interface. -/
structure GuestState where
  level       : Nat
  periodBytes : Nat
  floor       : Nat
  deriving DecidableEq, Repr

/-- R157; the floor after reset is log 10. -/
def GuestState.reset : GuestState where
  level := 7
  periodBytes := 0
  floor := 7

/-- Phase unit (R178 to R186). `handoffs` are warnings (true) and clearings (false) not yet handed to the units. -/
structure PhaseState where
  phase    : Option Phase
  clock    : Nat
  day      : Word16
  mono     : Word32
  warning  : Bool
  runCount : Nat
  handoffs : List Bool
  deriving DecidableEq, Repr

/-- R186. -/
def PhaseState.reset : PhaseState where
  phase := none
  clock := 0
  day := 0
  mono := 0
  warning := false
  runCount := 0
  handoffs := []

/-- Control unit (R187 to R197). -/
structure ControlState where
  part        : PartState
  load        : Option Load
  ctlProducer : Word32
  ctlConsumer : Word32
  record      : Option ControlRecord
  repProducer : Word32
  repConsumer : Word32
  published   : Word32
  epoch       : Nat
  lost        : Nat
  statusSeq   : Word32
  deriving DecidableEq, Repr

/-- R187. -/
def ControlState.reset : ControlState where
  part := .pass
  load := none
  ctlProducer := 0
  ctlConsumer := 0
  record := none
  repProducer := 0
  repConsumer := 0
  published := 0
  epoch := 0
  lost := 0
  statusSeq := 0

/-- The machine: the units of the part, the charter in force, branch memory, the straps, and the model's own fields
(`micros`, `freeCount`, `pending`). -/
structure State where
  link      : LinkState
  book      : BookState
  intake    : IntakeState
  sweep     : SweepUnit
  journal   : JournalState
  guest     : GuestState
  phase     : PhaseState
  control   : ControlState
  charter   : Option Charter
  mem       : Memory
  chb       : Byte
  inReset   : Bool
  micros    : Nat
  freeCount : Nat
  pending   : List Instr
  deriving DecidableEq, Repr

/-- The machine right after the rise of RESET_N with the straps at 0 and nothing written in memory (R177, log 2, 10). -/
def State.reset : State where
  link := LinkState.reset
  book := BookState.reset
  intake := IntakeState.reset
  sweep := SweepUnit.reset
  journal := JournalState.reset
  guest := GuestState.reset
  phase := PhaseState.reset
  control := ControlState.reset
  charter := none
  mem := []
  chb := 0
  inReset := false
  micros := 0
  freeCount := 0
  pending := []

end Sys2Proof.Machine
end

