-- ==== Sys2Proof/Machine/Operands.lean ====
section
/-! DEFINITION. The byte layouts of chapter Record Layouts: fields of transactions and records as read, and records as
written. Every field of more than one byte stands least significant byte first. -/

namespace Sys2Proof.Machine

/-! ## Byte order -/

/-- The low `n` bytes of a number, least significant first. -/
def toLe : Nat → Nat → List Byte
  | 0, _ => []
  | n + 1, v => BitVec.ofNat 8 v :: toLe n (v / 256)

/-- The number that bytes spell, least significant first. -/
def ofLe : List Byte → Nat
  | [] => 0
  | b :: bs => b.toNat + 256 * ofLe bs

/-- The `n`-byte field at offset `off`. -/
def field (bs : List Byte) (off n : Nat) : Nat := ofLe ((bs.drop off).take n)

def byteAt (bs : List Byte) (i : Nat) : Nat := (bs.getD i 0).toNat

def bitAt (bs : List Byte) (i k : Nat) : Bool := (byteAt bs i).testBit k

/-- Zero bytes after a record up to its length. -/
def padTo (n : Nat) (bs : List Byte) : List Byte := (bs ++ List.replicate n 0).take n

/-! ## Codes (section 11.1) -/

def ItemState.code : ItemState → Nat
  | .unused => 0 | .active => 1 | .retired => 2

/-- An item state above 2 is taken as UNUSED (R199). -/
def ItemState.ofCode : Nat → ItemState
  | 1 => .active | 2 => .retired | _ => .unused

def LabelState.code : LabelState → Nat
  | .noLabel => 0 | .unconfirmed => 1 | .due => 2 | .sent => 3 | .confirmed => 4 | .fault => 5

/-- The label state is taken from the live address: 0 gives NO_LABEL, and a nonzero address with code NO_LABEL or above 5
gives UNCONFIRMED (R199). -/
def LabelState.ofCode (address code : Nat) : LabelState :=
  if address = 0 then .noLabel
  else match code with
    | 2 => .due | 3 => .sent | 4 => .confirmed | 5 => .fault | _ => .unconfirmed

def EffKind.code : EffKind → Nat
  | .unset => 0 | .now => 1 | .atOpen => 2 | .atTime => 3

def EffKind.ofCode : Nat → EffKind
  | 1 => .now | 2 => .atOpen | 3 => .atTime | _ => .unset

def Phase.code : Phase → Nat
  | .opening => 1 | .trading => 2 | .closing => 3 | .night => 4

def Phase.ofCode : Nat → Option Phase
  | 1 => some .opening | 2 => some .trading | 3 => some .closing | 4 => some .night | _ => none

def phaseCode : Option Phase → Nat
  | none => 0 | some p => p.code

def PartState.code : PartState → Nat
  | .pass => 0 | .loading => 1 | .active => 2

def Class.code : Class → Nat
  | .admin => 1 | .till => 2 | .label => 3 | .guest => 4 | .link => 5 | .lan => 6 | .other => 7

def Class.ofCode : Nat → Option Class
  | 1 => some .admin | 2 => some .till | 3 => some .label | 4 => some .guest | 5 => some .link | 6 => some .lan
  | 7 => some .other | _ => none

/-- Place of a class's accept queue and rights entry: class-code order. -/
def Class.index (c : Class) : Nat := c.code - 1

def Right.ofCode : Nat → Right
  | 1 => .read | 2 => .readWrite | _ => .none

def WindowKind.ofCode : Nat → Option WindowKind
  | 1 => some .price | 2 => some .journal | 3 => some .upload | 4 => some .intake | 5 => some .labelTx
  | 6 => some .labelRx | 7 => some .control | 8 => some .report | 9 => some .status | 10 => some .guest
  | 11 => some .plain | _ => none

def JournalKind.ofCode : Nat → Option JournalKind
  | 1 => some .signOn | 2 => some .item | 3 => some .voidLine | 4 => some .basketTotal | 5 => some .basketCancel
  | 6 => some .refund | 7 => some .noSale | 8 => some .signOff | _ => none

def ControlResult.code : ControlResult → Nat
  | .done => 1 | .badRecord => 2 | .refusedPhase => 3 | .refusedBusy => 4 | .refusedFull => 5

def Reason.code : Reason → Nat
  | .straddle => 1 | .noRight => 2 | .kind => 3 | .phase => 4 | .badAck => 5 | .wrongSlot => 6 | .busy => 7
  | .power => 8 | .ringFull => 9 | .holdList => 10 | .badTill => 11 | .notStart => 12 | .outOfOrder => 13
  | .badCheck => 14 | .broken => 15 | .tooLong => 16

def RefusalSource.code : RefusalSource → Nat
  | .decoder => 1 | .pacer => 2 | .sweep => 3 | .journal => 4 | .intake => 5

def SkipReason.code : SkipReason → Nat
  | .unknownKind => 1 | .badItem => 2 | .badTime => 3 | .badValue => 4 | .listFull => 5

def SweepState.code : SweepState → Nat
  | .stopped => 0 | .idle => 1 | .txWait => 2 | .blank => 3 | .listen => 4 | .settle => 5 | .manualWait => 6

def BatchState.code : BatchState → Nat
  | .idle => 0 | .receiving => 1 | .complete => 2 | .applying => 3 | .broken => 4

def directionCode : Direction → Nat
  | .read => 0 | .write => 1

/-! ## Transactions -/

/-- The index words a write to a ring names (R163): 8 bytes at the window base with exactly the producer word, exactly
the consumer word or both enabled. A mask that enables part of a word names none. -/
inductive IndexTarget where
  | producer | consumer | both
  deriving DecidableEq, Repr

end Sys2Proof.Machine

namespace Sys2Proof

open Sys2Proof.Machine

/-- The address of the first byte. -/
def Transaction.start (tx : Transaction) : Nat := tx.addr.toNat

/-- A write with every byte of its mask enabled. -/
def Transaction.fullWrite (tx : Transaction) (n : Nat) : Bool :=
  tx.dir == .write && tx.len == n && tx.mask.all id

/-- The bytes from `off` on, `n` of them, are all enabled. -/
def Transaction.enables (tx : Transaction) (off n : Nat) : Bool :=
  decide (off + n ≤ tx.mask.length) && ((tx.mask.drop off).take n).all id

/-- Some byte of those from `off` on, `n` of them, is enabled. -/
def Transaction.touches (tx : Transaction) (off n : Nat) : Bool :=
  ((tx.mask.drop off).take n).any id

/-- The value written to the 32-bit word at `address`, when all four of its bytes are enabled (R188). -/
def Transaction.wordWritten (tx : Transaction) (address : Nat) : Option Word32 :=
  if tx.dir = .write ∧ tx.start ≤ address ∧ tx.enables (address - tx.start) 4 then
    some (BitVec.ofNat 32 (field tx.data (address - tx.start) 4))
  else none

/-- The index words the write names, if any (R163). -/
def Transaction.indexTarget (tx : Transaction) (base : Nat) : Option IndexTarget :=
  if tx.dir = .write ∧ tx.len = 8 ∧ tx.start = base then
    if tx.enables 0 8 then some .both
    else if tx.enables 0 4 && !tx.touches 4 4 then some .producer
    else if tx.enables 4 4 && !tx.touches 0 4 then some .consumer
    else none
  else none

/-- The consumer word a write carries, and the producer word (section 11.2). -/
def Transaction.consumerWord (tx : Transaction) : Word32 := BitVec.ofNat 32 (field tx.data 4 4)
def Transaction.producerWord (tx : Transaction) : Word32 := BitVec.ofNat 32 (field tx.data 0 4)

end Sys2Proof

namespace Sys2Proof.Machine

/-- Slot `k` of a ring with slots of `size` bytes begins here (section 11.2). -/
def slotAddr (base size k : Nat) : Nat := base + 64 + k * size

/-- The slot of ring window `w` that starts at `address`, when one does. -/
def slotStart (w : Window) (size address : Nat) : Option Nat :=
  if w.base + 64 ≤ address ∧ (address - w.base - 64) % size = 0 ∧ (address - w.base - 64) / size < w.slots then
    some ((address - w.base - 64) / size)
  else none

/-! ## Journal slot (section 11.3) -/

def journalTill (d : List Byte) : Nat := byteAt d 0
def journalKind (d : List Byte) : Option JournalKind := JournalKind.ofCode (byteAt d 1)
def journalSeq (d : List Byte) : Word16 := BitVec.ofNat 16 (field d 2 2)
def journalItem (d : List Byte) : Nat := field d 4 3
def journalLineStatus (d : List Byte) : Nat := byteAt d 7
def journalVoided (d : List Byte) : Nat := byteAt d 8
def journalQuantity (d : List Byte) : Nat := field d 9 3
def journalUnitPrice (d : List Byte) : Nat := field d 12 4
def journalTillAmount (d : List Byte) : Nat := field d 16 4

/-- The stamp of R105, bytes 48 to 63 of the slot. -/
def stampBytes (clock : Nat) (day : Word16) (flags : Disposition) (amount : Nat) (check : Word32) : List Byte :=
  toLe 4 clock ++ toLe 2 day.toNat ++ toLe 2 flags.word ++ toLe 4 amount ++ toLe 4 check.toNat

/-! ## Price entry and till view (section 11.4) -/

/-- The first 63 bytes of an entry as written, every zero byte and unused bit 0 (R199). -/
def Entry.body (e : Entry) : List Byte :=
  toLe 1 e.item.code ++
  toLe 1 (flagBits [e.weighed, e.noMarkdown, e.pending, e.waiting, e.forced, e.queued]) ++
  toLe 4 e.charge ++ toLe 4 e.base ++ toLe 2 e.markdown ++ [e.generation] ++
  toLe 1 (e.label.code + 16 * e.retry) ++ toLe 1 e.zone ++ [0] ++
  toLe 4 e.floor ++ toLe 4 e.previous ++ toLe 4 e.changeover.toNat ++ toLe 3 e.address ++ [e.sentGen] ++
  toLe 4 e.pBase ++ toLe 4 e.pFloor ++ toLe 2 e.pMarkdown ++ toLe 3 e.pAddress ++ toLe 1 e.pZone ++
  toLe 1 (flagBits [e.pWeighed, e.pNoMarkdown, e.pRetire, false] + 16 * e.eff.code) ++
  toLe 4 e.due.toNat ++ toLe 4 e.target ++ toLe 4 e.sentPrice ++ toLe 4 e.shown

/-- An entry as the price book unit writes it, with its check byte computed afresh (R5). -/
def Entry.bytes (e : Entry) : List Byte := e.body ++ [entryCheck e.body]

/-- The check byte of an entry as read is valid (R5). -/
def entryCheckOk (b : List Byte) : Bool := entryCheck (b.take 63) == b.getD 63 0

/-- A zone above 11 is taken as zone 0 (R199; the pending zone alike, log 28). -/
def zoneTaken (z : Nat) : Nat := if z > 11 then 0 else z

/-- An entry as the price book unit takes what it reads (R199). -/
def Entry.take (retryLimit : Nat) (b : List Byte) : Entry where
  item := ItemState.ofCode (byteAt b 0)
  label := LabelState.ofCode (field b 28 3) (byteAt b 13 % 8)
  zone := zoneTaken (byteAt b 14)
  weighed := bitAt b 1 0
  noMarkdown := bitAt b 1 1
  pending := bitAt b 1 2
  waiting := bitAt b 1 3
  forced := bitAt b 1 4
  queued := bitAt b 1 5
  base := field b 6 4
  markdown := field b 10 2
  floor := field b 16 4
  address := field b 28 3
  charge := field b 2 4
  previous := field b 20 4
  changeover := BitVec.ofNat 32 (field b 24 4)
  pBase := field b 32 4
  pMarkdown := field b 40 2
  pFloor := field b 36 4
  pAddress := field b 42 3
  pZone := zoneTaken (byteAt b 45)
  pWeighed := bitAt b 46 0
  pNoMarkdown := bitAt b 46 1
  pRetire := bitAt b 46 2
  eff :=
    match EffKind.ofCode (byteAt b 46 / 16 % 4) with
    | .unset => if bitAt b 1 2 then .now else .unset
    | k => k
  due := BitVec.ofNat 32 (field b 47 4)
  generation := b.getD 12 0
  target := field b 51 4
  sentPrice := field b 55 4
  sentGen := b.getD 31 0
  shown := field b 59 4
  retry := min (byteAt b 13 / 16 % 8) retryLimit

/-- The entry that FRESH initialisation and the repair of a bad entry write (R27). -/
def Entry.fresh : Entry where
  item := .unused
  label := .noLabel
  zone := 0
  weighed := false
  noMarkdown := false
  pending := false
  waiting := false
  forced := false
  queued := false
  base := 0
  markdown := 0
  floor := 0
  address := 0
  charge := 0
  previous := 0
  changeover := 0
  pBase := 0
  pMarkdown := 0
  pFloor := 0
  pAddress := 0
  pZone := 0
  pWeighed := false
  pNoMarkdown := false
  pRetire := false
  eff := .unset
  due := 0
  generation := 0
  target := 0
  sentPrice := 0
  sentGen := 0
  shown := 0
  retry := 0

/-- The 16 bytes a till receives for the first 16 bytes of an entry (R24, section 11.4, R199). -/
def tillView (b : List Byte) : List Byte :=
  let active := ItemState.ofCode (byteAt b 0) == .active
  toLe 1 (ItemState.ofCode (byteAt b 0)).code ++
  toLe 1 (bitAt b 1 0).toNat ++
  toLe 4 (if active then field b 2 4 else 0) ++
  toLe 4 (if active then field b 6 4 else 0) ++
  toLe 2 (if active && !bitAt b 1 1 then field b 10 2 else 0) ++
  [b.getD 12 0, 0, 0, 0]

/-! ## Intake block and record (section 11.5) -/

def blockHeader (lower : List Byte) : BlockHeader where
  batch := BitVec.ofNat 32 (field lower 0 4)
  block := field lower 4 2
  count := byteAt lower 6
  ends := bitAt lower 7 0
  urgent := bitAt lower 7 1
  check := BitVec.ofNat 32 (field lower 8 4)

/-- Record `r` of a block. -/
def intakeRecord (block : List Byte) (r : Nat) : List Byte := (block.drop (16 + 16 * r)).take 16

/-! ## Label frame and acknowledgment (section 11.6) -/

def FrameInfo.bytes (f : FrameInfo) (zone : Nat) : List Byte :=
  padTo 32 (toLe 1 (if f.withdrawn then 2 else 1) ++ toLe 1 zone ++ [f.gen, 0] ++ toLe 3 f.address ++ [0] ++
    toLe 4 f.price)

/-- The SYNC frame of a zone (R91). -/
def syncFrameBytes (zone clock : Nat) : List Byte :=
  padTo 32 (toLe 1 3 ++ toLe 1 zone ++ [0, 0] ++ toLe 3 (0xFFFF00 + zone) ++ [0] ++ toLe 4 0 ++ toLe 4 clock)

/-! ## Reports (section 11.7) -/

def labelStateByte (l : LabelState) : List Byte := toLe 1 l.code

def boolByte (b : Bool) : List Byte := toLe 1 b.toNat

/-- Kind code of a report, and its bytes from byte 8 on. -/
def Report.kind : Report → Nat
  | .guardRefusal _ => 1 | .controlDone .. => 2 | .charterLoaded .. => 3 | .keepRepaired .. => 4 | .batchDone .. => 5
  | .batchBroken .. => 6 | .superseded .. => 7 | .forcedChangeover .. => 8 | .priceMismatch .. => 9
  | .labelFault .. => 10 | .zoneDark _ => 11 | .zoneLit _ => 12 | .powerWarning => 13 | .powerClear => 14
  | .phaseChanged .. => 15 | .daySummaryReady .. => 16

def Report.fields : Report → List Byte
  | .guardRefusal r =>
    toLe 1 r.tag.val ++ toLe 1 r.cls.code ++ toLe 1 (directionCode r.dir) ++ toLe 1 r.reason.code ++
      toLe 4 r.addr.toNat ++ toLe 1 r.len
  | .controlDone tag kind result clamped =>
    toLe 2 tag.toNat ++ [kind] ++ toLe 1 result.code ++ boolByte clamped
  | .charterLoaded revision keep phase =>
    toLe 4 revision.toNat ++ toLe 1 (if keep then 2 else 1) ++ toLe 1 (phaseCode phase)
  | .keepRepaired a b c d => toLe 4 a ++ toLe 4 b ++ toLe 4 c ++ toLe 4 d
  | .batchDone batch urgent blocks applied skipped clamped listFull first =>
    toLe 4 batch.toNat ++ toLe 3 blocks ++ boolByte urgent ++ toLe 3 applied ++ toLe 3 skipped ++ toLe 3 clamped ++
      toLe 3 listFull ++
      (match first with
       | none => toLe 2 0 ++ toLe 1 255 ++ toLe 1 0
       | some f => toLe 2 f.block ++ toLe 1 f.record ++ toLe 1 f.reason.code)
  | .batchBroken batch reason claimed blocks =>
    toLe 4 batch.toNat ++ toLe 1 reason.code ++ [0] ++ toLe 2 claimed ++ toLe 3 blocks
  | .superseded old blocks new => toLe 4 old.toNat ++ toLe 3 blocks ++ [0] ++ toLe 4 new.toNat
  | .forcedChangeover item label previous charge shown =>
    toLe 3 item ++ labelStateByte label ++ toLe 4 previous ++ toLe 4 charge ++ toLe 4 shown
  | .priceMismatch till seq item unitPrice charge previous changeover =>
    toLe 1 till ++ [0] ++ toLe 2 seq.toNat ++ toLe 3 item ++ [0] ++ toLe 4 unitPrice ++ toLe 4 charge ++
      toLe 4 previous ++ toLe 4 changeover.toNat
  | .labelFault item zone address retry => toLe 3 item ++ toLe 1 zone ++ toLe 3 address ++ toLe 1 retry
  | .zoneDark zone => toLe 1 zone
  | .zoneLit zone => toLe 1 zone
  | .powerWarning => []
  | .powerClear => []
  | .phaseChanged old new day clock =>
    toLe 1 (phaseCode old) ++ toLe 1 (phaseCode new) ++ toLe 2 day.toNat ++ toLe 4 clock
  | .daySummaryReady day count => toLe 2 day.toNat ++ [0, 0] ++ toLe 4 count.toNat

/-- A report as written at a store clock and a monotonic second (R195). -/
def Report.bytes (r : Report) (clock : Nat) (mono : Word32) : List Byte :=
  padTo 32 (toLe 1 r.kind ++ toLe 3 clock ++ toLe 4 mono.toNat ++ r.fields)

/-! ## Upload records (section 11.8) -/

/-- The two money totals and the eleven counts in the order of R107. -/
def DayTotals.bytes (t : DayTotals) : List Byte :=
  toLe 6 t.sales ++ toLe 6 t.refunds ++ toLe 3 t.baskets ++ toLe 3 t.refundCount ++ toLe 3 t.cancelled ++
    toLe 3 t.abandoned ++ toLe 3 t.voids ++ toLe 3 t.noSales ++ toLe 3 t.mismatches ++ toLe 3 t.outOfState ++
    toLe 3 t.lineFaults ++ toLe 3 t.gaps ++ toLe 3 t.duplicates

def UploadRecord.bytes : UploadRecord → List Byte
  | .block till day second check first last count baskets flags sales refunds =>
    padTo 64 (toLe 1 1 ++ toLe 1 till ++ toLe 2 day.toNat ++ toLe 4 second ++ toLe 4 check.toNat ++ toLe 2 first.toNat ++
      toLe 2 last.toNat ++ toLe 1 count ++ toLe 1 baskets ++ toLe 2 flags.word ++ toLe 4 sales ++ toLe 4 refunds)
  | .tillDay till day second check seq known totals =>
    padTo 64 (toLe 1 2 ++ toLe 1 till ++ toLe 2 day.toNat ++ toLe 4 second ++ toLe 4 check.toNat ++ toLe 2 seq.toNat ++
      boolByte known ++ [0] ++ totals.bytes)
  | .branchDay tills day second totals =>
    padTo 64 (toLe 1 3 ++ toLe 1 tills ++ toLe 2 day.toNat ++ toLe 4 second ++ List.replicate 8 0 ++ totals.bytes)

end Sys2Proof.Machine
end

