-- ==== Sys2Proof/Machine/Charge.lean ====
section
/-! DEFINITION. The charge calculator (chapter Charge Price Arithmetic): charge prices, line amounts, and the clamps on the
way in. It keeps no state (R30). -/

namespace Sys2Proof.Machine

/-- A base or floor beyond its range is computed as 99,999,999 (R31). -/
def limitPrice (p : Nat) : Nat := min p Config.maxPrice

/-- A markdown beyond its range is computed as 9,000 (R31). -/
def limitMarkdown (m : Nat) : Nat := min m Config.maxMarkdown

/-- The discount stage (R33): an exact half is rounded down. -/
def discounted (b m : Nat) : Nat :=
  let raw := b * (10000 - m)
  if raw % 10000 > 5000 then raw / 10000 + 1 else raw / 10000

/-- Discounted price taken down to the price point (R32 to R34); without a markdown, the base itself. -/
def pointed (b m u : Nat) : Nat :=
  if m = 0 then b else discounted b m / u * u

/-- The charge price of a base, markdown, floor and price-point unit within their ranges (R32 to R34). -/
def chargeOf (b m f u : Nat) : Nat := max (pointed b m u) (min f b)

/-- The charge price of a tuple as it stands in an entry (R30, R31). -/
def chargePrice (unit : Nat) (noMarkdown : Bool) (base markdown floor : Nat) : Nat :=
  chargeOf (limitPrice base) (if noMarkdown then 0 else limitMarkdown markdown) (limitPrice floor) unit

/-- P: the charge price of the pending tuple (section 1.5). -/
def Entry.pendingCharge (unit : Nat) (e : Entry) : Nat :=
  chargePrice unit e.pNoMarkdown e.pBase e.pMarkdown e.pFloor

/-- The live charge computed afresh from the live tuple (R28). -/
def Entry.liveCharge (unit : Nat) (e : Entry) : Nat :=
  chargePrice unit e.noMarkdown e.base e.markdown e.floor

/-- The exact line amount (R36, R37). -/
def exactLine (weighed : Bool) (quantity price : Nat) : Nat :=
  if weighed then (quantity * price + 500) / 1000 else quantity * price

/-- The line amount with its SATURATED indication (R38). -/
def lineAmount (weighed : Bool) (quantity price : Nat) : Nat × Bool :=
  (min (exactLine weighed quantity price) Config.maxAmount,
   decide (exactLine weighed quantity price > Config.maxAmount))

/-- The clamp of R40 on a markdown, and whether it clamped. -/
def clampMarkdown (m : Nat) : Nat × Bool := (min m Config.maxMarkdown, decide (m > Config.maxMarkdown))

/-- The clamp of R41 on a base or a floor, and whether it clamped. -/
def clampPrice (p : Nat) : Nat × Bool := (min p Config.maxPrice, decide (p > Config.maxPrice))

end Sys2Proof.Machine
end

