-- ==== Sys2Proof/Machine/Memory.lean ====
section
/-! DEFINITION. Branch memory: one byte read and written, runs of bytes, and the canonical form that every operation keeps. -/

namespace Sys2Proof.Machine

/-- What an address that is not listed reads as (log 2). -/
def Memory.blank : Byte := 0

/-- One byte (R174: memory as the requests taken so far have left it). -/
def Memory.read : Memory → Nat → Byte
  | [], _ => Memory.blank
  | (k, v) :: m, a => if k = a then v else Memory.read m a

/-- Write one byte and keep the canonical form: a byte equal to the blank value is not listed. -/
def Memory.write : Memory → Nat → Byte → Memory
  | [], a, b => if b = Memory.blank then [] else [(a, b)]
  | (k, v) :: m, a, b =>
    if a < k then (if b = Memory.blank then (k, v) :: m else (a, b) :: (k, v) :: m)
    else if a = k then (if b = Memory.blank then m else (a, b) :: m)
    else (k, v) :: Memory.write m a b

/-- `n` bytes from address `a` on. -/
def Memory.readBytes (m : Memory) : Nat → Nat → List Byte
  | _, 0 => []
  | a, n + 1 => m.read a :: Memory.readBytes m (a + 1) n

/-- A run of bytes written from address `a` on. -/
def Memory.writeBytes : Memory → Nat → List Byte → Memory
  | m, _, [] => m
  | m, a, b :: bs => Memory.writeBytes (m.write a b) (a + 1) bs

/-- A run of bytes written under a mask: a byte whose mask bit is clear keeps its value (R162). -/
def Memory.writeMasked : Memory → Nat → List Byte → List Bool → Memory
  | m, a, b :: bs, k :: ks => Memory.writeMasked (if k then m.write a b else m) (a + 1) bs ks
  | m, _, _, _ => m

/-- Every listed address is at least `lo` and they rise strictly, and no listed byte is the blank value. -/
def Memory.wfFrom : Nat → Memory → Bool
  | _, [] => true
  | lo, (k, v) :: m => decide (lo ≤ k) && v != Memory.blank && Memory.wfFrom (k + 1) m

/-- The canonical form. -/
def Memory.wf (m : Memory) : Bool := Memory.wfFrom 0 m

end Sys2Proof.Machine
end

