-- ==== Sys2Proof/Machine/Ops.lean ====
section
/-! DEFINITION. The named operations that every unit shares: the charter's windows and classes, own requests and their
waiting (R173, R176), the entry update queue and its waiting (R6, R7), reports (R195), refusals (R170 to R172), the rule by
which a partner's index word is taken (R100), and the guest floor (R154). -/

namespace Sys2Proof.Machine

/-! ## The pieces of the state, replaced one at a time -/

def State.withLink (s : State) (x : LinkState) : State := { s with link := x }
def State.withBook (s : State) (x : BookState) : State := { s with book := x }
def State.withIntake (s : State) (x : IntakeState) : State := { s with intake := x }
def State.withSweep (s : State) (x : SweepUnit) : State := { s with sweep := x }
def State.withJournal (s : State) (x : JournalState) : State := { s with journal := x }
def State.withGuest (s : State) (x : GuestState) : State := { s with guest := x }
def State.withPhase (s : State) (x : PhaseState) : State := { s with phase := x }
def State.withControl (s : State) (x : ControlState) : State := { s with control := x }

/-- The outcome of a command that goes on; while RESET_N is asserted the part does nothing (log 26). -/
def State.running (s : State) (f : State → State) : Host.Outcome State Fault Refusal :=
  .next (if s.inReset then s else f s)

/-! ## The configuration in force -/

/-- The window of a special kind; an accepted charter has exactly one (R160). -/
def Charter.window (c : Charter) (k : WindowKind) : Window :=
  (c.windows.find? (fun w => w.kind == k)).getD { kind := k, base := 0, size := 0, slots := 0, rights := [] }

/-- The class of a master tag (R158). -/
def Charter.classOf (c : Charter) (tag : Fin 16) : Class := c.classes.getD tag.val .other

/-- The part is LOADING after ACTIVE, or ACTIVE: a charter is in force. -/
def State.inForce (s : State) : Bool := s.charter.isSome

def State.isActive (s : State) : Bool := s.control.part == .active

def State.isLoading (s : State) : Bool := s.control.part == .loading

/-- A reload is in progress: LOADING after ACTIVE (R45, R101). -/
def State.reloading (s : State) : Bool := s.isLoading && s.inForce

/-- The configuration that requests of the entry update queue use: from the walk's first request on, the charter being
loaded (R29, R30). -/
def State.bookCharter (s : State) : Option Charter :=
  match s.control.load with
  | some l =>
    match l.stage with
    | .walking => l.charter
    | .walked => l.charter
    | .accepted => l.charter
    | .reading => s.charter
    | .checked => s.charter
  | none => s.charter

/-- Stage 4 of a load has begun, and the part is not ACTIVE yet (R189). -/
def State.accepting (s : State) : Bool := s.control.load.any (fun l => l.stage == .accepted)

/-- The configuration whose REPORT ring takes the reports: from stage 4 of a load on, the new charter's (R189). -/
def State.reportCharter (s : State) : Option Charter :=
  if s.accepting then s.control.load.bind Load.charter else s.charter

def State.itemCount (s : State) : Nat :=
  match s.bookCharter with
  | some c => c.itemCount
  | none => 0

/-- Where the entry of an item stands (R1). -/
def Charter.entryAddr (c : Charter) (item : Nat) : Nat := (c.window .price).base + 64 * item

/-- The item whose price a TILL read asks for: 16 bytes at a multiple of 64 above the base of the PRICE window (R164). -/
def Charter.priceRead (c : Charter) (tx : Transaction) : Option Nat :=
  let w := c.window .price
  if tx.dir = .read ∧ tx.len = 16 ∧ w.base ≤ tx.start ∧ tx.start < w.base + w.size ∧ (tx.start - w.base) % 64 = 0 then
    some ((tx.start - w.base) / 64)
  else none

/-! ## Units that wait (R6, R173) -/

/-- The unit waits for room in the own-request queue or in the entry update queue, with work to follow. -/
def State.waits (s : State) (u : PartUnit) : Bool := s.link.tasks.any (fun t => t.1 == u)

def State.addTask (s : State) (u : PartUnit) (t : Task) : State :=
  s.withLink { s.link with tasks := s.link.tasks ++ [(u, t)] }

/-- A unit does its next piece of work, or has it follow the request with which it waits (R6, R173). DESIGN CHOICE (log 63): work that
comes while the unit waits is judged by the state in which the unit gets to it. -/
def State.orDefer (s : State) (u : PartUnit) (t : Task) (f : State → State) : State :=
  if s.waits u then s.addTask u t else f s

/-- What a unit has still to do. -/
def State.tasksOf (s : State) (u : PartUnit) : List Task := (s.link.tasks.filter (fun t => t.1 == u)).map (·.2)

def State.dropTasks (s : State) (u : PartUnit) : State :=
  s.withLink { s.link with tasks := s.link.tasks.filter (fun t => t.1 != u) }

/-- A unit takes a step of its own, for which it must not be waiting. -/
def State.unlessWaiting (s : State) (u : PartUnit) (f : State → State) : State := if s.waits u then s else f s

/-! ## Own requests (section 8.7) -/

/-- The address of the entry on which a request is in progress in the sense that holds a till read (R7, R8, R25): from
the placing of its own read until it leaves the queue; never a PRICE_CHECK. DESIGN CHOICE (log 46): a KEEP request of a FRESH
walk, which has no own read, is in progress from the placing of its own write on. -/
def State.updateAddr (s : State) : Option Nat :=
  match s.book.queue, s.bookCharter with
  | r :: _, some c =>
    if r.kind = .priceCheck then none
    else
      match s.book.headPhase with
      | .reading => if s.waits .book then none else some (c.entryAddr r.item)
      | .writing _ => some (c.entryAddr r.item)
      | .notBegun => none
      | .freshWrite => none
  | _, _ => none

/-- A till read of an entry is held by an update in progress on the entry at the address it names (R25). -/
def State.readHeldOn (s : State) (c : Charter) (tx : Transaction) : Bool :=
  match c.priceRead tx with
  | some i => decide (i < c.itemCount) && s.updateAddr == some tx.start
  | none => false

/-- The till read at the head of accept queue `k` that an update in progress holds, if it holds one (R25). -/
def State.heldIn (s : State) (c : Charter) (k : Nat) : Option Transaction :=
  (s.link.accept.getD k []).head?.filter (fun tx => c.classOf tx.tag == .till && s.readHeldOn c tx)

/-- The address that a till read at the head of its accept queue is held on, if one is held (R25, R176). -/
def State.heldRead (s : State) : Option Nat :=
  match s.charter with
  | some c => (List.range 7).findSome? (fun k => (s.heldIn c k).map Transaction.start)
  | none => none

/-- The accept queues whose heads an update in progress holds (R25). -/
def State.heldQueues (s : State) : List Nat :=
  match s.charter with
  | some c => (List.range 7).filter (fun k => (s.heldIn c k).isSome)
  | none => []

/-- The stream takes a head: it has a place, and no head has come to wait before (R174, log 39). -/
def State.streamOpen (s : State) (turn : Bool) : Bool :=
  decide (s.link.stream.length < Config.streamDepth) && (turn || s.link.streamWait.isEmpty)

/-- A till read held until now is forwarded (R25). DESIGN CHOICE (log 49): when the stream has no room, the read waits as a head
that is judged anew when there is room, and a later request on its entry may hold it again. -/
def State.releaseRead (s : State) (k : Nat) : State :=
  match s.link.accept.getD k [] with
  | tx :: rest =>
    if s.streamOpen false then
      s.withLink { s.link with
        accept := s.link.accept.setIfInBounds k rest, stream := s.link.stream ++ [{ tx, role := .tillView }] }
    else s
  | [] => s

/-- Put a request into the own-request queue: at the tail, or at the head when it is the write of an update that holds a
till read (R173, R176). -/
def State.enqueueOwn (s : State) (r : OwnRequest) : State :=
  if r.purpose = .entryWrite ∧ s.heldRead = some r.addr then
    s.withLink { s.link with own := { r with placedAt := s.micros, promoted := true } :: s.link.own }
  else
    s.withLink { s.link with own := s.link.own ++ [{ r with placedAt := s.micros }] }

/-- Place an own request, or wait with it when the queue is full or another unit already waits (R173). -/
def State.placeOwn (s : State) (r : OwnRequest) : State :=
  s.orDefer r.unit (.own r) (fun s =>
    if s.link.own.length < Config.ownDepth ∧ s.link.ownWait = [] then s.enqueueOwn r
    else
      s.withLink { s.link with
        tasks := s.link.tasks ++ [(r.unit, .own r)]
        ownWait := s.link.ownWait ++ [r.unit] })

def State.placeOwns (s : State) (rs : List OwnRequest) : State := rs.foldl State.placeOwn s

/-- Own read of `n` bytes. -/
def ownRead (u : PartUnit) (addr n : Nat) (p : Purpose) : OwnRequest := { unit := u, addr, body := .read n, purpose := p }

/-- Own write of given bytes. -/
def ownWrite (u : PartUnit) (addr : Nat) (bs : List Byte) (p : Purpose) : OwnRequest :=
  { unit := u, addr, body := .write bs, purpose := p }

/-- Own write of index words of a ring (R198). -/
def ownIndex (u : PartUnit) (w : Window) (producer consumer : Option Word32) (p : Purpose) : OwnRequest :=
  { unit := u, addr := w.base, body := .indexWords producer consumer, purpose := p }

/-- Own write of the charter's result word (R188); its two words begin the charter window. -/
def State.charterBase (s : State) : Nat := s.chb.toNat * 2 ^ 24

def State.writeResult (s : State) (code : Nat) : State :=
  s.placeOwn { unit := .control, addr := s.charterBase, body := .resultWord (BitVec.ofNat 32 code), purpose := .silent }

/-! ## Reports (R195) -/

/-- A report whose slot write is placed is counted, and its producer index write placed (R195). -/
def State.countReport (s : State) : State :=
  match s.reportCharter with
  | none => s
  | some c =>
    let n := s.control.repProducer + 1
    (s.withControl { s.control with repProducer := n }).placeOwn
      (ownIndex .control (c.window .report) (some n) none (.reportIndex s.control.epoch n))

/-- Write a report into the next slot of the REPORT ring, then count it with a producer index write, or lose and count it when
no slot is free. Without a charter whose ring takes reports none is written or counted. DESIGN CHOICE (log 58): a report carries the
second and the clock of this examination of the ring, also when its slot write waits for room in the own-request queue (R181,
R195). -/
def State.writeReport (s : State) (r : Report) : State :=
  match s.reportCharter with
  | none => s
  | some c =>
    let w := c.window .report
    let n := s.control.repProducer
    if (n - s.control.repConsumer).toNat < w.slots then
      (s.placeOwn
        (ownWrite .control (slotAddr w.base 32 (n.toNat % w.slots)) (r.bytes s.phase.clock s.phase.mono) .silent)).orDefer
        .control .countReport State.countReport
    else s.withControl { s.control with lost := countUp 65535 s.control.lost }

/-- Hand a report to the control unit, which writes it, after what it has still to do (R195). -/
def State.report (s : State) (r : Report) : State := s.orDefer .control (.report r) (fun s => s.writeReport r)

def State.reports (s : State) (rs : List Report) : State := rs.foldl State.report s

/-- ATTN_N is asserted while the published count and the consumer copy differ (R196). -/
def State.attnAsserted (s : State) : Bool := s.control.published != s.control.repConsumer

/-! ## Refusals (section 8.6) -/

/-- Give a master its answer on the system link. -/
def State.answer (s : State) (a : Answer) : State :=
  s.withLink { s.link with answers := s.link.answers ++ [a] }

/-- Sources whose refusals write a GUARD_REFUSAL report (R172). -/
def RefusalSource.guards : RefusalSource → Bool
  | .decoder => true
  | .pacer => true
  | .sweep => true
  | .journal => false
  | .intake => false

def refusedRecord (c : Charter) (src : RefusalSource) (why : Reason) (tx : Transaction) : Refused where
  tag := tx.tag
  cls := c.classOf tx.tag
  dir := tx.dir
  addr := tx.addr
  len := tx.len
  source := src
  reason := why

/-- Refuse a transaction: the REFUSED completion with zero data for a read, the count, the first-refusal record, and the
report of the guard's refusals (R170 to R172). -/
def State.refuse (s : State) (c : Charter) (src : RefusalSource) (why : Reason) (tx : Transaction) : State :=
  let r := refusedRecord c src why tx
  let s1 := s.answer
    { tag := tx.tag, refused := true, data := if tx.dir = .read then List.replicate tx.len 0 else [] }
  let s2 := s1.withLink { s1.link with
    refusals := countUp 65535 s1.link.refusals
    firstRefusal := match s1.link.firstRefusal with
      | none => some r
      | some f => some f }
  if src.guards then s2.report (.guardRefusal r) else s2

/-! ## Ring counts -/

/-- A partner's index word taken into its copy (R74, R100, R137, R196): a value within what was written is taken, one
beyond the producer is clamped to it, one behind the copy is ignored. -/
def takeCount (producer copy v : Word32) : Word32 :=
  if (v - copy).toNat ≤ (producer - copy).toNat then v
  else if (v - copy).toNat < 2 ^ 31 then producer
  else copy

/-- Records written and not yet taken. -/
def backlog (producer copy : Word32) : Nat := (producer - copy).toNat

/-! ## The entry update queue (section 1.2) -/

/-- A KEEP request of a FRESH walk, which writes without reading first (R27). -/
def State.isFreshKeep (s : State) (r : EntryReq) : Bool :=
  r.kind == .keep &&
    match s.bookCharter with
    | some c => !c.keep
    | none => false

/-- Begin the request at the head when none is begun: place its own read (R7), or go to the write of a FRESH entry. -/
def State.beginHead (s : State) : State :=
  match s.book.headPhase, s.book.queue, s.bookCharter with
  | .notBegun, r :: _, some c =>
    if s.isFreshKeep r then s.withBook { s.book with headPhase := .freshWrite }
    else (s.withBook { s.book with headPhase := .reading }).placeOwn (ownRead .book (c.entryAddr r.item) 64 .entryRead)
  | _, _, _ => s

/-- Put a request at the tail of the entry update queue and begin it when it is the only one (R6, R7). -/
def State.pushEntry (s : State) (r : EntryReq) : State :=
  (s.withBook { s.book with queue := s.book.queue ++ [r] }).beginHead

/-- A source comes to wait, if it does not wait already (R6). -/
def State.waitEntry (s : State) (src : Source) : State :=
  s.withBook { s.book with wait := if src ∈ s.book.wait then s.book.wait else s.book.wait ++ [src] }

def State.entryRoom (s : State) : Bool := decide (s.book.queue.length < Config.entryDepth)

/-- Place a request, or wait with it when the queue is full or another source already waits (R6). -/
def State.placeEntry (s : State) (src : Source) (r : EntryReq) : State :=
  s.orDefer src.unit (.entry src r) (fun s =>
    if s.entryRoom ∧ s.book.wait = [] then s.pushEntry r
    else (s.addTask src.unit (.entry src r)).waitEntry src)

/-! ## The guest floor (R154) -/

/-- The floor for a phase and a sweep state under a charter. -/
def floorFor (c : Charter) (p : Option Phase) (st : SweepState) : Nat :=
  let onAir := st == .blank || st == .listen
  match p with
  | some .trading => if onAir then max c.tradingFloor c.sweepFloor else c.tradingFloor
  | some .closing => if onAir then max c.closingFloor c.sweepFloor else c.closingFloor
  | _ => 7

/-- Work the floor out again; in TRADING and CLOSING a level below it rises to it at once. -/
def State.refloor (s : State) : State :=
  match s.charter with
  | none => s
  | some c =>
    let f := floorFor c s.phase.phase s.sweep.state
    s.withGuest { s.guest with
      floor := f
      level := if s.phase.phase = some .trading ∨ s.phase.phase = some .closing then max s.guest.level f else s.guest.level }

/-- The sweep takes a state, and the floor is worked out again (R154). -/
def State.setSweepState (s : State) (st : SweepState) : State :=
  (s.withSweep { s.sweep with state := st }).refloor

end Sys2Proof.Machine
end

