-- ==== Sys2Proof/Machine/JournalOps.lean ====
section
/-! DEFINITION. Shared operations of the journal unit (chapters Till Journals; Check Chains and the Day Summary): the tests
of a journal write, the till contexts, sequence handling, the record kinds, the price check, the stamp, blocks, the upload
path, and the work on till contexts. -/

namespace Sys2Proof.Machine

/-! ## Till contexts -/

def State.till (s : State) (t : Nat) : TillContext := s.journal.tills.getD t {}

def State.setTill (s : State) (t : Nat) (x : TillContext) : State :=
  s.withJournal { s.journal with tills := s.journal.tills.setIfInBounds t x }

def State.setHand (s : State) (h : Option JournalHand) : State := s.withJournal { s.journal with hand := h }

/-- No record is in hand and no other work is in progress (R104, R173). -/
def State.journalFree (s : State) : Bool := s.journal.hand.isNone && !s.waits .journal

/-- R127. -/
def State.journalEmpty (s : State) : Bool :=
  s.journal.hand.isNone && backlog s.journal.producer s.journal.consumer == 0

/-- The upload side is empty (R140). DESIGN CHOICE (log 60): beside the four things of R140 the journal unit must not wait for room in
the own-request queue, with the slot write of an upload record, with the UPLOAD index write alone, or with anything else; a reload
is REFUSED_BUSY until then (R191). -/
def State.uploadEmpty (s : State) : Bool :=
  !s.waits .journal && s.journal.holdList.isEmpty && s.journal.upProducer == s.journal.upConsumer &&
    s.journal.tills.toList.all (fun x => x.block.count == 0) && s.journal.hand.isNone

/-! ## The upload path (R137, R138, R143) -/

def State.freeUpload (s : State) (c : Charter) : Nat :=
  (c.window .upload).slots - backlog s.journal.upProducer s.journal.upConsumer

/-- A record written into the ring is counted (R138). -/
def State.countUpload (s : State) : State := s.withJournal { s.journal with upProducer := s.journal.upProducer + 1 }

/-- Write a record into the next UPLOAD slot, then count it (R138). -/
def State.putUpload (s : State) (c : Charter) (r : UploadRecord) : State :=
  let w := c.window .upload
  (s.placeOwn (ownWrite .journal (slotAddr w.base 64 (s.journal.upProducer.toNat % w.slots)) r.bytes .silent)).orDefer
    .journal .countUpload State.countUpload

def State.indexNow (s : State) (c : Charter) : State :=
  s.placeOwn (ownIndex .journal (c.window .upload) (some s.journal.upProducer) none .silent)

/-- Write the producer index word (R138). -/
def State.writeUploadIndex (s : State) (c : Charter) : State := s.orDefer .journal .uploadIndex (fun s => s.indexNow c)

/-- The DAY_SUMMARY_READY report of a record just written into the ring, with the count after it (R143). -/
def summaryReport (r : UploadRecord) (count : Word32) : List Report :=
  match r with
  | .branchDay _ day _ _ => [.daySummaryReady day count]
  | .block .. => []
  | .tillDay .. => []

def State.summaryNow (s : State) (r : UploadRecord) : State := s.reports (summaryReport r s.journal.upProducer)

/-- Hand an upload record on now: into the ring when nothing is held and a slot is free, with its report once it is written,
else to the tail of the hold list (R138, R143). -/
def State.uploadNow (s : State) (c : Charter) (r : UploadRecord) : State :=
  if s.journal.holdList = [] ∧ 0 < s.freeUpload c then
    ((s.putUpload c r).writeUploadIndex c).orDefer .journal (.summary r) (fun s => s.summaryNow r)
  else s.withJournal { s.journal with holdList := s.journal.holdList ++ [r] }

/-- Hand an upload record on, after what the unit has still to do. -/
def State.handUpload (s : State) (c : Charter) (r : UploadRecord) : State :=
  s.orDefer .journal (.upload r) (fun s => s.uploadNow c r)

/-- The record at the head of the hold list moves into the ring. -/
def State.drainOne (s : State) (c : Charter) : State :=
  match s.journal.holdList with
  | r :: rs => (s.withJournal { s.journal with holdList := rs }).putUpload c r
  | [] => s

/-- The reports that follow when records are moved into the ring, the count standing at `n` before them (R143). -/
def drainReports : Word32 → List UploadRecord → List Report
  | _, [] => []
  | n, r :: rs => summaryReport r (n + 1) ++ drainReports (n + 1) rs

/-- Drain the hold list: the slot writes of as many records as there are free slots, one producer index write after the last,
and the reports of the summaries moved (R138, R143). -/
def State.drainNow (s : State) (c : Charter) : State :=
  let moved := s.journal.holdList.take (s.freeUpload c)
  if moved = [] then s
  else
    let s1 := moved.foldl (fun s _ => s.orDefer .journal .drainOne (fun s => s.drainOne c)) s
    (drainReports s.journal.upProducer moved).foldl
      (fun s r => s.orDefer .journal (.handReport r) (fun s => s.report r)) (s1.writeUploadIndex c)

/-- A change of the upload consumer copy starts a drain (R137). -/
def State.drain (s : State) (c : Charter) : State := s.orDefer .journal .drain (fun s => s.drainNow c)

/-! ## Blocks (section 6.3) -/

/-- Hand on the block record of a block that is closed (R133). -/
def State.handBlock (s : State) (c : Charter) (t : Nat) (b : OpenBlock) (cause : BlockFlags) : State :=
  s.handUpload c (.block t b.day s.phase.clock b.check b.first b.last b.count b.baskets { cause with start := b.start }
    b.sales b.refunds)

/-- Close the open block of a till now: an empty one writes nothing (R133). -/
def State.closeNow (s : State) (c : Charter) (t : Nat) (cause : BlockFlags) : State :=
  let x := s.till t
  if x.block.count = 0 then s
  else (s.setTill t { x with block := {} }).handBlock c t x.block cause

/-- Close the open block of a till, after what the unit has still to do. -/
def State.closeBlock (s : State) (c : Charter) (t : Nat) (cause : BlockFlags) : State :=
  s.orDefer .journal (.close t cause) (fun s => s.closeNow c t cause)

/-- Close the open blocks of all tills below the till count that `p` picks, in till order. -/
def State.closeBlocks (s : State) (c : Charter) (p : Nat → Bool) (cause : BlockFlags) : State :=
  ((List.range c.tillCount).filter p).foldl (fun s t => s.closeBlock c t cause) s

/-- A record joins the till's open block and is fed into the chain (R130 to R132). -/
def TillContext.join (x : TillContext) (d : List Byte) (day : Word16) (mono : Word32) : TillContext :=
  let seq := journalSeq d
  let starts := x.block.count == 0 && x.seedMark
  let acc := crcFeed (if starts then crcSeed else x.acc) (d.take 48)
  { x with
    acc
    seedMark := x.seedMark && !starts
    lastSecond := mono
    block :=
      if x.block.count = 0 then { first := seq, last := seq, count := 1, start := starts, check := ~~~acc, day }
      else { x.block with last := seq, count := x.block.count + 1, check := ~~~acc } }

/-- The first record of a new open block that joins without a seeding, when the block before it would pass its range
(R132). -/
def TillContext.rejoin (x : TillContext) (d : List Byte) (day : Word16) : TillContext :=
  { x with block := { first := journalSeq d, last := journalSeq d, count := 1, check := ~~~x.acc, day } }

/-! ## Baskets (R108) -/

def TillContext.discard (x : TillContext) : TillContext := { x with basket := 0, lines := 0, lineList := [] }

/-- Abandon an open basket with a till state to follow (R126, R141). -/
def TillContext.abandon (x : TillContext) (next : TillState) : TillContext :=
  if x.state = .basket then
    { x.discard with state := next, totals := { x.totals with abandoned := countUp Config.maxCount x.totals.abandoned } }
  else x

/-- The line that a VOID_LINE record may void (R116). -/
def TillContext.voidable (x : TillContext) (n : Nat) : Option BasketLine :=
  if x.state = .basket then x.lineList.find? (fun l => l.number == n && !l.voided) else none

/-! ## The record kinds (section 5.5) -/

/-- A kind is admitted by the phase and suits the till state (R113 to R121). -/
def countsAs (p : Option Phase) (st : TillState) (k : JournalKind) : Bool :=
  p != some .night &&
  match k with
  | .signOn => (p == some .opening || p == some .trading) && st == .closed
  | .item => st != .closed
  | .voidLine => st != .closed
  | .basketTotal => st == .basket
  | .basketCancel => st == .basket
  | .refund => st == .ready
  | .noSale => st == .ready
  | .signOff => st == .ready

/-- What handling a record brings: the till context, the flags, the part line amount, and the amount that enters the block's
sales or refunds. -/
structure Finding where
  x       : TillContext
  flags   : Disposition
  amount  : Nat := 0
  sales   : Nat := 0
  refunds : Nat := 0
  baskets : Nat := 0

/-- A counted SIGN_ON (R114). -/
def takeSignOn (x : TillContext) (fl : Disposition) : Finding :=
  { x := { x with state := .ready, signedOn := true }, flags := fl }

/-- A counted VOID_LINE (R116). -/
def takeVoidLine (x : TillContext) (fl : Disposition) (d : List Byte) : Finding :=
  match x.voidable (journalVoided d) with
  | some l =>
    { x := { x with
        basket := x.basket - l.amount
        lineList := x.lineList.map (fun q => if q.number = l.number then { q with voided := true } else q)
        totals := { x.totals with voids := countUp Config.maxCount x.totals.voids } }
      flags := fl, amount := l.amount }
  | none => { x, flags := { fl with voidRefused := true } }

/-- A counted BASKET_TOTAL (R117). -/
def takeBasketTotal (x : TillContext) (fl : Disposition) (d : List Byte) : Finding :=
  { x := { x.discard with
      state := .ready
      totals := { x.totals with
        sales := addUpTo Config.maxMoney x.totals.sales x.basket
        baskets := countUp Config.maxCount x.totals.baskets } }
    flags := { fl with totalMismatch := journalTillAmount d != x.basket }
    amount := x.basket, sales := x.basket, baskets := 1 }

/-- A counted BASKET_CANCEL (R118). -/
def takeBasketCancel (x : TillContext) (fl : Disposition) : Finding :=
  { x := { x.discard with
      state := .ready, totals := { x.totals with cancelled := countUp Config.maxCount x.totals.cancelled } }
    flags := fl }

/-- A counted NO_SALE (R120). -/
def takeNoSale (x : TillContext) (fl : Disposition) : Finding :=
  { x := { x with totals := { x.totals with noSales := countUp Config.maxCount x.totals.noSales } }, flags := fl }

/-- A counted SIGN_OFF (R121); its block close follows when the record leaves hand. -/
def takeSignOff (x : TillContext) (fl : Disposition) : Finding := { x := { x with state := .closed }, flags := fl }

/-- A record that is not counted (R113). -/
def takeOutOfState (x : TillContext) (fl : Disposition) : Finding :=
  { x := { x with totals := { x.totals with outOfState := countUp Config.maxCount x.totals.outOfState } }
    flags := { fl with outOfState := true } }

/-- A counted ITEM in READY opens a basket (R108, R115). -/
def TillContext.openBasket (x : TillContext) : TillContext :=
  if x.state = .ready then { x.discard with state := .basket } else x

/-- The flags and the part line amount of a counted ITEM or REFUND (R125). -/
def lineFinding (fl : Disposition) (weighed : Bool) (d : List Byte) : Disposition × Nat :=
  let (amount, sat) := lineAmount weighed (journalQuantity d) (journalUnitPrice d)
  ({ fl with saturated := sat, amountMismatch := journalTillAmount d != amount }, amount)

/-- An ITEM line joins the basket (R108, R115). -/
def TillContext.addLine (x : TillContext) (item amount : Nat) : TillContext :=
  let n := countUp 65535 x.lines
  { x with
    basket := addUpTo Config.maxAmount x.basket amount
    lines := n
    lineList :=
      if n ≤ Config.trackedLines then x.lineList ++ [{ number := n, item, amount, voided := false }] else x.lineList }

/-- The till's unit price is accepted (R123). -/
def priceAccepted (grace : Nat) (mono : Word32) (unitPrice : Nat) (a : PriceAnswer) : Bool :=
  unitPrice == a.charge || (unitPrice == a.previous && decide (mono.toNat ≤ a.changeover.toNat + grace))

/-- A counted ITEM with the answer of its price check, none when the item is beyond the item count (R115, R122 to R125). -/
def takeItemLine (c : Charter) (x : TillContext) (h : JournalHand) (a : Option PriceAnswer) : Finding :=
  let d := h.tx.data
  let listed := (a.map PriceAnswer.item) == some .active
  let mismatch := listed && !(a.elim true (priceAccepted c.grace h.mono (journalUnitPrice d)))
  let (fl, amount) := lineFinding h.flags (a.elim false PriceAnswer.weighed) d
  let x1 := x.addLine (journalItem d) amount
  { x := if mismatch then
      { x1 with totals := { x1.totals with mismatches := countUp Config.maxCount x1.totals.mismatches } } else x1
    flags := { fl with notListed := !listed, priceMismatch := mismatch, untracked := decide (Config.trackedLines < x1.lines) }
    amount }

/-- A counted REFUND with the answer of its price check (R119, R122, R124, R125). -/
def takeRefundLine (x : TillContext) (h : JournalHand) (a : Option PriceAnswer) : Finding :=
  let d := h.tx.data
  let (fl, amount) := lineFinding h.flags (a.elim false PriceAnswer.weighed) d
  { x := { x with
      totals := { x.totals with
        refunds := addUpTo Config.maxMoney x.totals.refunds amount
        refundCount := countUp Config.maxCount x.totals.refundCount } }
    flags := { fl with notListed := (a.map PriceAnswer.item) != some .active }
    amount, refunds := amount }

/-- The PRICE_MISMATCH report of a record (R123). -/
def mismatchReport (d : List Byte) (a : PriceAnswer) : Report :=
  .priceMismatch (journalTill d) (journalSeq d) (journalItem d) (journalUnitPrice d) a.charge a.previous a.changeover

/-! ## From acceptance to the stamp -/

/-- The money of a record enters its open block; when it would pass the block's range, the block as it stood before the
record is closed with FULL and the record becomes the first of a new one (R132). -/
def State.enterBlock (s : State) (c : Charter) (t : Nat) (h : JournalHand) (f : Finding) : State :=
  let overflows := h.before.count ≠ 0 ∧
    (Config.maxAmount < h.before.sales + f.sales ∨ Config.maxAmount < h.before.refunds + f.refunds)
  let x := if overflows then f.x.rejoin h.tx.data h.day else f.x
  let b := x.block
  let s1 := s.setTill t { x with
    block := { b with sales := b.sales + f.sales, refunds := b.refunds + f.refunds, baskets := b.baskets + f.baskets } }
  if overflows then s1.handBlock c t h.before { full := true } else s1

/-- The write in hand takes its stamp and is ready to be forwarded (R103, R105). -/
def State.stampNow (s : State) : State :=
  match s.journal.hand with
  | some h =>
    let check := ~~~(s.till (journalTill h.tx.data)).acc
    s.setHand (some { h with
      stage := .ready
      tx := { h.tx with data := h.tx.data.take 48 ++ stampBytes h.clock h.day h.flags h.amount check } })
  | none => s

/-- The record's findings are in, and its stamp follows (R103). -/
def State.stampHand (s : State) (h : JournalHand) : State :=
  (s.setHand (some h)).orDefer .journal .stamp State.stampNow

/-- A taken record's finding changes the context, the block and the chain, and the record is stamped (R113, R132, R134). -/
def State.finishTaken (s : State) (c : Charter) (h : JournalHand) (f : Finding) (report : Option Report) : State :=
  let t := journalTill h.tx.data
  let s1 := s.enterBlock c t h f
  s1.stampHand { h with
    flags := f.flags, amount := f.amount, report
    closes := { full := (s1.till t).block.count == Config.blockRecords, signOff := h.counted == some .signOff } }

/-- A taken record goes on to the effect of its kind (section 5.5); an ITEM or REFUND of an item below the item count waits
for its PRICE_CHECK (R122). -/
def State.takeKind (s : State) (c : Charter) (h : JournalHand) : State :=
  let d := h.tx.data
  let t := journalTill d
  let x := s.till t
  let priced (s : State) (h : JournalHand) (f : Finding) : State :=
    if journalItem d < c.itemCount then
      (s.setHand (some h)).placeEntry .journal { item := journalItem d, kind := .priceCheck }
    else s.finishTaken c h f none
  match h.counted with
  | none => s.finishTaken c h (takeOutOfState x h.flags) none
  | some .signOn => s.finishTaken c h (takeSignOn x h.flags) none
  | some .item => priced (s.setTill t x.openBasket) h (takeItemLine c x.openBasket h none)
  | some .voidLine => s.finishTaken c h (takeVoidLine x h.flags d) none
  | some .basketTotal => s.finishTaken c h (takeBasketTotal x h.flags d) none
  | some .basketCancel => s.finishTaken c h (takeBasketCancel x h.flags) none
  | some .refund => priced s h (takeRefundLine x h none)
  | some .noSale => s.finishTaken c h (takeNoSale x h.flags) none
  | some .signOff => s.finishTaken c h (takeSignOff x h.flags) none

/-- The answer of the PRICE_CHECK request of the record in hand (R122 to R125). -/
def State.priceAnswered (s : State) (a : PriceAnswer) : State :=
  match s.charter, s.journal.hand with
  | some c, some h =>
    let x := s.till (journalTill h.tx.data)
    match h.stage, h.counted with
    | .pricing, some .item =>
      let f := takeItemLine c x h (some a)
      s.finishTaken c h f (if f.flags.priceMismatch then some (mismatchReport h.tx.data a) else none)
    | .pricing, some .refund => s.finishTaken c h (takeRefundLine x h (some a)) none
    | _, _ => s
  | _, _ => s

/-- A record is taken: the expected sequence moves, the record joins its block and the chain, and its kind follows (R110). -/
def State.takeRecord (s : State) (c : Charter) (h : JournalHand) : State :=
  let d := h.tx.data
  let t := journalTill d
  let x := s.till t
  let s1 := s.setTill t ({ x with expected := some (journalSeq d + 1) }.join d h.day h.mono)
  let counted := (journalKind d).bind (fun k => if countsAs h.phase x.state k then some k else none)
  s1.takeKind c { h with before := x.block, counted }

/-- How a record's line status and sequence are judged (R109 to R112). -/
inductive SeqCase where
  | fault | start | inOrder | duplicate
  | gap (missing : Nat)
  deriving DecidableEq, Repr

def seqCase (expected : Option Word16) (d : List Byte) : SeqCase :=
  if journalLineStatus d ≠ 0 then .fault
  else match expected with
    | none => .start
    | some e =>
      let behind := (e - journalSeq d).toNat
      if behind = 0 then .inOrder
      else if behind ≤ 1024 then .duplicate
      else .gap (journalSeq d - e).toNat

/-- The record in hand is taken (R110). -/
def State.takeHand (s : State) (c : Charter) : State :=
  match s.journal.hand with
  | some h => s.takeRecord c h
  | none => s

/-- An accepted write of the accept queue of a class becomes the record in hand and is handled as far as it goes without the
price book; after a gap it is taken once the block before it is closed (R103, R109 to R112, R134). -/
def State.acceptRecord (s : State) (c : Charter) (k : Class) (tx : Transaction) : State :=
  let d := tx.data
  let t := journalTill d
  let x := s.till t
  let h : JournalHand :=
    { tx, queue := k, clock := s.phase.clock, day := s.phase.day, mono := s.phase.mono, phase := s.phase.phase }
  match seqCase x.expected d with
  | .fault =>
    (s.setTill t { x with totals := { x.totals with lineFaults := countUp Config.maxCount x.totals.lineFaults } }).stampHand
      { h with flags := { lineFault := true } }
  | .start => s.takeRecord c { h with flags := { seqStart := true } }
  | .inOrder => s.takeRecord c h
  | .duplicate =>
    (s.setTill t { x with totals := { x.totals with duplicates := countUp Config.maxCount x.totals.duplicates } }).stampHand
      { h with flags := { duplicate := true } }
  | .gap missing =>
    let y := { x with totals := { x.totals with gaps := addUpTo Config.maxCount x.totals.gaps missing } }
    (((s.setTill t y).setHand (some { h with flags := { gapBefore := true } })).closeBlock c t { gap := true }).orDefer
      .journal .take (fun s => s.takeHand c)

/-! ## The tests of a journal write (R101, R102) -/

/-- The slot of a window that an address lies in. -/
def slotOf (w : Window) (size address : Nat) : Option Nat :=
  if w.base + 64 ≤ address ∧ (address - w.base - 64) / size < w.slots then some ((address - w.base - 64) / size) else none

/-- The first test of R101 that a journal write fails. -/
def State.journalTest (s : State) (c : Charter) (tx : Transaction) : Option Reason :=
  let w := c.window .journal
  let back := backlog s.journal.producer s.journal.consumer
  match slotStart w 64 tx.start with
  | none => some .wrongSlot
  | some k =>
    if !tx.fullWrite 64 then some .wrongSlot
    else if s.reloading then some .busy
    else if s.phase.warning then some .power
    else if k ≠ s.journal.producer.toNat % w.slots then some .wrongSlot
    else if ¬ back < w.slots then some .ringFull
    else if s.journal.holdList ≠ [] then some .holdList
    else if ¬ journalTill tx.data < c.tillCount then some .badTill
    else none

/-- The slot that a refused write addressed; a write that addresses no slot takes a free value (log 17). -/
def State.addressedSlot (s : State) (w : Window) (size address : Nat) : Word32 :=
  match slotOf w size address with
  | some k => BitVec.ofNat 32 k
  | none => Config.freeSlot s.freeCount

def State.countFreeSlot (s : State) (w : Window) (size address : Nat) : State :=
  { s with freeCount := if (slotOf w size address).isSome then s.freeCount else s.freeCount + 1 }

/-- Refuse a journal write and record it (R102). -/
def State.refuseJournal (s : State) (c : Charter) (why : Reason) (tx : Transaction) : State :=
  let w := c.window .journal
  let s1 := (s.refuse c .journal why tx).countFreeSlot w 64 tx.start
  s1.withJournal { s1.journal with
    lastRefusal := some
      { reason := why, slot := s.addressedSlot w 64 tx.start,
        till := if tx.len = 64 ∧ (slotStart w 64 tx.start).isSome then journalTill tx.data else 0 } }

/-! ## Work on till contexts (R104) -/

/-- Work becomes due. -/
def State.addWork (s : State) (k : JournalWork) : State :=
  s.withJournal { s.journal with works := if k ∈ s.journal.works then s.journal.works else s.journal.works ++ [k] }

def State.dropWork (s : State) (k : JournalWork) : State :=
  s.withJournal { s.journal with works := s.journal.works.erase k }

/-- The open block of a till is due for an idle close (R135). -/
def State.idleDue (s : State) (c : Charter) (t : Nat) : Bool :=
  let x := s.till t
  decide (x.block.count ≠ 0) && decide (c.idleClose ≤ (s.phase.mono - x.lastSecond).toNat)

/-- The idle closes (R135). -/
def State.idleWork (s : State) (c : Charter) : State := s.closeBlocks c (fun t => s.idleDue c t) { idle := true }

/-- The power-fail closes (R136). -/
def State.powerWork (s : State) (c : Charter) : State := s.closeBlocks c (fun _ => true) { power := true }

/-- The new-day work on one context (R107, R130). -/
def TillContext.newDay (x : TillContext) : TillContext :=
  { x with
    totals := {}
    signedOn := false
    acc := if x.block.count = 0 then crcSeed else x.acc
    seedMark := true }

/-- The new-day work (R107). -/
def State.newDayContexts (s : State) : State :=
  s.withJournal { s.journal with tills := s.journal.tills.map TillContext.newDay }

/-- The result of the control record in hand is known (R193). -/
def State.setResult (s : State) (r : ControlResult) (clamped : Bool) : State :=
  s.withControl { s.control with record := s.control.record.map (fun x => { x with result := some r, clamped }) }

/-- The till that a TILL_RESET names is CLOSED with its sequence unknown, and the work is done (R126). -/
def State.resetDone (s : State) (t : Nat) : State :=
  (s.setTill t { s.till t with state := .closed, expected := none }).setResult .done false

/-- The reset of a till (R126). -/
def State.resetTill (s : State) (c : Charter) (t : Nat) : State :=
  ((s.setTill t ((s.till t).abandon .ready)).closeBlock c t { reset := true }).orDefer .journal (.resetDone t)
    (fun s => s.resetDone t)

/-- Steps 1 and 2 of R141 on one context. -/
def TillContext.signOffNight (x : TillContext) : TillContext :=
  let y := x.abandon .ready
  if y.state = .ready then { y with state := .closed } else y

/-- The TILL_DAY record of a till for a day closed at a second (R142); the sequence of an unknown one is a free value
(log 18). -/
def State.tillDay (s : State) (t : Nat) (day : Word16) (clock : Nat) : UploadRecord :=
  let x := s.till t
  .tillDay t day clock (~~~x.acc)
    (match x.expected with
      | some e => e
      | none => Config.freeSequence s.freeCount)
    x.expected.isSome x.totals

/-- The sum of two sets of day totals, each kept within its range (R39, R143). -/
def DayTotals.add (a b : DayTotals) : DayTotals where
  sales := addUpTo Config.maxMoney a.sales b.sales
  refunds := addUpTo Config.maxMoney a.refunds b.refunds
  baskets := addUpTo Config.maxCount a.baskets b.baskets
  refundCount := addUpTo Config.maxCount a.refundCount b.refundCount
  cancelled := addUpTo Config.maxCount a.cancelled b.cancelled
  abandoned := addUpTo Config.maxCount a.abandoned b.abandoned
  voids := addUpTo Config.maxCount a.voids b.voids
  noSales := addUpTo Config.maxCount a.noSales b.noSales
  mismatches := addUpTo Config.maxCount a.mismatches b.mismatches
  outOfState := addUpTo Config.maxCount a.outOfState b.outOfState
  lineFaults := addUpTo Config.maxCount a.lineFaults b.lineFaults
  gaps := addUpTo Config.maxCount a.gaps b.gaps
  duplicates := addUpTo Config.maxCount a.duplicates b.duplicates

/-- Steps 4 and 5 of R141: the summaries of a day closed at a second (R142, R143). -/
def State.summariesNow (s : State) (c : Charter) (day : Word16) (clock : Nat) : State :=
  let ts := List.range c.tillCount
  let signed := ts.filter (fun t => (s.till t).signedOn)
  let s1 := signed.foldl (fun s t =>
    { s.handUpload c (s.tillDay t day clock) with
      freeCount := if (s.till t).expected.isSome then s.freeCount else s.freeCount + 1 }) s
  s1.handUpload c (.branchDay signed.length day clock (ts.foldl (fun a t => a.add (s.till t).totals) {}))

/-- The NIGHT-entry work (R141 to R143). -/
def State.nightWork (s : State) (c : Charter) : State :=
  let s1 := (List.range c.tillCount).foldl (fun s t => s.setTill t (s.till t).signOffNight) s
  let day := s.phase.day
  let clock := s.phase.clock
  (s1.closeBlocks c (fun _ => true) { night := true }).orDefer .journal (.summaries day clock)
    (fun s => s.summariesNow c day clock)

end Sys2Proof.Machine
end

