-- ==== Sys2Proof/Machine/IntakeOps.lean ====
section
/-! DEFINITION. Shared operations of the intake unit (chapter Price Changes from Head Office): the judgement of half-blocks,
the transition of an accepted block, the apply gate, the validation of records, and the course of an apply. -/

namespace Sys2Proof.Machine

/-- Blocks accepted: the occupied slots (R43, R48). -/
def State.blocksAccepted (s : State) : Nat := (s.intake.producer - s.intake.consumer).toNat

/-- Both index words, the consumer word first, when one event sets both (R43, R198). -/
def State.writeIntakeIndexes (s : State) (c : Charter) : State :=
  let both := ownIndex .intake (c.window .intake) (some s.intake.producer) (some s.intake.consumer) .silent
  (s.placeOwn both).placeOwn both

/-! ## Half-blocks (R44 to R47, R49 to R54) -/

/-- A refusal of the intake unit: the reason, the header at hand, and whether it breaks a batch in RECEIVING. -/
structure HalfRefusal where
  why    : Reason
  header : Option BlockHeader
  breaks : Bool := false
  deriving DecidableEq, Repr

/-- Tests 6 of R45: the outcome of a header in a batch state (R49 to R52, R54). -/
def State.headerOutcome (s : State) (h : BlockHeader) : Except Reason BlockOutcome :=
  match s.intake.state with
  | .idle => if h.block = 0 then .ok .starts else .error .notStart
  | .broken => if h.block = 0 then .ok .starts else .error .broken
  | .receiving =>
    if h.batch = s.intake.batch ∧ h.block = s.blocksAccepted then .ok .continues
    else if h.block = 0 ∧ h.batch ≠ s.intake.batch then .ok .supersedes
    else .error .outOfOrder
  | .complete => .error .busy
  | .applying => .error .busy

/-- The block is too long (R53). -/
def State.tooLong (s : State) (c : Charter) (h : BlockHeader) (o : BlockOutcome) : Bool :=
  let held := if o = .continues then s.blocksAccepted else 0
  !h.ends && (held + 1 == (c.window .intake).slots || h.block == 65535)

/-- A lower half judged by the tests of R45 in order: the slot is one whose start the write addresses. -/
def State.judgeLower (s : State) (c : Charter) (slot : Nat) (tx : Transaction) : Except HalfRefusal HalfBlock :=
  let h := blockHeader tx.data
  if !tx.fullWrite 128 then .error { why := .wrongSlot, header := none }
  else if s.reloading then .error { why := .busy, header := some h }
  else if s.intake.state = .complete ∨ s.intake.state = .applying then .error { why := .busy, header := some h }
  else if slot ≠ s.intake.producer.toNat % (c.window .intake).slots then .error { why := .wrongSlot, header := some h }
  else if 15 < h.count then .error { why := .badCheck, header := some h, breaks := true }
  else match s.headerOutcome h with
    | .error why => .error { why, header := some h, breaks := true }
    | .ok o =>
      if s.tooLong c h o then .error { why := .tooLong, header := some h, breaks := true }
      else .ok { slot, header := h, running := crcFeed crcSeed (withoutCheckField tx.data), outcome := o }

/-- An upper half judged against the half-block record (R44, R46). DESIGN CHOICE (log 38): an upper half whose slot has become
occupied since its lower half was judged (the same block sent twice before its first upper half completes) is forwarded like
any other that R46 accepts, though R57 says that no upstream write reaches an occupied slot. -/
def State.judgeUpper (s : State) (c : Charter) (tx : Transaction) : Except HalfRefusal HalfBlock :=
  match s.intake.half with
  | none => .error { why := .wrongSlot, header := none }
  | some h =>
    if tx.start ≠ slotAddr (c.window .intake).base 256 h.slot + 128 then
      .error { why := .wrongSlot, header := some h.header }
    else if !tx.fullWrite 128 then .error { why := .wrongSlot, header := some h.header }
    else if ~~~crcFeed h.running tx.data = h.header.check then .ok h
    else .error { why := .badCheck, header := some h.header, breaks := true }

/-- The write is at the upper half's place of the half-block record held, which it then discards (R44). -/
def State.atUpperPlace (s : State) (c : Charter) (tx : Transaction) : Bool :=
  match s.intake.half with
  | some h => tx.start == slotAddr (c.window .intake).base 256 h.slot + 128
  | none => false

def State.setHalf (s : State) (h : Option HalfBlock) : State := s.withIntake { s.intake with half := h }

/-- The slot of INTAKE that a refused write addressed; a write that addresses no slot takes a free value (log 17). -/
def State.intakeSlot (s : State) (c : Charter) (tx : Transaction) : Word32 :=
  let w := c.window .intake
  if w.base + 64 ≤ tx.start ∧ (tx.start - w.base - 64) / 256 < w.slots then
    BitVec.ofNat 32 ((tx.start - w.base - 64) / 256)
  else Config.freeSlot s.freeCount

/-- A batch in RECEIVING breaks, with its report (R46, R50, R53). DESIGN CHOICE (log 38): R46 gives the effect of a bad check in
RECEIVING, IDLE and BROKEN; at an upper half whose batch has become COMPLETE or APPLYING since its lower half, the half is
refused and the batch stays as it is. -/
def State.breakBatch (s : State) (why : Reason) (claimed : Nat) : State :=
  if s.intake.state = .receiving then
    (s.withIntake { s.intake with state := .broken, brokenReason := why }).report
      (.batchBroken s.intake.batch why claimed s.blocksAccepted)
  else s

/-- Refuse a half-block and record it (R47). -/
def State.refuseHalf (s : State) (c : Charter) (r : HalfRefusal) (tx : Transaction) : State :=
  let slot := s.intakeSlot c tx
  let w := c.window .intake
  let inSlots := w.base + 64 ≤ tx.start ∧ (tx.start - w.base - 64) / 256 < w.slots
  let s1 : State := s.refuse c .intake r.why tx
  let s2 := { s1 with freeCount := if inSlots then s1.freeCount else s1.freeCount + 1 }
  let s3 := s2.withIntake { s2.intake with
    lastRefusal := some
      { reason := r.why, slot, block := r.header.elim 0 BlockHeader.block, batch := r.header.elim 0 BlockHeader.batch } }
  if r.breaks then s3.breakBatch r.why (r.header.elim 0 BlockHeader.block) else s3

/-! ## Applying (R55 to R60) -/

/-- Place the two own reads of the block that applies (R57). -/
def State.readBlock (s : State) (c : Charter) : State :=
  let w := c.window .intake
  let a := slotAddr w.base 256 ((s.intake.consumer.toNat + s.intake.applyBlock) % w.slots)
  (s.placeOwn (ownRead .intake a 128 .intakeRead)).placeOwn (ownRead .intake (a + 128) 128 .intakeRead)

/-- The apply gate (R55). -/
def State.gateOpen (s : State) : Bool :=
  s.intake.state == .complete && s.isActive && !s.phase.warning &&
    (s.intake.urgent || s.phase.phase == some .night || s.phase.phase == some .opening)

/-- Begin to apply when the apply gate is open (R55). -/
def State.gateNow (s : State) : State :=
  match s.charter with
  | none => s
  | some c =>
    if s.gateOpen then
      (s.withIntake { s.intake with
        state := .applying, applied := 0, skipped := 0, clamped := 0, listFull := 0, firstSkip := none
        applyBlock := 0, block := none, next := 0, awaiting := 0, handedOn := 0 }).readBlock c
    else s

/-- Examine the apply gate, after what the unit has still to do (R55). -/
def State.examineGate (s : State) : State := s.orDefer .intake .gate State.gateNow

/-- The outcome that the header of an accepted block has when its upper half's write completes. DESIGN CHOICE (log 38): it is
the outcome decided at the lower half unless the batch or the next slot has changed meanwhile; then it is the outcome that the
header has in the state as it stands, and a block that is no longer acceptable there makes no transition. -/
def State.outcomeNow (s : State) (c : Charter) (h : HalfBlock) : Option BlockOutcome :=
  if h.slot = s.intake.producer.toNat % (c.window .intake).slots then (s.headerOutcome h.header).toOption else none

/-- A block 0 begins a new batch (R49, R51, R52). -/
def State.startBatch (s : State) (h : BlockHeader) : State :=
  s.withIntake { s.intake with
    batch := h.batch, urgent := h.urgent, state := if h.ends then .complete else .receiving
    consumer := s.intake.producer, producer := s.intake.producer + 1 }

def State.writeIntakeProducer (s : State) (c : Charter) : State :=
  s.placeOwn (ownIndex .intake (c.window .intake) (some s.intake.producer) none .silent)

/-- The transition of an accepted block (R43, R46, R49 to R52). -/
def State.takeBlock (s : State) (c : Charter) (h : BlockHeader) : BlockOutcome → State
  | .continues =>
    let s1 := s.withIntake { s.intake with
      producer := s.intake.producer + 1, state := if h.ends then .complete else .receiving }
    (s1.writeIntakeProducer c).examineGate
  | .starts =>
    let s1 := s.startBatch h
    (if s.intake.consumer = s.intake.producer then s1.writeIntakeProducer c else s1.writeIntakeIndexes c).examineGate
  | .supersedes =>
    (((s.report (.superseded s.intake.batch s.blocksAccepted h.batch)).startBatch h).writeIntakeIndexes c).examineGate

/-- An accepted block's upper half completes (R46). -/
def State.acceptBlock (s : State) (c : Charter) (h : HalfBlock) : State :=
  match s.outcomeNow c h with
  | some o => s.takeBlock c h.header o
  | none => s

/-- The forwarded upper half that completes makes its own block's transition, and none when a charter has been taken since it was
forwarded (R46, R63, log 38). -/
def State.acceptForwarded (s : State) (c : Charter) (h : Option HalfBlock) : State := h.elim s (fun h => s.acceptBlock c h)

/-! ### Records (R58, R59) -/

/-- The change that a record asks for, with its value clamped, and whether it clamped (R40, R41, R59). -/
def recordChange (r : List Byte) : Option (Change × Bool) :=
  let v := field r 12 4
  match byteAt r 0 with
  | 1 => some (.setPrice (clampPrice v).1, (clampPrice v).2)
  | 2 => some (.setMarkdown (clampMarkdown v).1, (clampMarkdown v).2)
  | 3 => some (.clearMarkdown, false)
  | 4 => some (.setFloor (clampPrice v).1, (clampPrice v).2)
  | 5 => some (.setFlags (bitAt r 12 0) (bitAt r 12 1), false)
  | 6 => some (.setLabel (field r 12 3) (if field r 12 3 = 0 then 0 else byteAt r 15), false)
  | 7 => some (.retire, false)
  | _ => none

/-- Test 4 of R58. -/
def badLabel (r : List Byte) : Bool :=
  let a := field r 12 3
  byteAt r 0 == 6 && a != 0 && (decide (0xFFFF00 ≤ a ∧ a ≤ 0xFFFF0B) || decide (11 < byteAt r 15))

/-- A record validated in the order of R58: the reason it is skipped, or its STAGE request. -/
def judgeRecord (itemCount block record : Nat) (r : List Byte) : Except SkipReason EntryReq :=
  match recordChange r with
  | none => .error .unknownKind
  | some (change, clamped) =>
    let item := field r 4 4
    let eff := EffKind.ofCode (byteAt r 1)
    let second := field r 8 4
    if ¬ item < itemCount then .error .badItem
    else if byteAt r 1 = 0 ∨ 3 < byteAt r 1 ∨ (eff = .atTime ∧ ¬ second < Config.daySeconds) then .error .badTime
    else if badLabel r then .error .badValue
    else .ok { item, kind := .stage change eff second (.intake block record) clamped }

/-- The record count of a block as read: at most 15 (R57). -/
def recordCount (block : List Byte) : Nat := min 15 (byteAt block 6)

/-- The record that the apply hands on next, judged. -/
def State.nextRecord (s : State) : Option (Except SkipReason EntryReq) :=
  match s.intake.state, s.intake.block, s.charter with
  | .applying, some b, some c =>
    if s.intake.next < recordCount b then
      some (judgeRecord c.itemCount s.intake.applyBlock s.intake.next (intakeRecord b s.intake.next))
    else none
  | _, _, _ => none

/-- A record is skipped (R58). -/
def State.skipRecord (s : State) (why : SkipReason) : State :=
  s.withIntake { s.intake with
    next := s.intake.next + 1
    handedOn := s.intake.handedOn + 1
    skipped := s.intake.skipped + 1
    firstSkip := match s.intake.firstSkip with
      | none => some { block := s.intake.applyBlock, record := s.intake.next, reason := why }
      | some f => some f }

/-- Skip the records that fail, up to the next that passes or the end of the block. -/
def State.skipRecords : Nat → State → State
  | 0, s => s
  | n + 1, s =>
    match s.nextRecord with
    | some (.error why) => State.skipRecords n (s.skipRecord why)
    | some (.ok _) => s
    | none => s

/-- The batch state becomes IDLE, with the report of a batch of so many blocks (R60). -/
def State.batchOver (s : State) (blocks : Nat) : State :=
  let i := s.intake
  (s.withIntake { i with state := .idle }).report
    (.batchDone i.batch i.urgent blocks i.applied i.skipped i.clamped i.listFull i.firstSkip)

/-- The apply ends when every record is skipped or answered: the consumer count and its index write, then IDLE and the
report (R60). -/
def State.endApply (s : State) (c : Charter) : State :=
  let i := s.intake
  ((s.withIntake { i with consumer := i.producer, block := none }).placeOwn
    (ownIndex .intake (c.window .intake) none (some i.producer) .silent)).orDefer .intake (.batchDone s.blocksAccepted)
    (fun s1 => s1.batchOver s.blocksAccepted)

/-- After a record or an answer: skip what fails, go on to the next block when this one is handed on, and end the apply after
the last answer (R57 to R60). -/
def State.settleIntake (s : State) : State :=
  match s.charter with
  | none => s
  | some c =>
    let s1 := State.skipRecords 15 s
    match s1.intake.state, s1.intake.block with
    | .applying, some b =>
      if s1.intake.next < recordCount b then s1
      else if s1.intake.applyBlock + 1 < s1.blocksAccepted then
        (s1.withIntake { s1.intake with block := none, next := 0, applyBlock := s1.intake.applyBlock + 1 }).readBlock c
      else if s1.intake.awaiting = 0 then s1.endApply c
      else s1
    | _, _ => s1

/-- The batch in hand has been discarded (R61). -/
def State.batchDiscarded (s : State) : State := s.withIntake { s.intake with state := .idle, half := none }

/-- The answer to a STAGE request of the apply (R59). -/
def State.stagedNow (s : State) (block record : Nat) (clamped listFull : Bool) : State :=
  let i := s.intake
  if i.state = .applying then
    (s.withIntake { i with
      awaiting := i.awaiting - 1
      handedOn := i.handedOn + 1
      applied := if listFull then i.applied else i.applied + 1
      clamped := if clamped && !listFull then i.clamped + 1 else i.clamped
      listFull := if listFull then i.listFull + 1 else i.listFull
      firstSkip := match i.firstSkip with
        | none => if listFull then some { block, record, reason := .listFull } else none
        | some f => some f }).settleIntake
  else s

/-- The answer is heard after what the unit has still to do. -/
def State.stageAnswered (s : State) (block record : Nat) (clamped listFull : Bool) : State :=
  s.orDefer .intake (.staged block record clamped listFull) (fun s => s.stagedNow block record clamped listFull)

end Sys2Proof.Machine
end

