-- ==== Sys2Proof/Machine/SweepOps.lean ====
section
/-! DEFINITION. Shared operations of the sweep controller (chapter The Label Sweep): zone queues and offers, selection and
the taking of items, acknowledgments, the ends of a visit, cancel, and the learning of the base time. -/

namespace Sys2Proof.Machine

/-! ## Zone records, queues and the pool (sections 4.1, 4.2) -/

def State.zoneRec (s : State) (z : Nat) : ZoneRecord := s.sweep.zones.getD z {}

def State.setZone (s : State) (z : Nat) (r : ZoneRecord) : State :=
  s.withSweep { s.sweep with zones := s.sweep.zones.setIfInBounds z r }

def State.zoneQueue (s : State) (z : Nat) : List Nat := s.sweep.queues.getD z []

/-- The zone in whose queue an item stands (R64: at most one). -/
def State.queuedIn (s : State) (item : Nat) : Option Nat :=
  (List.range 12).find? (fun z => (s.zoneQueue z).contains item)

/-- A RESCAN walk begins, or a paused one resumes, when the pool used count is below 512 with RESCAN set (R66, R67). -/
def State.rescanTrigger (s : State) : State :=
  if s.sweep.poolUsed < Config.rescanBelow ∧ s.sweep.rescan then
    match s.sweep.scan with
    | none => s.withSweep { s.sweep with scan := some { start := s.sweep.scanCursor, paused := false } }
    | some w => s.withSweep { s.sweep with scan := some { w with paused := false } }
  else s

/-- An item leaves its zone queue: the pool place is given back and its late record goes (R66). -/
def State.leaveQueue (s : State) (z item : Nat) : State :=
  let zr := s.zoneRec z
  ((s.withSweep { s.sweep with
    queues := s.sweep.queues.setIfInBounds z ((s.zoneQueue z).erase item)
    poolUsed := s.sweep.poolUsed - 1 }).setZone z
    { zr with late := zr.late.filter (fun r => r.item != item) }).rescanTrigger

/-- Remove an item from whichever zone queue holds it (R21, R22). -/
def State.removeQueued (s : State) (item : Nat) : State :=
  match s.queuedIn item with
  | some z => s.leaveQueue z item
  | none => s

/-- Count a pool place as taken; a running RESCAN walk pauses at 1,536 (R65, R67). -/
def State.takePoolPlace (s : State) : State :=
  let n := s.sweep.poolUsed + 1
  s.withSweep { s.sweep with
    poolUsed := n
    scan := match s.sweep.scan with
      | some w => some (if Config.rescanPause ≤ n then { w with paused := true } else w)
      | none => none }

/-- An item joins the tail of a zone queue whose pool place is already counted. -/
def State.joinTail (s : State) (z item : Nat) : State :=
  s.withSweep { s.sweep with queues := s.sweep.queues.setIfInBounds z (s.zoneQueue z ++ [item]) }

/-- The answers to an offer (R65). -/
inductive OfferAnswer where
  | queued | held | full
  deriving DecidableEq, Repr

/-- The outcome of an offer: the state, the answer, whether the item joined a queue now, and whether it joins when the
request leaves the entry update queue. -/
structure Offered where
  st     : State
  answer : OfferAnswer
  joined : Bool
  later  : Bool

/-- The item is taken for the visit in hand and not released (R65, R75). -/
def State.isTaken (s : State) (item : Nat) : Bool :=
  match s.sweep.visit with
  | some v => v.taken.any (fun t => t.item == item && !t.released)
  | none => false

/-- The status of an item's outstanding record. -/
def State.outStatus (s : State) (item : Nat) : Option OutStatus :=
  match s.sweep.visit with
  | some v => (v.table.find? (fun r => r.item == item)).map OutRecord.status
  | none => none

/-- The answer to an offer, in the order of the table of R65. `closing` says that the offer comes from the request that
closes the item's outstanding record. -/
def State.offer (s : State) (item zone : Nat) (closing : Bool) : Offered :=
  if (s.queuedIn item).isSome then { st := s, answer := .queued, joined := false, later := false }
  else if s.isTaken item || s.outStatus item == some .opened || s.outStatus item == some .answeredFault then
    { st := s, answer := .held, joined := false, later := false }
  else if Config.poolDepth ≤ s.sweep.poolUsed then
    { st := s.withSweep { s.sweep with
        rescan := true
        scan := s.sweep.scan.map (fun w => { w with start := item }) }
      answer := .full, joined := false, later := false }
  else if s.outStatus item == some .closing && closing then
    { st := s.takePoolPlace, answer := .queued, joined := false, later := true }
  else { st := s.takePoolPlace.joinTail zone item, answer := .queued, joined := true, later := false }

/-! ## Late lists (R89) -/

/-- Every record of a zone's late list grows older by one; a record of age 4 is dropped. -/
def State.ageLate (s : State) (z : Nat) : State :=
  let zr := s.zoneRec z
  s.setZone z { zr with
    late := (zr.late.map (fun r => { r with age := r.age + 1 })).filter (fun r => decide (r.age < 4)) }

/-- Add a late record, newest first: it replaces the item's own record, and the earliest of 32 is dropped. -/
def State.addLate (s : State) (z : Nat) (r : LateRecord) : State :=
  let zr := s.zoneRec z
  s.setZone z { zr with late := r :: (zr.late.filter (fun q => q.item != r.item)).take (Config.lateDepth - 1) }

/-- The first late record with a label address and a generation, zones 0 to 11, newest first. -/
def State.findLate (s : State) (address : Nat) (gen : Byte) : Option (Nat × LateRecord) :=
  (List.range 12).findSome? (fun z =>
    ((s.zoneRec z).late.find? (fun r => r.address == address && r.gen == gen)).map (fun r => (z, r)))

/-! ## Selection and taking (R71 to R75) -/

/-- A zone's sync is due (R71). -/
def syncDue (c : Charter) (mono : Word32) (z : ZoneRecord) : Bool :=
  match z.lastSync with
  | none => true
  | some l => decide (c.syncMinutes * 60 ≤ (mono - l).toNat)

/-- The kind of visit for which slot `k` qualifies (R71). -/
def State.qualifies (s : State) (c : Charter) (k : Nat) : Option VisitKind :=
  match s.sweep.slots[k - 1]? with
  | none => none
  | some sl =>
    if !sl.enabled then none
    else if sl.sync then
      if !(s.zoneRec sl.zone).dark && syncDue c s.phase.mono (s.zoneRec sl.zone) then some .sync else none
    else if (s.zoneQueue sl.zone).isEmpty then none
    else if !(s.zoneRec sl.zone).dark then some .price
    else if (s.zoneRec sl.zone).probeCycle = Config.probeAfter then some .probe
    else none

/-- One pass of the slot table is counted in every DARK zone (R70, R71). -/
def State.countPass (s : State) : State :=
  s.withSweep { s.sweep with
    zones := s.sweep.zones.map (fun z =>
      if z.dark then { z with probeCycle := min Config.probeAfter (z.probeCycle + 1) } else z) }

/-- Examine `n` slots from slot `k` on, cyclically, up to the first that qualifies (R71). -/
def State.examine (c : Charter) : Nat → Nat → State → State × Option (Nat × VisitKind)
  | 0, _, s => (s, none)
  | n + 1, k, s =>
    match s.qualifies c k with
    | some v => (s, some (k, v))
    | none => if k = 15 then State.examine c n 1 s.countPass else State.examine c n (k + 1) s

/-- Free slots of LABEL_TX (R74). -/
def State.freeFrames (s : State) (c : Charter) : Nat :=
  (c.window .labelTx).slots - backlog s.sweep.txProducer s.sweep.txConsumer

/-- The frame quota of a visit (R73). -/
def visitQuota (c : Charter) (p : Option Phase) (quota : Nat) : VisitKind → Nat
  | .price =>
    if p = some .trading ∨ p = some .closing then max 1 (quota * c.trickle / 8) else quota
  | .probe => 1
  | .sync => 1

def State.setVisit (s : State) (v : Option Visit) : State := s.withSweep { s.sweep with visit := v }

/-- The visit takes its items from the head of its zone's queue and places their FRAME_SENT requests (R75). -/
def State.takeItems (s : State) (c : Charter) (v : Visit) : State :=
  let quota := visitQuota c s.phase.phase ((s.sweep.slots[v.slot - 1]?).elim 0 SweepSlot.quota) v.kind
  let items := (s.zoneQueue v.zone).take (min quota (s.freeFrames c))
  let s1 := items.foldl (fun s i => s.leaveQueue v.zone i) s
  let s2 := s1.setVisit (some { v with stage := .building, taken := items.map (fun i => { item := i, released := false }) })
  items.foldl (fun s i => s.placeEntry .sweep { item := i, kind := .frameSent }) s2

/-- A visit whose slot is chosen goes on when LABEL_TX has a free slot: a SYNC visit takes no item (R75, R91). -/
def State.proceedVisit (s : State) (c : Charter) (v : Visit) : State :=
  if s.freeFrames c = 0 then s
  else match v.kind with
    | .sync => s.setVisit (some { v with stage := .building })
    | .price => s.takeItems c v
    | .probe => s.takeItems c v

/-- Begin the visit of slot `k` (R71, R75); a probe sets its zone's probe cycle count to 0 (R70). -/
def State.beginVisit (s : State) (c : Charter) (k : Nat) (kind : VisitKind) : State :=
  let zone := (s.sweep.slots[k - 1]?).elim 0 SweepSlot.zone
  let v : Visit := { slot := k, zone, kind }
  let s1 := (s.withSweep { s.sweep with current := k, visit := some v }).setSweepState .txWait
  let s2 := if kind = .probe then s1.setZone zone { s1.zoneRec zone with probeCycle := 0 } else s1
  s2.proceedVisit c v

/-- The sweep rests: MANUAL_WAIT in MANUAL, else IDLE. -/
def State.restSweep (s : State) : State := s.setSweepState (if s.sweep.manual then .manualWait else .idle)

/-- The slot at which a selection starts: slot 1 from IDLE and from current slot 0, else the slot after the current one
(R71, R72). -/
def State.firstSlot (s : State) : Nat :=
  if s.sweep.state = .idle ∨ 15 ≤ s.sweep.current then 1 else s.sweep.current + 1

/-- One selection (R71). While the warning stands none is made (R72). DESIGN CHOICE (log 47): a selection that starts at slot 1
because slot 15 was the current slot counts no pass for that start. -/
def State.select (s : State) : State :=
  match s.charter with
  | none => s
  | some c =>
    if s.phase.warning then s.restSweep
    else
      match State.examine c 15 s.firstSlot s with
      | (s1, some (k, kind)) => s1.beginVisit c k kind
      | (s1, none) => (s1.withSweep { s1.sweep with current := 0 }).restSweep

/-- After a visit: a selection from its slot onward in AUTO, MANUAL_WAIT in MANUAL (R76, R80). -/
def State.afterVisit (s : State) : State :=
  if s.sweep.manual then (s.setVisit none).restSweep else (s.setVisit none).select

/-- An IDLE sweep makes a selection, unless the warning stands (R72). -/
def State.wakeNow (s : State) : State := if s.sweep.state = .idle ∧ s.phase.warning = false then s.select else s

/-- An event at which an IDLE sweep makes a selection (R65, R72). -/
def State.wakeSweep (s : State) : State :=
  if s.sweep.state = .idle then s.orDefer .sweep .wake State.wakeNow else s

/-- Go on with a visit whose items are not yet taken. A zone queue that has emptied meanwhile ends the visit (R75, R76). -/
def State.retryNow (s : State) : State :=
  match s.charter, s.sweep.visit with
  | some c, some v =>
    if v.stage = .selected ∧ !v.cancelled ∧ s.freeFrames c ≠ 0 then
      if v.kind ≠ .sync ∧ (s.zoneQueue v.zone).isEmpty then s.afterVisit else s.proceedVisit c v
    else s
  | _, _ => s

/-- A change of the LABEL_TX consumer copy while the items of a visit are not yet taken (R75). -/
def State.retryTake (s : State) : State :=
  match s.sweep.visit with
  | some v => if v.stage = .selected then s.orDefer .sweep .retry State.retryNow else s
  | none => s

/-! ## Cancel (R95 to R97) -/

/-- A cancelled visit that has nothing more to wait for (R95). -/
def Visit.isOver (v : Visit) : Bool := v.cancelled && v.table.isEmpty && v.taken.isEmpty

/-- A cancelled visit is over: in a load the sweep stays STOPPED; else it rests, and from IDLE selects again in AUTO once the
warning is clear (R96, R97, log 31). -/
def State.finishNow (s : State) : State :=
  match s.sweep.visit with
  | some v =>
    if v.isOver then
      if s.isLoading then (s.setVisit none).setSweepState .stopped else (s.setVisit none).restSweep.wakeNow
    else s
  | none => s

/-- A cancelled visit is over when every record has left the table and every taken item is answered (R95). -/
def State.finishCancel (s : State) : State :=
  match s.sweep.visit with
  | some v => if v.isOver then s.orDefer .sweep .finishCancel State.finishNow else s
  | none => s

/-- OPEN and ANSWERED_FAULT: the records that a forced end and a cancel close. -/
def OutStatus.unclosed : OutStatus → Bool
  | .opened => true
  | .answeredFault => true
  | .closing => false

def Visit.closeItem (v : Visit) (item : Nat) : Visit :=
  { v with table := v.table.map (fun r => if r.item = item then { r with status := .closing } else r) }

/-- One record of the table has its closing request placed and becomes CLOSING, unless it has left the table (R80, R81,
R95). -/
def State.closeOne (s : State) (item : Nat) (kind : ReqKind) : State :=
  match s.sweep.visit with
  | some v =>
    if v.table.any (fun r => r.item == item && r.status.unclosed) then
      (s.setVisit (some (v.closeItem item))).placeEntry .sweep { item, kind }
    else s
  | none => s

/-- Close every record of the table with one of the statuses given, in table order. -/
def State.closeRecords (s : State) (v : Visit) (kind : ReqKind) (p : OutStatus → Bool) : State :=
  (v.table.filter (fun r => p r.status)).foldl
    (fun s r => s.orDefer .sweep (.closing r.item kind) (fun s => s.closeOne r.item kind)) (s.setVisit (some v))

/-- Cancel the visit in hand (R95): it is cancelled at once, and the closing requests of its records are placed in order. During
the cancel the sweep shows SETTLE, or STOPPED in a load (log 11). -/
def State.cancelVisit (s : State) : State :=
  match s.sweep.visit with
  | none => s
  | some v =>
    if v.cancelled then s
    else
      ((s.setSweepState (if s.isLoading then .stopped else .settle)).closeRecords
        { v with cancelled := true } .labelReturn OutStatus.unclosed).finishCancel

/-! ## Acknowledgments (section 4.5) and the end of LISTEN (R79) -/

/-- LISTEN is over: in SETTLE after a match, at once without one (R79, R80, R88). -/
def State.endListen (s : State) (v : Visit) : State :=
  if v.isMatched then
    ((s.setSweepState .settle).ageLate v.zone).closeRecords { v with ending := .settling } .labelUnanswered
      (fun st => st == .answeredFault)
  else ((s.setSweepState .settle).ageLate v.zone).setVisit (some { v with ending := .silent })

/-- The sweep is in LISTEN with no OPEN record (R79). -/
def State.nothingOpen (s : State) (v : Visit) : Bool :=
  s.sweep.state == .listen && !v.table.any (fun r => r.status == .opened)

def State.listenNow (s : State) : State :=
  match s.sweep.visit with
  | some v => if s.nothingOpen v then s.endListen v else s
  | none => s

/-- LISTEN ends when the table holds no OPEN record (R79). -/
def State.listenCheck (s : State) : State :=
  match s.sweep.visit with
  | some v => if s.nothingOpen v then s.orDefer .sweep .listen State.listenNow else s
  | none => s

/-- A match counts for its zone (R70): a probe of a DARK zone makes the zone LIT. -/
def State.countMatch (s : State) (z : Nat) (probe : Bool) : State :=
  let zr := s.zoneRec z
  if probe ∧ zr.dark then (s.setZone z { zr with emptyForced := 0, dark := false }).report (.zoneLit z)
  else s.setZone z { zr with emptyForced := 0 }

/-- Ticks since the visit start; a match before the start has no stated tick (log 12). -/
def State.ackTick (s : State) (v : Visit) : Nat :=
  if v.stage = .onAir then (s.micros - v.start) / Config.tickMicros else Config.freeTick s.freeCount

/-- An acknowledgment matched to an OPEN record (R87, R88). -/
def State.matchOpen (s : State) (v : Visit) (r : OutRecord) (ok : Bool) : State :=
  let v' : Visit := { v with
    isMatched := true
    lastAck := s.ackTick v
    table := v.table.map (fun q =>
      if q.item = r.item then { q with status := if ok then .closing else .answeredFault } else q) }
  let s1 : State := { s with freeCount := if v.stage = .onAir then s.freeCount else s.freeCount + 1 }
  let s2 := (s1.setVisit (some v')).countMatch v.zone (v.kind == .probe)
  (if ok then s2.placeEntry .sweep { item := r.item, kind := .labelAck none } else s2).listenCheck

/-- An acknowledgment matched through a late record (R90). -/
def State.matchLate (s : State) (z : Nat) (r : LateRecord) (ok : Bool) : State :=
  let zr := s.zoneRec z
  ((s.setZone z { zr with late := zr.late.filter (fun q => q.item != r.item) }).countMatch z false).placeEntry .sweep
    { item := r.item, kind := .labelAck (some { address := r.address, gen := r.gen, ok }) }

/-- Examine a forwarded acknowledgment (R86). DESIGN CHOICE (log 55): of several OPEN records with its label address and
generation, the first of the outstanding table is matched. -/
def State.ackNow (s : State) (c : Charter) (d : List Byte) : State :=
  let address := field d 0 3
  let gen := d.getD 3 0
  let ok := byteAt d 5 == 1
  if s.sweep.state = .stopped then s
  else if byteAt d 4 < c.qualityMin then s
  else if s.sweep.state = .blank then s
  else
    match s.sweep.visit.bind (fun v =>
        (v.table.find? (fun r => r.status == .opened && r.address == address && r.gen == gen)).map (fun r => (v, r))) with
    | some (v, r) => s.matchOpen v r ok
    | none =>
      match s.findLate address gen with
      | some (z, r) => s.matchLate z r ok
      | none => s

/-- A forwarded acknowledgment is examined when the sweep controller does not wait (R86). -/
def State.examineAck (s : State) (c : Charter) (d : List Byte) : State :=
  s.orDefer .sweep (.ack d) (fun s => s.ackNow c d)

/-- A changeover of an item's label assignment: it leaves its zone queue and the outstanding table, and an item taken for
the visit is released (R21, R79). -/
def State.dropAssignment (s : State) (item : Nat) (queued sent : Bool) : State :=
  let s1 := if queued then s.removeQueued item else s
  match s1.sweep.visit with
  | none => s1
  | some v =>
    ((s1.setVisit (some { v with
      table := if sent then v.table.filter (fun r => r.item != item) else v.table
      taken := v.taken.map (fun t => if t.item = item then { t with released := true } else t) })).listenCheck).finishCancel

/-! ## Base time (R83 to R85) -/

/-- The base time that a history gives (R84). -/
def baseOf (c : Charter) (history : List Nat) : Nat :=
  let b := if history.length < c.averaging then c.baseInitial else (history.take c.averaging).sum / c.averaging
  min (max b c.baseMin) c.baseMax

def State.setBase (s : State) (c : Charter) (history : List Nat) : State :=
  let b := baseOf c history
  s.withSweep { s.sweep with
    history, base := b, blank := b * c.blankFraction / 128, settle := b * c.settleFraction / 128 }

/-- A duration joins the history and the base time is recomputed (R83, R84). -/
def State.recordDuration (s : State) (c : Charter) (d : Nat) : State :=
  s.setBase c ((d :: s.sweep.history).take Config.historyDepth)

/-- A forced PRICE visit without a match counts for its zone; the fourth in a row makes it DARK (R70). -/
def State.countEmptyForced (s : State) (z : Nat) : State :=
  let zr := s.zoneRec z
  let n := min Config.darkAfter (zr.emptyForced + 1)
  if n = Config.darkAfter ∧ !zr.dark then
    (s.setZone z { zr with emptyForced := n, dark := true, probeCycle := 0 }).report (.zoneDark z)
  else s.setZone z { zr with emptyForced := n }

end Sys2Proof.Machine
end

