-- ==== Sys2Proof/Machine/Sources.lean ====
section
/-! DEFINITION. The sources of the entry update queue that produce their requests one by one (R6): what each places next,
how a source fills the queue or comes to wait, and how freed places are given to the sources that wait. -/

namespace Sys2Proof.Machine

/-- The first item of the timed part that due processing still has to place: it stops at the first key above the second
(R13). -/
def dueItem (upTo : Word32) : List ListItem → Option Nat
  | [] => none
  | x :: xs =>
    if upTo.toNat < x.key.toNat then none
    else if x.marked then dueItem upTo xs
    else some x.item

def markItem (item : Nat) (l : List ListItem) : List ListItem :=
  l.map (fun x => if x.item = item then { x with marked := true } else x)

/-- The next request of the RESCAN walk (R67). -/
def State.nextRescan (s : State) : Option (EntryReq × State) :=
  match s.sweep.scan with
  | some w =>
    if w.paused || s.itemCount == 0 then none
    else
      let i := s.sweep.scanCursor
      let j := if s.itemCount ≤ i + 1 then 0 else i + 1
      some ({ item := i, kind := .queueJoin },
        s.withSweep { s.sweep with
          scanCursor := j
          rescan := if j = w.start then false else s.sweep.rescan
          scan := if j = w.start then none else some w })
  | none => none

/-- The next request of a zone resync (R94). -/
def State.nextResync (s : State) : Option (EntryReq × State) :=
  match s.sweep.resync with
  | some z =>
    let last := decide (s.itemCount ≤ z.next + 1)
    some ({ item := z.next, kind := .labelResync (some z.zone) last },
      s.withSweep { s.sweep with resync := if last then none else some { z with next := z.next + 1 } })
  | none => none

/-- What a source that produces its requests one by one places next, and the state once it has placed it. The sweep controller
is one source: a zone resync comes before the RESCAN walk (log 8). -/
def State.nextOf (s : State) : Source → Option (EntryReq × State)
  | .control => none
  | .journal => none
  | .sweep => s.nextResync <|> s.nextRescan
  | .intake =>
    match s.nextRecord with
    | some (.ok r) =>
      some (r, s.withIntake { s.intake with next := s.intake.next + 1, awaiting := s.intake.awaiting + 1 })
    | some (.error _) => none
    | none => none
  | .due =>
    if s.isActive then
      match s.book.dueTo with
      | some m => (dueItem m s.book.timed).map (fun i =>
          ({ item := i, kind := .changeoverDue }, s.withBook { s.book with timed := markItem i s.book.timed }))
      | none => none
    else none
  | .keepWalk =>
    match s.control.load with
    | some l =>
      if l.stage = .walking ∧ s.book.cursor < s.itemCount then
        some ({ item := s.book.cursor, kind := .keep }, s.withBook { s.book with cursor := s.book.cursor + 1 })
      else none
    | none => none

/-- What follows when a source has placed a request: the intake unit skips records that fail and goes on; due processing is
over when it has nothing more to place. -/
def State.settleSource (s : State) : Source → State
  | .intake => s.settleIntake
  | .due =>
    match s.book.dueTo with
    | some m => if dueItem m s.book.timed = none then s.withBook { s.book with dueTo := none } else s
    | none => s
  | .control => s
  | .sweep => s
  | .journal => s
  | .keepWalk => s

/-- A source places its requests, one by one as `next` gives them, while there is room and no source waits, and then waits
(R6). -/
def State.fillFrom (next : State → Option (EntryReq × State)) (src : Source) : Nat → State → State
  | 0, s => s
  | n + 1, s =>
    match next s with
    | none => s
    | some (r, s1) =>
      if s.entryRoom ∧ s.book.wait = [] then State.fillFrom next src n ((s1.pushEntry r).settleSource src)
      else s.waitEntry src

/-- The queue has 64 places, so a source can place no more than 64 requests at once. -/
def State.fill (s : State) (src : Source) : State := State.fillFrom (fun s => s.nextOf src) src (Config.entryDepth + 1) s

/-- The RESCAN walk places its requests (R67). -/
def State.fillRescan (s : State) : State := State.fillFrom State.nextRescan .sweep (Config.entryDepth + 1) s

end Sys2Proof.Machine
end

