-- ==== Sys2Proof/Machine/BookOps.lean ====
section
/-! DEFINITION. Shared operations of the price book unit (chapter The Price Book): the changeover list, staging, changeover,
the label target and its upkeep, what each request kind does to its entry, and how a request ends. -/

namespace Sys2Proof.Machine

/-! ## The changeover list (section 1.4) -/

def State.listCount (s : State) : Nat := s.book.timed.length + s.book.openGroup.length

def State.listItem (s : State) (item : Nat) : Option ListItem :=
  match s.book.timed.find? (fun x => x.item == item) with
  | some x => some x
  | none => s.book.openGroup.find? (fun x => x.item == item)

def State.listed (s : State) (item : Nat) : Bool := (s.listItem item).isSome

/-- The timed part is ordered by key and, among equal keys, by item index (R12). -/
def insertTimed (x : ListItem) : List ListItem → List ListItem
  | [] => [x]
  | y :: ys =>
    if x.key.toNat < y.key.toNat ∨ (x.key = y.key ∧ x.item < y.item) then x :: y :: ys else y :: insertTimed x ys

/-- The open group is ordered by item index (R12). -/
def insertOpen (x : ListItem) : List ListItem → List ListItem
  | [] => [x]
  | y :: ys => if x.item < y.item then x :: y :: ys else y :: insertOpen x ys

/-- An item leaves the changeover list. -/
def State.unlist (s : State) (item : Nat) : State :=
  s.withBook { s.book with
    timed := s.book.timed.filter (fun x => x.item != item)
    openGroup := s.book.openGroup.filter (fun x => x.item != item) }

/-- The mark of a CHANGEOVER_DUE request placed and not yet performed goes with an item that moves in the list. DESIGN CHOICE
(log 44): an item that left the list and joins it again while its request waits has a clear mark. -/
def State.listMark (s : State) (item : Nat) : Bool := (s.listItem item).elim false ListItem.marked

/-- An item takes, or moves to, its place in the timed part. -/
def State.listTimed (s : State) (item : Nat) (key due : Word32) : State :=
  let x : ListItem := { item, key, due, marked := s.listMark item }
  let s1 := s.unlist item
  s1.withBook { s1.book with timed := insertTimed x s1.book.timed }

/-- An item takes, or moves to, its place in the open group. -/
def State.listOpen (s : State) (item : Nat) : State :=
  let x : ListItem := { item, key := 0, due := 0, marked := s.listMark item }
  let s1 := s.unlist item
  s1.withBook { s1.book with openGroup := insertOpen x s1.book.openGroup }

/-- The label deadline of a due second (R12). -/
def deadline (c : Charter) (due : Word32) : Word32 := due + BitVec.ofNat 32 c.labelDeadline

/-! ## What a request does to its entry -/

/-- The item needs labelling and has QUEUED clear (R3). -/
def Entry.needsOffer (e : Entry) : Bool := (e.label == .unconfirmed || e.label == .due) && !e.queued

/-- A request as it is worked out: the state, the entry, whether the entry as read needed an offer already, what is handed on
when the request leaves, whether an item joined a zone queue at once, and whether the entry is written even if it is the same
(R28). -/
structure Work where
  st     : State
  entry  : Entry
  stood  : Bool := false
  acts   : List LeaveAct := []
  joined : Bool := false
  force  : Bool := false

def Work.add (w : Work) (a : LeaveAct) : Work := { w with acts := w.acts ++ [a] }

/-- The item is offered to its zone queue, and the entry takes the answer (R3, R65). -/
def Work.offerNow (w : Work) (item : Nat) (closing : Bool) : Work :=
  let o := w.st.offer item w.entry.zone closing
  { w with
    st := o.st
    entry := { w.entry with queued := o.answer == .queued }
    joined := w.joined || o.joined
    acts := if o.later then w.acts ++ [.join item w.entry.zone] else w.acts }

/-- An item that needs labelling with QUEUED clear is offered by the update that makes it so (R3); one that stood so when the
entry was read is left to the RESCAN walk, unless the request's rule makes the offer anew. -/
def Work.offer (w : Work) (item : Nat) (closing anew : Bool := false) : Work :=
  if w.entry.needsOffer ∧ (w.stood = false ∨ anew = true) then w.offerNow item closing else w

/-- R19. -/
def Entry.targetOf (unit : Nat) (e : Entry) : Nat :=
  if e.pending ∧ e.charge < e.pendingCharge unit then e.pendingCharge unit else e.charge

/-- The label target recomputed, with the label upkeep that follows (R19, R20). -/
def Entry.retarget (unit : Nat) (e : Entry) : Entry :=
  let t := e.targetOf unit
  if e.label = .confirmed ∧ t ≠ e.shown then { e with target := t, label := .due }
  else if e.label = .fault ∧ t ≠ e.target then { e with target := t, label := .due, retry := 0 }
  else { e with target := t }

/-- The pending tuple goes over at once (R15, R16). -/
def Entry.goesAtOnce (unit : Nat) (e : Entry) : Bool :=
  decide (e.pendingCharge unit ≤ e.charge) || e.item == .unused || e.label == .noLabel || e.pRetire ||
    (e.label == .confirmed && decide (e.pendingCharge unit ≤ e.shown))

/-- The pending tuple copied into the live one at a changeover (R2, R15). -/
def Entry.golive (unit : Nat) (mono : Word32) (forced : Bool) (e : Entry) : Entry :=
  { e with
    previous := e.charge
    changeover := mono
    base := e.pBase
    markdown := e.pMarkdown
    floor := e.pFloor
    address := e.pAddress
    zone := e.pZone
    weighed := e.pWeighed
    noMarkdown := e.pNoMarkdown
    charge := e.pendingCharge unit
    item := if e.pRetire then .retired else .active
    pending := false
    waiting := false
    forced
    generation := e.generation + 1 }

/-- The label assignment after a changeover that changes it (R21). -/
def Entry.assign (e : Entry) : Entry :=
  if e.address = 0 then { e with label := .noLabel, queued := false, retry := 0 }
  else { e with label := .unconfirmed, shown := 0, sentPrice := 0, retry := 0, queued := false }

/-- A CONFIRMED or FAULT label becomes DUE when a changeover changes the item state between ACTIVE and RETIRED (R20). -/
def Entry.stateUpkeep (before : ItemState) (e : Entry) : Entry :=
  if before ≠ .unused ∧ before ≠ e.item ∧ (e.label = .confirmed ∨ e.label = .fault) then
    { e with label := .due, retry := 0 }
  else e

/-- A forced change's CONFIRMED label becomes DUE (R18). -/
def Entry.forcedUpkeep (forced : Bool) (e : Entry) : Entry :=
  if forced ∧ e.label = .confirmed then { e with label := .due } else e

/-- The pending tuple goes live (R15, R18, R20, R21). -/
def Work.goOver (w : Work) (c : Charter) (item : Nat) (forced : Bool) (closing : Bool := false) : Work :=
  let e := w.entry
  let live := e.golive c.unit w.st.phase.mono forced
  let s1 := w.st.unlist item
  if e.pAddress ≠ e.address ∨ e.pZone ≠ e.zone then
    Work.offer { w with
      st := s1.dropAssignment item e.queued (e.label == .sent)
      entry := live.assign.retarget c.unit } item closing true
  else
    Work.offer { w with st := s1, entry := ((live.stateUpkeep e.item).retarget c.unit).forcedUpkeep forced } item closing

/-- An increase waits for its label with its key at its label deadline (R16). -/
def Work.wait (w : Work) (c : Charter) (item : Nat) (due : Word32) : Work :=
  Work.offer { w with
    st := w.st.listTimed item (deadline c due) due
    entry := Entry.retarget c.unit { w.entry with waiting := true, due } } item

/-! ### STAGE (R9 to R11) -/

/-- The live tuple is copied into the pending tuple when none is pending (R9). -/
def Entry.openPending (e : Entry) : Entry :=
  if e.pending then e
  else
    { e with
      pending := true
      pBase := e.base
      pMarkdown := e.markdown
      pFloor := e.floor
      pAddress := e.address
      pZone := e.zone
      pWeighed := e.weighed
      pNoMarkdown := e.noMarkdown
      pRetire := false }

/-- The fields that a change names are set (R9). -/
def Entry.setChange (e : Entry) : Change → Entry
  | .setPrice b => { e with pBase := b }
  | .setMarkdown m => { e with pMarkdown := m }
  | .clearMarkdown => { e with pMarkdown := 0 }
  | .setFloor f => { e with pFloor := f }
  | .setFlags w n => { e with pWeighed := w, pNoMarkdown := n }
  | .setLabel a z => { e with pAddress := a, pZone := z }
  | .retire => { e with pRetire := true }

/-- The due second that a staging sets (R10). -/
def dueSecond (p : PhaseState) (old : Word32) (second : Nat) : EffKind → Word32
  | .now => p.mono
  | .atTime => p.mono + BitVec.ofNat 32 ((second + Config.daySeconds - p.clock) % Config.daySeconds)
  | .atOpen => old
  | .unset => old

/-- The entry as a staging leaves it, before the label target is recomputed (R9, R10). -/
def Entry.staged (e : Entry) (ch : Change) (eff : EffKind) (due : Word32) : Entry :=
  { (e.openPending.setChange ch) with eff, due, waiting := false, generation := e.generation + 1 }

/-- A STAGE request (R9 to R11); whether a NOW change is held is decided from the entry as read (log 14). -/
def performStage (s : State) (c : Charter) (item : Nat) (e : Entry) (ch : Change) (eff : EffKind) (second : Nat)
    (src : StageSource) (clamped : Bool) : Work :=
  let due := dueSecond s.phase e.due second eff
  let st := e.staged ch eff due
  let hold := !st.goesAtOnce c.unit
  let needsPlace := eff != .now || hold
  if needsPlace ∧ s.listed item = false ∧ Config.listDepth ≤ s.listCount then
    { st := s, entry := e, acts := [.staged src clamped true] }
  else
    let w : Work := { st := s, entry := st.retarget c.unit, stood := e.needsOffer, acts := [.staged src clamped false] }
    match eff with
    | .now => if hold then w.wait c item due else w.goOver c item false
    | .atTime => { w with st := s.listTimed item due due }.offer item
    | .atOpen => { w with st := s.listOpen item }.offer item
    | .unset => { w with st := s.listOpen item }.offer item

/-! ### CHANGEOVER_DUE (R13, R18) -/

/-- A request mark is cleared. -/
def State.unmark (s : State) (item : Nat) : State :=
  let f := fun (x : ListItem) => if x.item = item then { x with marked := false } else x
  s.withBook { s.book with timed := s.book.timed.map f, openGroup := s.book.openGroup.map f }

/-- The item of the timed part whose key is due (R13). -/
def State.timedDue (s : State) (item : Nat) : Option ListItem :=
  (s.book.timed.find? (fun x => x.item == item)).filter (fun x => decide (x.key.toNat ≤ s.phase.mono.toNat))

def performDue (s : State) (c : Charter) (item : Nat) (e : Entry) : Work :=
  let s1 := s.unmark item
  match s1.timedDue item with
  | none => { st := s1, entry := e }
  | some x =>
    let w : Work := { st := s1, entry := e, stood := e.needsOffer }
    if e.waiting then
      let w1 := w.goOver c item true
      w1.add (.report (.forcedChangeover item w1.entry.label e.charge w1.entry.charge w1.entry.shown))
    else if e.goesAtOnce c.unit then w.goOver c item false
    else w.wait c item x.due

/-! ### Requests of the sweep controller (R22, R82, R90, R94) -/

def performJoin (s : State) (item : Nat) (e : Entry) : Work := Work.offer { st := s, entry := e } item

/-- An item released from its visit by R21. -/
def State.released (s : State) (item : Nat) : Bool :=
  match s.sweep.visit with
  | some v => v.taken.any (fun t => t.item == item && t.released)
  | none => false

def Entry.sentNow (unit : Nat) (e : Entry) : Entry :=
  let e1 := e.retarget unit
  { e1 with label := .sent, sentPrice := e1.target, sentGen := e1.generation, queued := false }

def performFrame (s : State) (c : Charter) (item : Nat) (e : Entry) : Work :=
  if s.released item then { st := s, entry := e, acts := [.frame item none] }
  else if e.label = .unconfirmed ∨ e.label = .due then
    let e1 := e.sentNow c.unit
    { st := s, entry := e1
      acts := [.frame item (some
        { item, address := e1.address, price := e1.sentPrice, gen := e1.sentGen, withdrawn := e1.item == .retired })] }
  else { st := s, entry := { e with queued := false }, acts := [.frame item none] }

/-- A confirmed price recorded in the entry (R22). -/
def Entry.acked (unit : Nat) (e : Entry) : Entry :=
  let t := e.targetOf unit
  { e with shown := e.sentPrice, retry := 0, target := t, label := if t = e.sentPrice then .confirmed else .due }

/-- A waiting increase that its label now shows goes over within the same request (R17). -/
def Work.release (w : Work) (c : Charter) (item : Nat) : Work :=
  if w.entry.waiting ∧ w.entry.label = .confirmed ∧ w.entry.pendingCharge c.unit ≤ w.entry.shown then
    w.goOver c item false true
  else w

def performAck (s : State) (c : Charter) (item : Nat) (e : Entry) : Work :=
  if e.label = .sent then
    ((Work.offer { st := s, entry := e.acked c.unit, acts := [.close item] } item true).release c item)
  else { st := s, entry := e, acts := [.close item] }

/-- A LABEL_ACK request marked late (R90). -/
def performLate (s : State) (c : Charter) (item : Nat) (e : Entry) (l : LateAck) : Work :=
  if e.label = .due ∧ e.queued ∧ e.sentGen = l.gen ∧ e.address = l.address ∧ l.ok then
    let e1 := e.acked c.unit
    if e1.label = .confirmed then
      Work.release { st := s.removeQueued item, entry := { e1 with queued := false } } c item
    else { st := s, entry := e1 }
  else { st := s, entry := e }

/-- The retry count after one more retry: it stays at the top of its range, 7 (R22, DEDUCED: log 45). -/
def nextRetry (n : Nat) : Nat := countUp 7 n

/-- LABEL_UNANSWERED (R22, R82). -/
def performUnanswered (s : State) (c : Charter) (item : Nat) (e : Entry) : Work :=
  let w : Work := { st := s, entry := e, acts := [.close item] }
  if e.label ≠ .sent then w
  else
    let n := nextRetry e.retry
    if n < c.retryLimit then
      let w1 := Work.offer { w with entry := { e with retry := n, label := .due } } item true
      if w1.entry.queued then
        w1.add (.late e.zone { item, address := e.address, gen := e.sentGen, age := 0 })
      else w1
    else
      { w with entry := { e with retry := n, label := .fault, queued := false } }.add
        (.report (.labelFault item e.zone e.address n))

def performReturn (s : State) (item : Nat) (e : Entry) : Work :=
  let w : Work := { st := s, entry := e, acts := [.close item] }
  if e.label = .sent then Work.offer { w with entry := { e with label := .due } } item true else w

def performResync (s : State) (item : Nat) (e : Entry) (zone : Option Nat) (last : Bool) : Work :=
  let w : Work := { st := s, entry := e, acts := [.resynced last] }
  if (e.label = .confirmed ∨ e.label = .fault) ∧ (zone = none ∨ zone = some e.zone) then
    Work.offer { w with entry := { e with label := .due, retry := 0 } } item
  else w

/-! ### KEEP (R28) -/

def State.countLoad (s : State) (f : Load → Load) : State :=
  s.withControl { s.control with load := s.control.load.map f }

def State.loadSecond (s : State) : Word32 := s.control.load.elim 0 Load.second

/-- Steps 2 and 3 of R28. -/
def Entry.keepLive (unit : Nat) (second : Word32) (e : Entry) : Entry :=
  let e1 := { e with queued := false, previous := e.charge, changeover := second }
  let live := e1.liveCharge unit
  if live = e1.charge then e1
  else
    { e1 with
      charge := live, generation := e1.generation + 1, label := if e1.label = .noLabel then .noLabel else .due }

/-- Step 4 of R28. -/
def Work.keepPending (w : Work) (item : Nat) : Work :=
  let e := w.entry
  let s := w.st
  if e.pending = false then w
  else if s.listed item = false ∧ Config.listDepth ≤ s.listCount then
    { w with
      st := s.countLoad (fun l => { l with discarded := l.discarded + 1 })
      entry := { e with waiting := false, pending := false, generation := e.generation + 1 } }
  else if e.eff = .atOpen then { w with st := s.listOpen item, entry := { e with waiting := false } }
  else
    { w with
      st := s.listTimed item s.loadSecond s.loadSecond
      entry := { e with waiting := false, due := s.loadSecond } }

/-- A CONFIRMED entry whose live charge is above its label-shown price (step 5 of R28). -/
def Entry.overcharged (e : Entry) : Bool := e.label == .confirmed && decide (e.shown < e.charge)

/-- Step 5 of R28. -/
def Entry.keepLabel (unit : Nat) (e : Entry) : Entry :=
  Entry.retarget unit (if e.overcharged ∨ e.label = .sent then { e with label := .due } else e)

def performKeep (s : State) (c : Charter) (item : Nat) (e : Entry) (ok : Bool) : Work :=
  if !ok then
    { st := s.countLoad (fun l => { l with repaired := l.repaired + 1 }), entry := Entry.fresh, acts := [.kept], force := true }
  else
    let e1 := e.keepLive c.unit s.loadSecond
    let s1 := if e1.charge = e.charge then s else s.countLoad (fun l => { l with recomputed := l.recomputed + 1 })
    let w : Work := Work.keepPending { st := s1, entry := e1, acts := [.kept] } item
    let s2 := if w.entry.overcharged then w.st.countLoad (fun l => { l with demoted := l.demoted + 1 }) else w.st
    Work.offer { w with st := s2, entry := w.entry.keepLabel c.unit } item

/-! ### All kinds -/

/-- The answer of a PRICE_CHECK request (R8). -/
def priceAnswerOf (e : Entry) : PriceAnswer :=
  { item := e.item, weighed := e.weighed, charge := e.charge, previous := e.previous, changeover := e.changeover }

/-- The work of a request on its entry as taken; `ok` says that the check byte is valid. -/
def perform (s : State) (c : Charter) (r : EntryReq) (e : Entry) (ok : Bool) : Work :=
  match r.kind with
  | .stage ch eff second src clamped => performStage s c r.item e ch eff second src clamped
  | .changeoverDue => performDue s c r.item e
  | .priceCheck => { st := s, entry := e, acts := [.price (priceAnswerOf e)] }
  | .queueJoin => performJoin s r.item e
  | .frameSent => performFrame s c r.item e
  | .labelAck none => performAck s c r.item e
  | .labelAck (some l) => performLate s c r.item e l
  | .labelUnanswered => performUnanswered s c r.item e
  | .labelReturn => performReturn s r.item e
  | .labelResync zone last => performResync s r.item e zone last
  | .keep => performKeep s c r.item e ok

/-! ## A request leaves the queue (R7) -/

/-- A closing request leaves: its record leaves the outstanding table (R77). -/
def State.closeOut (s : State) (item : Nat) : State :=
  match s.sweep.visit with
  | some v => s.setVisit (some { v with table := v.table.filter (fun r => r.item != item) })
  | none => s

/-- A FRAME_SENT request leaves: its item is answered, and with a frame it enters the table; in a cancelled visit it is
returned at once (R76, R77, R95). -/
def State.frameAnswered (s : State) (item : Nat) (f : Option FrameInfo) : State :=
  match s.sweep.visit with
  | none => s
  | some v =>
    let v1 := { v with taken := v.taken.filter (fun t => t.item != item) }
    match f with
    | none => s.setVisit (some v1)
    | some i =>
      let rec1 : OutRecord :=
        { item, address := i.address, gen := i.gen, status := if v.cancelled then .closing else .opened }
      let s1 := s.setVisit (some { v1 with frames := v1.frames ++ [i], table := v1.table ++ [rec1] })
      if v.cancelled then s1.placeEntry .sweep { item, kind := .labelReturn } else s1

/-- One thing handed on when a request leaves the queue (R7). -/
def State.leaveAct (s : State) : LeaveAct → State
  | .report r => s.report r
  | .staged (.intake block record) clamped full => s.stageAnswered block record clamped full
  | .staged .control clamped full => s.setResult (if full then .refusedFull else .done) clamped
  | .price a => s.priceAnswered a
  | .join item zone => s.joinTail zone item
  | .late zone r => s.addLate zone r
  | .close item => s.closeOut item
  | .frame item f => s.frameAnswered item f
  | .resynced last => if last then s.setResult .done false else s
  | .kept => s.countLoad (fun l =>
      let n := l.performed + 1
      { l with
        performed := n
        stage := if l.stage = .walking ∧ s.book.cursor ≤ n ∧ s.itemCount ≤ n then .walked else l.stage })

/-- An item joined a zone queue when the request left. -/
def LeaveAct.joins : LeaveAct → Bool
  | .join _ _ => true
  | _ => false

/-- The head request leaves the queue: what it brings is handed on, the next request begins, and a join or an ended cancel is
taken by the sweep: one selection, for a join that found it IDLE or for the cancel (R7, R72, R95). -/
def State.headLeaves (s : State) (acts : List LeaveAct) : State :=
  let s1 := acts.foldl State.leaveAct (s.withBook { s.book with queue := s.book.queue.tail, headPhase := .notBegun })
  let s2 := s1.beginHead.finishCancel
  if acts.any LeaveAct.joins ∧ s1.sweep.state = .idle then s2.wakeSweep else s2

/-- The head request leaves the queue, and a till read that it held is forwarded before the next request begins (R7, R25). -/
def State.leaveHead (s : State) (acts : List LeaveAct) : State :=
  (s.heldQueues.foldl State.releaseRead s).headLeaves acts

/-- The head request is worked out from the entry that its own read brought (R7, R199). DESIGN CHOICE (log 59): the retry limit
that bounds the count taken is that of the charter whose configuration the request uses, in the walk of a reload the charter
being loaded. -/
def State.performHead (s : State) (b : List Byte) : State :=
  match s.book.queue, s.bookCharter with
  | r :: _, some c =>
    let e := Entry.take c.retryLimit b
    let w := perform s c r e (entryCheckOk b)
    let s1 :=
      if w.force ∨ w.entry ≠ e then
        (w.st.withBook { w.st.book with headPhase := .writing w.acts }).placeOwn
          (ownWrite .book (c.entryAddr r.item) w.entry.bytes .entryWrite)
      else w.st.leaveHead w.acts
    if w.joined ∧ w.st.sweep.state = .idle then s1.wakeSweep else s1
  | _, _ => s

/-- A KEEP request of a FRESH walk writes its entry without reading first (R27). -/
def State.performFresh (s : State) : State :=
  match s.book.queue, s.bookCharter with
  | r :: _, some c =>
    (s.withBook { s.book with headPhase := .writing [.kept] }).placeOwn
      (ownWrite .book (c.entryAddr r.item) Entry.fresh.bytes .entryWrite)
  | _, _ => s

end Sys2Proof.Machine
end

