-- ==== Sys2Proof/Machine/CharterCheck.lean ====
section
/-! DEFINITION. Reading and checking a charter (R190, R200, section 11.10). -/

namespace Sys2Proof.Machine

/-- A window place as read. -/
structure RawWindow where
  kind   : Nat
  base   : Nat
  size   : Nat
  slots  : Nat
  rights : List Nat
  deriving DecidableEq, Repr

/-- The window places that are not empty, in table order. -/
def rawWindows (b : List Byte) : List RawWindow :=
  ((List.range 16).map (fun i =>
    let p := (b.drop (192 + 32 * i)).take 32
    { kind := byteAt p 0, base := field p 4 4, size := field p 8 4, slots := field p 12 4
      rights := (List.range 7).map (fun k => byteAt p (16 + k)) : RawWindow })).filter (fun w => w.kind != 0)

/-- A power of two from 2^lo to 2^hi. -/
def isPow2 (lo hi n : Nat) : Bool := (List.range (hi + 1 - lo)).any (fun k => n == 2 ^ (lo + k))

def inRange (lo hi n : Nat) : Bool := decide (lo ≤ n ∧ n ≤ hi)

/-- ALIGN. -/
def RawWindow.aligned (w : RawWindow) : Bool := isPow2 12 30 w.size && w.base % w.size == 0

/-- Two areas that share an address. -/
def overlaps (a n b m : Nat) : Bool := decide (a < b + m) && decide (b < a + n)

/-- OVERLAP: two windows, or a window and the charter window, share an address. -/
def anyOverlap (charterBase : Nat) : List RawWindow → Bool
  | [] => false
  | w :: ws =>
    overlaps w.base w.size charterBase 65536 || ws.any (fun v => overlaps w.base w.size v.base v.size) ||
      anyOverlap charterBase ws

/-- MISSING_WINDOW: each special kind has exactly one window. -/
def specialsOnce (ws : List RawWindow) : Bool :=
  (List.range 9).all (fun k => (ws.filter (fun w => w.kind == k + 1)).length == 1)

/-- The slot size of a ring window's kind; none for the other kinds (section 11). -/
def slotSize : Nat → Option Nat
  | 2 => some 64 | 3 => some 64 | 4 => some 256 | 5 => some 32 | 6 => some 16 | 7 => some 32 | 8 => some 32 | _ => none

/-- The parts of COUNT_RANGE that concern one window. -/
def RawWindow.inCount (items : Nat) (w : RawWindow) : Bool :=
  inRange 1 11 w.kind &&
  (match slotSize w.kind with
    | some n => isPow2 0 31 w.slots && decide (64 + n * w.slots ≤ w.size)
    | none => true) &&
  (w.kind != 1 || decide (64 * items ≤ w.size)) &&
  (decide (w.kind < 10) || w.rights.all (fun r => decide (r ≤ 2)))

/-- COUNT_RANGE. -/
def countsInRange (b : List Byte) (ws : List RawWindow) : Bool :=
  inRange 1 65536 (field b 16 4) && inRange 1 48 (byteAt b 20) &&
  ws.all (RawWindow.inCount (field b 16 4)) &&
  decide ((ws.filter (fun w => w.kind == 11)).length ≤ 6) && decide ((ws.filter (fun w => w.kind == 10)).length ≤ 6) &&
  (List.range 16).all (fun k => inRange 1 7 (byteAt b (80 + k))) &&
  inRange 1 2 (byteAt b 12) && (byteAt b 12 != 2 || inRange 1 4 (byteAt b 13)) &&
  (byteAt b 14 == 1 || byteAt b 14 == 5 || byteAt b 14 == 10) &&
  inRange 60 14400 (field b 24 2) && decide (field b 26 2 ≤ 600) && inRange 1 255 (byteAt b 28) &&
  inRange 1 240 (byteAt b 29) && inRange 1 8 (byteAt b 22) && inRange 1 7 (byteAt b 21) &&
  (byteAt b 23 == 1 || byteAt b 23 == 2 || byteAt b 23 == 4 || byteAt b 23 == 8) &&
  decide (byteAt b 30 ≤ 127) && decide (byteAt b 31 ≤ 127) &&
  decide (byteAt b 39 ≤ 7) && decide (byteAt b 40 ≤ 7) && decide (byteAt b 41 ≤ 7)

/-- BASE_RANGE. -/
def basesInRange (b : List Byte) : Bool :=
  inRange 10 60000 (field b 32 2) && inRange 10 60000 (field b 34 2) && inRange 10 60000 (field b 36 2) &&
  inRange (field b 32 2) (field b 34 2) (field b 36 2)

/-- Place of slot `s` of the slot table, counted from 0. -/
def slotPlace (b : List Byte) (s : Nat) : List Byte := (b.drop (104 + 4 * s)).take 4

/-- SLOT_TABLE. -/
def slotsInRange (b : List Byte) : Bool :=
  (List.range 15).all (fun s =>
    let p := slotPlace b s
    decide (byteAt p 1 ≤ 11) && inRange 1 2 (byteAt p 2) && inRange 1 32 (byteAt p 3))

def budgetsOf (b : List Byte) : List Nat := (List.range 7).map (fun k => field b (52 + 4 * k) 4)

/-- No budget is above that of the level below it. -/
def falling : List Nat → Bool
  | x :: y :: r => decide (y ≤ x) && falling (y :: r)
  | _ => true

/-- BUDGET_ORDER. -/
def budgetsInOrder (b : List Byte) : Bool := (budgetsOf b).all (inRange 8 1048576) && falling (budgetsOf b)

def journalSlots (ws : List RawWindow) : Nat := ((ws.find? (fun w => w.kind == 2)).map RawWindow.slots).getD 0

/-- TRIGGERS. -/
def triggersInOrder (b : List Byte) (ws : List RawWindow) : Bool :=
  decide (field b 44 4 < field b 48 4) && decide (field b 48 4 ≤ journalSlots ws)

/-- The refusal code of the first test that fails, in the order of the codes (R190, section 11.1). -/
def charterRefusal (charterBase : Nat) (b : List Byte) : Option Nat :=
  let ws := rawWindows b
  if !ws.all RawWindow.aligned then some 16
  else if anyOverlap charterBase ws then some 17
  else if !specialsOnce ws then some 18
  else if !countsInRange b ws then some 19
  else if !basesInRange b then some 20
  else if !slotsInRange b then some 21
  else if !budgetsInOrder b then some 22
  else if !triggersInOrder b ws then some 23
  else none

/-- The charter that bytes 0 to 767 spell, once they have passed the check (section 11.10). -/
def charterOf (b : List Byte) : Charter where
  revision := BitVec.ofNat 32 (field b 8 4)
  keep := byteAt b 12 == 2
  resume := if byteAt b 12 = 2 then Phase.ofCode (byteAt b 13) else none
  unit := byteAt b 14
  itemCount := field b 16 4
  tillCount := byteAt b 20
  retryLimit := byteAt b 21
  trickle := byteAt b 22
  averaging := byteAt b 23
  labelDeadline := field b 24 2
  grace := field b 26 2
  idleClose := byteAt b 28
  syncMinutes := byteAt b 29
  blankFraction := byteAt b 30
  settleFraction := byteAt b 31
  baseMin := field b 32 2
  baseMax := field b 34 2
  baseInitial := field b 36 2
  qualityMin := byteAt b 38
  sweepFloor := byteAt b 39
  tradingFloor := byteAt b 40
  closingFloor := byteAt b 41
  lowTrigger := field b 44 4
  highTrigger := field b 48 4
  budgets := budgetsOf b
  classes := (List.range 16).map (fun k => (Class.ofCode (byteAt b (80 + k))).getD .other)
  openRights := (List.range 7).map (fun k => Right.ofCode (byteAt b (96 + k)))
  slots := (List.range 15).map (fun s =>
    let p := slotPlace b s
    { enabled := byteAt p 0 != 0, zone := byteAt p 1, sync := byteAt p 2 == 2, quota := byteAt p 3 })
  windows := (rawWindows b).map (fun w =>
    { kind := (WindowKind.ofCode w.kind).getD .plain, base := w.base, size := w.size, slots := w.slots
      rights := w.rights.map Right.ofCode })

end Sys2Proof.Machine
end

