-- ==== Sys2Proof/Machine/ControlOps.lean ====
section
/-! DEFINITION. Shared operations of the control unit, the phase unit and the guest pacer that more than one command needs:
the status block, the control ring and its records, changes of the store phase, the flush of the hold queue, and the stages of
a load. -/

namespace Sys2Proof.Machine

/-! ## The status block (R197, section 11.9) -/

/-- DARK zones, bit z for zone z. -/
def State.darkBits (s : State) : Nat := flagBits (s.sweep.zones.toList.map ZoneRecord.dark)

/-- Bytes 84 to 95: the first refusal. -/
def firstRefusalBytes : Option Refused → List Byte
  | none => List.replicate 12 0
  | some r =>
    [1] ++ toLe 1 r.tag.val ++ toLe 1 r.cls.code ++ toLe 1 (directionCode r.dir) ++ toLe 1 r.source.code ++
      toLe 1 r.reason.code ++ toLe 1 r.len ++ [0] ++ toLe 4 r.addr.toNat

/-- The status block as gathered from a state whose status sequence is already incremented. DESIGN CHOICE (log 10): outside
APPLYING the apply position shown is the count of records that the last apply had handed on. -/
def State.statusBytes (s : State) (c : Charter) : List Byte :=
  let j := s.journal
  let i := s.intake
  padTo 128 (
    toLe 1 s.control.part.code ++ toLe 1 (phaseCode s.phase.phase) ++ boolByte s.phase.warning ++
    toLe 1 s.sweep.state.code ++ toLe 4 c.revision.toNat ++ toLe 4 s.control.statusSeq.toNat ++
    toLe 4 s.phase.clock ++ toLe 4 s.phase.mono.toNat ++ toLe 2 s.phase.day.toNat ++ toLe 1 s.guest.level ++
    boolByte s.sweep.manual ++ toLe 4 (backlog j.producer j.consumer) ++
    toLe 1 (j.lastRefusal.elim 0 (fun r => r.reason.code)) ++ toLe 1 (j.lastRefusal.elim 0 JournalRefusal.till) ++ [0, 0] ++
    toLe 4 (j.lastRefusal.elim 0 (fun r => r.slot.toNat)) ++ toLe 2 j.holdList.length ++
    toLe 2 s.sweep.base ++ toLe 2 s.sweep.blank ++ toLe 2 s.sweep.settle ++ toLe 2 s.sweep.poolUsed ++
    boolByte s.sweep.rescan ++ [0] ++ toLe 2 s.darkBits ++ toLe 2 s.listCount ++ toLe 1 i.state.code ++ [0, 0, 0] ++
    toLe 4 i.batch.toNat ++ toLe 4 s.blocksAccepted ++ toLe 4 i.handedOn ++
    toLe 1 (i.lastRefusal.elim 0 (fun r => r.reason.code)) ++ [0] ++ toLe 2 (i.lastRefusal.elim 0 IntakeRefusal.block) ++
    toLe 4 (i.lastRefusal.elim 0 (fun r => r.batch.toNat)) ++ toLe 4 (i.lastRefusal.elim 0 (fun r => r.slot.toNat)) ++
    toLe 2 s.link.refusals ++ toLe 2 s.control.lost ++ firstRefusalBytes s.link.firstRefusal)

/-- Work that is not the beginning of stage 4 of a load and not its end. -/
def Task.beforeAccept : Task → Bool
  | .accept => false
  | .loadWarning => false
  | .activate => false
  | _ => true

/-- Place the write of a status block, or wait with it. DESIGN CHOICE (log 50): when stage 4 of a load waits for room, a block
gathered in LOADING is placed before the part goes ACTIVE (R189, R197). -/
def State.placeStatus (s : State) (r : OwnRequest) : State :=
  if s.waits .control then
    let p : PartUnit × Task → Bool := fun t => t.2.beforeAccept
    s.withLink { s.link with
      tasks := s.link.tasks.takeWhile p ++ (.control, .own r) :: s.link.tasks.dropWhile p }
  else s.placeOwn r

/-- Gather the status block, empty the first-refusal record, and place the write, which waits as gathered when the own-request
queue is full (R171, R197). -/
def State.writeStatus (s : State) : State :=
  match s.charter with
  | none => s
  | some c =>
    let s1 := s.withControl { s.control with statusSeq := s.control.statusSeq + 1 }
    (s1.withLink { s1.link with firstRefusal := none }).placeStatus
      (ownWrite .control (c.window .status).base (s1.statusBytes c) .silent)

/-! ## The control ring (R192, R193) -/

/-- The ADMIN write of the producer index word taken into the producer copy (R192). DESIGN CHOICE (log 50): from stage 4 of a load
on the counts are the new ring's, and a write to the index words of the old ring is not taken. -/
def State.takeControlProducer (s : State) (c : Charter) (v : Word32) : State :=
  let d := (v - s.control.ctlConsumer).toNat
  let n := (c.window .control).slots
  if s.accepting then s
  else if d ≤ n then s.withControl { s.control with ctlProducer := v }
  else if d < 2 ^ 31 then s.withControl { s.control with ctlProducer := s.control.ctlConsumer + BitVec.ofNat 32 n }
  else s

/-- Records that wait (R192). DESIGN CHOICE (log 51): a producer copy that was lowered to the consumer count while a record was in
hand stands behind the consumer once that record is done; no record waits then. -/
def State.controlWaiting (s : State) : Bool :=
  let d := (s.control.ctlProducer - s.control.ctlConsumer).toNat
  decide (0 < d ∧ d < 2 ^ 31)

/-- Stage 4 of a load has begun: no record of the old ring is taken any more (R191). -/
def State.ringClosed (s : State) : Bool :=
  match s.control.load with
  | some l => l.stage == .walked || l.stage == .accepted
  | none => false

def State.fetchNow (s : State) : State :=
  match s.charter with
  | none => s
  | some c =>
    if s.control.record = none ∧ s.controlWaiting ∧ s.ringClosed = false then
      let w := c.window .control
      (s.withControl { s.control with record := some {} }).placeOwn
        (ownRead .control (slotAddr w.base 32 (s.control.ctlConsumer.toNat % w.slots)) 32 .controlRead)
    else s

/-- Read the next control record when one waits and none is in hand (R193). -/
def State.fetchControl (s : State) : State := s.orDefer .control .fetch State.fetchNow

/-- A record whose result is known is done: the consumer count and its index word move, and CONTROL_DONE is written (R193). -/
def State.finishControl (s : State) (c : Charter) (r : ControlRecord) (res : ControlResult) : State :=
  let n := s.control.ctlConsumer + 1
  ((s.withControl { s.control with ctlConsumer := n, record := none }).placeOwn
    (ownIndex .control (c.window .control) none (some n) .silent)).report (.controlDone r.tag r.kind res r.clamped)

/-- The first answer of an own read with a purpose, and the state without it. -/
def State.takeRead (s : State) (p : Purpose) : Option (List Byte × State) :=
  let hit : Issued → Bool := fun i =>
    match i with
    | .own q _ => q.purpose == p && (match q.body with | .read _ => true | _ => false)
    | .pass _ _ => false
  match s.link.issued.find? hit with
  | some (.own _ d) => some (d, s.withLink { s.link with issued := s.link.issued.eraseP hit })
  | some (.pass _ _) => none
  | none => none

/-- The first answered own write with a purpose that `p` picks, and the state without it. -/
def State.takeWritten (s : State) (p : Purpose → Bool) : Option (Purpose × State) :=
  let hit : Issued → Bool := fun i =>
    match i with
    | .own q _ => p q.purpose && (match q.body with | .read _ => false | _ => true)
    | .pass _ _ => false
  match s.link.issued.find? hit with
  | some (.own q _) => some (q.purpose, s.withLink { s.link with issued := s.link.issued.eraseP hit })
  | some (.pass _ _) => none
  | none => none

/-- A control record whose read has returned is taken when its kind byte is one that `p` picks (R193). -/
def State.takeControl (s : State) (p : Nat → Bool) : Option (List Byte × State) :=
  match s.takeRead .controlRead with
  | some (d, s1) =>
    if p (byteAt d 0) then
      some (d, s1.withControl { s1.control with
        record := some { fetched := true, tag := BitVec.ofNat 16 (field d 2 2), kind := d.getD 0 0 } })
    else none
  | none => none

/-- Every kind but SET_PHASE, SET_CLOCK and SWEEP_MODE is refused REFUSED_BUSY while the part is LOADING (R193). -/
def State.unlessLoading (s : State) (f : State → State) : State :=
  if s.isLoading then s.setResult .refusedBusy false else f s

/-! ## Changes of the store phase (R155, R178 to R180) -/

/-- Every held guest transaction is refused PHASE, head first (R155). -/
def State.flushHold (s : State) (c : Charter) : State :=
  s.link.hold.foldl (fun s tx => s.refuse c .pacer .phase tx) (s.withLink { s.link with hold := [] })

/-- The guest pacer at the change to OPENING or NIGHT: flush, floor and level 7 (R154, R155). -/
def State.closeGuests (s : State) (c : Charter) : State :=
  let s1 := (s.flushHold c).refloor
  s1.withGuest { s1.guest with level := 7 }

/-- The guest pacer at the change to TRADING: the level is set to the floor (R155). -/
def State.openGuests (s : State) : State :=
  let s1 := s.refloor
  s1.withGuest { s1.guest with level := s1.guest.floor }

/-- Every item of the open group moves into the timed part, due at the second of the change (R14). -/
def State.moveOpenGroup (s : State) : State :=
  s.withBook { s.book with
    timed := s.book.openGroup.foldl
      (fun l x => insertTimed { x with key := s.phase.mono, due := s.phase.mono } l) s.book.timed
    openGroup := [] }

/-- The phase next after a phase in the cycle (R178). -/
def Phase.next : Phase → Phase
  | .opening => .trading
  | .trading => .closing
  | .closing => .night
  | .night => .opening

/-- The new phase is recorded, with the business day at OPENING, and reported (R179, R180). -/
def State.recordPhase (s : State) (p : Phase) : State :=
  let day := if p = .opening then s.phase.day + 1 else s.phase.day
  (s.withPhase { s.phase with phase := some p, day }).report (.phaseChanged s.phase.phase (some p) day s.phase.clock)

/-- The entry work of each unit at a change of phase, in the order of the table of R179. -/
def State.enterPhase (s : State) (c : Charter) : Phase → State
  | .opening => ((s.addWork .newDay).closeGuests c).examineGate
  | .trading => (s.moveOpenGroup.openGuests).examineGate
  | .closing => s.refloor.examineGate
  | .night => ((s.nightWork c).closeGuests c).examineGate

/-- A change of phase is made (R179), and the status block is written anew (R178). -/
def State.changePhase (s : State) (c : Charter) (p : Phase) : State := ((s.recordPhase p).enterPhase c p).writeStatus

/-! ## Work of the journal unit (R104, R139) -/

/-- One piece of work that is due, taken whole. The request for NIGHT is answered here: BUSY while the hold list is not empty,
else the change is made (R139, R179). -/
def State.takeWork (s : State) (c : Charter) (k : JournalWork) : State :=
  let s1 := s.dropWork k
  match k with
  | .idleClose => s1.idleWork c
  | .powerClose => s1.powerWork c
  | .newDay => s1.newDayContexts
  | .tillReset t => s1.resetTill c t
  | .nightEntry =>
    if s1.journal.holdList = [] then (s1.changePhase c .night).setResult .done false
    else s1.setResult .refusedBusy false

/-- Work of one kind is taken when it is due and the unit is free (R104). -/
def State.workNow (s : State) (k : JournalWork) : State :=
  match s.charter with
  | some c => if k ∈ s.journal.works ∧ s.journalFree then s.takeWork c k else s
  | none => s

/-- The work that is due, in the order in which it became due, while the unit is free; what is left follows the piece of work
that waits. -/
def State.workAll (s : State) : State := (s.journal.works.foldl State.workNow s).orDefer .journal .works id

/-! ## The stages of a load (R189) -/

/-- The part enters LOADING: the sweep stops, the half-block record goes, the result word is written and the charter is read
(R63, R97, R188, R189). DESIGN CHOICE (log 50): the part is LOADING from the moment at which the load word write or the reload is
taken, also when the requests of the control unit wait for room. DESIGN CHOICE (log 54): a walk of due processing that still waits
for room then is dropped (R13, R29), and stays so when the load is refused. -/
def State.loadNow (s : State) : State :=
  let s1 := s.withControl { s.control with part := .loading, load := some {} }
  let s2 := (s1.withIntake { s1.intake with half := none }).withBook { s1.book with dueTo := none }
  let s3 := (s2.setSweepState .stopped).cancelVisit
  (s3.writeResult 1).placeOwns
    ((List.range 6).map (fun k => ownRead .control (s3.charterBase + 128 * k) 128 .charterRead))

/-- A write of 1 to the load word (R188). -/
def State.loadWordNow (s : State) : State := if s.control.part = .pass then s.loadNow else s.writeResult 3

/-- The sweep leaves STOPPED at the end of a load: to a selection in AUTO, to MANUAL_WAIT in MANUAL; a cancel not yet over
goes on first (R97). -/
def State.resumeSweep (s : State) : State :=
  match s.sweep.visit with
  | some _ => s.setSweepState .settle
  | none => s.restSweep.wakeSweep

/-- The load of a refused charter ends: the part is in PASS or ACTIVE as before (R189, R190, R97). -/
def State.endLoadNow (s : State) : State :=
  match s.control.load with
  | some l =>
    if l.stage = .reading then
      let s1 := s.withControl { s.control with part := if s.inForce then .active else .pass, load := none }
      if s1.inForce then s1.resumeSweep else s1
    else s
  | none => s

/-- A refused charter: its refusal code is written, and the load ends (R189, R190). -/
def State.refuseCharter (s : State) (code : Nat) : State :=
  (s.writeResult code).orDefer .control .endLoad State.endLoadNow

/-- The own reads of the charter have all returned: their bytes in order, and the state without them. -/
def State.takeCharterReads : Nat → State → Option (List Byte × State)
  | 0, s => some ([], s)
  | n + 1, s =>
    match s.takeRead .charterRead with
    | some (d, s1) => (State.takeCharterReads n s1).map (fun q => (d ++ q.1, q.2))
    | none => none

/-- The walk begins: the changeover list, the queues and the late lists are empty, and no RESCAN walk runs (R27 to R29,
R67, R97). -/
def State.startWalk (s : State) (l : Load) : State :=
  let s1 := s.withControl { s.control with load := some { l with stage := .walking, second := s.phase.mono } }
  let s2 := s1.withBook { s1.book with timed := [], openGroup := [], cursor := 0 }
  (s2.withSweep { s2.sweep with
    queues := Vector.replicate 12 []
    poolUsed := 0
    zones := s2.sweep.zones.map (fun z => { z with late := [] })
    rescan := false
    scan := none
    scanCursor := 0 }).fill .keepWalk

/-- Own writes of 0 into both index words of a ring of the new charter (R63, R74, R99, R145, R189). DESIGN CHOICE (log 50): the
control unit places them for every ring, so that they stand before the reports of stage 4. -/
def State.zeroIndexes (s : State) (c : Charter) (k : WindowKind) : State :=
  let r := ownIndex .control (c.window k) (some 0) (some 0) .silent
  (s.placeOwn r).placeOwn r

/-- The rings whose index words are set to 0. -/
def zeroedRings : List WindowKind := [.intake, .labelTx, .journal, .upload, .control, .report]

/-- The phase in force after an accepted load (R186). -/
def State.loadPhase (s : State) (c : Charter) : Option Phase :=
  if s.inForce then s.phase.phase else if c.keep then c.resume else some .night

/-- The units take their part of the new charter, which comes into force (R69, R83, R84, R97, R156, R158, R186). -/
def State.takeCharter (s : State) (c : Charter) : State :=
  let p := s.loadPhase c
  let floor := floorFor c p .stopped
  let s1 : State := { s with charter := some c }
  let s2 := (s1.withSweep { s1.sweep with slots := c.slots, current := 0, zones := Vector.replicate 12 {} }).setBase c []
  let s3 := s2.withGuest
    { level := if p = some .trading ∨ p = some .closing then floor else 7, periodBytes := 0, floor }
  s3.withPhase { s3.phase with phase := p }

/-- The KEEP_REPAIRED report of a walk (R28). -/
def repairedReport (l : Load) : List Report :=
  if 0 < l.repaired + l.recomputed + l.discarded + l.demoted then
    [.keepRepaired l.repaired l.recomputed l.discarded l.demoted] else []

/-- Transactions in the PASS accept queue move into the accept queues of their classes (R159). DESIGN CHOICE (log 48): at a
reload a transaction stays in the accept queue that it joined, whatever the class of its tag is then. DESIGN CHOICE (log 57): the
head of the PASS accept queue that waits for room in the stream loses its place among the waiting heads (R174), and waits anew. -/
def State.sortPassQueue (s : State) (c : Charter) : State :=
  s.withLink { s.link with
    passQueue := []
    streamWait := s.link.streamWait.filter Option.isSome
    accept := s.link.passQueue.foldl (fun a tx =>
      let k := (c.classOf tx.tag).index
      a.setIfInBounds k (a.getD k [] ++ [tx])) s.link.accept }

/-- The part goes ACTIVE: the new charter comes into force, the status block is written, and the sweep leaves STOPPED (R97, R158,
R169, R189). DESIGN CHOICE (log 19): the status block is gathered before the sweep leaves STOPPED. A warning that came to stand
in a first load after its report was decided is handed to the units then (R184, log 50). -/
def State.activateNow (s : State) : State :=
  match s.control.load with
  | some l =>
    match l.stage, l.charter with
    | .accepted, some c =>
      let late := !s.inForce && s.phase.warning && !l.warned
      let s1 := (s.takeCharter c).sortPassQueue c
      let s2 := s1.withPhase { s1.phase with handoffs := if late then [true] else s1.phase.handoffs }
      ((s2.withControl { s2.control with part := .active, load := none }).writeStatus).resumeSweep
    | _, _ => s
  | none => s

/-- Every unit gives up the counts of the old rings, and the tills' contexts are set anew (R63, R74, R99, R106, R145, R192, R196). A
REPORT index write placed before does not count toward the new ring. DESIGN CHOICE (log 38): a block whose upper half was
forwarded under the old charter and not yet completed makes no transition. -/
def State.giveUpRings (s : State) (l : Load) : State :=
  let s1 := s.withIntake { s.intake with
    state := .idle, producer := 0, consumer := 0, half := none, accepting := s.intake.accepting.map (fun _ => none) }
  let s2 := s1.withSweep { s1.sweep with txProducer := 0, txConsumer := 0 }
  let s3 := s2.withJournal { s2.journal with
    producer := 0, consumer := 0, upProducer := 0, upConsumer := 0
    tills := Vector.replicate 48 { lastSecond := s.phase.mono } }
  s3.withControl { s3.control with
    load := some { l with stage := .accepted }
    ctlProducer := 0, ctlConsumer := 0, repProducer := 0, repConsumer := 0, published := 0
    epoch := s3.control.epoch + 1 }

/-- The first reports of stage 4 of a load, in order (R189). -/
def State.loadReports (s : State) (c : Charter) (l : Load) : List Report :=
  repairedReport l ++ [.charterLoaded c.revision c.keep (s.loadPhase c)]

/-- The POWER_WARNING report of a first load, when the warning stands then (R184, R189). -/
def State.loadWarning (s : State) : State :=
  match s.control.load with
  | some l =>
    if s.inForce = false ∧ s.phase.warning then
      (s.withControl { s.control with load := some { l with warned := true } }).report .powerWarning
    else s
  | none => s

/-- The new charter is accepted, and the part goes ACTIVE under it once the index words, the reports and the result word are
placed (stage 4 of R189). -/
def State.acceptCharter (s : State) (c : Charter) (l : Load) : State :=
  let s1 := (zeroedRings.foldl (fun s k => s.zeroIndexes c k) (s.giveUpRings l)).reports (s.loadReports c l)
  let s2 := s1.orDefer .control .loadWarning State.loadWarning
  (s2.writeResult 2).orDefer .control .activate State.activateNow

/-- Stage 4 of a load, once a control record in hand is finished (R189, R191). -/
def State.acceptNow (s : State) : State :=
  match s.control.load with
  | some l =>
    match l.stage, l.charter with
    | .walked, some c => s.acceptCharter c l
    | _, _ => s
  | none => s

end Sys2Proof.Machine
end

