-- ==== Sys2Proof/Machine/LinkOps.lean ====
section
/-! DEFINITION. The link interface and the window decoder (chapter Windows and Master Classes), with the guest pacer's judgement
(chapter Guest Traffic): how the head of an accept queue is judged, forwarded, held or refused, and the memory port. -/

namespace Sys2Proof.Machine

/-! ## Places and rights (R160 to R162, R168) -/

/-- Where an address lies (R161). -/
inductive Place where
  | charter
  | window (w : Window)
  | openMemory
  deriving DecidableEq, Repr

def State.placeOf (s : State) (c : Charter) (a : Nat) : Place :=
  if s.charterBase ≤ a ∧ a < s.charterBase + 65536 then .charter
  else match c.windows.find? (fun w => decide (w.base ≤ a ∧ a < w.base + w.size)) with
    | some w => .window w
    | none => .openMemory

/-- The transaction straddles (R161). -/
def State.straddles (s : State) (c : Charter) (tx : Transaction) : Bool :=
  decide (Config.addressSpace < tx.start + tx.len) ||
    s.placeOf c tx.start != s.placeOf c (tx.start + tx.len - 1)

def Right.allows : Right → Direction → Bool
  | .none, _ => false
  | .read, d => d == .read
  | .readWrite, _ => true

/-- The right of a class in a PLAIN or GUEST window or in open memory (R162). -/
def rightIn (c : Charter) (k : Class) : Place → Right
  | .charter => .none
  | .openMemory => c.openRights.getD k.index .none
  | .window w => if w.kind = .plain ∧ k = .guest then .none else w.rights.getD k.index .none

/-! ## Judgement of a head -/

/-- What a unit takes from a transaction when it is forwarded (R163). -/
inductive Observed where
  | nothing
  | journalConsumer (v : Word32)
  | uploadConsumer (v : Word32)
  | reportConsumer (v : Word32)
  | labelTxConsumer (v : Word32)
  | controlProducer (v : Word32)
  | ack
  | lower (h : HalfBlock)
  | upper (h : HalfBlock)
  | guestBytes (n : Nat)
  deriving DecidableEq, Repr

/-- What becomes of the head of an accept queue. -/
inductive Verdict where
  /-- It stays at the head. -/
  | stay
  /-- It stays at the head behind an update in progress (R25). -/
  | holdRead
  | refuse (src : RefusalSource) (why : Reason)
  | refuseJournal (why : Reason)
  | refuseHalf (r : HalfRefusal) (discards : Bool)
  /-- It is answered with the till view of an UNUSED item (R24). -/
  | zeros
  /-- It joins the guest hold queue (R150). -/
  | toHold
  /-- It becomes the record in hand (R101, R103). -/
  | accept
  | forward (role : Role) (o : Observed)
  deriving DecidableEq, Repr

def passPlain : Verdict := .forward .plain .nothing
def refuseKind : Verdict := .refuse .decoder .kind

/-- The budget of a level; level 0 has none (R149). -/
def Charter.budget (c : Charter) (level : Nat) : Nat := c.budgets.getD (level - 1) 0

/-- A guest transaction of length `n` may go when no transaction stands before it (R150, R152). -/
def State.guestFits (s : State) (c : Charter) (n : Nat) : Bool :=
  s.guest.level == 0 || decide (s.guest.periodBytes + n ≤ c.budget s.guest.level) ||
    (s.guest.periodBytes == 0 && decide (c.budget s.guest.level < n))

/-- The guest pacer's judgement of an allowed transaction (R146, R150, R151). -/
def State.judgeGuest (s : State) (c : Charter) (tx : Transaction) : Verdict :=
  if s.phase.phase = some .trading ∨ s.phase.phase = some .closing then
    if s.link.hold = [] ∧ s.guestFits c tx.len then .forward .plain (.guestBytes tx.len)
    else if s.link.hold.length < Config.holdDepth then .toHold
    else .stay
  else .refuse .pacer .phase

/-- A PLAIN or GUEST window or open memory (R162). DESIGN CHOICE (log 52): while the hold queue is full, a head of the GUEST accept
queue that the rights do not allow is refused at once by the window decoder, and only an allowed one waits to be taken by the pacer
(R146, R151). -/
def State.judgeOpen (s : State) (c : Charter) (k : Class) (p : Place) (tx : Transaction) : Verdict :=
  if (rightIn c k p).allows tx.dir then (if k = .guest then s.judgeGuest c tx else passPlain)
  else .refuse .decoder .noRight

/-- A TILL read of a price (R24, R25, R164). -/
def State.judgePriceRead (s : State) (c : Charter) (tx : Transaction) : Verdict :=
  match c.priceRead tx with
  | some i =>
    if c.itemCount ≤ i then .zeros
    else if s.readHeldOn c tx then .holdRead
    else .forward .tillView .nothing
  | none => refuseKind

/-- Work that is due and comes before the next record that would be accepted: the new-day work, so that a record judged in the
new day joins the new day's totals (R144, log 21), and the power-fail closes, so that it joins an empty block (R136). -/
def State.workFirst (s : State) : Bool := s.journal.works.contains .newDay || s.journal.works.contains .powerClose

/-- A TILL write into the JOURNAL window: it waits while a record is in hand or other work is in progress; a write that passes the
tests of R101 waits for the work that comes first (R101, R104, R136, R144, R165). -/
def State.judgeJournal (s : State) (c : Charter) (tx : Transaction) : Verdict :=
  if !s.journalFree then .stay
  else match s.journalTest c tx with
    | some why => .refuseJournal why
    | none => if s.workFirst then .stay else .accept

/-- A LINK write into the INTAKE window (R44, R45, R167); it waits while the unit waits with its work (R173). -/
def State.judgeIntake (s : State) (c : Charter) (tx : Transaction) : Verdict :=
  if s.waits .intake then .stay
  else match slotStart (c.window .intake) 256 tx.start with
  | some slot =>
    match s.judgeLower c slot tx with
    | .ok h => .forward .plain (.lower h)
    | .error r => .refuseHalf r true
  | none =>
    match s.judgeUpper c tx with
    | .ok h => .forward .intakeUpper (.upper h)
    | .error r => .refuseHalf r (s.atUpperPlace c tx)

/-- A LABEL write into the LABEL_RX window (R86, R167). -/
def judgeLabelRx (w : Window) (tx : Transaction) : Verdict :=
  if tx.fullWrite 16 ∧ (slotStart w 16 tx.start).isSome then
    if field tx.data 0 3 = 0 ∨ (byteAt tx.data 5 ≠ 1 ∧ byteAt tx.data 5 ≠ 2) then .refuse .sweep .badAck
    else .forward .plain .ack
  else if tx.indexTarget w.base = some IndexTarget.producer then passPlain
  else refuseKind

/-- An ADMIN access to a ring that ADMIN consumes: reads pass, the consumer word is observed (R165). -/
def judgeAdminRing (w : Window) (tx : Transaction) (o : Word32 → Observed) : Verdict :=
  if tx.isRead then passPlain
  else if tx.indexTarget w.base = some IndexTarget.consumer then .forward .plain (o tx.consumerWord)
  else refuseKind

/-- The fixed access of the special kinds (R164 to R167). -/
def State.judgeSpecial (s : State) (c : Charter) (k : Class) (w : Window) (tx : Transaction) : Verdict :=
  match w.kind with
  | .price =>
    match k with
    | .admin => if tx.isRead then passPlain else refuseKind
    | .till => s.judgePriceRead c tx
    | _ => refuseKind
  | .journal =>
    match k with
    | .till => if tx.isWrite then s.judgeJournal c tx else refuseKind
    | .admin => judgeAdminRing w tx .journalConsumer
    | _ => refuseKind
  | .upload => if k = .admin then judgeAdminRing w tx .uploadConsumer else refuseKind
  | .report => if k = .admin then judgeAdminRing w tx .reportConsumer else refuseKind
  | .control =>
    if k ≠ .admin then refuseKind
    else if tx.isRead ∨ w.base + 64 ≤ tx.start then passPlain
    else if tx.indexTarget w.base = some IndexTarget.producer then .forward .plain (.controlProducer tx.producerWord)
    else refuseKind
  | .status => if k = .admin ∧ tx.isRead then passPlain else refuseKind
  | .intake =>
    match k with
    | .link => if tx.isRead then passPlain else s.judgeIntake c tx
    | .admin => if tx.isRead then passPlain else refuseKind
    | _ => refuseKind
  | .labelTx =>
    match k with
    | .label =>
      if tx.isRead then passPlain
      else if tx.indexTarget w.base = some IndexTarget.consumer then .forward .plain (.labelTxConsumer tx.consumerWord)
      else refuseKind
    | .admin => if tx.isRead then passPlain else refuseKind
    | _ => refuseKind
  | .labelRx =>
    match k with
    | .label => if tx.isRead then passPlain else judgeLabelRx w tx
    | .admin =>
      if tx.isRead ∨ tx.indexTarget w.base = some IndexTarget.consumer then passPlain else refuseKind
    | _ => refuseKind
  | .guest => s.judgeOpen c k (.window w) tx
  | .plain => s.judgeOpen c k (.window w) tx

/-- The window decoder's judgement of the head of an accept queue (R161 to R169). -/
def State.judge (s : State) (c : Charter) (tx : Transaction) : Verdict :=
  let k := c.classOf tx.tag
  if s.straddles c tx then .refuse .decoder .straddle
  else match s.placeOf c tx.start with
    | .charter => if k = .admin then passPlain else refuseKind
    | .window w => s.judgeSpecial c k w tx
    | .openMemory => s.judgeOpen c k .openMemory tx

/-! ## Forwarding -/

/-- The effect of a write of the load word that passes into the charter window (R188). DESIGN CHOICE (log 61): one that passes while
the control unit waits for room is judged by the part state in which the control unit gets to it. -/
def State.watchLoadWord (s : State) (tx : Transaction) : State :=
  if tx.wordWritten s.charterBase = some 1 then s.orDefer .control .loadWord State.loadWordNow else s

/-- The upload consumer copy changes and the hold list drains (R137, R138). -/
def State.takeUploadConsumer (s : State) (c : Charter) (v : Word32) : State :=
  (s.withJournal { s.journal with upConsumer := takeCount s.journal.upProducer s.journal.upConsumer v }).drain c

/-- A change of the LABEL_TX consumer copy lets a visit go on (R74, R75). -/
def State.takeLabelConsumer (s : State) (v : Word32) : State :=
  let n := takeCount s.sweep.txProducer s.sweep.txConsumer v
  let s1 := s.withSweep { s.sweep with txConsumer := n }
  if n = s.sweep.txConsumer then s1 else s1.retryTake

/-- The REPORT consumer copy (R196). DESIGN CHOICE (log 50): from stage 4 of a load on the counts are the new ring's, and a write to
the index words of the old ring is not taken. -/
def State.takeReportConsumer (s : State) (v : Word32) : State :=
  if s.accepting then s
  else s.withControl { s.control with repConsumer := takeCount s.control.repProducer s.control.repConsumer v }

/-- What the owning unit takes from a forwarded transaction. -/
def State.observe (s : State) (c : Charter) (tx : Transaction) : Observed → State
  | .nothing => s
  | .journalConsumer v =>
    s.withJournal { s.journal with consumer := takeCount s.journal.producer s.journal.consumer v }
  | .uploadConsumer v => s.takeUploadConsumer c v
  | .reportConsumer v => s.takeReportConsumer v
  | .labelTxConsumer v => s.takeLabelConsumer v
  | .controlProducer v => (s.takeControlProducer c v).fetchControl
  | .ack => s.examineAck c tx.data
  | .lower h => s.setHalf (some h)
  | .upper h => s.withIntake { s.intake with half := none, accepting := s.intake.accepting ++ [some h] }
  | .guestBytes n => s.withGuest { s.guest with periodBytes := min (2 ^ 32 - 1) (s.guest.periodBytes + n) }

def State.pushStream (s : State) (tx : Transaction) (role : Role) : State :=
  s.withLink { s.link with stream := s.link.stream ++ [{ tx, role }] }

/-- A transaction joins the stream and the units take what they observe (R174). -/
def State.forwardTx (s : State) (c : Charter) (tx : Transaction) (role : Role) (o : Observed) : State :=
  ((s.pushStream tx role).observe c tx o).watchLoadWord tx

def State.queueOf (s : State) (k : Nat) : List Transaction := s.link.accept.getD k []

/-- The head leaves its accept queue. -/
def State.popHead (s : State) (k : Nat) : State :=
  s.withLink { s.link with accept := s.link.accept.setIfInBounds k (s.queueOf k).tail }

/-- A head comes to wait for room in the stream (R174). -/
def State.waitStream (s : State) (k : Option Class) : State :=
  s.withLink { s.link with
    streamWait := if k ∈ s.link.streamWait then s.link.streamWait else s.link.streamWait ++ [k] }

/-- The head of class queue `k` does not wait for the stream any more (R174). -/
def State.unwait (s : State) (k : Class) : State :=
  s.withLink { s.link with streamWait := s.link.streamWait.filter (fun q => q != some k) }

/-- The head leaves its accept queue without going into the stream. -/
def State.dropHead (s : State) (k : Class) : State := (s.unwait k).popHead k.index

/-- The write of an update that holds a till read moves to the head of the own-request queue (R176). -/
def State.promote (s : State) (a : Nat) : State :=
  let hit : OwnRequest → Bool := fun q => q.purpose == .entryWrite && q.addr == a
  match s.link.own.find? hit with
  | some q => s.withLink { s.link with own := { q with promoted := true } :: s.link.own.eraseP hit }
  | none => s

/-- Carry out a verdict on the head `tx` of class queue `k`; the flag says whether the queue moved on. A head that does not go
on to the stream gives up its place among the heads that wait for it (R174). -/
def State.carryOut (s : State) (c : Charter) (k : Class) (turn : Bool) (tx : Transaction) : Verdict → State × Bool
  | .stay => (s.unwait k, false)
  | .holdRead => ((s.unwait k).promote tx.start, false)
  | .refuse src why => ((s.dropHead k).refuse c src why tx, true)
  | .refuseJournal why => ((s.dropHead k).refuseJournal c why tx, true)
  | .refuseHalf r discards =>
    let s1 := (s.dropHead k).refuseHalf c r tx
    (if discards then s1.setHalf none else s1, true)
  | .zeros => ((s.dropHead k).answer { tag := tx.tag, refused := false, data := List.replicate 16 0 }, true)
  | .toHold =>
    let s1 := s.dropHead k
    (s1.withLink { s1.link with hold := s1.link.hold ++ [tx] }, true)
  | .accept => ((s.unwait k).acceptRecord c k tx, true)
  | .forward role o =>
    if s.streamOpen turn then ((s.popHead k.index).forwardTx c tx role o, true) else (s.waitStream (some k), false)

/-- Forward the record in hand with its stamp; the write stays at the head of its queue until the record leaves hand (R103,
R159). -/
def State.forwardHand (s : State) (c : Charter) (turn : Bool) (h : JournalHand) : State × Bool :=
  if s.streamOpen turn then
    ((s.setHand (some { h with stage := .sent })).forwardTx c h.tx .journalRecord .nothing, true)
  else (s.waitStream (some h.queue), false)

/-- The record in hand, when its write stands at the head of class queue `k`. -/
def State.handAt (s : State) (k : Class) : Option JournalHand := s.journal.hand.filter (fun h => h.queue == k)

/-- Serve the head of a class queue: the record in hand where its write stands, else the head judged by the tables in force.
DESIGN CHOICE (log 49): a head that waits for room in the stream is judged anew, by the tables, the phase and the budget then
in force, each time it is served. -/
def State.serveHead (s : State) (c : Charter) (k : Class) (turn : Bool) : State × Bool :=
  match s.handAt k with
  | some h =>
    match h.stage with
    | .ready => s.forwardHand c turn h
    | .pricing => (s, false)
    | .sent => (s, false)
  | none =>
    match (s.queueOf k.index).head? with
    | some tx => s.carryOut c k turn tx (s.judge c tx)
    | none => (s, false)

/-- Serve the head of the PASS accept queue: forwarded unchanged (R159, R169). -/
def State.servePass (s : State) (turn : Bool) : State × Bool :=
  match s.link.passQueue with
  | tx :: rest =>
    if s.streamOpen turn then
      (((s.withLink { s.link with passQueue := rest }).pushStream tx .plain).watchLoadWord tx, true)
    else (s.waitStream none, false)
  | [] => (s, false)

/-! ## Taking transactions from the system link (R151, R159) -/

/-- The part can take a transaction of this tag now, with those already left on the link. -/
def State.canTake (s : State) (tx : Transaction) : Bool :=
  match s.charter with
  | none => decide (s.link.passQueue.length < Config.acceptDepth) && s.link.waiting.isEmpty
  | some c =>
    let k := c.classOf tx.tag
    decide ((s.queueOf k.index).length < Config.acceptDepth) &&
      !(k == .guest && decide (Config.holdDepth ≤ s.link.hold.length)) &&
      !s.link.waiting.any (fun q => c.classOf q.tag == k)

def State.takeIn (s : State) (tx : Transaction) : State :=
  if s.canTake tx then
    match s.charter with
    | none => s.withLink { s.link with passQueue := s.link.passQueue ++ [tx] }
    | some c =>
      let k := (c.classOf tx.tag).index
      s.withLink { s.link with accept := s.link.accept.setIfInBounds k (s.queueOf k ++ [tx]) }
  else s.withLink { s.link with waiting := s.link.waiting ++ [tx] }

/-- Take what the queues have room for, in the order of the link. -/
def State.refill (s : State) : State :=
  s.link.waiting.foldl State.takeIn (s.withLink { s.link with waiting := [] })

/-- Serve one class queue while its head moves on. -/
def State.pumpClass (c : Charter) (k : Class) : Nat → State → State
  | 0, s => s
  | n + 1, s =>
    match s.serveHead c k false with
    | (s1, true) => State.pumpClass c k n s1.refill
    | (s1, false) => s1

def State.pumpPass : Nat → State → State
  | 0, s => s
  | n + 1, s =>
    match s.servePass false with
    | (s1, true) => State.pumpPass n s1.refill
    | (s1, false) => s1

/-- More turns than the transactions that wait can take: each moves on at most twice (accepted, forwarded). -/
def State.turns (s : State) : Nat := 2 * (s.link.waiting.length + 32) + 2

def allClasses : List Class := [.admin, .till, .label, .guest, .link, .lan, .other]

/-- Take and serve transactions until every head stays (R159). -/
def State.pump (s : State) : State :=
  let s1 := s.refill
  match s1.charter with
  | none => State.pumpPass s1.turns s1
  | some c => allClasses.foldl (fun s k => State.pumpClass c k s1.turns s) s1

/-- A transaction is offered on the system link. -/
def State.offerTx (s : State) (tx : Transaction) : State :=
  s.withLink { s.link with waiting := s.link.waiting ++ [tx] }

/-- The heads that wait enter the stream in the order in which they came to wait, while it has room (R174). -/
def State.serveStream : Nat → State → State
  | 0, s => s
  | n + 1, s =>
    if s.link.stream.length < Config.streamDepth then
      match s.link.streamWait with
      | [] => s
      | w :: ws =>
        let s0 := s.withLink { s.link with streamWait := ws }
        match w, s.charter with
        | some k, some c => State.serveStream n (s0.serveHead c k true).1
        | none, none => State.serveStream n (s0.servePass true).1
        | some _, none => State.serveStream n s0
        | none, some _ => State.serveStream n s0
    else s

/-! ## Releases of the guest hold queue (R152) -/

def State.releaseHold (c : Charter) : Nat → State → State
  | 0, s => s
  | n + 1, s =>
    match s.link.hold with
    | [] => s
    | tx :: rest =>
      if s.guestFits c tx.len ∧ s.streamOpen false then
        State.releaseHold c n
          ((s.withLink { s.link with hold := rest }).forwardTx c tx .plain (.guestBytes tx.len))
      else s

/-! ## The memory port (R174 to R176, R198) -/

/-- Which queue takes the port. -/
inductive PortChoice where
  | own | stream | nobody
  deriving DecidableEq, Repr

/-- The arbiter's choice (R175). DESIGN CHOICE (log 46, log 53): the order of the grants alone decides what a read returns, also for
a till read that was forwarded before an update's own read was placed and takes the port after the update's write (R25), and for a
load's read of the charter that takes the port before a charter write forwarded earlier (R189). -/
def State.portChoice (s : State) : PortChoice :=
  match s.link.own with
  | [] => if s.link.stream.isEmpty then .nobody else .stream
  | q :: _ =>
    if q.promoted then .own
    else if Config.ownCrowded ≤ s.link.own.length ∨
        s.link.own.any (fun r => decide (Config.ownAged ≤ s.micros - r.placedAt)) then .own
    else if s.link.stream.isEmpty then .own
    else .stream

/-- The bytes of an own write as it takes the port: an index write carries the other word's last value (R198, log 16). -/
def OwnRequest.bytes (m : Memory) (q : OwnRequest) : List Byte :=
  match q.body with
  | .read _ => []
  | .write d => d
  | .indexWords p k =>
    (match p with
      | some v => toLe 4 v.toNat
      | none => m.readBytes q.addr 4) ++
    (match k with
      | some v => toLe 4 v.toNat
      | none => m.readBytes (q.addr + 4) 4)
  | .resultWord v => m.readBytes q.addr 4 ++ toLe 4 v.toNat

/-- An own request whose completion no rule of its unit awaits. -/
def Purpose.silentWrite : Purpose → Bool
  | .silent => true
  | _ => false

/-- The own request at the head takes the port and memory carries it out. -/
def State.grantOwn (s : State) (q : OwnRequest) : State :=
  let s1 := s.withLink { s.link with own := s.link.own.tail }
  match q.body with
  | .read n => s1.withLink { s1.link with issued := s1.link.issued ++ [.own q (s.mem.readBytes q.addr n)] }
  | _ =>
    let s2 : State := { s1 with mem := s.mem.writeBytes q.addr (q.bytes s.mem) }
    if q.purpose.silentWrite then s2
    else s2.withLink { s2.link with issued := s2.link.issued ++ [.own q []] }

/-- The bytes of a transaction that lie below 2^32. -/
def Transaction.within (tx : Transaction) : Nat := min tx.len (Config.addressSpace - tx.start)

/-- What memory answers to a read that is passed through; a byte at or above 2^32 is a free value (log 25). -/
def State.readThrough (s : State) (tx : Transaction) : List Byte :=
  s.mem.readBytes tx.start (Transaction.within tx) ++
    (List.range (tx.len - Transaction.within tx)).map (fun i => Config.freeByte (s.freeCount + i))

/-- The transaction at the head of the stream takes the port and memory carries it out (R174, R175). -/
def State.grantStream (s : State) (i : StreamItem) : State :=
  let s1 := s.withLink { s.link with stream := s.link.stream.tail }
  match i.tx.dir with
  | .read =>
    { s1.withLink { s1.link with issued := s1.link.issued ++ [.pass i (s.readThrough i.tx)] } with
      freeCount := s.freeCount + (i.tx.len - Transaction.within i.tx) }
  | .write =>
    { s1.withLink { s1.link with issued := s1.link.issued ++ [Issued.pass i []] } with
      mem := s.mem.writeMasked i.tx.start (i.tx.data.take (Transaction.within i.tx)) i.tx.mask }

/-- One grant of the port (R175). -/
def State.grant (s : State) : State :=
  match s.portChoice with
  | .own =>
    match s.link.own with
    | q :: _ => s.grantOwn q
    | [] => s
  | .stream =>
    match s.link.stream with
    | i :: _ => s.grantStream i
    | [] => s
  | .nobody => s

/-- The first forwarded transaction with its answer from memory that `p` picks, and the state without it. -/
def State.takePassed (s : State) (p : StreamItem → Bool) : Option (StreamItem × List Byte × State) :=
  let hit : Issued → Bool := fun i =>
    match i with
    | .pass x _ => p x
    | .own _ _ => false
  match s.link.issued.find? hit with
  | some (.pass x d) => some (x, d, s.withLink { s.link with issued := s.link.issued.eraseP hit })
  | some (.own _ _) => none
  | none => none

/-- A forwarded write's completion returns to its master (R175). -/
def State.completeWrite (s : State) (x : StreamItem) : State :=
  s.answer { tag := x.tx.tag, refused := false, data := [] }

/-! ## The record leaves hand (R99, R103, R104, R134) -/

/-- The write leaves its accept queue, the master gets its completion, the record leaves hand, its report and block close
follow, and then the work that became due meanwhile (R103, R104, R134). -/
def State.leaveNow (s : State) (c : Charter) : State :=
  match s.journal.hand with
  | some h =>
    let s1 := ((s.popHead h.queue.index).setHand none).answer { tag := h.tx.tag, refused := false, data := [] }
    let s2 := s1.reports h.report.toList
    (if h.closes.anyCause then s2.closeBlock c (journalTill h.tx.data) h.closes else s2).orDefer .journal .works
      State.workAll
  | none => s

/-- The forwarded record's write completes: the producer count and its index word move, and the record leaves hand (R99,
R103). -/
def State.leaveHand (s : State) (c : Charter) : State :=
  let n := s.journal.producer + 1
  ((s.withJournal { s.journal with producer := n }).placeOwn
    (ownIndex .journal (c.window .journal) (some n) none .silent)).orDefer .journal .leave (fun s => s.leaveNow c)

end Sys2Proof.Machine
end

