-- ==== Sys2Proof/Machine/Control.lean ====
section
/-! DEFINITION. The meanings of the commands of the control ring and of the REPORT ring. Each control record's command is the
return of the control unit's own read of a record of that kind (R193, R194). -/

namespace Sys2Proof.Machine

/-- A control record of a kind code that `p` picks, whose read has returned, is handed to `f`, with its bytes, once the control
unit does not wait (R173, R193). -/
def State.withRecordOf (s : State) (p : Nat → Bool) (f : Charter → List Byte → State → State) : State :=
  s.unlessWaiting .control (fun s =>
    match s.charter, s.takeControl p with
    | some c, some (d, s1) => f c d s1
    | _, _ => s)

/-- The same, for one kind code. -/
def State.withRecord (s : State) (k : Nat) (f : Charter → List Byte → State → State) : State :=
  s.withRecordOf (fun x => x == k) f

/-- The change of phase that a SET_PHASE record asks for (R179). -/
def State.takeSetPhase (s : State) (c : Charter) (named : Option Phase) : State :=
  if s.isLoading then s.setResult .refusedBusy false
  else if named = none ∨ named ≠ s.phase.phase.map Phase.next then s.setResult .refusedPhase false
  else match named with
    | some .night => s.addWork .nightEntry
    | some p => (s.changePhase c p).setResult .done false
    | none => s

/-- SET_PHASE (R179). -/
def execSetPhase (s : State) : Host.Outcome State Fault Refusal :=
  s.running (fun s => (s.withRecord 1 (fun c d s => s.takeSetPhase c (Phase.ofCode (byteAt d 4)))).pump)

/-- The clock that a SET_CLOCK record sets (R182). -/
def State.takeSetClock (s : State) (v : Nat) : State :=
  if v < Config.daySeconds then (s.withPhase { s.phase with clock := v }).setResult .done false
  else s.setResult .badRecord false

/-- SET_CLOCK (R182). -/
def execSetClock (s : State) : Host.Outcome State Fault Refusal :=
  s.running (fun s => s.withRecord 2 (fun _ d s => s.takeSetClock (field d 4 4)))

/-- The STAGE request that an URGENT_MARKDOWN record asks for (R40, R194). -/
def State.takeUrgent (s : State) (c : Charter) (d : List Byte) : State :=
  let item := field d 4 4
  let eff := EffKind.ofCode (byteAt d 12)
  let second := field d 16 4
  if c.itemCount ≤ item ∨ byteAt d 12 = 0 ∨ 3 < byteAt d 12 ∨ (eff = .atTime ∧ Config.daySeconds ≤ second) then
    s.setResult .badRecord false
  else
    let m := clampMarkdown (field d 8 4)
    s.placeEntry .control { item, kind := .stage (.setMarkdown m.1) eff second .control m.2 }

/-- URGENT_MARKDOWN (R194). -/
def execUrgentMarkdown (s : State) : Host.Outcome State Fault Refusal :=
  s.running (fun s => s.withRecord 3 (fun c d s => s.unlessLoading (fun s => s.takeUrgent c d)))

/-- The requests that a LABEL_RESYNC record asks for (R94). -/
def State.resyncNow (s : State) (c : Charter) (selector n : Nat) : State :=
  if selector = 0 ∧ n < c.itemCount then s.placeEntry .sweep { item := n, kind := .labelResync none true }
  else if selector = 1 ∧ n ≤ 11 then
    State.fillFrom State.nextResync .sweep (Config.entryDepth + 1)
      (s.withSweep { s.sweep with resync := some { zone := n, next := 0 } })
  else s.setResult .badRecord false

def State.takeResync (s : State) (c : Charter) (selector n : Nat) : State :=
  s.orDefer .sweep (.resync selector n) (fun s => s.resyncNow c selector n)

/-- LABEL_RESYNC (R94). -/
def execLabelResync (s : State) : Host.Outcome State Fault Refusal :=
  s.running (fun s => s.withRecord 4 (fun c d s => s.unlessLoading (fun s => s.takeResync c (byteAt d 4) (field d 8 4))))

/-- A TILL_RESET record becomes work on its till (R126). -/
def State.takeTillReset (s : State) (c : Charter) (t : Nat) : State :=
  if c.tillCount ≤ t then s.setResult .badRecord false else (s.addWork (.tillReset t)).workNow (.tillReset t)

/-- The work of a TILL_RESET taken before and still due (R104). -/
def State.dueTillReset (s : State) : State :=
  (s.journal.works.filter (fun k => match k with | .tillReset _ => true | _ => false)).foldl State.workNow s

/-- TILL_RESET (R126). -/
def execTillReset (s : State) : Host.Outcome State Fault Refusal :=
  s.running (fun s =>
    ((s.withRecord 5 (fun c d s => s.unlessLoading (fun s => s.takeTillReset c (byteAt d 4)))).dueTillReset).pump)

/-- The mode that a SWEEP_MODE record sets (R92). -/
def State.modeNow (s : State) (code : Nat) : State :=
  let manual := code == 1
  if 1 < code then s.setResult .badRecord false
  else if s.sweep.manual = manual then s.setResult .done false
  else
    let s1 := (s.withSweep { s.sweep with manual }).setResult .done false
    if manual then (if s.sweep.state = .idle then s1.setSweepState .manualWait else s1)
    else if s.sweep.state = .manualWait then s1.select
    else s1

def State.takeMode (s : State) (code : Nat) : State := s.orDefer .sweep (.mode code) (fun s => s.modeNow code)

/-- SWEEP_MODE (R92). -/
def execSweepMode (s : State) : Host.Outcome State Fault Refusal :=
  s.running (fun s => s.withRecord 6 (fun _ d s => s.takeMode (byteAt d 4)))

/-- One selection by a STEP_SWEEP record (R93). -/
def State.stepNow (s : State) : State :=
  if s.sweep.state = .manualWait ∧ s.phase.warning = false then
    (s.setResult .done false).select
  else s.setResult .refusedBusy false

def State.takeStep (s : State) : State := s.orDefer .sweep .stepSweep State.stepNow

/-- STEP_SWEEP (R93). -/
def execStepSweep (s : State) : Host.Outcome State Fault Refusal :=
  s.running (fun s => s.withRecord 7 (fun _ _ s => s.unlessLoading State.takeStep))

/-- The slots of the batch in hand are freed: the index write is placed, and then the half-block record goes and the batch state
becomes IDLE (R61). The result is known at once (R194). -/
def State.discardBatch (s : State) (c : Charter) : State :=
  let n := s.intake.producer
  (((s.setResult .done false).withIntake { s.intake with consumer := n }).placeOwn
    (ownIndex .intake (c.window .intake) none (some n) .silent)).orDefer .intake .discarded State.batchDiscarded

/-- What a BATCH_DISCARD record does in each batch state (R61). -/
def State.discardNow (s : State) (c : Charter) : State :=
  match s.intake.state with
  | .idle => s.setResult .done false
  | .receiving => s.setResult .refusedBusy false
  | .applying => s.setResult .refusedBusy false
  | .complete => s.discardBatch c
  | .broken => s.discardBatch c

def State.takeDiscard (s : State) (c : Charter) : State := s.orDefer .intake .discard (fun s => s.discardNow c)

/-- BATCH_DISCARD (R61). -/
def execBatchDiscard (s : State) : Host.Outcome State Fault Refusal :=
  s.running (fun s => s.withRecord 8 (fun c _ s => s.unlessLoading (fun s => s.takeDiscard c)))

/-- The reload that a RELOAD_CHARTER record asks for (R191). -/
def State.takeReload (s : State) (c : Charter) : State :=
  if s.phase.phase ≠ some .night then s.setResult .refusedPhase false
  else if s.intake.state ≠ .idle ∨ s.journalEmpty = false ∨ s.uploadEmpty = false then s.setResult .refusedBusy false
  else match s.control.record with
    | some r => (s.finishControl c r .done).loadNow.fetchControl
    | none => s

/-- RELOAD_CHARTER (R191). -/
def execReloadCharter (s : State) : Host.Outcome State Fault Refusal :=
  s.running (fun s => s.withRecord 9 (fun c _ s => s.unlessLoading (fun s => s.takeReload c)))

/-- UNKNOWN_CONTROL_KIND (R193): a kind code outside 1 to 9. -/
def execUnknownControlKind (s : State) : Host.Outcome State Fault Refusal :=
  s.running (fun s =>
    s.withRecordOf (fun k => k == 0 || decide (9 < k)) (fun _ _ s => s.setResult .badRecord false))

/-- CONTROL_DONE (R193): the record whose result is known is done, and the next is read. -/
def execControlDone (s : State) : Host.Outcome State Fault Refusal :=
  s.running (fun s =>
    s.unlessWaiting .control (fun s =>
      match s.charter, s.control.record with
      | some c, some r =>
        match r.result with
        | some res => (s.finishControl c r res).fetchControl
        | none => s
      | _, _ => s))

/-- REPORT_PUBLISHED (R196): the completion of a producer index write of the REPORT ring in force sets the published count. -/
def execReportPublished (s : State) : Host.Outcome State Fault Refusal :=
  s.running (fun s =>
    match s.takeWritten (fun p => match p with | .reportIndex _ _ => true | _ => false) with
    | some (.reportIndex e v, s1) =>
      if e = s1.control.epoch then s1.withControl { s1.control with published := v } else s1
    | some (_, _) => s
    | none => s)

end Sys2Proof.Machine
end

