-- ==== Sys2Proof/Machine/Entries.lean ====
section
/-! DEFINITION. The meanings of the commands of the entry update queue: the return of the head request's own read, for any
kind and for each kind of request, and the completion of its own write (R7). -/

namespace Sys2Proof.Machine

/-- The own read of the head request returns and the request is worked out (R7); a till read that it held may go on (R25). -/
def State.readReturned (s : State) : State :=
  match s.book.headPhase, s.takeRead .entryRead with
  | .reading, some (d, s1) => (s1.performHead d).pump
  | _, _ => s

/-- The same, when the head request is of a kind that `p` picks. -/
def State.readReturnedFor (s : State) (p : ReqKind → Bool) : State :=
  match s.book.queue with
  | r :: _ => if p r.kind then s.readReturned else s
  | [] => s

/-- ENTRY_READ_COMPLETE (R7). -/
def execEntryReadComplete (s : State) : Host.Outcome State Fault Refusal := s.running State.readReturned

/-- The own write of the head request completes and the request leaves the queue (R7, R25). -/
def State.writeCompleted (s : State) : State :=
  match s.book.headPhase, s.takeWritten (· == .entryWrite) with
  | .writing acts, some (_, s1) => (s1.leaveHead acts).pump
  | _, _ => s

/-- ENTRY_WRITE_COMPLETE (R7). -/
def execEntryWriteComplete (s : State) : Host.Outcome State Fault Refusal := s.running State.writeCompleted

def ReqKind.isStage : ReqKind → Bool
  | .stage .. => true
  | _ => false

/-- STAGE (R9 to R11), by performStage. -/
def execStage (s : State) : Host.Outcome State Fault Refusal :=
  s.running (fun s => s.readReturnedFor ReqKind.isStage)

def ReqKind.isChangeoverDue : ReqKind → Bool
  | .changeoverDue => true
  | _ => false

/-- CHANGEOVER_DUE (R13, R15, R16, R18), by performDue. -/
def execChangeoverDue (s : State) : Host.Outcome State Fault Refusal :=
  s.running (fun s => s.readReturnedFor ReqKind.isChangeoverDue)

def ReqKind.isPriceCheck : ReqKind → Bool
  | .priceCheck => true
  | _ => false

/-- PRICE_CHECK (R8), by priceAnswerOf. -/
def execPriceCheck (s : State) : Host.Outcome State Fault Refusal :=
  s.running (fun s => s.readReturnedFor ReqKind.isPriceCheck)

def ReqKind.isQueueJoin : ReqKind → Bool
  | .queueJoin => true
  | _ => false

/-- QUEUE_JOIN (R22), by performJoin. -/
def execQueueJoin (s : State) : Host.Outcome State Fault Refusal :=
  s.running (fun s => s.readReturnedFor ReqKind.isQueueJoin)

def ReqKind.isFrameSent : ReqKind → Bool
  | .frameSent => true
  | _ => false

/-- FRAME_SENT (R22), by performFrame. -/
def execFrameSent (s : State) : Host.Outcome State Fault Refusal :=
  s.running (fun s => s.readReturnedFor ReqKind.isFrameSent)

def ReqKind.isLabelAck : ReqKind → Bool
  | .labelAck _ => true
  | _ => false

/-- LABEL_ACK (R17, R22, R90), by performAck and performLate. -/
def execLabelAck (s : State) : Host.Outcome State Fault Refusal :=
  s.running (fun s => s.readReturnedFor ReqKind.isLabelAck)

def ReqKind.isLabelUnanswered : ReqKind → Bool
  | .labelUnanswered => true
  | _ => false

/-- LABEL_UNANSWERED (R22, R82), by performUnanswered. -/
def execLabelUnanswered (s : State) : Host.Outcome State Fault Refusal :=
  s.running (fun s => s.readReturnedFor ReqKind.isLabelUnanswered)

def ReqKind.isLabelReturn : ReqKind → Bool
  | .labelReturn => true
  | _ => false

/-- LABEL_RETURN (R22), by performReturn. -/
def execLabelReturn (s : State) : Host.Outcome State Fault Refusal :=
  s.running (fun s => s.readReturnedFor ReqKind.isLabelReturn)

def ReqKind.isLabelResyncRequest : ReqKind → Bool
  | .labelResync _ _ => true
  | _ => false

/-- LABEL_RESYNC request (R22, R94), by performResync. -/
def execLabelResyncRequest (s : State) : Host.Outcome State Fault Refusal :=
  s.running (fun s => s.readReturnedFor ReqKind.isLabelResyncRequest)

def ReqKind.isKeep : ReqKind → Bool
  | .keep => true
  | _ => false

/-- KEEP (R27, R28): of a FRESH walk the entry is written without reading first; of a KEEP walk it is worked out by
performKeep. -/
def execKeep (s : State) : Host.Outcome State Fault Refusal :=
  s.running (fun s =>
    if s.book.headPhase = .freshWrite then s.performFresh else s.readReturnedFor ReqKind.isKeep)

end Sys2Proof.Machine
end

