-- ==== Sys2Proof/Machine/Intake.lean ====
section
/-! DEFINITION. The meanings of the intake unit's own commands: the block that is accepted, and the block read back. -/

namespace Sys2Proof.Machine

/-- BLOCK_ACCEPTED (R46): the upper half's write completes and its transition is made. -/
def execBlockAccepted (s : State) : Host.Outcome State Fault Refusal :=
  s.running (fun s =>
    s.unlessWaiting .intake (fun s =>
      match s.takePassed (fun x => x.role == .intakeUpper) with
      | some (x, _, s1) =>
        let s2 := s1.completeWrite x
        match s2.charter, s2.intake.accepting with
        | some c, h :: hs => (s2.withIntake { s2.intake with accepting := hs }).acceptForwarded c h
        | _, _ => s2
      | none => s))

/-- The two own reads of the block that applies have returned (R57). -/
def State.takeBlockReads (s : State) : Option (List Byte × State) :=
  match s.takeRead .intakeRead with
  | some (a, s1) =>
    match s1.takeRead .intakeRead with
    | some (b, s2) => some (a ++ b, s2)
    | none => none
  | none => none

/-- INTAKE_BLOCK_READ (R57 to R59): the records of the block are skipped or handed on in order. -/
def execIntakeBlockRead (s : State) : Host.Outcome State Fault Refusal :=
  s.running (fun s =>
    s.unlessWaiting .intake (fun s =>
      match s.takeBlockReads with
      | some (b, s1) =>
        if s1.intake.state = .applying then
          ((s1.withIntake { s1.intake with block := some b, next := 0 }).settleIntake).fill .intake
        else s1
      | none => s))

end Sys2Proof.Machine
end

