-- ==== Sys2Proof/Machine/Journal.lean ====
section
/-! DEFINITION. The meanings of the journal unit's own commands: the record that leaves hand, NIGHT entry and the new-day
work. -/

namespace Sys2Proof.Machine

/-- JOURNAL_RECORD_FORWARDED (R103, R104): the work that became due while the record was in hand follows. -/
def execJournalRecordForwarded (s : State) : Host.Outcome State Fault Refusal :=
  s.running (fun s =>
    s.unlessWaiting .journal (fun s =>
      match s.charter, s.journal.hand, s.takePassed (fun x => x.role == .journalRecord) with
      | some c, some _, some (_, _, s1) => (s1.leaveHand c).pump
      | _, _, _ => s))

/-- NIGHT_ENTRY (R139, R141, R179). -/
def execNightEntry (s : State) : Host.Outcome State Fault Refusal :=
  s.running (fun s => (s.workNow .nightEntry).pump)

/-- NEW_DAY_WORK (R107, R130). -/
def execNewDayWork (s : State) : Host.Outcome State Fault Refusal :=
  s.running (fun s => (s.workNow .newDay).pump)

end Sys2Proof.Machine
end

