-- ==== Sys2Proof/Machine/Loading.lean ====
section
/-! DEFINITION. The meanings of the commands of a charter load (R189). -/

namespace Sys2Proof.Machine

/-- A charter read whole and checked (R190): the load goes on, or ends with its refusal code. -/
def State.checkCharter (s : State) (l : Load) (b : List Byte) : State :=
  match charterRefusal s.charterBase b with
  | some code => s.refuseCharter code
  | none => s.withControl { s.control with load := some { l with stage := .checked, charter := some (charterOf b) } }

/-- CHARTER_CHECK (R189, R190): the six own reads of the charter have returned. -/
def execCharterCheck (s : State) : Host.Outcome State Fault Refusal :=
  s.running (fun s =>
    s.unlessWaiting .control (fun s =>
      match s.control.load, State.takeCharterReads 6 s with
      | some l, some (b, s1) => if l.stage = .reading then s1.checkCharter l b else s1
      | _, _ => s))

/-- A request that waits for room in the entry update queue. -/
def Task.isEntry : Task → Bool
  | .entry _ _ => true
  | _ => false

/-- The requests that stood in the entry update queue, or wait for it, are performed and the cancel is over (R29). -/
def State.walkReady (s : State) : Bool :=
  s.book.queue.isEmpty && !s.link.tasks.any (fun t => t.2.isEntry) && s.sweep.visit.isNone

/-- WALK_START (R27 to R29, R97). -/
def execWalkStart (s : State) : Host.Outcome State Fault Refusal :=
  s.running (fun s =>
    match s.control.load with
    | some l => if l.stage = .checked ∧ s.walkReady then s.startWalk l else s
    | none => s)

/-- A control record in hand whose result is known is finished first (R191). -/
def State.finishRecordInHand (s : State) : State :=
  match s.charter, s.control.record with
  | some c, some r =>
    match r.result with
    | some res => s.finishControl c r res
    | none => s
  | _, _ => s

/-- CHARTER_ACCEPT (R189): it waits while a control record in hand has no result yet, and stage 4 follows the requests of one that
has to be finished (R191, log 29). -/
def execCharterAccept (s : State) : Host.Outcome State Fault Refusal :=
  s.running (fun s =>
    s.unlessWaiting .control (fun s =>
      match s.control.load with
      | some l =>
        if l.stage = .walked then
          let s1 := s.finishRecordInHand
          if s1.control.record = none then (s1.orDefer .control .accept State.acceptNow).pump else s
        else s
      | none => s))

end Sys2Proof.Machine
end

