-- ==== Sys2Proof/Machine/Sweep.lean ====
section
/-! DEFINITION. The meanings of the sweep controller's own commands: the RESCAN walk and the course of a visit. -/

namespace Sys2Proof.Machine

/-- RESCAN_WALK (R67). -/
def execRescanWalk (s : State) : Host.Outcome State Fault Refusal := s.running State.fillRescan

/-! ## Publication (R76, R91) -/

/-- The frames of a visit as written: a SYNC visit has one of its own (R91). -/
def Visit.frameBytes (v : Visit) (clock : Nat) : List (List Byte) :=
  match v.kind with
  | .sync => [syncFrameBytes v.zone clock]
  | .price => v.frames.map (fun f => f.bytes v.zone)
  | .probe => v.frames.map (fun f => f.bytes v.zone)

/-- One own write for each frame, at the slots from `n` on. DESIGN CHOICE (log 56): those that wait for room in the own-request
queue when the visit is cancelled are still placed (R95). -/
def State.placeFrames (w : Window) : Word32 → List (List Byte) → State → State
  | _, [], s => s
  | n, f :: fs, s =>
    State.placeFrames w (n + 1) fs (s.placeOwn (ownWrite .sweep (slotAddr w.base 32 (n.toNat % w.slots)) f .silent))

/-- The frames are counted, and the producer index write is placed, unless the visit has been cancelled meanwhile (R76, R95, log
56). -/
def State.frameIndexNow (s : State) (c : Charter) (count : Nat) : State :=
  match s.sweep.visit with
  | none => s
  | some v =>
    if v.cancelled then s
    else
      let n := s.sweep.txProducer + BitVec.ofNat 32 count
      (s.withSweep { s.sweep with txProducer := n, visit := some { v with stage := .publishing } }).placeOwn
        (ownIndex .sweep (c.window .labelTx) (some n) none (.labelTxIndex n))

/-- Publish the frames and place the producer index write; a visit without a frame ends (R76). DESIGN CHOICE (log 62): a SYNC frame
carries the store clock of this moment, also when its slot write waits for room in the own-request queue (R91). -/
def State.publish (s : State) (c : Charter) (v : Visit) : State :=
  let fs := v.frameBytes s.phase.clock
  if fs = [] then s.afterVisit
  else
    (State.placeFrames (c.window .labelTx) s.sweep.txProducer fs s).orDefer .sweep (.frameIndex fs.length)
      (fun s => s.frameIndexNow c fs.length)

/-- A step of the sweep controller of its own: not in reset, and not while it waits (R6, R173). -/
def State.sweeping (s : State) (f : State → State) : Host.Outcome State Fault Refusal :=
  s.running (fun s => s.unlessWaiting .sweep f)

/-- FRAME_PUBLISH (R76): every taken item is answered. -/
def execFramePublish (s : State) : Host.Outcome State Fault Refusal :=
  s.sweeping (fun s =>
    match s.charter, s.sweep.visit with
    | some c, some v =>
      if v.stage = .building ∧ v.taken = [] ∧ v.cancelled = false then s.publish c v else s
    | _, _ => s)

/-! ## Blank, listen, settle (R78 to R81) -/

/-- BLANK is over: LISTEN for a PRICE or probe visit, SETTLE for a SYNC visit (R78, R91). -/
def State.endBlank (s : State) (v : Visit) : State :=
  match v.kind with
  | .sync => (s.setVisit (some { v with ending := .settling })).setSweepState .settle
  | .price => (s.setSweepState .listen).listenCheck
  | .probe => (s.setSweepState .listen).listenCheck

/-- The visit starts in BLANK with its base, blank and settle fixed; a SYNC visit sets its zone's last sync second, and a
blank interval of 0 is over at once (R76, R78, R91). -/
def State.startVisit (s : State) (v : Visit) : State :=
  let v1 := { v with
    stage := .onAir, start := s.micros, base := s.sweep.base, blank := s.sweep.blank, settle := s.sweep.settle }
  let s1 := (s.setVisit (some v1)).setSweepState .blank
  let s2 := if v.kind = .sync then
    s1.setZone v.zone { s1.zoneRec v.zone with lastSync := some s.phase.mono } else s1
  if v1.blank = 0 then s2.endBlank v1 else s2

/-- VISIT_START (R76): the producer index write of the visit completes. -/
def execVisitStart (s : State) : Host.Outcome State Fault Refusal :=
  s.sweeping (fun s =>
    match s.takeWritten (fun p => match p with | .labelTxIndex _ => true | _ => false) with
    | some (.labelTxIndex n, s1) =>
      match s1.sweep.visit with
      | some v =>
        if v.stage = .publishing ∧ v.cancelled = false ∧ n = s1.sweep.txProducer then s1.startVisit v else s1
      | none => s1
    | some (_, _) => s
    | none => s)

/-- Time moves up to `n` ticks after the visit start (log 32). -/
def State.reachTick (s : State) (v : Visit) (n : Nat) : State :=
  { s with micros := max s.micros (v.start + Config.tickMicros * n) }

/-- BLANK_END (R78). -/
def execBlankEnd (s : State) : Host.Outcome State Fault Refusal :=
  s.sweeping (fun s =>
    match s.sweep.visit with
    | some v => if s.sweep.state = .blank ∧ v.cancelled = false then (s.reachTick v v.blank).endBlank v else s
    | none => s)

/-- A forced end (R81). -/
def State.forceEnd (s : State) (v : Visit) : State :=
  ((s.setSweepState .settle).ageLate v.zone).closeRecords { v with ending := .forced } .labelUnanswered OutStatus.unclosed

/-- FORCED_END (R79, R81): the base time has passed with OPEN records left. -/
def execForcedEnd (s : State) : Host.Outcome State Fault Refusal :=
  s.sweeping (fun s =>
    match s.sweep.visit with
    | some v =>
      if s.sweep.state = .listen ∧ v.cancelled = false ∧ v.table.any (fun r => r.status == .opened) then
        (s.reachTick v v.base).forceEnd v
      else s
    | none => s)

/-- SETTLE_END (R80): the settle interval has run. -/
def execSettleEnd (s : State) : Host.Outcome State Fault Refusal :=
  s.sweeping (fun s =>
    match s.sweep.visit with
    | some v => if v.ending = .settling ∧ v.cancelled = false then s.setVisit (some { v with ending := .settled }) else s
    | none => s)

/-! ## Closing (R79 to R81, R83) -/

/-- The duration that a closing visit records, if any (R79 to R81). -/
def Visit.duration (v : Visit) : Option Nat :=
  match v.kind, v.ending with
  | .price, .settled => some v.lastAck
  | .price, .forced => some (if v.isMatched then v.base else v.base + v.base / 4)
  | _, _ => none

/-- A forced PRICE visit at which no record was matched (R70, R81). -/
def Visit.silentForced (v : Visit) : Bool := v.kind == .price && v.ending == .forced && !v.isMatched

/-- The visit may close: it was on the air, has ended, and its table is empty (R79 to R81). -/
def Visit.mayClose (v : Visit) : Bool :=
  v.stage == .onAir && !v.cancelled && v.table.isEmpty &&
    (v.ending == .settled || v.ending == .forced || v.ending == .silent)

def State.closeVisit (s : State) (c : Charter) (v : Visit) : State :=
  let s1 := match v.duration with
    | some d => s.recordDuration c d
    | none => s
  (if v.silentForced then s1.countEmptyForced v.zone else s1).afterVisit

/-- VISIT_CLOSE (R80, R81). -/
def execVisitClose (s : State) : Host.Outcome State Fault Refusal :=
  s.sweeping (fun s =>
    match s.charter, s.sweep.visit with
    | some c, some v => if v.mayClose then s.closeVisit c v else s
    | _, _ => s)

end Sys2Proof.Machine
end

