-- ==== Sys2Proof/Machine/Tasks.lean ====
section
/-! DEFINITION. How the places freed in the own-request queue and in the entry update queue are given to the units that wait,
and how a unit then goes on with the work that follows (R6, R173). -/

namespace Sys2Proof.Machine

/-- Work of a unit under the charter in force. -/
def State.underCharter (s : State) (f : Charter → State → State) : State :=
  match s.charter with
  | some c => f c s
  | none => s

/-- A unit does a piece of work that followed its request. -/
def State.doTask (s : State) : Task → State
  | .own r => s.placeOwn r
  | .entry src r => s.placeEntry src r
  | .report r => s.writeReport r
  | .fetch => s.fetchNow
  | .loadWord => s.loadWordNow
  | .countReport => s.countReport
  | .endLoad => s.endLoadNow
  | .accept => s.acceptNow
  | .loadWarning => s.loadWarning
  | .activate => s.activateNow
  | .gate => s.gateNow
  | .staged block record clamped listFull => s.stagedNow block record clamped listFull
  | .batchDone blocks => s.batchOver blocks
  | .discard => s.underCharter (fun c s => s.discardNow c)
  | .discarded => s.batchDiscarded
  | .frameIndex n => s.underCharter (fun c s => s.frameIndexNow c n)
  | .closing item kind => s.closeOne item kind
  | .listen => s.listenNow
  | .finishCancel => s.finishNow
  | .wake => s.wakeNow
  | .retry => s.retryNow
  | .ack d => s.underCharter (fun c s => s.ackNow c d)
  | .mode code => s.modeNow code
  | .stepSweep => s.stepNow
  | .resync selector n => s.underCharter (fun c s => s.resyncNow c selector n)
  | .upload r => s.underCharter (fun c s => s.uploadNow c r)
  | .countUpload => s.countUpload
  | .uploadIndex => s.underCharter (fun c s => s.indexNow c)
  | .summary r => s.summaryNow r
  | .drain => s.underCharter (fun c s => s.drainNow c)
  | .drainOne => s.underCharter (fun c s => s.drainOne c)
  | .handReport r => s.report r
  | .close t cause => s.underCharter (fun c s => s.closeNow c t cause)
  | .take => s.underCharter (fun c s => s.takeHand c)
  | .stamp => s.stampNow
  | .leave => s.underCharter (fun c s => s.leaveNow c)
  | .works => s.workAll
  | .resetDone t => s.resetDone t
  | .summaries day clock => s.underCharter (fun c s => s.summariesNow c day clock)

/-- A unit whose request is placed goes on with the work that follows, until a request of it has to wait again. -/
def State.resume (s : State) (u : PartUnit) (ts : List Task) : State :=
  ts.foldl (fun s t => s.orDefer u t (fun s => s.doTask t)) s

/-- Each place freed goes to the unit that has waited longest; a unit with more to place waits again behind the others
(R173). -/
def State.serveOwnWait : Nat → State → State
  | 0, s => s
  | n + 1, s =>
    if s.link.own.length < Config.ownDepth then
      match s.link.ownWait with
      | [] => s
      | u :: us =>
        let s0 := s.withLink { s.link with ownWait := us }
        match s.tasksOf u with
        | .own r :: ts => State.serveOwnWait n (((s0.dropTasks u).enqueueOwn r).resume u ts)
        | _ => State.serveOwnWait n s0
    else s

/-- The source that has waited longest places a request: the one that its unit waits with, or the next of those it produces one
by one. -/
def State.serveSource (s : State) (src : Source) : State :=
  match s.tasksOf src.unit with
  | .entry _ r :: ts => ((s.dropTasks src.unit).pushEntry r).resume src.unit ts
  | _ =>
    match s.nextOf src with
    | some (r, s1) => (s1.pushEntry r).settleSource src
    | none => s

/-- Each place freed goes to the source that has waited longest; a source with more to place waits again behind the others
(R6). -/
def State.serveEntry : Nat → State → State
  | 0, s => s
  | n + 1, s =>
    if s.entryRoom then
      match s.book.wait with
      | [] => s
      | src :: rest =>
        let s1 := (s.withBook { s.book with wait := rest }).serveSource src
        State.serveEntry n (if (s1.nextOf src).isSome then s1.waitEntry src else s1)
    else s

/-- Six sources and 64 places bound the number of turns. -/
def State.serveEntryWait (s : State) : State := State.serveEntry (Config.entryDepth + 6) s

end Sys2Proof.Machine
end

