-- ==== Sys2Proof/Machine/Port.lean ====
section
/-! DEFINITION. The meanings of the commands of the memory port and of the queues in front of it. -/

namespace Sys2Proof.Machine

/-- PORT_GRANT (R174 to R176). -/
def execPortGrant (s : State) : Host.Outcome State Fault Refusal := s.running State.grant

/-- The data that a forwarded read returns to its master (R24, R175). -/
def returnedData (r : Role) (d : List Byte) : List Byte :=
  match r with
  | .tillView => tillView d
  | .plain => d
  | .journalRecord => d
  | .intakeUpper => d

/-- PASS_THROUGH_READ_RETURN (R24, R175). -/
def execPassThroughReadReturn (s : State) : Host.Outcome State Fault Refusal :=
  s.running (fun s =>
    match s.takePassed (fun x => x.tx.dir == .read) with
    | some (x, d, s1) => s1.answer { tag := x.tx.tag, refused := false, data := returnedData x.role d }
    | none => s)

/-- PASS_THROUGH_WRITE_COMPLETE (R175): a write that no unit awaits. -/
def execPassThroughWriteComplete (s : State) : Host.Outcome State Fault Refusal :=
  s.running (fun s =>
    match s.takePassed (fun x => x.tx.dir == .write && x.role == .plain) with
    | some (x, _, s1) => s1.completeWrite x
    | none => s)

/-- OWN_REQUEST_QUEUE_ROOM (R173). A journal write that waited on the unit's work is examined then (R104). -/
def execOwnRequestQueueRoom (s : State) : Host.Outcome State Fault Refusal :=
  s.running (fun s => (State.serveOwnWait (Config.ownDepth + 5) s).pump)

/-- PASS_THROUGH_STREAM_ROOM (R174). -/
def execPassThroughStreamRoom (s : State) : Host.Outcome State Fault Refusal :=
  s.running (fun s => (State.serveStream Config.streamDepth s).pump)

/-- ENTRY_UPDATE_QUEUE_ROOM (R6). -/
def execEntryUpdateQueueRoom (s : State) : Host.Outcome State Fault Refusal :=
  s.running State.serveEntryWait

end Sys2Proof.Machine
end

