-- ==== Sys2Proof/Machine/Timing.lean ====
section
/-! DEFINITION. The meanings of the commands of reset, time, power and pacing. -/

namespace Sys2Proof.Machine

/-! ## Reset (R1, R62, R98, R128, R145, R157, R177, R186, R187) -/

/-- The part with every unit at its reset values; what lies outside the part stays: memory, the transactions that wait on the
link, the answers given, and the model's own fields (log 26). -/
def State.atReset (s : State) : State :=
  { State.reset with
    link := { LinkState.reset with waiting := s.link.waiting, answers := s.link.answers }
    mem := s.mem
    chb := s.chb
    micros := s.micros
    freeCount := s.freeCount
    pending := s.pending }

/-- RESET_N_ASSERT (R177): the part is at its reset values and does nothing until RESET_N rises. -/
def execResetNAssert (s : State) : Host.Outcome State Fault Refusal := .next { s.atReset with inReset := true }

/-- RESET_N_RISE (R177): the straps are latched, the charter window takes its place and the part is in PASS. -/
def execResetNRise (straps : Byte) (s : State) : Host.Outcome State Fault Refusal :=
  .next { s.atReset with chb := straps }.pump

/-! ## Seconds (R181) -/

/-- The two counts of the seconds timer advance (R181). -/
def State.advanceCounts (s : State) : State :=
  s.withPhase { s.phase with mono := s.phase.mono + 1, clock := (s.phase.clock + 1) % Config.daySeconds }

/-- Some enabled ZONE_SYNC slot's sync falls due at this second (R72, log 36). -/
def State.syncFallsDue (s : State) (c : Charter) : Bool :=
  s.sweep.slots.any (fun sl => sl.enabled && sl.sync &&
    (match (s.zoneRec sl.zone).lastSync with
      | some l => (s.phase.mono - l).toNat == c.syncMinutes * 60
      | none => false))

/-- The selection of an IDLE sweep at an advance of the second (R72). -/
def State.secondSweep (s : State) (c : Charter) : State :=
  if s.sweep.state = .idle ∧ s.phase.warning = false ∧
      (s.sweep.queues.toList.any (fun q => !q.isEmpty) ∨ s.syncFallsDue c) then s.wakeSweep
  else s

/-- The advance is handed to the units that keep time by it (R13, R72, R135, R181). -/
def State.handSecond (s : State) (c : Charter) : State :=
  let s1 := s.withBook { s.book with dueTo := some s.phase.mono }
  let s2 := if (List.range c.tillCount).any (s1.idleDue c) then s1.addWork .idleClose else s1
  s2.secondSweep c

/-- SECOND_ADVANCE (R181, R197). -/
def execSecondAdvance (s : State) : Host.Outcome State Fault Refusal :=
  s.running (fun s =>
    let s1 := s.advanceCounts
    match s1.charter with
    | none => s1
    | some c => (if s1.isActive then s1.handSecond c else s1).writeStatus)

/-- DUE_PROCESSING (R13). DESIGN CHOICE (log 7): due processing goes on while the price book unit waits with the own read or write
of its head request for room in the own-request queue. -/
def execDueProcessing (s : State) : Host.Outcome State Fault Refusal :=
  s.running (fun s => if s.isActive then (s.settleSource .due).fill .due else s)

/-- IDLE_CLOSE (R104, R135). -/
def execIdleClose (s : State) : Host.Outcome State Fault Refusal :=
  s.running (fun s => (s.workNow .idleClose).pump)

/-! ## Power (R183 to R185) -/

/-- One sample of the power-fail filter (R183): the warning state and the run count. -/
def filterSample (warning : Bool) (run : Nat) (asserted : Bool) : Bool × Nat :=
  if warning = asserted then (warning, 0)
  else if run + 1 < (if warning then Config.clearAfter else Config.warnAfter) then (warning, run + 1)
  else (!warning, 0)

/-- PFW_SAMPLE (R183); a change while a charter is in force is to be handed to the units, and one in PASS or in the LOADING that
follows reset leaves no trace but the warning state (R184, R185). -/
def execPfwSample (asserted : Bool) (s : State) : Host.Outcome State Fault Refusal :=
  s.running (fun s =>
    let r := filterSample s.phase.warning s.phase.runCount asserted
    s.withPhase { s.phase with
      warning := r.1
      runCount := r.2
      handoffs := if r.1 ≠ s.phase.warning ∧ s.inForce then s.phase.handoffs ++ [r.1] else s.phase.handoffs })

/-- WARNING_STANDS (R95, R96, R136, R184): the warning is handed to the units. -/
def execWarningStands (s : State) : Host.Outcome State Fault Refusal :=
  s.running (fun s =>
    match s.phase.handoffs with
    | true :: hs =>
      ((s.withPhase { s.phase with handoffs := hs }).addWork .powerClose).cancelVisit.report .powerWarning
    | _ => s)

/-- WARNING_CLEARS (R55, R96, R185): the clearing is handed to the units. -/
def execWarningClears (s : State) : Host.Outcome State Fault Refusal :=
  s.running (fun s =>
    match s.phase.handoffs with
    | false :: hs => ((s.withPhase { s.phase with handoffs := hs }).wakeSweep.examineGate).report .powerClear
    | _ => s)

/-- POWER_CLOSE (R104, R136). -/
def execPowerClose (s : State) : Host.Outcome State Fault Refusal :=
  s.running (fun s => (s.workNow .powerClose).pump)

/-! ## Pacing (R148, R152, R153) -/

/-- The level after a period's end (R153). -/
def adjustLevel (c : Charter) (back level floor : Nat) : Nat :=
  if c.highTrigger ≤ back then min 7 (level + 1)
  else if back ≤ c.lowTrigger then max floor (level - 1)
  else level

/-- The old period ends: the level moves in TRADING and CLOSING (R153). -/
def State.endPeriod (s : State) (c : Charter) : State :=
  if s.phase.phase = some .trading ∨ s.phase.phase = some .closing then
    s.withGuest { s.guest with
      level := adjustLevel c (backlog s.journal.producer s.journal.consumer) s.guest.level s.guest.floor }
  else s

/-- The new period begins: the count is 0, and held transactions are released (R148, R152). -/
def State.beginPeriod (s : State) (c : Charter) : State :=
  let s1 := s.withGuest { s.guest with periodBytes := 0 }
  if s.phase.phase = some .trading ∨ s.phase.phase = some .closing then State.releaseHold c Config.holdDepth s1 else s1

/-- PACING_PERIOD_BOUNDARY (R148). -/
def execPacingPeriodBoundary (s : State) : Host.Outcome State Fault Refusal :=
  s.running (fun s =>
    match s.charter with
    | none => s
    | some c => ((s.endPeriod c).beginPeriod c).pump)

end Sys2Proof.Machine
end

