-- ==== Sys2Proof/Machine/Transactions.lean ====
section
/-! DEFINITION. The meanings of the commands that are transactions of the system link. Each offers its transaction; the link
interface takes it, and the window decoder judges it by its class, place and content at the head of its accept queue (R159,
R161 to R169), whatever row it was sent as (log 5). -/

namespace Sys2Proof.Machine

/-- A transaction offered on the system link, taken and judged as far as the queues allow; while RESET_N is asserted it only
waits on the link (R159, R177). -/
def State.transact (s : State) (tx : Transaction) : State :=
  if s.inReset then s.offerTx tx else (s.offerTx tx).pump

/-- GUEST_TRANSACTION (R146): the pacer's judgement is State.judgeGuest. -/
def execGuestTransaction (tx : Transaction) (s : State) : Host.Outcome State Fault Refusal := .next (s.transact tx)

/-- PASS_TRANSACTION (R169): the forwarding in PASS is State.servePass. -/
def execPassTransaction (tx : Transaction) (s : State) : Host.Outcome State Fault Refusal := .next (s.transact tx)

/-- PLAIN_TRANSACTION (R162): the judgement is State.judgeOpen. -/
def execPlainTransaction (tx : Transaction) (s : State) : Host.Outcome State Fault Refusal := .next (s.transact tx)

/-- SPECIAL_WINDOW_ACCESS (R163): the fixed access is State.judgeSpecial. -/
def execSpecialWindowAccess (tx : Transaction) (s : State) : Host.Outcome State Fault Refusal := .next (s.transact tx)

/-- REGISTER_WRITE (R163): writes that no unit observes pass by State.judgeSpecial. -/
def execRegisterWrite (tx : Transaction) (s : State) : Host.Outcome State Fault Refusal := .next (s.transact tx)

/-- TILL_PRICE_READ (R24, R25): the judgement is State.judgePriceRead. -/
def execTillPriceRead (tx : Transaction) (s : State) : Host.Outcome State Fault Refusal := .next (s.transact tx)

/-- ACKNOWLEDGMENT (R86): judged by judgeLabelRx, examined by State.examineAck. -/
def execAcknowledgment (tx : Transaction) (s : State) : Host.Outcome State Fault Refusal := .next (s.transact tx)

/-- LABEL_TX_CONSUMER_WRITE (R74): taken by State.takeLabelConsumer. -/
def execLabelTxConsumerWrite (tx : Transaction) (s : State) : Host.Outcome State Fault Refusal := .next (s.transact tx)

/-- JOURNAL_CONSUMER_WRITE (R100): taken by State.observe. -/
def execJournalConsumerWrite (tx : Transaction) (s : State) : Host.Outcome State Fault Refusal := .next (s.transact tx)

/-- UPLOAD_CONSUMER_WRITE (R137): taken by State.takeUploadConsumer. -/
def execUploadConsumerWrite (tx : Transaction) (s : State) : Host.Outcome State Fault Refusal := .next (s.transact tx)

/-- CONTROL_PRODUCER_WRITE (R192): taken by State.takeControlProducer, then State.fetchControl. -/
def execControlProducerWrite (tx : Transaction) (s : State) : Host.Outcome State Fault Refusal := .next (s.transact tx)

/-- REPORT_CONSUMER_WRITE (R196): taken by State.observe. -/
def execReportConsumerWrite (tx : Transaction) (s : State) : Host.Outcome State Fault Refusal := .next (s.transact tx)

/-- LOAD_WORD_WRITE (R188): watched by State.watchLoadWord. -/
def execLoadWordWrite (tx : Transaction) (s : State) : Host.Outcome State Fault Refusal := .next (s.transact tx)

/-- INTAKE_LOWER_HALF (R45): judged by State.judgeLower. -/
def execIntakeLowerHalf (tx : Transaction) (s : State) : Host.Outcome State Fault Refusal := .next (s.transact tx)

/-- INTAKE_UPPER_HALF (R44, R46): judged by State.judgeUpper. -/
def execIntakeUpperHalf (tx : Transaction) (s : State) : Host.Outcome State Fault Refusal := .next (s.transact tx)

/-- SIGN_ON (R114): tested by State.journalTest, taken by takeSignOn. -/
def execSignOn (tx : Transaction) (s : State) : Host.Outcome State Fault Refusal := .next (s.transact tx)

/-- ITEM (R115): tested by State.journalTest, taken by takeItemLine. -/
def execItem (tx : Transaction) (s : State) : Host.Outcome State Fault Refusal := .next (s.transact tx)

/-- VOID_LINE (R116): tested by State.journalTest, taken by takeVoidLine. -/
def execVoidLine (tx : Transaction) (s : State) : Host.Outcome State Fault Refusal := .next (s.transact tx)

/-- BASKET_TOTAL (R117): tested by State.journalTest, taken by takeBasketTotal. -/
def execBasketTotal (tx : Transaction) (s : State) : Host.Outcome State Fault Refusal := .next (s.transact tx)

/-- BASKET_CANCEL (R118): tested by State.journalTest, taken by takeBasketCancel. -/
def execBasketCancel (tx : Transaction) (s : State) : Host.Outcome State Fault Refusal := .next (s.transact tx)

/-- REFUND (R119): tested by State.journalTest, taken by takeRefundLine. -/
def execRefund (tx : Transaction) (s : State) : Host.Outcome State Fault Refusal := .next (s.transact tx)

/-- NO_SALE (R120): tested by State.journalTest, taken by takeNoSale. -/
def execNoSale (tx : Transaction) (s : State) : Host.Outcome State Fault Refusal := .next (s.transact tx)

/-- SIGN_OFF (R121): tested by State.journalTest, taken by takeSignOff. -/
def execSignOff (tx : Transaction) (s : State) : Host.Outcome State Fault Refusal := .next (s.transact tx)

/-- UNKNOWN_JOURNAL_KIND (R113): tested by State.journalTest, taken by takeOutOfState. -/
def execUnknownJournalKind (tx : Transaction) (s : State) : Host.Outcome State Fault Refusal := .next (s.transact tx)

end Sys2Proof.Machine
end

