-- ==== Sys2Proof/Machine/Dispatch.lean ====
section
/-! DEFINITION. The command and its meaning: one arm for each row of the table. -/

namespace Sys2Proof.Machine

def exec (i : Instr) (s : State) : Host.Outcome State Fault Refusal :=
  match i with
  | .resetNAssert => Sys2Proof.Machine.execResetNAssert s
  | .resetNRise straps => Sys2Proof.Machine.execResetNRise straps s
  | .secondAdvance => Sys2Proof.Machine.execSecondAdvance s
  | .dueProcessing => Sys2Proof.Machine.execDueProcessing s
  | .idleClose => Sys2Proof.Machine.execIdleClose s
  | .pfwSample asserted => Sys2Proof.Machine.execPfwSample asserted s
  | .warningStands => Sys2Proof.Machine.execWarningStands s
  | .warningClears => Sys2Proof.Machine.execWarningClears s
  | .powerClose => Sys2Proof.Machine.execPowerClose s
  | .pacingPeriodBoundary => Sys2Proof.Machine.execPacingPeriodBoundary s
  | .guestTransaction tx => Sys2Proof.Machine.execGuestTransaction tx s
  | .passTransaction tx => Sys2Proof.Machine.execPassTransaction tx s
  | .plainTransaction tx => Sys2Proof.Machine.execPlainTransaction tx s
  | .specialWindowAccess tx => Sys2Proof.Machine.execSpecialWindowAccess tx s
  | .registerWrite tx => Sys2Proof.Machine.execRegisterWrite tx s
  | .portGrant => Sys2Proof.Machine.execPortGrant s
  | .passThroughReadReturn => Sys2Proof.Machine.execPassThroughReadReturn s
  | .passThroughWriteComplete => Sys2Proof.Machine.execPassThroughWriteComplete s
  | .ownRequestQueueRoom => Sys2Proof.Machine.execOwnRequestQueueRoom s
  | .passThroughStreamRoom => Sys2Proof.Machine.execPassThroughStreamRoom s
  | .entryUpdateQueueRoom => Sys2Proof.Machine.execEntryUpdateQueueRoom s
  | .tillPriceRead tx => Sys2Proof.Machine.execTillPriceRead tx s
  | .entryReadComplete => Sys2Proof.Machine.execEntryReadComplete s
  | .entryWriteComplete => Sys2Proof.Machine.execEntryWriteComplete s
  | .stage => Sys2Proof.Machine.execStage s
  | .changeoverDue => Sys2Proof.Machine.execChangeoverDue s
  | .priceCheck => Sys2Proof.Machine.execPriceCheck s
  | .queueJoin => Sys2Proof.Machine.execQueueJoin s
  | .frameSent => Sys2Proof.Machine.execFrameSent s
  | .labelAck => Sys2Proof.Machine.execLabelAck s
  | .labelUnanswered => Sys2Proof.Machine.execLabelUnanswered s
  | .labelReturn => Sys2Proof.Machine.execLabelReturn s
  | .labelResyncRequest => Sys2Proof.Machine.execLabelResyncRequest s
  | .keep => Sys2Proof.Machine.execKeep s
  | .rescanWalk => Sys2Proof.Machine.execRescanWalk s
  | .framePublish => Sys2Proof.Machine.execFramePublish s
  | .visitStart => Sys2Proof.Machine.execVisitStart s
  | .blankEnd => Sys2Proof.Machine.execBlankEnd s
  | .forcedEnd => Sys2Proof.Machine.execForcedEnd s
  | .settleEnd => Sys2Proof.Machine.execSettleEnd s
  | .visitClose => Sys2Proof.Machine.execVisitClose s
  | .acknowledgment tx => Sys2Proof.Machine.execAcknowledgment tx s
  | .labelTxConsumerWrite tx => Sys2Proof.Machine.execLabelTxConsumerWrite tx s
  | .journalConsumerWrite tx => Sys2Proof.Machine.execJournalConsumerWrite tx s
  | .uploadConsumerWrite tx => Sys2Proof.Machine.execUploadConsumerWrite tx s
  | .signOn tx => Sys2Proof.Machine.execSignOn tx s
  | .item tx => Sys2Proof.Machine.execItem tx s
  | .voidLine tx => Sys2Proof.Machine.execVoidLine tx s
  | .basketTotal tx => Sys2Proof.Machine.execBasketTotal tx s
  | .basketCancel tx => Sys2Proof.Machine.execBasketCancel tx s
  | .refund tx => Sys2Proof.Machine.execRefund tx s
  | .noSale tx => Sys2Proof.Machine.execNoSale tx s
  | .signOff tx => Sys2Proof.Machine.execSignOff tx s
  | .unknownJournalKind tx => Sys2Proof.Machine.execUnknownJournalKind tx s
  | .journalRecordForwarded => Sys2Proof.Machine.execJournalRecordForwarded s
  | .nightEntry => Sys2Proof.Machine.execNightEntry s
  | .newDayWork => Sys2Proof.Machine.execNewDayWork s
  | .intakeLowerHalf tx => Sys2Proof.Machine.execIntakeLowerHalf tx s
  | .intakeUpperHalf tx => Sys2Proof.Machine.execIntakeUpperHalf tx s
  | .blockAccepted => Sys2Proof.Machine.execBlockAccepted s
  | .intakeBlockRead => Sys2Proof.Machine.execIntakeBlockRead s
  | .controlProducerWrite tx => Sys2Proof.Machine.execControlProducerWrite tx s
  | .setPhase => Sys2Proof.Machine.execSetPhase s
  | .setClock => Sys2Proof.Machine.execSetClock s
  | .urgentMarkdown => Sys2Proof.Machine.execUrgentMarkdown s
  | .labelResync => Sys2Proof.Machine.execLabelResync s
  | .tillReset => Sys2Proof.Machine.execTillReset s
  | .sweepMode => Sys2Proof.Machine.execSweepMode s
  | .stepSweep => Sys2Proof.Machine.execStepSweep s
  | .batchDiscard => Sys2Proof.Machine.execBatchDiscard s
  | .reloadCharter => Sys2Proof.Machine.execReloadCharter s
  | .unknownControlKind => Sys2Proof.Machine.execUnknownControlKind s
  | .controlDone => Sys2Proof.Machine.execControlDone s
  | .reportPublished => Sys2Proof.Machine.execReportPublished s
  | .reportConsumerWrite tx => Sys2Proof.Machine.execReportConsumerWrite tx s
  | .loadWordWrite tx => Sys2Proof.Machine.execLoadWordWrite tx s
  | .charterCheck => Sys2Proof.Machine.execCharterCheck s
  | .walkStart => Sys2Proof.Machine.execWalkStart s
  | .charterAccept => Sys2Proof.Machine.execCharterAccept s

end Sys2Proof.Machine
end

