-- ==== Sys2Proof/Safety.lean ====
section
/-! DEFINITION. What counts as a safe run: the properties of a state that the rules of the manual keep, and the conditions
under which a command is taken at once, in which the statements about the commands are made. -/

namespace Sys2Proof

/-- The transaction that a command offers on the system link, for the rows that are transactions. -/
def Instr.transaction : Instr → Option Transaction
  | .resetNAssert => none
  | .resetNRise _ => none
  | .secondAdvance => none
  | .dueProcessing => none
  | .idleClose => none
  | .pfwSample _ => none
  | .warningStands => none
  | .warningClears => none
  | .powerClose => none
  | .pacingPeriodBoundary => none
  | .guestTransaction tx => some tx
  | .passTransaction tx => some tx
  | .plainTransaction tx => some tx
  | .specialWindowAccess tx => some tx
  | .registerWrite tx => some tx
  | .portGrant => none
  | .passThroughReadReturn => none
  | .passThroughWriteComplete => none
  | .ownRequestQueueRoom => none
  | .passThroughStreamRoom => none
  | .entryUpdateQueueRoom => none
  | .tillPriceRead tx => some tx
  | .entryReadComplete => none
  | .entryWriteComplete => none
  | .stage => none
  | .changeoverDue => none
  | .priceCheck => none
  | .queueJoin => none
  | .frameSent => none
  | .labelAck => none
  | .labelUnanswered => none
  | .labelReturn => none
  | .labelResyncRequest => none
  | .keep => none
  | .rescanWalk => none
  | .framePublish => none
  | .visitStart => none
  | .blankEnd => none
  | .forcedEnd => none
  | .settleEnd => none
  | .visitClose => none
  | .acknowledgment tx => some tx
  | .labelTxConsumerWrite tx => some tx
  | .journalConsumerWrite tx => some tx
  | .uploadConsumerWrite tx => some tx
  | .signOn tx => some tx
  | .item tx => some tx
  | .voidLine tx => some tx
  | .basketTotal tx => some tx
  | .basketCancel tx => some tx
  | .refund tx => some tx
  | .noSale tx => some tx
  | .signOff tx => some tx
  | .unknownJournalKind tx => some tx
  | .journalRecordForwarded => none
  | .nightEntry => none
  | .newDayWork => none
  | .intakeLowerHalf tx => some tx
  | .intakeUpperHalf tx => some tx
  | .blockAccepted => none
  | .intakeBlockRead => none
  | .controlProducerWrite tx => some tx
  | .setPhase => none
  | .setClock => none
  | .urgentMarkdown => none
  | .labelResync => none
  | .tillReset => none
  | .sweepMode => none
  | .stepSweep => none
  | .batchDiscard => none
  | .reloadCharter => none
  | .unknownControlKind => none
  | .controlDone => none
  | .reportPublished => none
  | .reportConsumerWrite tx => some tx
  | .loadWordWrite tx => some tx
  | .charterCheck => none
  | .walkStart => none
  | .charterAccept => none

end Sys2Proof

namespace Sys2Proof.Machine

/-! ## What a run keeps -/

/-- The store clock is a second of the day (R181). -/
def State.clockInDay (s : State) : Prop := s.phase.clock < Config.daySeconds

/-- The run count of the power-fail filter stays below the count that changes the warning (R183). -/
def State.filterInRange (s : State) : Prop :=
  s.phase.runCount < (if s.phase.warning then Config.clearAfter else Config.warnAfter)

/-- Memory is in its canonical form. -/
def State.memoryWf (s : State) : Prop := s.mem.wf = true

/-- The part of the charter check that the running part relies on (R190: COUNT_RANGE and BASE_RANGE). -/
structure Charter.Fits (c : Charter) : Prop where
  floors : c.sweepFloor ≤ 7 ∧ c.tradingFloor ≤ 7 ∧ c.closingFloor ≤ 7
  bases  : 10 ≤ c.baseMin ∧ c.baseMin ≤ c.baseMax
  blank  : c.blankFraction ≤ 127
  resume : c.keep = true → c.resume.isSome = true

/-- One zone record within its ranges (R69, R89). -/
def ZoneRecord.InRange (z : ZoneRecord) : Prop :=
  z.late.length ≤ Config.lateDepth ∧ z.emptyForced ≤ Config.darkAfter ∧ z.probeCycle ≤ Config.probeAfter

/-- Every queue, list and count is within what the part holds. -/
structure State.Bounds (s : State) : Prop where
  /-- R173 -/
  own : s.link.own.length ≤ Config.ownDepth
  /-- R174 -/
  stream : s.link.stream.length ≤ Config.streamDepth
  /-- R151 -/
  hold : s.link.hold.length ≤ Config.holdDepth
  /-- R159 -/
  passQueue : s.link.passQueue.length ≤ Config.acceptDepth
  /-- R159 -/
  accept : ∀ k, (s.queueOf k).length ≤ Config.acceptDepth
  /-- R6 -/
  queue : s.book.queue.length ≤ Config.entryDepth
  /-- R12 -/
  list : s.listCount ≤ Config.listDepth
  /-- R64 -/
  pool : s.sweep.poolUsed ≤ Config.poolDepth
  /-- R83 -/
  history : s.sweep.history.length ≤ Config.historyDepth
  /-- R69, R89 -/
  zones : ∀ z, (s.zoneRec z).InRange
  /-- R84, R85 -/
  base : ∀ c, s.charter = some c →
    c.baseMin ≤ s.sweep.base ∧ s.sweep.base ≤ c.baseMax ∧ s.sweep.blank < s.sweep.base
  /-- R170 -/
  refusals : s.link.refusals ≤ 65535
  /-- R195 -/
  lost : s.control.lost ≤ 65535
  /-- R149, R154 -/
  level : s.guest.level ≤ 7 ∧ s.guest.floor ≤ 7
  /-- R148 -/
  period : s.guest.periodBytes < 2 ^ 32

/-- The part state, the charter in force, the load in progress and the store phase agree (R158, R159, R178, R187, R189). -/
structure State.Modes (s : State) : Prop where
  pass    : s.control.part = .pass → s.charter = none ∧ s.control.load = none
  active  : s.control.part = .active → s.charter.isSome = true ∧ s.control.load = none
  loading : s.control.part = .loading → s.control.load.isSome = true
  accepted : ∀ l, s.control.load = some l → l.stage = .accepted → l.charter.isSome = true
  phase   : s.charter.isSome = s.phase.phase.isSome
  fits    : ∀ c, s.charter = some c → c.Fits
  loadFits : ∀ c, s.control.load.bind Load.charter = some c → c.Fits
  passFront : s.charter = none → ∀ k, s.queueOf k = []
  classFront : s.charter.isSome = true → s.link.passQueue = []

/-- The invariant of the units. -/
def State.UnitsInv (s : State) : Prop := s.Bounds ∧ s.Modes

/-- The invariant of the whole machine: the units, the clock, the power-fail filter and the form of memory. -/
def State.Inv (s : State) : Prop := s.UnitsInv ∧ s.clockInDay ∧ s.filterInRange ∧ s.memoryWf

/-! ## The conditions in which a command is taken at once -/

/-- No unit waits for room in the own-request queue or in the entry update queue (R6, R173). -/
def State.noneWaits (s : State) : Prop := s.link.tasks = []

/-- No transaction stands in front of the decoder and no journal record is in hand. -/
def State.linkQuiet (s : State) : Prop :=
  s.link.waiting = [] ∧ s.link.passQueue = [] ∧ s.link.accept = Vector.replicate 7 [] ∧ s.link.streamWait = [] ∧
    s.journal.hand = none

/-- A transaction offered now is taken, judged by the charter `c` and carried out at once (R159, R169, R174). -/
def State.decides (s : State) (c : Charter) : Prop :=
  s.inReset = false ∧ s.charter = some c ∧ s.linkQuiet ∧ s.noneWaits ∧ s.link.stream.length < Config.streamDepth ∧
    s.link.hold.length < Config.holdDepth

/-- In PASS a transaction offered now is taken and forwarded at once (R159, R169). -/
def State.passes (s : State) : Prop :=
  s.inReset = false ∧ s.charter = none ∧ s.linkQuiet ∧ s.noneWaits ∧ s.link.stream.length < Config.streamDepth

/-- The own-request queue takes `n` more requests at once (R173). -/
def State.ownFree (s : State) (n : Nat) : Prop :=
  s.noneWaits ∧ s.link.ownWait = [] ∧ s.link.own.length + n ≤ Config.ownDepth

/-- The entry update queue takes `n` more requests at once (R6). -/
def State.entryFree (s : State) (n : Nat) : Prop :=
  s.noneWaits ∧ s.book.wait = [] ∧ s.book.queue.length + n ≤ Config.entryDepth

/-- The place of a transaction that does not straddle (R161). -/
def State.liesIn (s : State) (c : Charter) (tx : Transaction) (p : Place) : Prop :=
  s.straddles c tx = false ∧ s.placeOf c tx.start = p

/-- The part's units but the link interface and the control unit are as they were, and so is memory. -/
def State.SameUnits (s t : State) : Prop :=
  t.book = s.book ∧ t.intake = s.intake ∧ t.sweep = s.sweep ∧ t.journal = s.journal ∧ t.guest = s.guest ∧
    t.phase = s.phase ∧ t.charter = s.charter ∧ t.mem = s.mem

/-- The REPORT ring of the charter takes reports and has a free slot (R189, R195). -/
def State.reportRoom (s : State) (c : Charter) : Prop :=
  s.accepting = false ∧ (s.control.repProducer - s.control.repConsumer).toNat < (c.window .report).slots

/-- The REPORT ring of the charter takes reports and is full (R195). -/
def State.reportFull (s : State) (c : Charter) : Prop :=
  s.accepting = false ∧ (c.window .report).slots ≤ (s.control.repProducer - s.control.repConsumer).toNat

/-- The own requests that a report is: its slot write and its producer index write (R195). -/
def State.reportRequests (s : State) (c : Charter) (r : Report) : List OwnRequest :=
  let w := c.window .report
  let n := s.control.repProducer
  [{ unit := .control, addr := w.base + 64 + n.toNat % w.slots * 32, body := .write (r.bytes s.phase.clock s.phase.mono),
     purpose := .silent, placedAt := s.micros },
   { unit := .control, addr := w.base, body := .indexWords (some (n + 1)) none,
     purpose := .reportIndex s.control.epoch (n + 1), placedAt := s.micros }]

/-- The own requests that reports are when each has a free slot, the first at the count `n` (R195). -/
def State.reportSeries (s : State) (c : Charter) : Word32 → List Report → List OwnRequest
  | _, [] => []
  | n, r :: rs =>
    State.reportRequests { s with control := { s.control with repProducer := n } } c r ++ State.reportSeries s c (n + 1) rs

/-- A report handed on now, before stage 4 of a load or after it (R195): with a free slot its two own requests are placed, and with
none it is lost and counted. -/
def State.reportsNow (s t : State) (c : Charter) (r : Report) : Prop :=
  (s.reportRoom c → s.ownFree 2 → t.link.own = s.link.own ++ s.reportRequests c r ∧
    t.control = { s.control with repProducer := s.control.repProducer + 1 }) ∧
  (s.reportFull c → t.link.own = s.link.own ∧ t.control = { s.control with lost := min 65535 (s.control.lost + 1) })

/-- What a refusal leaves (R170 to R172): the REFUSED completion with zero data for a read, the count, and the first-refusal
record; nothing joins the stream; and a refusal by the window decoder, the pacer or the sweep controller is reported. -/
def State.RefusedTo (s t : State) (c : Charter) (src : RefusalSource) (why : Reason) (tx : Transaction) : Prop :=
  let r : Refused :=
    { tag := tx.tag, cls := c.classOf tx.tag, dir := tx.dir, addr := tx.addr, len := tx.len, source := src, reason := why }
  t.link.answers = s.link.answers ++
      [{ tag := tx.tag, refused := true, data := if tx.dir = .read then List.replicate tx.len 0 else [] }] ∧
    t.link.refusals = min 65535 (s.link.refusals + 1) ∧ t.link.firstRefusal = some (s.link.firstRefusal.getD r) ∧
    t.link.stream = s.link.stream ∧
    (src = .decoder ∨ src = .pacer ∨ src = .sweep → s.reportsNow t c (.guardRefusal r))

/-- A TILL write that passes every test of R101 and is taken at once: it becomes the record in hand. Neither the new-day work nor
the power-fail closes are due (R136, R144), and a block record that it may have to close first finds room in the own-request queue (R132 to R134). -/
structure State.JournalTakes (s : State) (c : Charter) (tx : Transaction) : Prop where
  decides : s.decides c
  cls     : c.classOf tx.tag = .till
  place   : s.liesIn c tx (.window (c.window .journal))
  kind    : (c.window .journal).kind = .journal
  slot    : slotStart (c.window .journal) 64 tx.start = some (s.journal.producer.toNat % (c.window .journal).slots)
  whole   : tx.fullWrite 64 = true
  reload  : s.reloading = false
  power   : s.phase.warning = false
  room    : backlog s.journal.producer s.journal.consumer < (c.window .journal).slots
  held    : s.journal.holdList = []
  number  : journalTill tx.data < c.tillCount
  tills   : c.tillCount ≤ 48
  works   : JournalWork.newDay ∉ s.journal.works ∧ JournalWork.powerClose ∉ s.journal.works
  own     : (s.till (journalTill tx.data)).block.count ≠ 0 → s.ownFree 2

/-- The same, for a record with a clean line status that is the first of its till or the next in sequence (R109, R110). -/
def State.takesInOrder (s : State) (c : Charter) (tx : Transaction) : Prop :=
  s.JournalTakes c tx ∧ journalLineStatus tx.data = 0 ∧
    ((s.till (journalTill tx.data)).expected = none ∨
      (s.till (journalTill tx.data)).expected = some (journalSeq tx.data))

/-- A record goes into the stream with its stamp (R103, R105). -/
def State.stamped (s t : State) (tx : Transaction) (flags : Disposition) (amount : Nat) : Prop :=
  let check := ~~~(t.till (journalTill tx.data)).acc
  let stamp := stampBytes s.phase.clock s.phase.day flags amount check
  t.link.stream = s.link.stream ++ [⟨{ tx with data := tx.data.take 48 ++ stamp }, .journalRecord⟩]

/-! ## The request at the head of the entry update queue -/

/-- The own read of the head request has returned with the bytes `d` of the entry, and nothing stands in front (R7). -/
structure State.HeadReturns (s : State) (c : Charter) (r : EntryReq) (rest : List EntryReq) (d : List Byte) : Prop where
  running : s.inReset = false
  queue   : s.book.queue = r :: rest
  reading : s.book.headPhase = .reading
  charter : s.bookCharter = some c
  read    : ∃ u, s.takeRead .entryRead = some (d, u)
  quiet   : s.linkQuiet
  own     : s.ownFree 1

/-- One own write of the whole entry is placed and the request stays at the head until it completes; then `acts` is what it
brings (R1, R7). -/
def State.writesEntry (s t : State) (c : Charter) (item : Nat) (e : Entry) (acts : List LeaveAct) : Prop :=
  t.book.headPhase = .writing acts ∧ (∃ more, t.book.queue = s.book.queue ++ more) ∧
    t.link.own = s.link.own ++ [{ unit := .book, addr := (c.window .price).base + 64 * item, body := .write e.bytes
                                  purpose := .entryWrite, placedAt := s.micros }] ∧ t.mem = s.mem

/-- The request leaves the queue and its entry is not written (R7). -/
def State.leavesUnwritten (s t : State) (rest : List EntryReq) : Prop :=
  (∃ more, t.book.queue = rest ++ more) ∧ (∀ acts, t.book.headPhase ≠ .writing acts) ∧
    (∀ q ∈ t.link.own, q.purpose = .entryWrite → q ∈ s.link.own) ∧ t.mem = s.mem

/-- No visit in hand is cancelled (R95). -/
def State.noCancel (s : State) : Prop := ∀ v, s.sweep.visit = some v → v.cancelled = false

/-- The visit in hand when an item's record has left its table (R77). -/
def Visit.without (v : Visit) (item : Nat) : Visit := { v with table := v.table.filter (fun x => x.item != item) }

/-- What a request that leaves its entry unwritten brings is handed on at once (R7): the end of its item's record in the
outstanding table (R77), its item's answer without a frame (R22, R76), the end of a resync (R94), the refusal of a STAGE request
that found the list full (R11, R40), and the count of the walk (R29). -/
def State.broughtNow (s t : State) (acts : List LeaveAct) : Prop :=
  (∀ item v, acts = [.close item] → s.sweep.visit = some v → v.cancelled = false →
    t.sweep.visit = some (v.without item)) ∧
  (∀ item v, acts = [.frame item none] → s.sweep.visit = some v → v.cancelled = false →
    t.sweep.visit = some { v with taken := v.taken.filter (fun x => x.item != item) }) ∧
  (acts = [.resynced true] → t.control.record =
    s.control.record.map (fun x => { x with result := some .done, clamped := false })) ∧
  (∀ clamped, acts = [.staged .control clamped true] → t.control.record =
    s.control.record.map (fun x => { x with result := some .refusedFull, clamped })) ∧
  (∀ block n clamped, acts = [.staged (.intake block n) clamped true] → s.intake.state = .applying →
    s.intake.block = none → t.intake.listFull = s.intake.listFull + 1 ∧ t.intake.handedOn = s.intake.handedOn + 1 ∧
      t.intake.firstSkip = some (s.intake.firstSkip.getD ⟨block, n, .listFull⟩)) ∧
  (∀ l, acts = [.kept] → s.control.load = some l → t.control.load.map Load.performed = some (l.performed + 1))

/-- The head request made the entry `e` as read into `e2`: it is written when it differs, and left unwritten otherwise; what the
request brings is handed on when it leaves (R7). -/
def State.makesEntry (s t : State) (c : Charter) (item : Nat) (rest : List EntryReq) (e e2 : Entry) (acts : List LeaveAct) :
    Prop :=
  if e2 = e then s.leavesUnwritten t rest ∧ s.broughtNow t acts else s.writesEntry t c item e2 acts

/-- The answer QUEUED to an offer (R65): the item is in a zone queue already, or it is neither taken for the visit in hand nor
outstanding in it as OPEN or ANSWERED_FAULT, and the pool has a place. -/
def State.answersQueued (s : State) (item : Nat) : Bool :=
  (s.queuedIn item).isSome ||
    (!s.isTaken item && s.outStatus item != some .opened && s.outStatus item != some .answeredFault &&
      decide (s.sweep.poolUsed < 2048))

/-- The entry needs labelling with QUEUED clear (R3). -/
abbrev Entry.lacksQueue (e : Entry) : Prop := (e.label = .unconfirmed ∨ e.label = .due) ∧ e.queued = false

/-- An entry that needs labelling with QUEUED clear takes the answer of its offer (R3, R65). -/
def Entry.offered (e : Entry) (queued : Bool) : Entry := if e.lacksQueue then { e with queued } else e

/-- An offer answered QUEUED whose item joins its zone's queue only as its record leaves the outstanding table (R65): the record
is CLOSING, the offer comes from the request that closes it, and the pool has a place. -/
def State.joinsLater (s : State) (item : Nat) : Bool :=
  (s.queuedIn item).isNone && !s.isTaken item && s.outStatus item == some .closing && decide (s.sweep.poolUsed < 2048)

/-- The join that a closing request brings when its offer was answered so (R65). -/
def State.laterJoin (s : State) (e : Entry) (item : Nat) : List LeaveAct :=
  if e.lacksQueue ∧ s.joinsLater item = true then [.join item e.zone] else []

/-- An offer of an item that stands in no zone queue and that the visit in hand does not hold (R65): with a place in the pool the
place is counted and the item stands at the tail of its zone's queue, at once or, from a closing request, when that request
leaves; with none RESCAN is set, a walk in progress ends at this item (R67), and no queue changes. -/
def State.tookOffer (s t : State) (item zone : Nat) (closing : Bool) : Prop :=
  s.queuedIn item = none → s.isTaken item = false → s.outStatus item ≠ some .opened → s.outStatus item ≠ some .answeredFault →
    s.sweep.state ≠ .idle → s.noCancel →
    (s.sweep.poolUsed < 2048 → t.sweep.poolUsed = s.sweep.poolUsed + 1 ∧
      t.sweep.queues = if closing = true ∧ s.outStatus item = some .closing then s.sweep.queues
        else s.sweep.queues.setIfInBounds zone (s.zoneQueue zone ++ [item])) ∧
    (2048 ≤ s.sweep.poolUsed → t.sweep.rescan = true ∧ t.sweep.poolUsed = s.sweep.poolUsed ∧
      t.sweep.queues = s.sweep.queues ∧ t.sweep.scan = s.sweep.scan.map (fun w => { w with start := item }))

/-! ## The label at a change of its target and at a changeover -/

/-- The label target is recomputed, and the upkeep follows (R19, R20): a CONFIRMED label whose shown price differs from it
becomes DUE, and a FAULT label whose target changes becomes DUE with retry count 0. -/
def Entry.upkept (e : Entry) (target : Nat) : Entry :=
  { e with
    target
    label := if (e.label = .confirmed ∧ target ≠ e.shown) ∨ (e.label = .fault ∧ target ≠ e.target) then .due else e.label
    retry := if e.label = .fault ∧ target ≠ e.target then 0 else e.retry }

/-- `e2` is what a changeover that makes `p` the charge leaves of the entry `e`, but for QUEUED: the pending tuple copied into
the live one (R2, R15), FORCED as given (R18), and the label. With a new address or zone it is assigned anew (R21). Else it is
DUE with retry count 0 when a CONFIRMED or FAULT label's item changes between ACTIVE and RETIRED or a FAULT label's target
changes, and DUE when it was CONFIRMED at another price or the change was forced (R18, R20). -/
structure Entry.WentOver (e e2 : Entry) (p : Nat) (mono : Word32) (forced : Bool) : Prop where
  charge : e2.charge = p ∧ e2.previous = e.charge ∧ e2.changeover = mono ∧ e2.target = p
  live : e2.base = e.pBase ∧ e2.markdown = e.pMarkdown ∧ e2.floor = e.pFloor ∧ e2.address = e.pAddress ∧ e2.zone = e.pZone ∧
    e2.weighed = e.pWeighed ∧ e2.noMarkdown = e.pNoMarkdown
  item : e2.item = if e.pRetire = true then .retired else .active
  marks : e2.pending = false ∧ e2.waiting = false ∧ e2.forced = forced ∧ e2.generation = e.generation + 1
  pending : e2.pBase = e.pBase ∧ e2.pMarkdown = e.pMarkdown ∧ e2.pFloor = e.pFloor ∧ e2.pAddress = e.pAddress ∧
    e2.pZone = e.pZone ∧ e2.pWeighed = e.pWeighed ∧ e2.pNoMarkdown = e.pNoMarkdown ∧ e2.pRetire = e.pRetire ∧
    e2.eff = e.eff ∧ e2.due = e.due ∧ e2.sentGen = e.sentGen
  assigned : e.pAddress ≠ e.address ∨ e.pZone ≠ e.zone → e2.retry = 0 ∧
    (e.pAddress = 0 → e2.label = .noLabel ∧ e2.shown = e.shown ∧ e2.sentPrice = e.sentPrice) ∧
    (e.pAddress ≠ 0 → e2.label = .unconfirmed ∧ e2.shown = 0 ∧ e2.sentPrice = 0)
  kept : e.pAddress = e.address → e.pZone = e.zone → e2.shown = e.shown ∧ e2.sentPrice = e.sentPrice ∧
    (let turned := (e.label = .confirmed ∨ e.label = .fault) ∧ e.item ≠ .unused ∧ e.item ≠ e2.item
     let mended := e.label = .fault ∧ p ≠ e.target
     e2.retry = (if turned ∨ mended then 0 else e.retry) ∧
     e2.label = if turned ∨ mended ∨ (e.label = .confirmed ∧ (p ≠ e.shown ∨ forced = true)) then .due else e.label)

/-- What the sweep controller does at a changeover of `e` that changes the label's address or zone (R21): the item leaves its zone
queue, a SENT label's record leaves the outstanding table, an item taken is released; and with a new address the item is offered
to the queue of its new zone, where it finds a place unless the pool is full. -/
def State.assignsAnew (s t : State) (item : Nat) (e e2 : Entry) : Prop :=
  e.pAddress ≠ e.address ∨ e.pZone ≠ e.zone →
    (e.pAddress = 0 → e2.queued = false) ∧
    (e.pAddress ≠ 0 → s.sweep.poolUsed < 2048 → e.label = .sent ∨ s.outStatus item = none → s.noCancel →
      e2.queued = true) ∧
    (s.sweep.state ≠ .idle → s.noCancel →
      (∀ v, t.sweep.visit = some v → (∀ x ∈ v.taken, x.item = item → x.released = true) ∧
        (e.label = .sent → ∀ x ∈ v.table, x.item ≠ item)) ∧
      (∀ z, e.queued = true → s.queuedIn item = some z → e.pAddress = 0 →
        t.sweep.queues = s.sweep.queues.setIfInBounds z ((s.zoneQueue z).erase item) ∧
          t.sweep.poolUsed = s.sweep.poolUsed - 1) ∧
      (e.pAddress ≠ 0 → s.sweep.poolUsed < 2048 → e.label = .sent ∨ s.outStatus item = none → e.pZone < 12 →
        s.queuedIn item = none ∨ (e.queued = true ∧ ∃ z, z < 12 ∧ ∀ z2, z2 < 12 →
          item ∉ if z2 = z then (s.zoneQueue z).erase item else s.zoneQueue z2) →
        ∃ before, t.zoneQueue e.pZone = before ++ [item]))

/-- QUEUED after a changeover of `e` that leaves the label's address and zone (R3, R20): a label that now needs labelling is
offered, unless the entry as read stood so already. -/
def State.offersKept (s t : State) (item : Nat) (e e2 : Entry) (stood closing : Bool) : Prop :=
  e.pAddress = e.address → e.pZone = e.zone →
    let offers := (e2.label = .unconfirmed ∨ e2.label = .due) ∧ e.queued = false ∧ stood = false
    e2.queued = (if offers then s.answersQueued item else e.queued) ∧ (offers → s.tookOffer t item e.zone closing)

/-! ## The answers of STAGE requests -/

/-- The intake unit has heard the answer of a STAGE request of its batch (R59, R60). -/
def IntakeState.heard (i : IntakeState) (block n : Nat) (clamped full : Bool) : IntakeState :=
  { i with
    awaiting := i.awaiting - 1, handedOn := i.handedOn + 1
    applied := if full = true then i.applied else i.applied + 1
    clamped := if clamped = true ∧ full = false then i.clamped + 1 else i.clamped
    listFull := if full = true then i.listFull + 1 else i.listFull
    firstSkip := if i.firstSkip = none ∧ full = true then some ⟨block, n, .listFull⟩ else i.firstSkip }

/-! ## Control records, reports, upload records and the status block -/

/-- The control unit's own read of a record has returned with the bytes `d`, a record of the kind code `n` (R193). -/
structure State.RecordRead (s : State) (c : Charter) (n : Nat) (d : List Byte) : Prop where
  running : s.inReset = false
  charter : s.charter = some c
  kind    : byteAt d 0 = n
  read    : ∃ u, s.takeRead .controlRead = some (d, u)

/-- The record read as `d` is in hand, its result known (R193). -/
def State.answersRecord (t : State) (d : List Byte) (result : ControlResult) (clamped : Bool) : Prop :=
  t.control.record =
    some { fetched := true, tag := BitVec.ofNat 16 (field d 2 2), kind := d.getD 0 0, result := some result, clamped }

/-- The record read as `d` is in hand, its result not yet known (R193). -/
def State.awaitsResult (t : State) (d : List Byte) : Prop :=
  t.control.record = some { fetched := true, tag := BitVec.ofNat 16 (field d 2 2), kind := d.getD 0 0 }

/-- The own requests that upload records are when each has a free slot: for each its slot write and a producer index write
(R138). -/
def State.uploadRequests (s : State) (c : Charter) : Word32 → List UploadRecord → List OwnRequest
  | _, [] => []
  | n, r :: rs =>
    let w := c.window .upload
    { unit := .journal, addr := w.base + 64 + n.toNat % w.slots * 64, body := .write r.bytes, purpose := .silent,
      placedAt := s.micros } ::
    { unit := .journal, addr := w.base, body := .indexWords (some (n + 1)) none, purpose := .silent, placedAt := s.micros } ::
    State.uploadRequests s c (n + 1) rs

/-- Upload records are handed on: into the ring when nothing is held and there is room for all, or to the tail of the hold
list when something is held or the ring is full (R138). -/
def State.handsOn (s t : State) (c : Charter) (rs : List UploadRecord) : Prop :=
  let n := backlog s.journal.upProducer s.journal.upConsumer
  (s.journal.holdList = [] → n + rs.length ≤ (c.window .upload).slots → s.ownFree (2 * rs.length) →
    t.journal.holdList = [] ∧ t.journal.upProducer = s.journal.upProducer + BitVec.ofNat 32 rs.length ∧
      t.link.own = s.link.own ++ s.uploadRequests c s.journal.upProducer rs) ∧
  (s.journal.holdList ≠ [] ∨ (c.window .upload).slots ≤ n →
    t.journal.holdList = s.journal.holdList ++ rs ∧ t.journal.upProducer = s.journal.upProducer ∧ t.link.own = s.link.own)

/-- The block record of a till's open block, closed for a cause (R133). -/
def State.blockRecord (s : State) (n : Nat) (cause : BlockFlags) : UploadRecord :=
  let b := (s.till n).block
  .block n b.day s.phase.clock b.check b.first b.last b.count b.baskets { cause with start := b.start } b.sales b.refunds

/-- The money and the baskets of a record taken in order enter the open block of its till: the block as it stood with the record
joined to it, or, when either sum would pass 999,999,999, a new block that the record begins, the block as it stood being closed
with FULL and handed on (R117, R119, R132, R133). -/
def State.entersBlock (s t : State) (c : Charter) (tx : Transaction) (sales refunds baskets : Nat) : Prop :=
  let n := journalTill tx.data
  let b := (s.till n).block
  let e := (t.till n).block
  let splits := b.count ≠ 0 ∧ (999999999 < b.sales + sales ∨ 999999999 < b.refunds + refunds)
  e.last = journalSeq tx.data ∧
    (splits → e.first = journalSeq tx.data ∧ e.count = 1 ∧ e.start = false ∧ e.sales = sales ∧ e.refunds = refunds ∧
      e.baskets = baskets ∧ s.handsOn t c [s.blockRecord n { full := true }]) ∧
    (¬splits → e.count = b.count + 1 ∧ t.journal.holdList = s.journal.holdList ∧
      t.journal.upProducer = s.journal.upProducer ∧ t.link.own = s.link.own ∧
      (b.count = 0 → e.first = journalSeq tx.data ∧ e.sales = sales ∧ e.refunds = refunds ∧ e.baskets = baskets) ∧
      (b.count ≠ 0 → e.first = b.first ∧ e.sales = b.sales + sales ∧ e.refunds = b.refunds + refunds ∧
        e.baskets = b.baskets + baskets))

/-- The write of a status block gathered at the state `t`: its 128 bytes, some of its fields among them (R197). -/
def State.statusWrite (t : State) (c : Charter) (q : OwnRequest) : Prop :=
  ∃ b, q = { unit := .control, addr := (c.window .status).base, body := .write b, purpose := .silent, placedAt := t.micros } ∧
    b.length = 128 ∧ byteAt b 0 = t.control.part.code ∧ byteAt b 1 = phaseCode t.phase.phase ∧
    byteAt b 3 = t.sweep.state.code ∧ field b 8 4 = t.control.statusSeq.toNat ∧ field b 16 4 = t.phase.mono.toNat ∧
    field b 20 2 = t.phase.day.toNat ∧ field b 24 4 = backlog t.journal.producer t.journal.consumer

/-! ## The guest floor -/

/-- The guest floor by the table of R154, with the sweep in BLANK or LISTEN or in another state. -/
def State.floorIn (s : State) (c : Charter) (onAir : Bool) : Nat :=
  let raised := fun floor : Nat => if onAir = true then max floor c.sweepFloor else floor
  if s.phase.phase = some .trading then raised c.tradingFloor
  else if s.phase.phase = some .closing then raised c.closingFloor
  else 7

/-- The pacer after a change of the sweep state (R154): the floor is that of the sweep state come to, and in TRADING and CLOSING a
level below the highest floor come by is raised to it. `passed` says that BLANK or LISTEN was come by, `onAir` that it was come to. -/
def State.paced (s t : State) (c : Charter) (passed onAir : Bool) : Prop :=
  t.guest = { s.guest with
    floor := s.floorIn c onAir
    level := if s.phase.phase = some .trading ∨ s.phase.phase = some .closing then max s.guest.level (s.floorIn c passed)
      else s.guest.level }

/-! ## Selections of the sweep -/

/-- Slot `k` qualifies for a visit of a kind (R71). -/
def State.slotQualifies (s : State) (c : Charter) (k : Nat) (kind : VisitKind) : Prop :=
  ∃ sl, 0 < k ∧ k ≤ 15 ∧ s.sweep.slots[k - 1]? = some sl ∧ sl.enabled = true ∧
    match kind with
    | .price => sl.sync = false ∧ s.zoneQueue sl.zone ≠ [] ∧ (s.zoneRec sl.zone).dark = false
    | .probe => sl.sync = false ∧ s.zoneQueue sl.zone ≠ [] ∧ (s.zoneRec sl.zone).dark = true ∧
        (s.zoneRec sl.zone).probeCycle = 16
    | .sync => sl.sync = true ∧ (s.zoneRec sl.zone).dark = false ∧
        ((s.zoneRec sl.zone).lastSync = none ∨
          ∃ l, (s.zoneRec sl.zone).lastSync = some l ∧ c.syncMinutes * 60 ≤ (s.phase.mono - l).toNat)

/-- The visit `v`, whose slot is chosen, goes on with free slots in LABEL_TX (R73, R75, R91): a SYNC visit takes no item, and another
takes from the head of its zone's queue as many as its quota and the free slots allow, with a FRAME_SENT request for each. -/
def State.visitGoesOn (s t : State) (c : Charter) (v : Visit) : Prop :=
  let quota := (s.sweep.slots[v.slot - 1]?).elim 0 SweepSlot.quota
  let free := (c.window .labelTx).slots - backlog s.sweep.txProducer s.sweep.txConsumer
  let frames := if v.kind = .price then
      (if s.phase.phase = some .trading ∨ s.phase.phase = some .closing then max 1 (quota * c.trickle / 8) else quota)
    else 1
  let items := (s.zoneQueue v.zone).take (min frames free)
  (v.kind = .sync → t.sweep.visit = some { v with stage := .building } ∧ t.book.queue = s.book.queue) ∧
    (v.kind ≠ .sync → s.entryFree items.length →
      t.sweep.visit = some { v with stage := .building, taken := items.map (fun i => ⟨i, false⟩) } ∧
        t.zoneQueue v.zone = (s.zoneQueue v.zone).drop (min frames free) ∧
        t.book.queue = s.book.queue ++ items.map (fun i => { item := i, kind := .frameSent }))

/-- The visit of slot `k` begins (R70, R73 to R75): a probe sets its zone's probe cycle count to 0; the visit waits while
LABEL_TX is full, and else goes on at once. -/
def State.takesVisit (s t : State) (c : Charter) (k : Nat) (kind : VisitKind) : Prop :=
  let zone := (s.sweep.slots[k - 1]?).elim 0 SweepSlot.zone
  let free := (c.window .labelTx).slots - backlog s.sweep.txProducer s.sweep.txConsumer
  t.sweep.current = k ∧ t.sweep.state = .txWait ∧
    (∀ z, (t.zoneRec z).dark = (s.zoneRec z).dark ∧ (t.zoneRec z).emptyForced = (s.zoneRec z).emptyForced ∧
      (t.zoneRec z).lastSync = (s.zoneRec z).lastSync ∧
      (t.zoneRec z).probeCycle = if kind = .probe ∧ z = zone then 0 else (s.zoneRec z).probeCycle) ∧
    (free = 0 → t.sweep.visit = some { slot := k, zone, kind } ∧ t.book.queue = s.book.queue) ∧
    (0 < free → s.visitGoesOn t c { slot := k, zone, kind })

/-- One pass of the slot table is counted: the probe cycle count of each DARK zone is one higher, up to 16 (R70, R71). -/
def State.passCounted (s : State) : State :=
  { s with sweep := { s.sweep with
    zones := s.sweep.zones.map (fun z => if z.dark = true then { z with probeCycle := min 16 (z.probeCycle + 1) } else z) } }

/-- One selection (R70 to R72). The slots are examined from the one after the current one, from slot 1 in IDLE and after slot 15;
the first up to slot 15 that qualifies is visited. When none does, a pass is counted, and the slots before the first one examined
follow, as they qualify then; when none of them does either, the current slot is 0 and the sweep is IDLE, or MANUAL_WAIT in
MANUAL. -/
def State.selects (s t : State) (c : Charter) : Prop :=
  let first := if s.sweep.state = .idle ∨ 15 ≤ s.sweep.current then 1 else s.sweep.current + 1
  let next := s.passCounted
  (∀ k kind, first ≤ k → s.slotQualifies c k kind →
    (∀ j other, first ≤ j → j < k → ¬s.slotQualifies c j other) → s.takesVisit t c k kind) ∧
  ((∀ j other, first ≤ j → ¬s.slotQualifies c j other) →
    (∀ k kind, k < first → next.slotQualifies c k kind →
      (∀ j other, j < k → ¬next.slotQualifies c j other) → next.takesVisit t c k kind) ∧
    ((∀ j other, j < first → ¬next.slotQualifies c j other) → t.sweep.current = 0 ∧ t.sweep.zones = next.sweep.zones ∧
      t.sweep.state = (if s.sweep.manual = true then .manualWait else .idle) ∧ t.book.queue = s.book.queue))

/-- No zone queue holds an item and no slot's sync is due: no slot qualifies, whatever pass is counted (R71). -/
def State.nothingToVisit (s : State) (c : Charter) : Prop :=
  (∀ z, s.zoneQueue z = []) ∧ ∀ sl ∈ s.sweep.slots, sl.enabled = true → sl.sync = true → ∃ l,
    (s.zoneRec sl.zone).lastSync = some l ∧ (s.phase.mono - l).toNat < c.syncMinutes * 60

/-- A run of commands is safe when it comes to no fault and no refusal. -/
def goesOn (r : Host.Outcome State Fault Refusal) : Prop := ∃ t, r = .next t

end Sys2Proof.Machine
end

