-- ==== Sys2Proof/Certificates/Slice0/Obligations.lean ====
section
/-! DEFINITION. The statements about the part, each named for what it says, with the rules it rests on. A statement about a
command says what its next state is, under conditions on the state and the operands alone. -/

section
open Sys2Proof Sys2Proof.Machine

/-! ## The machine and its steps -/

/-- O1. The command at the front of the queue runs, with the queue's rest. MODEL'S CHOICE (log 3): a step on an empty queue
lets one microsecond pass and does nothing else. -/
def Obligations.StepRunsFrontCommand : Prop :=
  (∀ (s : State) (i : Instr) (rest : List Instr), s.pending = i :: rest → step s = exec i { s with pending := rest }) ∧
    ∀ s : State, s.pending = [] → step s = .next { s with micros := s.micros + 1 }

/-- O2. The values after reset that the manual gives (R6, R12, R29, R43, R62, R64, R69, R74, R83, R84, R92, R98, R99, R102, R106,
R107, R137, R145, R149, R157, R170, R171, R173, R181, R183, R186, R187, R192, R195 to R197). -/
def Obligations.ResetValues : Prop :=
  let s := State.reset
  (s.control.part = .pass ∧ s.charter = none ∧ s.control.load = none) ∧
  (s.phase.phase = none ∧ s.phase.clock = 0 ∧ s.phase.day = 0 ∧ s.phase.mono = 0 ∧ s.phase.warning = false ∧
    s.phase.runCount = 0) ∧
  (s.link.accept = Vector.replicate 7 [] ∧ s.link.passQueue = [] ∧ s.link.hold = [] ∧ s.link.stream = [] ∧
    s.link.own = [] ∧ s.link.refusals = 0 ∧ s.link.firstRefusal = none) ∧
  (s.book.queue = [] ∧ s.book.timed = [] ∧ s.book.openGroup = [] ∧ s.book.cursor = 0) ∧
  (s.intake.state = .idle ∧ s.intake.producer = 0 ∧ s.intake.consumer = 0 ∧ s.intake.half = none ∧
    s.intake.applied = 0 ∧ s.intake.skipped = 0 ∧ s.intake.clamped = 0 ∧ s.intake.listFull = 0 ∧ s.intake.firstSkip = none ∧
    s.intake.lastRefusal = none) ∧
  (s.sweep.state = .stopped ∧ s.sweep.manual = false ∧ s.sweep.visit = none ∧ s.sweep.history = [] ∧ s.sweep.base = 0 ∧
    s.sweep.current = 0 ∧ s.sweep.poolUsed = 0 ∧ s.sweep.rescan = false ∧ s.sweep.scanCursor = 0 ∧ s.sweep.scan = none ∧
    s.sweep.txProducer = 0 ∧ s.sweep.txConsumer = 0 ∧
    (∀ z, s.zoneQueue z = [] ∧ (s.zoneRec z).late = [] ∧ (s.zoneRec z).dark = false ∧ (s.zoneRec z).lastSync = none ∧
      (s.zoneRec z).emptyForced = 0 ∧ (s.zoneRec z).probeCycle = 0) ∧
    s.sweep.slots.length = 15 ∧ (∀ sl ∈ s.sweep.slots, sl.enabled = false)) ∧
  (s.journal.producer = 0 ∧ s.journal.consumer = 0 ∧ s.journal.upProducer = 0 ∧ s.journal.upConsumer = 0 ∧
    s.journal.holdList = [] ∧ s.journal.hand = none ∧ s.journal.lastRefusal = none ∧
    (∀ t, (s.till t).state = .closed ∧ (s.till t).expected = none ∧ (s.till t).signedOn = false ∧
      (s.till t).block.count = 0 ∧ (s.till t).acc = 0xFFFFFFFF ∧ (s.till t).seedMark = true ∧ (s.till t).basket = 0 ∧
      (s.till t).lines = 0 ∧ (s.till t).lineList = [] ∧ (s.till t).lastSecond = 0 ∧
      (s.till t).totals = { sales := 0, refunds := 0, baskets := 0, refundCount := 0, cancelled := 0, abandoned := 0, voids := 0
                            noSales := 0, mismatches := 0, outOfState := 0, lineFaults := 0, gaps := 0, duplicates := 0 })) ∧
  (s.guest.level = 7 ∧ s.guest.periodBytes = 0) ∧
  (s.control.ctlProducer = 0 ∧ s.control.ctlConsumer = 0 ∧ s.control.repProducer = 0 ∧ s.control.repConsumer = 0 ∧
    s.control.published = 0 ∧ s.control.lost = 0 ∧ s.control.statusSeq = 0 ∧ s.attnAsserted = false)

/-- O3. The invariant holds after reset. -/
def Obligations.ResetMeetsInvariant : Prop := State.reset.Inv

/-- O4. Every step keeps the invariant: every queue, list and count within what the part holds (R6, R12, R64, R83, R89,
R148, R149, R151, R154, R159, R170, R173, R174, R195), the base time within the charter's range with the blank interval
below it (R84, R85), the part state, the load, the charter and the store phase in agreement (R178, R187), the store clock a
second of the day (R181), the filter's run count in range (R183), and memory in its canonical form. -/
def Obligations.EveryStepKeepsInvariant : Prop :=
  ∀ s t : State, s.Inv → step s = .next t → t.Inv

/-- O5. Every command answers a next state from every state, and so does every step: nothing stops the part and nothing is
refused. MODEL'S CHOICE (log 25) for a transaction that reaches beyond the address space, of which R175 says only that it is
issued. -/
def Obligations.EveryCommandAnswersNext : Prop :=
  (∀ (i : Instr) (s : State), ∃ t, exec i s = .next t) ∧ ∀ s : State, ∃ t, step s = .next t

/-- O6. Branch memory changes by PORT_GRANT alone (R174, R175), and no command adds to or takes from the waiting commands.
MODEL'S CHOICE (log 1): memory carries a request out at its grant, so that no completion changes it. -/
def Obligations.OnlyPortGrantChangesMemory : Prop :=
  ∀ (i : Instr) (s t : State), exec i s = .next t → (i ≠ .portGrant → t.mem = s.mem) ∧ t.pending = s.pending

/-- O7. The monotonic count, the store clock, the business day and the warning state each change by their own commands
alone: the count by an advance of the second; the clock by that and SET_CLOCK; the day by the change to OPENING; the warning
and its run count by a sample of the filter; each of them by RESET_N besides (R180 to R183, R186). -/
def Obligations.TimeChangesByItsCommands : Prop :=
  ∀ (i : Instr) (s t : State), exec i s = .next t → i ≠ .resetNAssert → (∀ v, i ≠ .resetNRise v) →
    (i ≠ .secondAdvance → t.phase.mono = s.phase.mono) ∧
    (i ≠ .secondAdvance → i ≠ .setClock → t.phase.clock = s.phase.clock) ∧
    (i ≠ .setPhase → t.phase.day = s.phase.day) ∧
    ((∀ b, i ≠ .pfwSample b) → t.phase.warning = s.phase.warning ∧ t.phase.runCount = s.phase.runCount) ∧
    t.chb = s.chb ∧ t.inReset = s.inReset

/-- O8. RESET_N_ASSERT empties every queue of the part and puts every unit at its reset values; memory, the transactions
that wait on the link, the answers already given and the straps as last latched stay (R1, R62, R98, R128, R145, R157, R177,
R186, R187). MODEL'S CHOICE (log 26): every unit takes its reset values at the assertion, and what lies outside the part
stays. -/
def Obligations.AssertEmptiesThePart : Prop :=
  ∀ s : State, ∃ t, exec .resetNAssert s = .next t ∧ t.inReset = true ∧
    t.link = { State.reset.link with waiting := s.link.waiting, answers := s.link.answers } ∧
    t.book = State.reset.book ∧ t.intake = State.reset.intake ∧ t.sweep = State.reset.sweep ∧
    t.journal = State.reset.journal ∧ t.guest = State.reset.guest ∧ t.phase = State.reset.phase ∧
    t.control = State.reset.control ∧ t.charter = none ∧ t.mem = s.mem ∧ t.chb = s.chb ∧ t.pending = s.pending

/-- O9. RESET_N_RISE latches the straps, so that the charter window stands at their value × 16 MiB, and puts the part in
PASS with every unit at its reset values; with nothing waiting on the link every queue is empty (R168, R177, R187). MODEL'S
CHOICE (log 26): a rise has this effect whether or not RESET_N was asserted before it. -/
def Obligations.RiseLatchesStraps : Prop :=
  ∀ (s : State) (v : Byte), s.link.waiting = [] → ∃ t, exec (.resetNRise v) s = .next t ∧
    t.inReset = false ∧ t.chb = v ∧ t.charterBase = v.toNat * 16777216 ∧
    t.link = { State.reset.link with answers := s.link.answers } ∧
    t.book = State.reset.book ∧ t.intake = State.reset.intake ∧ t.sweep = State.reset.sweep ∧
    t.journal = State.reset.journal ∧ t.guest = State.reset.guest ∧ t.phase = State.reset.phase ∧
    t.control = State.reset.control ∧ t.charter = none ∧ t.mem = s.mem ∧ t.pending = s.pending

/-- O10. While RESET_N is asserted nothing but its rise (and a further assertion) does anything: a transaction waits on the
link, and every other command leaves the state as it is (R177; MODEL'S CHOICE for the commands that name events, log 26). -/
def Obligations.AssertedResetHoldsThePart : Prop :=
  ∀ (i : Instr) (s : State), s.inReset = true → i ≠ .resetNAssert → (∀ v, i ≠ .resetNRise v) →
    exec i s = .next (match i.transaction with
      | some tx => { s with link := { s.link with waiting := s.link.waiting ++ [tx] } }
      | none => s)

/-! ## The charge calculator -/

/-- O11 (R32, R34, R35). Every charge price lies from the smaller of floor and base up to the base; without a markdown it is
the base; with one it is the discounted price taken down to the price point, a multiple of the unit, or, where that is below
the floor, the effective floor. The values are those the computation uses (R30, R31). -/
def Obligations.ChargeWithinFloorAndBase : Prop :=
  ∀ (unit base markdown floor : Nat) (noMarkdown : Bool), 0 < unit →
    let b := min base 99999999
    let f := min floor 99999999
    let m := if noMarkdown then 0 else min markdown 9000
    let c := chargePrice unit noMarkdown base markdown floor
    let point := discounted b m / unit * unit
    (min f b ≤ c ∧ c ≤ b) ∧ (m = 0 → c = b) ∧
      (0 < m → min f b ≤ point → c = point ∧ unit ∣ c) ∧ (0 < m → point < min f b → c = min f b)

/-- O12 (R33, R36, R37). The discount stage: the product divided by 10,000, a remainder above 5,000 rounded up and one of
5,000 or less rounded down; the product needs fewer than 40 bits, and a markdown never raises a price. A unit line is the
product of quantity and price. A weighed line is the nearest minor unit to grams × price per kilogram, an exact half rounded
up: it is the amount a with 1000 a ≤ g p + 500 < 1000 a + 1000. -/
def Obligations.DiscountAndLineAmountsRound : Prop :=
  (∀ b m : Nat, b ≤ 99999999 → 1 ≤ m → m ≤ 9000 →
    (∀ q r, b * (10000 - m) = 10000 * q + r → r ≤ 9999 → discounted b m = if 5000 < r then q + 1 else q) ∧
      b * (10000 - m) ≤ 999899990001 ∧ 999899990001 < 2 ^ 40 ∧ discounted b m ≤ b ∧ discounted 0 m = 0) ∧
    (∀ q p, exactLine false q p = q * p ∧ exactLine false 0 p = 0) ∧
    (∀ g p, 1000 * exactLine true g p ≤ g * p + 500 ∧ g * p + 500 < 1000 * exactLine true g p + 1000) ∧
    (∀ p, exactLine true 0 p = 0) ∧ (∀ g p, g * p < 500 → exactLine true g p = 0) ∧ exactLine true 1 499 = 0

/-! ## Transactions -/

/-- O13. In PASS, and in the LOADING that follows reset, a transaction joins the stream unchanged and nothing else happens:
none is judged, observed or refused (R159, R169). A write of 1 to the load word is O14's. -/
def Obligations.PassForwardsUnchanged : Prop :=
  ∀ (s : State) (tx : Transaction), s.passes → tx.wf = true → tx.wordWritten s.charterBase ≠ some 1 →
    exec (.passTransaction tx) s =
      .next { s with link := { s.link with stream := s.link.stream ++ [{ tx, role := .plain }] } }

/-- O14. A write of 1 to the load word is forwarded. In PASS it begins the load: the part is LOADING with the sweep STOPPED,
and the own requests placed are the result word LOADING (1) and six reads of 128 bytes from the charter window's start on.
In LOADING or ACTIVE it only places the result word BUSY (3) (R97, R188, R189). -/
def Obligations.LoadWordWriteStartsLoadOrBusy : Prop :=
  ∀ (s : State) (tx : Transaction), tx.wf = true → tx.wordWritten s.charterBase = some 1 →
    let result := fun v : Word32 =>
      ({ unit := .control, addr := s.charterBase, body := .resultWord v, purpose := .silent, placedAt := s.micros } : OwnRequest)
    let stream := s.link.stream ++ [{ tx, role := .plain }]
    (s.passes → s.control.part = .pass → s.ownFree 7 →
      ∃ t, exec (.loadWordWrite tx) s = .next t ∧ t.control.part = .loading ∧ t.control.load = some {} ∧
        t.link.stream = stream ∧ t.sweep.state = .stopped ∧ t.intake.half = none ∧ t.charter = none ∧ t.mem = s.mem ∧
        t.link.own = s.link.own ++ result 1 :: (List.range 6).map (fun k =>
          { unit := .control, addr := s.charterBase + 128 * k, body := .read 128, purpose := .charterRead, placedAt := s.micros })) ∧
    (s.ownFree 1 →
      (s.passes ∧ s.control.part = .loading) ∨
        (∃ c, s.decides c ∧ s.control.part ≠ .pass ∧ c.classOf tx.tag = .admin ∧ s.liesIn c tx .charter) →
      exec (.loadWordWrite tx) s =
        .next { s with link := { s.link with stream := stream, own := s.link.own ++ [result 3] } })

/-- O15. A transaction of any class but GUEST in a PLAIN window, a GUEST window or open memory joins the stream unchanged
when the class's right there allows its direction, and is refused NO_RIGHT otherwise, with its GUARD_REFUSAL report (R162,
R170 to R172). -/
def Obligations.PlainTransactionJudgedByRight : Prop :=
  ∀ (s : State) (c : Charter) (tx : Transaction) (right : Right),
    s.decides c → tx.wf = true → c.classOf tx.tag ≠ .guest →
    (s.liesIn c tx .openMemory ∧ right = c.openRights.getD (c.classOf tx.tag).index .none) ∨
      (∃ w, s.liesIn c tx (.window w) ∧ (w.kind = .plain ∨ w.kind = .guest) ∧
        right = w.rights.getD (c.classOf tx.tag).index .none) →
    if right = .readWrite ∨ (right = .read ∧ tx.dir = .read) then
      exec (.plainTransaction tx) s =
        .next { s with link := { s.link with stream := s.link.stream ++ [{ tx, role := .plain }] } }
    else ∃ t, exec (.plainTransaction tx) s = .next t ∧ s.RefusedTo t c .decoder .noRight tx ∧ s.SameUnits t

/-- O16. A straddling transaction is refused STRADDLE, whatever its class, its direction and the rights of its places, with
its GUARD_REFUSAL report (R161, R170 to R172). MODEL'S CHOICE (log 5): it is judged so whatever row it was sent as. -/
def Obligations.StraddlingTransactionRefused : Prop :=
  ∀ (s : State) (c : Charter) (tx : Transaction), s.decides c → tx.wf = true →
    (2 ^ 32 < tx.start + tx.len ∨ s.placeOf c tx.start ≠ s.placeOf c (tx.start + tx.len - 1)) →
    ∀ i : Instr, i.transaction = some tx →
      ∃ t, exec i s = .next t ∧ s.RefusedTo t c .decoder .straddle tx ∧ s.SameUnits t

/-- O17. Fixed access of the special windows and the charter window (R163 to R168): the reads that pass are ADMIN's
anywhere, LINK's in INTAKE and LABEL's in LABEL_TX and LABEL_RX (a TILL read in PRICE of 16 bytes at an entry's start is O19's;
of another length or at another address it is refused KIND, R164); a write of a class to a window where the manual gives that class no write, every write into PRICE and STATUS among them, and every other read are refused KIND; so is a write of the wrong shape by a class that has some write there: an ADMIN write into JOURNAL, UPLOAD,
REPORT or LABEL_RX that is not the consumer index write, an ADMIN write into CONTROL's index area that is not the producer
index write, a LABEL write into LABEL_TX that is not the consumer index write, a LABEL write into LABEL_RX that is neither
the producer index write nor 16 whole bytes at a slot start, and the write of 8 whole bytes that enables both index words;
in the charter window ADMIN passes and every other class is refused KIND; a refusal has its GUARD_REFUSAL report (R172). -/
def Obligations.FixedAccessOfSpecialWindows : Prop :=
  ∀ (s : State) (c : Charter) (tx : Transaction), s.decides c → tx.wf = true →
    let k := c.classOf tx.tag
    let passed := exec (.specialWindowAccess tx) s =
      .next { s with link := { s.link with stream := s.link.stream ++ [{ tx, role := .plain }] } }
    let refused := ∃ t, exec (.specialWindowAccess tx) s = .next t ∧ s.RefusedTo t c .decoder .kind tx ∧ s.SameUnits t
    (∀ w, s.liesIn c tx (.window w) → w.kind ≠ .plain → w.kind ≠ .guest → tx.dir = .read → ¬(k = .till ∧ w.kind = .price) →
      if k = .admin ∨ (k = .link ∧ w.kind = .intake) ∨ (k = .label ∧ (w.kind = .labelTx ∨ w.kind = .labelRx)) then passed
      else refused) ∧
    (∀ w, s.liesIn c tx (.window w) → w.kind = .price → c.window .price = w → k = .till → tx.dir = .read →
      tx.len ≠ 16 ∨ (tx.start - w.base) % 64 ≠ 0 → refused) ∧
    (∀ w, s.liesIn c tx (.window w) → w.kind ≠ .plain → w.kind ≠ .guest → tx.dir = .write →
      ¬(k = .admin ∧ (w.kind = .journal ∨ w.kind = .upload ∨ w.kind = .report ∨ w.kind = .control ∨ w.kind = .labelRx)) →
      ¬(k = .till ∧ w.kind = .journal) → ¬(k = .link ∧ w.kind = .intake) →
      ¬(k = .label ∧ (w.kind = .labelTx ∨ w.kind = .labelRx)) → refused) ∧
    (∀ w, s.liesIn c tx (.window w) → tx.dir = .write →
      (k = .admin ∧ (w.kind = .journal ∨ w.kind = .upload ∨ w.kind = .report ∨ w.kind = .labelRx) ∧
          tx.indexTarget w.base ≠ some .consumer) ∨
        (k = .admin ∧ w.kind = .control ∧ tx.start < w.base + 64 ∧ tx.indexTarget w.base ≠ some .producer) ∨
        (k = .label ∧ w.kind = .labelTx ∧ tx.indexTarget w.base ≠ some .consumer) ∨
        (k = .label ∧ w.kind = .labelRx ∧ tx.indexTarget w.base ≠ some .producer ∧
          ¬(tx.fullWrite 16 = true ∧ (slotStart w 16 tx.start).isSome = true)) → refused) ∧
    (∀ w, s.liesIn c tx (.window w) → w.kind ≠ .plain → w.kind ≠ .guest → tx.dir = .write → tx.start = w.base →
      tx.len = 8 → (∀ b ∈ tx.mask, b = true) → ¬(k = .till ∧ w.kind = .journal) → ¬(k = .link ∧ w.kind = .intake) →
      refused) ∧
    (s.liesIn c tx .charter → (k = .admin → tx.wordWritten s.charterBase ≠ some 1 → passed) ∧ (k ≠ .admin → refused))

/-- O18. The writes that no unit observes pass unchanged and change nothing else: ADMIN's beyond the index area of CONTROL,
LABEL's to the LABEL_RX producer word, ADMIN's to the LABEL_RX consumer word (R166, R167). -/
def Obligations.UnobservedWritesPass : Prop :=
  ∀ (s : State) (c : Charter) (tx : Transaction) (w : Window),
    s.decides c → (Instr.registerWrite tx).wf = true → s.liesIn c tx (.window w) →
    (c.classOf tx.tag = .admin ∧ w.kind = .control ∧ w.base + 64 ≤ tx.start) ∨
      (c.classOf tx.tag = .label ∧ w.kind = .labelRx ∧ tx.indexTarget w.base = some .producer) ∨
      (c.classOf tx.tag = .admin ∧ w.kind = .labelRx ∧ tx.indexTarget w.base = some .consumer) →
    exec (.registerWrite tx) s =
      .next { s with link := { s.link with stream := s.link.stream ++ [{ tx, role := .plain }] } }

/-- O19. A TILL read of 16 bytes at an entry's start: beyond the item count it is answered at once with 16 zero bytes and
nothing reaches memory; below it, it is forwarded to be rewritten into the till view, or, while an update is in progress on
that entry, it waits at the head of the TILL accept queue, and the update's own write, when it stands in the own-request
queue, moves to its head, promoted and with its age, every other request in order; when that write completes the read is forwarded,
whatever request comes next (R24, R25, R164, R176). -/
def Obligations.TillPriceReadServed : Prop :=
  ∀ (s : State) (c : Charter) (tx : Transaction) (w : Window) (i : Nat),
    s.decides c → (Instr.tillPriceRead tx).wf = true → c.classOf tx.tag = .till → s.liesIn c tx (.window w) →
    w.kind = .price → c.window .price = w → tx.start = w.base + 64 * i →
    (c.itemCount ≤ i → exec (.tillPriceRead tx) s = .next { s with
      link := { s.link with answers := s.link.answers ++ [{ tag := tx.tag, refused := false, data := List.replicate 16 0 }] } }) ∧
    (i < c.itemCount → s.updateAddr ≠ some (w.base + 64 * i) → exec (.tillPriceRead tx) s =
      .next { s with link := { s.link with stream := s.link.stream ++ [{ tx, role := .tillView }] } }) ∧
    (i < c.itemCount → s.updateAddr = some (w.base + 64 * i) → ∃ t, exec (.tillPriceRead tx) s = .next t ∧
      t.queueOf 1 = [tx] ∧ t.link.stream = s.link.stream ∧ t.link.answers = s.link.answers ∧ s.SameUnits t ∧
      (∀ pre q post, s.link.own = pre ++ q :: post → q.purpose = .entryWrite → q.addr = w.base + 64 * i →
        (∀ p ∈ pre, ¬(p.purpose = .entryWrite ∧ p.addr = w.base + 64 * i)) →
        t.link.own = { q with promoted := true } :: (pre ++ post)) ∧
      ((∀ q ∈ s.link.own, ¬(q.purpose = .entryWrite ∧ q.addr = w.base + 64 * i)) → t.link.own = s.link.own) ∧
      (∀ acts, s.book.headPhase = .writing acts → (s.takeWritten (· == .entryWrite)).isSome = true →
        ∃ t2, exec .entryWriteComplete t = .next t2 ∧ t2.link.stream = s.link.stream ++ [{ tx, role := .tillView }] ∧
          t2.queueOf 1 = [] ∧ ∃ more, t2.book.queue = s.book.queue.tail ++ more))

/-- O20. GUEST traffic (R146, R149, R150, R162): outside its rights, and always in a PLAIN window, it is refused NO_RIGHT;
in OPENING and NIGHT it is refused PHASE by the pacer; in TRADING and CLOSING it passes, and counts its bytes, when nothing
is held and the level is 0, or the budget holds it, or it is the period's first and larger than the budget; in every other
case it joins the tail of the hold queue. -/
def Obligations.GuestTransactionPaced : Prop :=
  ∀ (s : State) (c : Charter) (tx : Transaction) (right : Right),
    s.decides c → tx.wf = true → c.classOf tx.tag = .guest → s.guest.periodBytes + tx.len < 2 ^ 32 →
    (s.liesIn c tx .openMemory ∧ right = c.openRights.getD Class.guest.index .none) ∨
      (∃ w, s.liesIn c tx (.window w) ∧ w.kind = .guest ∧ right = w.rights.getD Class.guest.index .none) ∨
      (∃ w, s.liesIn c tx (.window w) ∧ w.kind = .plain ∧ right = .none) →
    let budget := c.budgets.getD (s.guest.level - 1) 0
    if ¬(right = .readWrite ∨ (right = .read ∧ tx.dir = .read)) then
      ∃ t, exec (.guestTransaction tx) s = .next t ∧ s.RefusedTo t c .decoder .noRight tx ∧ s.SameUnits t
    else if s.phase.phase ≠ some .trading ∧ s.phase.phase ≠ some .closing then
      ∃ t, exec (.guestTransaction tx) s = .next t ∧ s.RefusedTo t c .pacer .phase tx ∧ s.SameUnits t
    else if s.link.hold = [] ∧ (s.guest.level = 0 ∨ s.guest.periodBytes + tx.len ≤ budget ∨
        (s.guest.periodBytes = 0 ∧ budget < tx.len)) then
      exec (.guestTransaction tx) s = .next { s with
        link := { s.link with stream := s.link.stream ++ [{ tx, role := .plain }] }
        guest := { s.guest with periodBytes := s.guest.periodBytes + tx.len } }
    else exec (.guestTransaction tx) s = .next { s with link := { s.link with hold := s.link.hold ++ [tx] } }

/-- O21. A partner's index word is taken by R100's table: with d the distance of the written value from the copy and n the
backlog, the value itself, or the producer count, or nothing; so the copy never passes the producer and the backlog never
grows. -/
def Obligations.TakenCountFollowsTheTable : Prop :=
  ∀ producer copy v : Word32,
    let d := (v - copy).toNat
    let n := (producer - copy).toNat
    let taken := takeCount producer copy v
    (d ≤ n → taken = v) ∧ (n < d → d < 2 ^ 31 → taken = producer) ∧ (n < d → 2 ^ 31 ≤ d → taken = copy) ∧
      (producer - taken).toNat ≤ n

/-- O22. ADMIN's write of a consumer index word, and LABEL's of the LABEL_TX one, is forwarded unchanged and taken into its
unit's copy by the table of R100; nothing else of the part changes, with an empty hold list for UPLOAD and no visit that
waits for LABEL_TX (R74, R100, R137, R165, R167, R196). A visit that waits in TX_WAIT goes on when its copy changes and leaves a
slot free: it takes its items, with a FRAME_SENT request for each, or, with its zone's queue emptied meanwhile, ends, and in AUTO a
selection follows (R75, R76). With upload records held, the UPLOAD write drains the hold list: the
slot writes of as many records as there are free slots then, one index write after the last, and a DAY_SUMMARY_READY report
when the last record moved is a BRANCH_DAY (R137, R138, R143). MODEL'S CHOICES: once stage 4 of a load has given up
the old rings, the REPORT write is not taken (log 50); a visit shows TX_WAIT while its frames are built too (log 11), and a
selection after slot 15 counts no pass for that (log 47). -/
def Obligations.ConsumerWritesObserved : Prop :=
  ∀ (s : State) (c : Charter) (tx : Transaction) (w : Window),
    s.decides c → tx.wf = true → s.liesIn c tx (.window w) → tx.indexTarget w.base = some .consumer →
    let v := tx.consumerWord
    let link := { s.link with stream := s.link.stream ++ [{ tx, role := .plain }] }
    (c.classOf tx.tag = .admin → w.kind = .journal → exec (.journalConsumerWrite tx) s = .next { s with
      link := link, journal := { s.journal with consumer := takeCount s.journal.producer s.journal.consumer v } }) ∧
    (c.classOf tx.tag = .admin → w.kind = .upload → s.journal.holdList = [] →
      exec (.uploadConsumerWrite tx) s = .next { s with
        link := link, journal := { s.journal with upConsumer := takeCount s.journal.upProducer s.journal.upConsumer v } }) ∧
    (∀ ms last, c.classOf tx.tag = .admin → w.kind = .upload →
      let copy := takeCount s.journal.upProducer s.journal.upConsumer v
      let u := c.window .upload
      let free := u.slots - backlog s.journal.upProducer copy
      let n := s.journal.upProducer + BitVec.ofNat 32 (ms.length + 1)
      s.journal.holdList.take free = ms ++ [last] → (∀ r ∈ ms, ∀ k day clock a, r ≠ .branchDay k day clock a) →
      s.accepting = false → s.reportRoom c → s.ownFree (ms.length + 4) →
      ∃ t, exec (.uploadConsumerWrite tx) s = .next t ∧ t.link.stream = link.stream ∧ t.mem = s.mem ∧
        t.journal = { s.journal with
          upConsumer := copy, upProducer := n, holdList := s.journal.holdList.drop (ms.length + 1) } ∧
        t.link.own = s.link.own ++ (ms ++ [last]).mapIdx (fun k r =>
          { unit := .journal, addr := u.base + 64 + (s.journal.upProducer + BitVec.ofNat 32 k).toNat % u.slots * 64
            body := .write r.bytes, purpose := .silent, placedAt := s.micros }) ++
          [{ unit := .journal, addr := u.base, body := .indexWords (some n) none, purpose := .silent, placedAt := s.micros }] ++
          (match last with
            | .branchDay _ day _ _ => s.reportRequests c (.daySummaryReady day n)
            | .block .. => []
            | .tillDay .. => [])) ∧
    (c.classOf tx.tag = .admin → w.kind = .report → exec (.reportConsumerWrite tx) s = .next { s with
      link := link
      control := if s.accepting then s.control
        else { s.control with repConsumer := takeCount s.control.repProducer s.control.repConsumer v } }) ∧
    (c.classOf tx.tag = .label → w.kind = .labelTx →
      let copy := takeCount s.sweep.txProducer s.sweep.txConsumer v
      let s1 := { s with sweep := { s.sweep with txConsumer := copy } }
      let free := (c.window .labelTx).slots - backlog s.sweep.txProducer copy
      ((∀ x, s.sweep.visit = some x → x.stage ≠ .selected ∨ x.cancelled = true) ∨ copy = s.sweep.txConsumer ∨ free = 0 →
        exec (.labelTxConsumerWrite tx) s = .next { s1 with link := link }) ∧
      (∀ x, s.sweep.visit = some x → x.stage = .selected → x.cancelled = false → copy ≠ s.sweep.txConsumer → 0 < free →
        let emptied := x.kind ≠ .sync ∧ s.zoneQueue x.zone = []
        ∃ t, exec (.labelTxConsumerWrite tx) s = .next t ∧ t.link.stream = link.stream ∧ t.sweep.txConsumer = copy ∧
          t.journal = s.journal ∧ t.control = s.control ∧ t.mem = s.mem ∧
          (¬emptied → s1.visitGoesOn t c x ∧ t.sweep.state = s.sweep.state ∧ t.sweep.current = s.sweep.current) ∧
          (emptied → s.sweep.manual = true → t.sweep.visit = none ∧ t.sweep.state = .manualWait ∧ t.book = s.book) ∧
          (emptied → s.sweep.manual = false → s.phase.warning = false → s1.selects t c)))

/-- O23. ADMIN's write of the CONTROL producer word is forwarded and taken by the table of R192; with no record in hand and
a record waiting then, the record at the consumer count's slot is read with one own read of 32 bytes, unless stage 4 of a
load has begun (R191 to R193). MODEL'S CHOICE (log 50, log 51): once stage 4 of a load has given up the old rings the write is
not taken; and no record waits while the producer copy stands behind the consumer count. -/
def Obligations.ControlProducerObserved : Prop :=
  ∀ (s : State) (c : Charter) (tx : Transaction) (w : Window),
    s.decides c → (Instr.controlProducerWrite tx).wf = true → s.liesIn c tx (.window w) → w.kind = .control →
    c.window .control = w → c.classOf tx.tag = .admin → tx.indexTarget w.base = some .producer → s.ownFree 1 →
    let v := tx.producerWord
    let d := (v - s.control.ctlConsumer).toNat
    let copy := if s.accepting then s.control.ctlProducer
      else if d ≤ w.slots then v
      else if d < 2 ^ 31 then s.control.ctlConsumer + BitVec.ofNat 32 w.slots
      else s.control.ctlProducer
    let n := (copy - s.control.ctlConsumer).toNat
    let isOpen := ∀ l, s.control.load = some l → l.stage ≠ .walked ∧ l.stage ≠ .accepted
    let fetch := s.control.record = none ∧ 0 < n ∧ n < 2 ^ 31 ∧ isOpen
    ∃ t, exec (.controlProducerWrite tx) s = .next t ∧ s.SameUnits t ∧
      t.link.stream = s.link.stream ++ [{ tx, role := .plain }] ∧
      t.control = { s.control with ctlProducer := copy, record := if fetch then some {} else s.control.record } ∧
      t.link.own = if fetch then s.link.own ++
          [{ unit := .control, addr := w.base + 64 + s.control.ctlConsumer.toNat % w.slots * 32, body := .read 32
             purpose := .controlRead, placedAt := s.micros }]
        else s.link.own

/-- O24. A well-formed acknowledgment write (16 bytes at a slot start of LABEL_RX): with address 0 or an unknown status it
is refused BAD_ACK; otherwise it is forwarded, and then discarded while the sweep is STOPPED, below the quality minimum, in
BLANK, or when nothing matches it; matched to an OPEN record it is the visit's match: with status OK the record is CLOSING and
its LABEL_ACK request is placed, with DISPLAY_FAULT it is ANSWERED_FAULT; when that leaves no OPEN record in LISTEN, SETTLE
starts, the zone's late list grows older, and every ANSWERED_FAULT record, in table order, is CLOSING with its
LABEL_UNANSWERED request placed; else matched through a late record it removes that record and places the late request. A
match sets its zone's count of empty forced visits to 0, and the match of a probe makes a DARK zone LIT, with its ZONE_LIT
report; no other match does (R70, R79, R80, R86 to R90, R167). With the end of LISTEN the guest floor is the phase's own again
(R154). MODEL'S CHOICE (log 55): of several OPEN records with its label address and generation, the first of the table is matched. -/
def Obligations.AcknowledgmentExamined : Prop :=
  ∀ (s : State) (c : Charter) (tx : Transaction) (w : Window),
    s.decides c → (Instr.acknowledgment tx).wf = true → c.classOf tx.tag = .label → s.liesIn c tx (.window w) →
    w.kind = .labelRx → tx.fullWrite 16 = true → (slotStart w 16 tx.start).isSome = true →
    let address := field tx.data 0 3
    let gen := tx.data.getD 3 0
    let status := byteAt tx.data 5
    let stream := s.link.stream ++ [{ tx, role := .plain }]
    let matches1 := fun (r : OutRecord) => r.status == .opened && r.address == address && r.gen == gen
    let examined := s.sweep.state ≠ .stopped ∧ c.qualityMin ≤ byteAt tx.data 4 ∧ s.sweep.state ≠ .blank
    if address = 0 ∨ (status ≠ 1 ∧ status ≠ 2) then
      ∃ t, exec (.acknowledgment tx) s = .next t ∧ s.RefusedTo t c .sweep .badAck tx ∧ s.SameUnits t
    else
      (¬examined ∨ ((∀ v, s.sweep.visit = some v → v.table.find? matches1 = none) ∧ s.findLate address gen = none) →
        exec (.acknowledgment tx) s = .next { s with link := { s.link with stream := stream } }) ∧
      (examined → s.entryFree 1 →
        (∀ v r, s.sweep.visit = some v → v.table.find? matches1 = some r →
          ∃ t v', exec (.acknowledgment tx) s = .next t ∧ t.link.stream = stream ∧ t.sweep.visit = some v' ∧
            v'.isMatched = true ∧ (v.stage = .onAir → v'.lastAck = (s.micros - v.start) / 100) ∧
            t.mem = s.mem ∧
            (s.sweep.state ≠ .listen ∨ (∃ q ∈ v.table, q.item ≠ r.item ∧ q.status = .opened) →
              t.sweep.state = s.sweep.state ∧ v'.ending = v.ending ∧ t.guest = s.guest ∧
              v'.table = v.table.map (fun q =>
                if q.item = r.item then { q with status := if status = 1 then .closing else .answeredFault } else q) ∧
              (v.zone < 12 → (t.zoneRec v.zone).late = (s.zoneRec v.zone).late) ∧
              t.book.queue = s.book.queue ++ if status = 1 then [{ item := r.item, kind := .labelAck none }] else []) ∧
            (s.sweep.state = .listen → (∀ q ∈ v.table, q.item ≠ r.item → q.status ≠ .opened) →
              v.table.Pairwise (fun p q => p.item ≠ q.item) → s.entryFree (v.table.length + 1) →
              t.sweep.state = .settle ∧ v'.ending = .settling ∧ s.paced t c false false ∧
              v'.table = v.table.map (fun q =>
                if q.item = r.item ∨ q.status = .answeredFault then { q with status := .closing } else q) ∧
              (v.zone < 12 → (t.zoneRec v.zone).late =
                ((s.zoneRec v.zone).late.map (fun l => { l with age := l.age + 1 })).filter (fun l => decide (l.age < 4))) ∧
              t.book.queue = s.book.queue ++ (if status = 1 then [{ item := r.item, kind := .labelAck none }] else []) ++
                (v.table.filter (fun q => if q.item = r.item then status != 1 else q.status == .answeredFault)).map
                  (fun q => { item := q.item, kind := .labelUnanswered })) ∧
            (v.zone < 12 → (t.zoneRec v.zone).emptyForced = 0 ∧
              (t.zoneRec v.zone).dark = if v.kind = .probe then false else (s.zoneRec v.zone).dark) ∧
            (v.kind = .probe → (s.zoneRec v.zone).dark = true → s.accepting = false → s.reportRoom c → s.ownFree 2 →
              ∃ more, t.link.own = s.link.own ++ s.reportRequests c (.zoneLit v.zone) ++ more) ∧
            (v.kind ≠ .probe ∨ (s.zoneRec v.zone).dark = false → t.control = s.control)) ∧
        (∀ z r, (∀ v, s.sweep.visit = some v → v.table.find? matches1 = none) → s.findLate address gen = some (z, r) →
          ∃ t, exec (.acknowledgment tx) s = .next t ∧ t.link.stream = stream ∧ t.sweep.visit = s.sweep.visit ∧
            (∀ q ∈ (t.zoneRec z).late, q.item ≠ r.item) ∧ t.mem = s.mem ∧ t.control = s.control ∧
            (t.zoneRec z).emptyForced = 0 ∧ (t.zoneRec z).dark = (s.zoneRec z).dark ∧
            t.book.queue = s.book.queue ++
              [{ item := r.item, kind := .labelAck (some ⟨r.address, r.gen, status == 1⟩) }]))

/-- O25. A LINK write at a slot start of INTAKE, judged by the tests of R45 in their order with R49 to R54: refused with its
reason, the half-block record gone and the last refusal kept, a batch in RECEIVING broken by a count above 15, by a block
out of order or too long, with its BATCH_BROKEN report; or forwarded, with its half-block record set to its header, the
running check value and the outcome. -/
def Obligations.IntakeLowerHalfJudged : Prop :=
  ∀ (s : State) (c : Charter) (tx : Transaction) (w : Window) (slot : Nat),
    s.decides c → (Instr.intakeLowerHalf tx).wf = true → c.classOf tx.tag = .link → s.liesIn c tx (.window w) →
    w.kind = .intake → c.window .intake = w → slotStart w 256 tx.start = some slot →
    let h := blockHeader tx.data
    let i := s.intake
    let accepted := (i.producer - i.consumer).toNat
    let continues := i.state = .receiving ∧ h.batch = i.batch ∧ h.block = accepted
    let begins := h.block = 0 ∧ (i.state = .idle ∨ i.state = .broken ∨ (i.state = .receiving ∧ h.batch ≠ i.batch))
    let tooLong := h.ends = false ∧ ((if continues then accepted else 0) + 1 = w.slots ∨ h.block = 65535)
    let half : HalfBlock :=
      { slot, header := h, running := crcFeed 0xFFFFFFFF (withoutCheckField tx.data)
        outcome := if continues then .continues else if i.state = .receiving then .supersedes else .starts }
    let refused := fun (why : Reason) (known breaks : Prop) =>
      ∃ t, exec (.intakeLowerHalf tx) s = .next t ∧ s.RefusedTo t c .intake why tx ∧ t.intake.half = none ∧
        t.intake.producer = i.producer ∧ t.intake.consumer = i.consumer ∧ t.mem = s.mem ∧
        (∃ r : IntakeRefusal, t.intake.lastRefusal = some r ∧ r.reason = why ∧ r.slot = BitVec.ofNat 32 slot ∧
          (known → r.block = h.block ∧ r.batch = h.batch) ∧ (¬known → r.block = 0 ∧ r.batch = 0)) ∧
        (breaks ∧ i.state = .receiving → t.intake.state = .broken ∧ t.intake.brokenReason = why ∧
          s.reportsNow t c (.batchBroken i.batch why h.block accepted)) ∧
        (¬(breaks ∧ i.state = .receiving) → t.intake.state = i.state ∧ t.control = s.control ∧ t.link.own = s.link.own)
    if tx.mask.all id = false ∨ tx.len ≠ 128 then refused .wrongSlot False False
    else if s.reloading = true then refused .busy True False
    else if i.state = .complete ∨ i.state = .applying then refused .busy True False
    else if slot ≠ i.producer.toNat % w.slots then refused .wrongSlot True False
    else if 15 < h.count then refused .badCheck True True
    else if i.state = .idle ∧ h.block ≠ 0 then refused .notStart True True
    else if i.state = .broken ∧ h.block ≠ 0 then refused .broken True True
    else if ¬continues ∧ ¬begins then refused .outOfOrder True True
    else if tooLong then refused .tooLong True True
    else exec (.intakeLowerHalf tx) s = .next { s with
      link := { s.link with stream := s.link.stream ++ [{ tx, role := .plain }] }
      intake := { i with half := some half } }

/-- O26. Any other LINK write into INTAKE is judged as an upper half (R44, R46): away from the place of the half-block
record held it is refused WRONG_SLOT and the record stays; at that place the record goes, and the write is refused
WRONG_SLOT when it is not 128 whole bytes, is forwarded when the check over both halves equals the header's, and is
otherwise refused BAD_CHECK, which breaks a batch in RECEIVING, with its BATCH_BROKEN report. MODEL'S CHOICE (log 38): a half
that comes after its slot or its batch has changed is judged in the same way, and a bad check leaves a batch that is COMPLETE
or APPLYING as it is. -/
def Obligations.IntakeUpperHalfJudged : Prop :=
  ∀ (s : State) (c : Charter) (tx : Transaction) (w : Window),
    s.decides c → (Instr.intakeUpperHalf tx).wf = true → c.classOf tx.tag = .link → s.liesIn c tx (.window w) →
    w.kind = .intake → c.window .intake = w → slotStart w 256 tx.start = none →
    let i := s.intake
    ((∀ h, i.half = some h → tx.start ≠ w.base + 64 + h.slot * 256 + 128) →
      ∃ t, exec (.intakeUpperHalf tx) s = .next t ∧ s.RefusedTo t c .intake .wrongSlot tx ∧ t.intake.half = i.half ∧
        t.intake.state = i.state ∧ t.intake.producer = i.producer ∧ t.mem = s.mem) ∧
    (∀ h, i.half = some h → tx.start = w.base + 64 + h.slot * 256 + 128 →
      if tx.mask.all id = false ∨ tx.len ≠ 128 then
        ∃ t, exec (.intakeUpperHalf tx) s = .next t ∧ s.RefusedTo t c .intake .wrongSlot tx ∧ t.intake.half = none ∧
          t.intake.state = i.state ∧ t.intake.producer = i.producer ∧ t.mem = s.mem
      else if ~~~crcFeed h.running tx.data = h.header.check then
        exec (.intakeUpperHalf tx) s = .next { s with
          link := { s.link with stream := s.link.stream ++ [{ tx, role := .intakeUpper }] }
          intake := { i with half := none, accepting := i.accepting ++ [some h] } }
      else ∃ t, exec (.intakeUpperHalf tx) s = .next t ∧ s.RefusedTo t c .intake .badCheck tx ∧ t.intake.half = none ∧
        t.intake.state = (if i.state = .receiving then .broken else i.state) ∧ t.intake.producer = i.producer ∧ t.mem = s.mem ∧
        (i.state = .receiving → t.intake.brokenReason = .badCheck ∧
          s.reportsNow t c (.batchBroken i.batch .badCheck h.header.block (i.producer - i.consumer).toNat)))

/-! ## Till journals -/

/-- O27. A record taken in order, of a kind that needs no price: it is forwarded with its stamp, the next sequence is
expected, it is fed into the till's chain, seeded first when the block is empty and the seed mark set, and no other till, no
other unit and no byte of memory changes; the producer count waits for the write's completion (R103, R105, R110, R130,
R131). -/
def Obligations.JournalRecordStampedAndChained : Prop :=
  ∀ (i : Instr) (s : State) (c : Charter) (tx : Transaction),
    i.transaction = some tx → i.wf = true → s.takesInOrder c tx →
    journalKind tx.data ≠ some .item → journalKind tx.data ≠ some .refund →
    let n := journalTill tx.data
    let x := s.till n
    ∃ t flags amount, exec i s = .next t ∧ s.stamped t tx flags amount ∧
      flags.seqStart = x.expected.isNone ∧ flags.gapBefore = false ∧ flags.duplicate = false ∧ flags.lineFault = false ∧
      (t.till n).expected = some (journalSeq tx.data + 1) ∧ (t.till n).lastSecond = s.phase.mono ∧
      (t.till n).acc = crcFeed (if x.block.count = 0 ∧ x.seedMark = true then 0xFFFFFFFF else x.acc) (tx.data.take 48) ∧
      (∀ m, m ≠ n → t.till m = s.till m) ∧ t.journal.producer = s.journal.producer ∧ t.book = s.book ∧
      t.intake = s.intake ∧ t.sweep = s.sweep ∧ t.guest = s.guest ∧ t.phase = s.phase ∧ t.control = s.control ∧ t.mem = s.mem

/-- O28. The records that move a till's state without money, taken in order: a counted SIGN_ON, SIGN_OFF, NO_SALE or
BASKET_CANCEL has its effect; a record of any kind that the phase or the till state does not suit, and one of unknown kind,
is flagged OUT_OF_STATE and counted as that, and no price is asked for (R113 to R121). -/
def Obligations.TillStateRecords : Prop :=
  ∀ (s : State) (c : Charter) (tx : Transaction), s.takesInOrder c tx →
    let n := journalTill tx.data
    let x := s.till n
    let p := s.phase.phase
    let outOfState := fun i : Instr => ∃ t flags amount, exec i s = .next t ∧ s.stamped t tx flags amount ∧
      flags.outOfState = true ∧ amount = 0 ∧ (t.till n).state = x.state ∧ (t.till n).basket = x.basket ∧
      (t.till n).lineList = x.lineList ∧ (t.till n).signedOn = x.signedOn ∧ t.book = s.book ∧
      (t.till n).totals = { x.totals with outOfState := min 16777215 (x.totals.outOfState + 1) }
    ((Instr.signOn tx).wf = true →
      if (p = some .opening ∨ p = some .trading) ∧ x.state = .closed then
        ∃ t, exec (.signOn tx) s = .next t ∧ (t.till n).state = .ready ∧ (t.till n).signedOn = true ∧
          (t.till n).totals = x.totals ∧ (t.till n).basket = x.basket
      else outOfState (.signOn tx)) ∧
    ((Instr.signOff tx).wf = true →
      if p ≠ some .night ∧ x.state = .ready then
        ∃ t, exec (.signOff tx) s = .next t ∧ (t.till n).state = .closed ∧ (t.till n).totals = x.totals ∧
          (t.till n).expected = some (journalSeq tx.data + 1) ∧ (t.till n).signedOn = x.signedOn
      else outOfState (.signOff tx)) ∧
    ((Instr.noSale tx).wf = true →
      if p ≠ some .night ∧ x.state = .ready then
        ∃ t, exec (.noSale tx) s = .next t ∧ (t.till n).state = .ready ∧
          (t.till n).totals = { x.totals with noSales := min 16777215 (x.totals.noSales + 1) }
      else outOfState (.noSale tx)) ∧
    ((Instr.basketCancel tx).wf = true →
      if p ≠ some .night ∧ x.state = .basket then
        ∃ t, exec (.basketCancel tx) s = .next t ∧ (t.till n).state = .ready ∧ (t.till n).basket = 0 ∧
          (t.till n).lines = 0 ∧ (t.till n).lineList = [] ∧
          (t.till n).totals = { x.totals with cancelled := min 16777215 (x.totals.cancelled + 1) }
      else outOfState (.basketCancel tx)) ∧
    ((Instr.unknownJournalKind tx).wf = true → outOfState (.unknownJournalKind tx)) ∧
    ((Instr.item tx).wf = true → p = some .night ∨ x.state = .closed → outOfState (.item tx)) ∧
    ((Instr.voidLine tx).wf = true → p = some .night ∨ x.state = .closed → outOfState (.voidLine tx)) ∧
    ((Instr.basketTotal tx).wf = true → p = some .night ∨ x.state ≠ .basket → outOfState (.basketTotal tx)) ∧
    ((Instr.refund tx).wf = true → p = some .night ∨ x.state ≠ .ready → outOfState (.refund tx))

/-- O29. The records of a basket, taken in order and counted. BASKET_TOTAL carries the basket into the day sales and the
block sales, counts a basket in both, discards it and makes the till READY; its stamp gives the basket and flags a till amount
that differs. When the basket would carry the open block's money past 999,999,999, the block as it stood before the record is
closed with FULL and handed on, and the record is the first of a new block. VOID_LINE voids the line it names, once, and takes
its amount from the basket; with no such line it is flagged VOID_REFUSED and changes no total (R116, R117, R132, R133). -/
def Obligations.BasketRecords : Prop :=
  ∀ (s : State) (c : Charter) (tx : Transaction), s.takesInOrder c tx → s.phase.phase ≠ some .night →
    let n := journalTill tx.data
    let x := s.till n
    let live := fun l : BasketLine => l.number = journalVoided tx.data ∧ l.voided = false
    ((Instr.basketTotal tx).wf = true → x.state = .basket →
      ∃ t flags, exec (.basketTotal tx) s = .next t ∧ s.stamped t tx flags x.basket ∧
        (flags.totalMismatch = true ↔ journalTillAmount tx.data ≠ x.basket) ∧
        (t.till n).state = .ready ∧ (t.till n).basket = 0 ∧ (t.till n).lines = 0 ∧ (t.till n).lineList = [] ∧
        (t.till n).totals = { x.totals with
          sales := min 140737488355327 (x.totals.sales + x.basket), baskets := min 16777215 (x.totals.baskets + 1) } ∧
        s.entersBlock t c tx x.basket 0 1) ∧
    ((Instr.voidLine tx).wf = true → x.state = .basket → ∀ l, x.lineList.find? (fun l => decide (live l)) = some l →
      ∃ t flags, exec (.voidLine tx) s = .next t ∧ s.stamped t tx flags l.amount ∧ flags.voidRefused = false ∧
        (t.till n).state = .basket ∧ (t.till n).basket = x.basket - l.amount ∧
        (t.till n).lineList = x.lineList.map (fun q => if q.number = l.number then { q with voided := true } else q) ∧
        (t.till n).totals = { x.totals with voids := min 16777215 (x.totals.voids + 1) }) ∧
    ((Instr.voidLine tx).wf = true → (x.state = .ready ∨ (x.state = .basket ∧ ∀ l ∈ x.lineList, ¬live l)) →
      ∃ t flags, exec (.voidLine tx) s = .next t ∧ s.stamped t tx flags 0 ∧ flags.voidRefused = true ∧
        (t.till n).state = x.state ∧ (t.till n).basket = x.basket ∧ (t.till n).lineList = x.lineList ∧
        (t.till n).totals = x.totals)

/-- O30. A counted ITEM or REFUND of an item below the item count stays in hand, its write at the head of the TILL accept
queue, with a PRICE_CHECK request placed for the item; an ITEM in READY opens the basket first. At or above the item count
no request is placed: the record is stamped NOT_LISTED at once, its amount worked out as a unit line; an ITEM's line joins the
basket and, up to line 128, the tracked lines, beyond which it is flagged UNTRACKED; a REFUND's amount enters the day refunds
and the block refunds, the block closed with FULL before it where it would pass 999,999,999 (R108, R115, R119, R122, R125,
R132). -/
def Obligations.PricedRecordsAskForThePrice : Prop :=
  ∀ (s : State) (c : Charter) (tx : Transaction), s.takesInOrder c tx → s.phase.phase ≠ some .night →
    let n := journalTill tx.data
    let x := s.till n
    let item := journalItem tx.data
    let amount := min 999999999 (journalQuantity tx.data * journalUnitPrice tx.data)
    let line := min 65535 ((if x.state = .basket then x.lines else 0) + 1)
    let tracked := if x.state = .basket then x.lineList else []
    let waits := fun (i : Instr) (k : JournalKind) => ∃ t h, exec i s = .next t ∧ t.journal.hand = some h ∧
      h.stage = .pricing ∧ h.counted = some k ∧ h.tx = tx ∧ h.clock = s.phase.clock ∧ h.day = s.phase.day ∧
      h.mono = s.phase.mono ∧ t.queueOf 1 = [tx] ∧ t.link.stream = s.link.stream ∧
      t.book.queue = s.book.queue ++ [{ item, kind := .priceCheck }] ∧ (t.till n).totals = x.totals ∧
      (t.till n).expected = some (journalSeq tx.data + 1) ∧ (k = .item → (t.till n).state = .basket) ∧ t.mem = s.mem
    ((Instr.item tx).wf = true → x.state ≠ .closed → item < c.itemCount → s.entryFree 1 → waits (.item tx) .item) ∧
    ((Instr.refund tx).wf = true → x.state = .ready → item < c.itemCount → s.entryFree 1 → waits (.refund tx) .refund) ∧
    ((Instr.item tx).wf = true → x.state ≠ .closed → c.itemCount ≤ item →
      ∃ t flags, exec (.item tx) s = .next t ∧ s.stamped t tx flags amount ∧ flags.notListed = true ∧
        flags.priceMismatch = false ∧ (flags.amountMismatch = true ↔ journalTillAmount tx.data ≠ amount) ∧
        (t.till n).state = .basket ∧ (t.till n).totals = x.totals ∧ t.book = s.book ∧
        (t.till n).basket = min 999999999 ((if x.state = .basket then x.basket else 0) + amount) ∧
        (t.till n).lines = line ∧ (flags.untracked = true ↔ 128 < line) ∧
        (t.till n).lineList = tracked ++ if line ≤ 128 then [{ number := line, item, amount, voided := false }] else []) ∧
    ((Instr.refund tx).wf = true → x.state = .ready → c.itemCount ≤ item →
      ∃ t flags, exec (.refund tx) s = .next t ∧ s.stamped t tx flags amount ∧ flags.notListed = true ∧
        (t.till n).state = .ready ∧ t.book = s.book ∧
        (t.till n).totals = { x.totals with
          refunds := min 140737488355327 (x.totals.refunds + amount)
          refundCount := min 16777215 (x.totals.refundCount + 1) } ∧
        s.entersBlock t c tx 0 amount 0)

/-- O31. What a record's line status and sequence decide before its kind: a line fault and a duplicate (1 to 1,024 behind)
are only counted and stamped with the chain's last check value, the expected sequence, the chain, the block and the basket
as they were; a record ahead of sequence adds the missing count to the gaps, closes the open block with GAP, its block record
going into the UPLOAD ring or, when that is full, into the hold list, is flagged GAP_BEFORE, and becomes the first record of a
new block; a priced ITEM or REFUND asks for its price with that flag (R109, R111, R112, R122, R133, R134, R138). -/
def Obligations.LineFaultDuplicateAndGap : Prop :=
  ∀ (i : Instr) (s : State) (c : Charter) (tx : Transaction),
    i.transaction = some tx → i.wf = true → s.JournalTakes c tx →
    let n := journalTill tx.data
    let x := s.till n
    let seq := journalSeq tx.data
    (journalLineStatus tx.data ≠ 0 → ∃ t flags, exec i s = .next t ∧ s.stamped t tx flags 0 ∧
      flags = { lineFault := true } ∧
      t.till n = { x with totals := { x.totals with lineFaults := min 16777215 (x.totals.lineFaults + 1) } }) ∧
    (journalLineStatus tx.data = 0 → ∀ e, x.expected = some e →
      1 ≤ (e - seq).toNat → (e - seq).toNat ≤ 1024 → ∃ t flags, exec i s = .next t ∧ s.stamped t tx flags 0 ∧
        flags = { duplicate := true } ∧
        t.till n = { x with totals := { x.totals with duplicates := min 16777215 (x.totals.duplicates + 1) } }) ∧
    (journalLineStatus tx.data = 0 → ∀ e, x.expected = some e → 1024 < (e - seq).toNat →
      let priced := s.phase.phase ≠ some .night ∧ journalItem tx.data < c.itemCount ∧
        ((journalKind tx.data = some .item ∧ x.state ≠ .closed) ∨ (journalKind tx.data = some .refund ∧ x.state = .ready))
      let gapRecord := s.blockRecord n { gap := true }
      ∃ t, exec i s = .next t ∧ (t.till n).expected = some (seq + 1) ∧
        (t.till n).totals.gaps = min 16777215 (x.totals.gaps + (seq - e).toNat) ∧
        (t.till n).block.first = seq ∧ (t.till n).block.last = seq ∧ (t.till n).block.count = 1 ∧
        (¬priced → ∃ flags amount, s.stamped t tx flags amount ∧ flags.gapBefore = true) ∧
        (priced → t.link.stream = s.link.stream ∧
          (∃ h, t.journal.hand = some h ∧ h.tx = tx ∧ h.stage = .pricing ∧ h.flags = { gapBefore := true }) ∧
          (s.entryFree 1 → t.book.queue = s.book.queue ++ [{ item := journalItem tx.data, kind := .priceCheck }])) ∧
        (x.block.count = 0 → t.journal.holdList = [] ∧ t.journal.upProducer = s.journal.upProducer) ∧
        (x.block.count ≠ 0 → (c.window .upload).slots ≤ backlog s.journal.upProducer s.journal.upConsumer →
          t.journal.holdList = [gapRecord] ∧ t.journal.upProducer = s.journal.upProducer) ∧
        (x.block.count ≠ 0 → backlog s.journal.upProducer s.journal.upConsumer < (c.window .upload).slots →
          t.journal.holdList = [] ∧ t.journal.upProducer = s.journal.upProducer + 1 ∧
            ∃ more, t.link.own = s.link.own ++ s.uploadRequests c s.journal.upProducer [gapRecord] ++ more))

/-- O32. The tests of R101 in their order, for a TILL write into JOURNAL: the first that fails gives the
reason, and the refusal is kept as the last journal refusal with the slot and the till; nothing else of the journal changes
(R101, R102, R165, R170, R171). A write that is not at the start of a slot is refused WRONG_SLOT, with the slot in which it begins and
till 0 (MODEL'S CHOICE, log 17: one that begins in no slot has a free value as its slot). A write that passes them while the new-day work or the power-fail closes are due waits at the head of
its accept queue, so that it joins the new day's totals and an empty block (R104, R136, R144; MODEL'S CHOICE, log 21). -/
def Obligations.JournalTestsInOrder : Prop :=
  ∀ (i : Instr) (s : State) (c : Charter) (tx : Transaction),
    i.transaction = some tx → i.wf = true → s.decides c → c.classOf tx.tag = .till → tx.dir = .write →
    s.liesIn c tx (.window (c.window .journal)) → (c.window .journal).kind = .journal →
    let w := c.window .journal
    let refusedAt := fun (why : Reason) (slot : Word32) (till : Nat) => ∃ t, exec i s = .next t ∧ s.RefusedTo t c .journal why tx ∧
      t.journal = { s.journal with lastRefusal := some { reason := why, slot, till } } ∧
      t.book = s.book ∧ t.intake = s.intake ∧ t.sweep = s.sweep ∧ t.guest = s.guest ∧ t.phase = s.phase ∧
      t.control = s.control ∧ t.mem = s.mem
    ((∀ n, n < w.slots → tx.start ≠ w.base + 64 + 64 * n) → ∃ slot : Word32, refusedAt .wrongSlot slot 0 ∧
      ∀ n, n < w.slots → w.base + 64 + 64 * n ≤ tx.start → tx.start < w.base + 64 + 64 * (n + 1) → slot = BitVec.ofNat 32 n) ∧
    ∀ slot, slot < w.slots → tx.start = w.base + 64 + 64 * slot →
    let refused := fun why : Reason => refusedAt why (BitVec.ofNat 32 slot) (if tx.len = 64 then journalTill tx.data else 0)
    if tx.len ≠ 64 ∨ tx.mask.all id = false then refused .wrongSlot
    else if s.reloading = true then refused .busy
    else if s.phase.warning = true then refused .power
    else if slot ≠ s.journal.producer.toNat % w.slots then refused .wrongSlot
    else if w.slots ≤ (s.journal.producer - s.journal.consumer).toNat then refused .ringFull
    else if s.journal.holdList ≠ [] then refused .holdList
    else if c.tillCount ≤ journalTill tx.data then refused .badTill
    else if JournalWork.newDay ∈ s.journal.works ∨ JournalWork.powerClose ∈ s.journal.works then
      ∃ t, exec i s = .next t ∧ t.queueOf 1 = [tx] ∧ t.link.stream = s.link.stream ∧ t.link.answers = s.link.answers ∧
        s.SameUnits t ∧ t.control = s.control
    else ∃ t, exec i s = .next t ∧ t.journal.hand.isSome = true ∧ t.link.answers = s.link.answers ∧
      t.link.refusals = s.link.refusals

/-! ## The memory port -/

/-- O33 (R175). At each grant: a promoted write at the head of the own-request queue takes the port; else its head does when
it holds 8 or more requests or one of age 50 µs or more; else the head of the stream; else the head of the own-request
queue; with both empty there is nothing to choose. -/
def Obligations.PortGrantChoosesByAgeAndCrowd : Prop :=
  ∀ s : State, s.inReset = false →
    let own := s.link.own
    let stream := s.link.stream
    let first := (∃ q qs, own = q :: qs ∧ q.promoted = true) ∨ 8 ≤ own.length ∨ (∃ r ∈ own, 50 ≤ s.micros - r.placedAt)
    (own ≠ [] → first ∨ stream = [] →
      ∃ t, exec .portGrant s = .next t ∧ t.link.own = own.tail ∧ t.link.stream = stream) ∧
    (∀ x xs, stream = x :: xs → own = [] ∨ ¬first →
      ∃ t, exec .portGrant s = .next t ∧ t.link.own = own ∧ t.link.stream = xs) ∧
    (own = [] → stream = [] → exec .portGrant s = .next s)

/-- O34. What memory carries out at a grant (R162, R173, R174, R198): a read finds the bytes as they stand and changes none;
a forwarded write sets the bytes its mask enables; an own write sets its whole run; an index write sets each word it means
to write and keeps the other; every other byte stays as it was. Memory is in its canonical form, which every step keeps
(O4). MODEL'S CHOICES: the other word of an index write and of the result word's write is as memory holds it (logs 15, 16),
memory carries a request out at its grant (log 1), and of a transaction that reaches beyond 2^32 the bytes below 2^32 alone
are memory's (log 25). -/
def Obligations.PortGrantCarriesOutTheRequest : Prop :=
  ∀ s : State, s.inReset = false → s.memoryWf →
    (∀ x xs, s.portChoice = .stream → s.link.stream = x :: xs → x.tx.wf = true →
      let below := min x.tx.len (2 ^ 32 - x.tx.start)
      ∃ t, exec .portGrant s = .next t ∧
        (x.tx.dir = .read → t.mem = s.mem ∧ ∃ d, t.link.issued = s.link.issued ++ [.pass x d] ∧ d.length = x.tx.len ∧
          d.take below = s.mem.readBytes x.tx.start below) ∧
        (x.tx.dir = .write → t.link.issued = s.link.issued ++ [.pass x []] ∧ ∀ a, t.mem.read a =
          if x.tx.start ≤ a ∧ a < x.tx.start + below ∧ x.tx.mask.getD (a - x.tx.start) false = true then
            x.tx.data.getD (a - x.tx.start) 0
          else s.mem.read a)) ∧
    (∀ q qs, s.portChoice = .own → s.link.own = q :: qs →
      ∃ t, exec .portGrant s = .next t ∧
        (∀ n, q.body = .read n → t.mem = s.mem ∧ t.link.issued = s.link.issued ++ [.own q (s.mem.readBytes q.addr n)]) ∧
        (∀ d, q.body = .write d → ∀ a, t.mem.read a =
          if q.addr ≤ a ∧ a < q.addr + d.length then d.getD (a - q.addr) 0 else s.mem.read a) ∧
        (∀ v, q.body = .indexWords (some v) none → ∀ a, t.mem.read a =
          if q.addr ≤ a ∧ a < q.addr + 4 then (toLe 4 v.toNat).getD (a - q.addr) 0 else s.mem.read a) ∧
        (∀ v, q.body = .indexWords none (some v) → ∀ a, t.mem.read a =
          if q.addr + 4 ≤ a ∧ a < q.addr + 8 then (toLe 4 v.toNat).getD (a - q.addr - 4) 0 else s.mem.read a) ∧
        (∀ p k, q.body = .indexWords (some p) (some k) → ∀ a, t.mem.read a =
          if q.addr ≤ a ∧ a < q.addr + 8 then (toLe 4 p.toNat ++ toLe 4 k.toNat).getD (a - q.addr) 0 else s.mem.read a) ∧
        (∀ v, q.body = .resultWord v → ∀ a, t.mem.read a =
          if q.addr + 4 ≤ a ∧ a < q.addr + 8 then (toLe 4 v.toNat).getD (a - q.addr - 4) 0 else s.mem.read a))

/-- O35. The answer of memory to a forwarded transaction returns to its master: a read's data, rewritten into the till view
for a price read and unchanged otherwise, and a write's completion; nothing else changes (R24, R175). The till view is 16
bytes: the item state, UNUSED for a code above 2; the live WEIGHED flag alone; the charge and the base price, 0 for an item that
is not ACTIVE; the markdown, 0 for such an item and under NO_MARKDOWN; the generation; and three zero bytes (R24, R199, section
11.4). MODEL'S CHOICE (log 35): of several answered requests of its kind the first issued returns. -/
def Obligations.AnswersReturnToMasters : Prop :=
  ∀ (s : State) (x : StreamItem) (d : List Byte) (before after : List Issued),
    s.inReset = false → s.link.issued = before ++ .pass x d :: after →
    (∀ v, v = tillView d →
      let active := byteAt d 0 = 1
      v.length = 16 ∧ byteAt v 0 = (if byteAt d 0 ≤ 2 then byteAt d 0 else 0) ∧ byteAt v 1 = byteAt d 1 % 2 ∧
        field v 2 4 = (if active then field d 2 4 else 0) ∧ field v 6 4 = (if active then field d 6 4 else 0) ∧
        field v 10 2 = (if active ∧ byteAt d 1 / 2 % 2 = 0 then field d 10 2 else 0) ∧ byteAt v 12 = byteAt d 12 ∧
        byteAt v 13 = 0 ∧ byteAt v 14 = 0 ∧ byteAt v 15 = 0) ∧
    (x.tx.dir = .read → (∀ y e, Issued.pass y e ∈ before → y.tx.dir ≠ .read) →
      exec .passThroughReadReturn s = .next { s with link := { s.link with
        issued := before ++ after
        answers := s.link.answers ++
          [⟨x.tx.tag, false, if x.role = .tillView then tillView d else d⟩] } }) ∧
    (x.tx.dir = .write → x.role = .plain → (∀ y e, Issued.pass y e ∈ before → ¬(y.tx.dir = .write ∧ y.role = .plain)) →
      exec .passThroughWriteComplete s = .next { s with link := { s.link with
        issued := before ++ after
        answers := s.link.answers ++ [⟨x.tx.tag, false, []⟩] } })

/-- O36. A freed place goes to the one that has waited longest (R6, R173, R174). The unit at the head of the waiting for the
own-request queue places the request that it waits with and goes on with the work that follows: requests that find room are
placed in order, and with a request that finds none the unit waits again behind the others, what follows that request still
to do. The source at the head of the waiting for the entry update queue likewise, and so the KEEP walk with the next item, due
processing with the next item due, and the intake unit with the next record of the block that applies, past those that it skips.
The heads that wait for the stream enter it in the order in which they came to wait. MODEL'S CHOICES: what counts as the
work that follows (log 7); that the sweep controller is one source, its visits, zone resyncs and RESCAN walk together
(log 8); that due processing looks for its next item again from the head of the timed part (log 20); and that a RESCAN walk
paused while it waits gives up its turn (log 37). -/
def Obligations.FreedPlaceGoesToTheLongestWaiting : Prop :=
  ∀ s : State, s.inReset = false →
    let others := fun u : PartUnit => s.link.tasks.filter (fun x => x.1 != u)
    (∀ u us r ts, s.linkQuiet → s.link.own.length = 31 → s.link.ownWait = u :: us → s.tasksOf u = .own r :: ts →
      ts = [] ∨ (∃ r2 ts2, ts = .own r2 :: ts2 ∧ r2.unit = u) →
      ∃ t, exec .ownRequestQueueRoom s = .next t ∧ t.link.own = s.link.own ++ [{ r with placedAt := s.micros }] ∧
        t.link.tasks = others u ++ ts.map (fun x => (u, x)) ∧ t.link.ownWait = us ++ (if ts = [] then [] else [u]) ∧
        t.control = s.control ∧ s.SameUnits t) ∧
    (∀ u rs, s.linkQuiet → s.link.ownWait = [u] → s.tasksOf u = rs.map Task.own → rs ≠ [] → (∀ r ∈ rs, r.unit = u) →
      s.link.own.length + rs.length ≤ 32 →
      ∃ t, exec .ownRequestQueueRoom s = .next t ∧ t.link.tasks = others u ∧ t.link.ownWait = [] ∧
        t.link.own = s.link.own ++ rs.map (fun (r : OwnRequest) => { r with placedAt := s.micros }) ∧
        t.control = s.control ∧ s.SameUnits t) ∧
    (∀ src ws r ts, src = .control ∨ src = .sweep ∨ src = .journal → s.book.queue.length = 63 → s.book.wait = src :: ws →
      src ∉ ws → s.tasksOf src.unit = .entry src r :: ts → ts = [] ∨ (∃ r2 ts2, ts = .entry src r2 :: ts2) →
      ∃ t, exec .entryUpdateQueueRoom s = .next t ∧ t.book.queue = s.book.queue ++ [r] ∧ t.tasksOf src.unit = ts ∧
        t.book.wait = ws ++ (if ts = [] ∧ ¬(src = .sweep ∧ (s.sweep.resync.isSome = true ∨
          (s.itemCount ≠ 0 ∧ ∃ x, s.sweep.scan = some x ∧ x.paused = false))) then [] else [src]) ∧
        t.sweep = s.sweep ∧ t.journal = s.journal ∧ t.control = s.control ∧ t.mem = s.mem) ∧
    (∀ l ws, s.control.load = some l → l.stage = .walking → s.book.cursor < s.itemCount → s.book.queue.length = 63 →
      s.book.wait = .keepWalk :: ws → Source.keepWalk ∉ ws → s.tasksOf .book = [] →
      ∃ t, exec .entryUpdateQueueRoom s = .next t ∧ t.book.queue = s.book.queue ++ [{ item := s.book.cursor, kind := .keep }] ∧
        t.book.cursor = s.book.cursor + 1 ∧
        t.book.wait = ws ++ (if s.book.cursor + 1 < s.itemCount then [.keepWalk] else []) ∧ t.mem = s.mem) ∧
    (∀ m x xs ws, s.control.part = .active → s.book.dueTo = some m → s.book.queue.length = 63 → s.book.wait = .due :: ws →
      Source.due ∉ ws → s.tasksOf .book = [] →
      let dueOf := fun l : List ListItem => (l.takeWhile (fun y => decide (y.key.toNat ≤ m.toNat))).filter (fun y => !y.marked)
      let timed := s.book.timed.map (fun y => if y.item = x.item then { y with marked := true } else y)
      dueOf s.book.timed = x :: xs →
      ∃ t, exec .entryUpdateQueueRoom s = .next t ∧ t.book.queue = s.book.queue ++ [{ item := x.item, kind := .changeoverDue }] ∧
        t.book.timed = timed ∧ t.book.openGroup = s.book.openGroup ∧ t.mem = s.mem ∧
        (dueOf timed ≠ [] → t.book.dueTo = some m ∧ t.book.wait = ws ++ [.due]) ∧
        (dueOf timed = [] → t.book.dueTo = none ∧ t.book.wait = ws)) ∧
    (∀ c b q ws, s.charter = some c → s.intake.state = .applying → s.intake.block = some b → s.book.queue.length = 63 →
      s.book.wait = .intake :: ws → Source.intake ∉ ws → s.tasksOf .intake = [] →
      let i := s.intake
      let count := min 15 (byteAt b 6)
      let judged := fun r : Nat => judgeRecord c.itemCount i.applyBlock r (intakeRecord b r)
      let fails := fun r : Nat => match judged r with | .ok _ => false | .error _ => true
      let bad := (((List.range count).drop (i.next + 1)).takeWhile fails).length
      i.next < count → judged i.next = .ok q →
      ∃ t, exec .entryUpdateQueueRoom s = .next t ∧ t.book.queue = s.book.queue ++ [q] ∧ t.mem = s.mem ∧
        t.intake.awaiting = i.awaiting + 1 ∧ t.intake.skipped = i.skipped + bad ∧ t.intake.handedOn = i.handedOn + bad ∧
        t.intake.state = .applying ∧
        (i.next + 1 + bad < count → t.intake.next = i.next + 1 + bad ∧ t.intake.block = some b ∧ t.book.wait = ws ++ [.intake]) ∧
        (i.next + 1 + bad = count → t.book.wait = ws ∧
          if i.applyBlock + 1 < (i.producer - i.consumer).toNat then t.intake.block = none ∧ t.intake.applyBlock = i.applyBlock + 1
          else t.intake.applyBlock = i.applyBlock)) ∧
    (∀ c k1 k2 tx1 tx2, s.charter = some c → k1 ≠ k2 → s.link.waiting = [] → s.link.passQueue = [] → s.journal.hand = none →
      s.link.stream.length ≤ 14 → s.link.streamWait = [some k1, some k2] → s.queueOf k1.index = [tx1] →
      s.queueOf k2.index = [tx2] → (∀ k, k ≠ k1 → k ≠ k2 → s.queueOf k.index = []) →
      s.judge c tx1 = .forward .plain .nothing → s.judge c tx2 = .forward .plain .nothing →
      tx1.wordWritten s.charterBase ≠ some 1 → tx2.wordWritten s.charterBase ≠ some 1 →
      ∃ t, exec .passThroughStreamRoom s = .next t ∧ t.link.stream = s.link.stream ++ [⟨tx1, .plain⟩, ⟨tx2, .plain⟩] ∧
        t.link.streamWait = [] ∧ t.link.accept = Vector.replicate 7 [] ∧ s.SameUnits t)

/-! ## The price book -/

/-- O37. The own read of the head request returns: QUEUE_JOIN offers a waiting label; LABEL_RETURN makes a SENT label DUE
again; LABEL_UNANSWERED counts a retry and makes it DUE, or FAULT at the limit; LABEL_RESYNC makes a CONFIRMED or FAULT
label DUE with retry count 0. Each offers the label by R3, changes no other field, and is written when it changed anything;
a label in any other state is left as it is. An item so answered QUEUED stands at the tail of its zone's queue with the pool count
one higher, when the request leaves if that closes its record; FULL sets RESCAN (R65, R67). What the request brings (O44) is the
end of the item's record, the late join, the late record of a frame unanswered, the LABEL_FAULT report with its retry count, or
the end of the resync. ENTRY_READ_COMPLETE does the same (R3, R7, R22, R65, R82, R89, R94). DEDUCED (log 45): a retry count of 7
stays 7. DEDUCED (log 6): the row of a
request's kind is the performing of that request. MODEL'S CHOICE (log 59): in the walk of a reload an entry is taken with the
retry limit of the charter being loaded. -/
def Obligations.LabelRequestsWorkedOut : Prop :=
  ∀ (s : State) (c : Charter) (r : EntryReq) (rest : List EntryReq) (d : List Byte), s.HeadReturns c r rest d →
    let e := Entry.take c.retryLimit d
    let q := s.answersQueued r.item
    let makes := fun (row : Instr) (e2 : Entry) (acts : List LeaveAct) => ∀ i, i = row ∨ i = .entryReadComplete →
      ∃ t, exec i s = .next t ∧ s.makesEntry t c r.item rest e e2 acts
    let offers := fun (row : Instr) (e1 : Entry) (closing : Bool) (acts : List LeaveAct) =>
      ∀ i, i = row ∨ i = .entryReadComplete → ∃ t, exec i s = .next t ∧
        s.makesEntry t c r.item rest e (e1.offered q) acts ∧ (e1.lacksQueue → s.tookOffer t r.item e.zone closing)
    let close := LeaveAct.close r.item
    let n := min 7 (e.retry + 1)
    let again := { e with label := LabelState.due, retry := n }
    (r.kind = .queueJoin → offers .queueJoin e false []) ∧
    (r.kind = .labelReturn → e.label ≠ .sent → makes .labelReturn e [close]) ∧
    (r.kind = .labelReturn → e.label = .sent →
      offers .labelReturn { e with label := .due } true (close :: s.laterJoin { e with label := .due } r.item)) ∧
    (r.kind = .labelUnanswered → e.label ≠ .sent → makes .labelUnanswered e [close]) ∧
    (r.kind = .labelUnanswered → e.label = .sent → c.retryLimit ≤ n → makes .labelUnanswered
      { e with retry := n, label := .fault, queued := false } [close, .report (.labelFault r.item e.zone e.address n)]) ∧
    (r.kind = .labelUnanswered → e.label = .sent → n < c.retryLimit →
      offers .labelUnanswered again true (close :: s.laterJoin again r.item ++
        if (again.offered q).queued = true then [.late e.zone ⟨r.item, e.address, e.sentGen, 0⟩] else [])) ∧
    (∀ zone last, r.kind = .labelResync zone last →
      let taken := (e.label = .confirmed ∨ e.label = .fault) ∧ (zone = none ∨ zone = some e.zone)
      (taken → offers .labelResyncRequest { e with label := .due, retry := 0 } false [.resynced last]) ∧
      (¬taken → makes .labelResyncRequest e [.resynced last]))

/-- O38. FRAME_SENT: an item released from its visit is left as it is; an UNCONFIRMED or DUE label becomes SENT with the
target recomputed as its sent price, the generation as its sent generation and QUEUED clear, and the request brings its frame:
the item's address, that price and generation, marked WITHDRAWN for a RETIRED item; a label in any other state has QUEUED cleared;
without a frame the request brings the bare answer (R19, R21, R22, R76). MODEL'S CHOICE (log 59): in the walk of a reload the entry
is taken with the retry limit of the charter being loaded. -/
def Obligations.FrameSentMakesTheLabelSent : Prop :=
  ∀ (s : State) (c : Charter) (r : EntryReq) (rest : List EntryReq) (d : List Byte), s.HeadReturns c r rest d →
    r.kind = .frameSent →
    let e := Entry.take c.retryLimit d
    let p := chargePrice c.unit e.pNoMarkdown e.pBase e.pMarkdown e.pFloor
    let target := if e.pending = true ∧ e.charge < p then p else e.charge
    ∀ i, i = Instr.frameSent ∨ i = .entryReadComplete → ∃ t, exec i s = .next t ∧ s.makesEntry t c r.item rest e
      (if s.released r.item = true then e
        else if e.label = .unconfirmed ∨ e.label = .due then
          { e with target, label := .sent, sentPrice := target, sentGen := e.generation, queued := false }
        else { e with queued := false })
      [.frame r.item (if s.released r.item = false ∧ (e.label = .unconfirmed ∨ e.label = .due) then
        some { item := r.item, address := e.address, price := target, gen := e.generation
               withdrawn := decide (e.item = .retired) }
      else none)]

/-- O39. LABEL_ACK of a SENT label: the shown price becomes the sent price, the retry count 0, and the label CONFIRMED
exactly when the target equals it, else DUE with an offer; a waiting increase so confirmed goes over in the same write, its label
by R20 and R21. Of a label not SENT it changes nothing. It brings the end of the item's record, and the late join of an offer so
answered (R65, R77). Marked late, it acts alike on a queued DUE label whose sent generation and address are the acknowledgment's,
with status OK, a label so CONFIRMED leaving its zone queue, and otherwise changes nothing (R17, R19, R22, R90). -/
def Obligations.LabelAckRecordsTheShownPrice : Prop :=
  ∀ (s : State) (c : Charter) (r : EntryReq) (rest : List EntryReq) (d : List Byte), s.HeadReturns c r rest d →
    let e := Entry.take c.retryLimit d
    let p := chargePrice c.unit e.pNoMarkdown e.pBase e.pMarkdown e.pFloor
    let target := if e.pending = true ∧ e.charge < p then p else e.charge
    let acked := { e with shown := e.sentPrice, retry := 0, target, label := if target = e.sentPrice then .confirmed else .due }
    let goesOver := e.waiting = true ∧ target = e.sentPrice ∧ p ≤ e.sentPrice
    ∀ i, i = Instr.labelAck ∨ i = .entryReadComplete →
      (r.kind = .labelAck none → e.label ≠ .sent →
        ∃ t, exec i s = .next t ∧ s.makesEntry t c r.item rest e e [.close r.item]) ∧
      (r.kind = .labelAck none → e.label = .sent → ¬goesOver → ∃ t, exec i s = .next t ∧
        s.makesEntry t c r.item rest e (acked.offered (s.answersQueued r.item)) (.close r.item :: s.laterJoin acked r.item) ∧
        (acked.lacksQueue → s.tookOffer t r.item e.zone true)) ∧
      (r.kind = .labelAck none → e.label = .sent → goesOver → ∃ t e2 more, exec i s = .next t ∧
        s.writesEntry t c r.item e2 (.close r.item :: more) ∧ (more = [] ∨ more = [.join r.item e2.zone]) ∧
        acked.WentOver e2 p s.phase.mono false ∧ s.assignsAnew t r.item acked e2 ∧
        s.offersKept t r.item acked e2 false true ∧ t.listed r.item = false) ∧
      (∀ l, r.kind = .labelAck (some l) →
        ¬(e.label = .due ∧ e.queued = true ∧ e.sentGen = l.gen ∧ e.address = l.address ∧ l.ok = true) →
        ∃ t, exec i s = .next t ∧ s.makesEntry t c r.item rest e e []) ∧
      (∀ l, r.kind = .labelAck (some l) → e.label = .due → e.queued = true → e.sentGen = l.gen → e.address = l.address →
        l.ok = true →
        (¬goesOver → ∃ t, exec i s = .next t ∧ s.makesEntry t c r.item rest e
          (if target = e.sentPrice then { acked with queued := false } else acked) [] ∧
          (∀ z, target = e.sentPrice → s.queuedIn r.item = some z → t.sweep.poolUsed = s.sweep.poolUsed - 1 ∧
            t.sweep.queues = s.sweep.queues.setIfInBounds z ((s.zoneQueue z).erase r.item))) ∧
        (goesOver → ∃ t e2 more, exec i s = .next t ∧ s.writesEntry t c r.item e2 more ∧
          (more = [] ∨ more = [.join r.item e2.zone]) ∧
          Entry.WentOver { acked with queued := false } e2 p s.phase.mono false ∧ t.listed r.item = false))

/-- O40. STAGE sets in the pending tuple the field its change names, over the live tuple when none is pending, sets PENDING,
the effective kind and the due second, clears WAITING_LABEL and increments the generation. AT_TIME and AT_OPEN items take
their place in the changeover list; a NOW change goes over at once or waits for its label; and a request that needs a place
finds the list full, changes nothing and leaves the entry unwritten (R9, R10, R11, R12, R15, R16). The label target is recomputed
and the label kept up: a CONFIRMED label whose target is not the shown price is DUE, and a FAULT label whose target changes is DUE
with retry count 0; a change that goes over does the same for the new charge and for an item that turns ACTIVE or RETIRED, or
assigns the label anew when its address or zone changes, out of its zone queue and the outstanding table, UNCONFIRMED or NO_LABEL
(R19 to R21). A label that so comes to need labelling is offered; one that needed it when the entry was read is not offered by it
(R3, R65). The request brings its answer, clamped or list-full. MODEL'S CHOICES: whether a NOW change is held, and whether it needs
a place, is judged from the label state and the shown price as read, before the upkeep (log 14), a due second wraps with the
monotonic count (log 13), and in the walk of a reload the entry is taken with the retry limit of the charter being loaded (log
59). -/
def Obligations.StageMergesOneChange : Prop :=
  ∀ (s : State) (c : Charter) (r : EntryReq) (rest : List EntryReq) (d : List Byte) (ch : Change) (eff : EffKind)
    (second : Nat) (src : StageSource) (clamped : Bool), s.HeadReturns c r rest d →
    r.kind = .stage ch eff second src clamped → eff ≠ .unset → (eff = .atTime → second < 86400) →
    s.phase.clock < 86400 →
    let e := Entry.take c.retryLimit d
    let tuple := if e.pending = true then e else
      { e with pBase := e.base, pMarkdown := e.markdown, pFloor := e.floor, pAddress := e.address, pZone := e.zone
               pWeighed := e.weighed, pNoMarkdown := e.noMarkdown, pRetire := false }
    let merged := match ch with
      | .setPrice b => { tuple with pBase := b }
      | .setMarkdown m => { tuple with pMarkdown := m }
      | .clearMarkdown => { tuple with pMarkdown := 0 }
      | .setFloor f => { tuple with pFloor := f }
      | .setFlags w n => { tuple with pWeighed := w, pNoMarkdown := n }
      | .setLabel a z => { tuple with pAddress := a, pZone := z }
      | .retire => { tuple with pRetire := true }
    let p := chargePrice c.unit merged.pNoMarkdown merged.pBase merged.pMarkdown merged.pFloor
    let atOnce := p ≤ e.charge ∨ e.item = .unused ∨ e.label = .noLabel ∨ merged.pRetire = true ∨
      (e.label = .confirmed ∧ p ≤ e.shown)
    let due := match eff with
      | .now => s.phase.mono
      | .atTime => s.phase.mono + BitVec.ofNat 32 ((second + 86400 - s.phase.clock) % 86400)
      | .atOpen => e.due
      | .unset => e.due
    let full := s.listed r.item = false ∧ 8192 ≤ s.listCount
    let staged := fun waiting : Bool => Entry.upkept
      { merged with pending := true, eff, due, waiting, generation := e.generation + 1 } (if e.charge < p then p else e.charge)
    ∀ i, i = Instr.stage ∨ i = .entryReadComplete →
      (full ∧ (eff ≠ .now ∨ ¬atOnce) → ∃ t, exec i s = .next t ∧
        s.makesEntry t c r.item rest e e [.staged src clamped true] ∧
        t.book.timed = s.book.timed ∧ t.book.openGroup = s.book.openGroup) ∧
      (¬full → eff ≠ .now ∨ ¬atOnce → ∃ t e2, exec i s = .next t ∧ s.writesEntry t c r.item e2 [.staged src clamped false] ∧
        (let e1 := staged (decide (eff = .now))
         e2 = (if ¬e.lacksQueue then e1.offered (s.answersQueued r.item) else e1) ∧
         e2.pending = true ∧ e2.charge = e.charge ∧ e2.target = (if e.charge < p then p else e.charge) ∧
         (e.label = .confirmed → e2.label = (if e2.target = e.shown then .confirmed else .due) ∧ e2.retry = e.retry) ∧
         (e.label = .fault → e2.target ≠ e.target → e2.label = .due ∧ e2.retry = 0) ∧ e2.shown = e.shown ∧
         (e1.lacksQueue → ¬e.lacksQueue → s.tookOffer t r.item e.zone false)) ∧
        (eff = .atOpen → ∃ x ∈ t.book.openGroup, x.item = r.item) ∧
        (eff = .atTime → ∃ x ∈ t.book.timed, x.item = r.item ∧ x.key = due) ∧
        (eff = .now → ∃ x ∈ t.book.timed, x.item = r.item ∧ x.key = due + BitVec.ofNat 32 c.labelDeadline)) ∧
      (eff = .now → atOnce → ∃ t e2, exec i s = .next t ∧ s.writesEntry t c r.item e2 [.staged src clamped false] ∧
        (staged false).WentOver e2 p s.phase.mono false ∧ e2.previous = e.charge ∧ e2.generation = e.generation + 2 ∧
        s.assignsAnew t r.item (staged false) e2 ∧
        s.offersKept t r.item (staged false) e2 (decide e.lacksQueue) false ∧ t.listed r.item = false)

/-- O41. CHANGEOVER_DUE clears the item's mark, wherever it stands in the changeover list. An item no longer in the timed
part, or whose key is above the second, is left as it is. A due tuple goes over, when it may, or waits for its label with
its key at its label deadline; a waiting one whose deadline has passed is forced, with FORCED set and a label that was
CONFIRMED taken out of CONFIRMED, and brings its FORCED_CHANGEOVER report (R13, R15, R16, R18). A tuple that goes over is copied
whole into the live one, the item ACTIVE or RETIRED (R2, R15), and its label is kept up, or assigned anew when its address or zone
changes (R20, R21), as O40 says. MODEL'S CHOICES: the due second that a deadline is counted from is the one kept with the item's
place in the list (log 27), it wraps (log 13), and in the walk of a reload the entry is taken with the retry limit of the charter
being loaded (log 59). -/
def Obligations.ChangeoverDueTakesTheItem : Prop :=
  ∀ (s : State) (c : Charter) (r : EntryReq) (rest : List EntryReq) (d : List Byte), s.HeadReturns c r rest d →
    r.kind = .changeoverDue →
    let e := Entry.take c.retryLimit d
    let p := chargePrice c.unit e.pNoMarkdown e.pBase e.pMarkdown e.pFloor
    let atOnce := p ≤ e.charge ∨ e.item = .unused ∨ e.label = .noLabel ∨ e.pRetire = true ∨ (e.label = .confirmed ∧ p ≤ e.shown)
    let place := s.book.timed.find? (fun x => x.item == r.item)
    let unmarked := fun t : State => ∀ x ∈ t.book.timed ++ t.book.openGroup, x.item = r.item → x.marked = false
    let gone := fun (forced : Bool) (t : State) (e2 : Entry) =>
      s.writesEntry t c r.item e2
          (if forced = true then [.report (.forcedChangeover r.item e2.label e.charge e2.charge e2.shown)] else []) ∧
        e.WentOver e2 p s.phase.mono forced ∧ s.assignsAnew t r.item e e2 ∧
        s.offersKept t r.item e e2 (decide e.lacksQueue) false ∧ t.listed r.item = false ∧
        (e2.label = .confirmed → e2.shown = e2.charge ∧ forced = false)
    ∀ i, i = Instr.changeoverDue ∨ i = .entryReadComplete →
      ((∀ x, place = some x → s.phase.mono.toNat < x.key.toNat) →
        ∃ t, exec i s = .next t ∧ s.makesEntry t c r.item rest e e [] ∧ unmarked t) ∧
      (∀ x, place = some x → x.key.toNat ≤ s.phase.mono.toNat → e.waiting = true →
        ∃ t e2, exec i s = .next t ∧ gone true t e2 ∧ unmarked t) ∧
      (∀ x, place = some x → x.key.toNat ≤ s.phase.mono.toNat → e.waiting = false → atOnce →
        ∃ t e2, exec i s = .next t ∧ gone false t e2 ∧ unmarked t) ∧
      (∀ x, place = some x → x.key.toNat ≤ s.phase.mono.toNat → e.waiting = false → ¬atOnce →
        let e1 := Entry.upkept { e with waiting := true, due := x.due } (if e.pending = true ∧ e.charge < p then p else e.charge)
        ∃ t e2, exec i s = .next t ∧ s.writesEntry t c r.item e2 [] ∧ unmarked t ∧
          e2 = (if ¬e.lacksQueue then e1.offered (s.answersQueued r.item) else e1) ∧
          (e1.lacksQueue → ¬e.lacksQueue → s.tookOffer t r.item e.zone false) ∧
          ∃ y ∈ t.book.timed, y.item = r.item ∧ y.key = x.due + BitVec.ofNat 32 c.labelDeadline)

/-- O42. PRICE_CHECK reads the entry and writes nothing (R8). The ITEM or REFUND record that it answers is stamped with its
clock and day, its flags, its amount and the chain's check value, and forwarded: the amount follows the live WEIGHED flag,
and an item that is not ACTIVE is flagged NOT_LISTED. For a listed ITEM a unit price that is neither the live charge nor the
previous one within grace is flagged PRICE_MISMATCH, counted and reported; whatever the check finds, the amount joins the basket
and its line, up to line 128, the tracked lines; a REFUND's amount joins the day refunds and the block refunds, the block closed
with FULL before it where it would pass 999,999,999 (R103, R105, R108, R115, R119, R122 to R125, R132). MODEL'S CHOICE
(log 13): the sum of the changeover second and the grace does not wrap. -/
def Obligations.PriceCheckAnswersTheRecord : Prop :=
  ∀ (s : State) (c c2 : Charter) (r : EntryReq) (rest : List EntryReq) (d : List Byte) (h : JournalHand) (u : State),
    s.inReset = false → s.book.queue = r :: rest → r.kind = .priceCheck → s.book.headPhase = .reading →
    s.bookCharter = some c → s.charter = some c2 → s.takeRead .entryRead = some (d, u) → s.noneWaits →
    s.link.waiting = [] → s.link.streamWait = [] → s.link.stream.length < 16 → s.queueOf h.queue.index = [h.tx] →
    (∀ k, k ≠ h.queue.index → s.queueOf k = []) → s.journal.hand = some h → h.stage = .pricing →
    (h.before.count ≠ 0 → s.ownFree 2) → h.tx.wf = true →
    (s.charterBase < h.tx.start ∨ h.tx.start + h.tx.len ≤ s.charterBase) → journalTill h.tx.data < 48 → h.tx.data.length = 64 →
    let e := Entry.take c.retryLimit d
    let n := journalTill h.tx.data
    let x := s.till n
    let whole := exactLine e.weighed (journalQuantity h.tx.data) (journalUnitPrice h.tx.data)
    let amount := min 999999999 whole
    let accepted := journalUnitPrice h.tx.data = e.charge ∨
      (journalUnitPrice h.tx.data = e.previous ∧ h.mono.toNat ≤ e.changeover.toNat + c2.grace)
    let mismatch := h.counted = some .item ∧ e.item = .active ∧ ¬accepted
    let fits := h.before.count = 0 ∨ (h.before.sales ≤ 999999999 ∧
      h.before.refunds + (if h.counted = some .refund then amount else 0) ≤ 999999999)
    let closed := UploadRecord.block n h.before.day s.phase.clock h.before.check h.before.first h.before.last h.before.count
      h.before.baskets { full := true, start := h.before.start } h.before.sales h.before.refunds
    h.counted = some .item ∨ h.counted = some .refund → ∀ i, i = Instr.priceCheck ∨ i = .entryReadComplete →
      ∃ t h2, exec i s = .next t ∧ s.leavesUnwritten t rest ∧ t.journal.hand = some h2 ∧ h2.stage = .sent ∧
        t.link.stream = s.link.stream ++ [⟨h2.tx, .journalRecord⟩] ∧
        h2.tx = { h.tx with
          data := h.tx.data.take 48 ++ stampBytes h.clock h.day h2.flags amount (~~~(t.till n).acc) } ∧
        h2.flags = { h.flags with
          priceMismatch := h2.flags.priceMismatch, notListed := h2.flags.notListed, saturated := h2.flags.saturated
          amountMismatch := h2.flags.amountMismatch, untracked := h2.flags.untracked } ∧
        (h.counted = some .item → (h2.flags.priceMismatch = true ↔ mismatch) ∧
          (h2.flags.untracked = true ↔ 128 < min 65535 (x.lines + 1))) ∧
        (h2.flags.notListed = true ↔ e.item ≠ .active) ∧
        (h2.flags.amountMismatch = true ↔ journalTillAmount h.tx.data ≠ amount) ∧
        (h2.flags.saturated = true ↔ 999999999 < whole) ∧
        (mismatch → h2.report = some (.priceMismatch n (journalSeq h.tx.data) (journalItem h.tx.data)
          (journalUnitPrice h.tx.data) e.charge e.previous e.changeover)) ∧ (¬mismatch → h2.report = none) ∧
        (t.till n).state = x.state ∧ (t.till n).acc = x.acc ∧
        (h.counted = some .item → (t.till n).basket = min 999999999 (x.basket + amount) ∧
          (t.till n).lines = min 65535 (x.lines + 1) ∧
          (t.till n).lineList = x.lineList ++ (if min 65535 (x.lines + 1) ≤ 128 then
            [⟨min 65535 (x.lines + 1), journalItem h.tx.data, amount, false⟩] else []) ∧
          (t.till n).totals = { x.totals with
            mismatches := if mismatch then min 16777215 (x.totals.mismatches + 1) else x.totals.mismatches }) ∧
        (h.counted = some .refund → (t.till n).basket = x.basket ∧ (t.till n).lines = x.lines ∧
          (t.till n).lineList = x.lineList ∧ (t.till n).totals = { x.totals with
          refunds := min 140737488355327 (x.totals.refunds + amount)
          refundCount := min 16777215 (x.totals.refundCount + 1) }) ∧
        (fits → (t.till n).block = { x.block with
          refunds := x.block.refunds + if h.counted = some .refund then amount else 0 } ∧
          t.journal.holdList = s.journal.holdList ∧ t.journal.upProducer = s.journal.upProducer) ∧
        (¬fits → (t.till n).block.first = journalSeq h.tx.data ∧ (t.till n).block.last = journalSeq h.tx.data ∧
          (t.till n).block.count = 1 ∧ (t.till n).block.start = false ∧ (t.till n).block.sales = 0 ∧
          (t.till n).block.refunds = (if h.counted = some .refund then amount else 0) ∧ (t.till n).block.baskets = 0 ∧
          (s.journal.holdList ≠ [] ∨ (c2.window .upload).slots ≤ backlog s.journal.upProducer s.journal.upConsumer →
            t.journal.holdList = s.journal.holdList ++ [closed] ∧ t.journal.upProducer = s.journal.upProducer) ∧
          (s.journal.holdList = [] → backlog s.journal.upProducer s.journal.upConsumer < (c2.window .upload).slots →
            t.journal.holdList = [] ∧ t.journal.upProducer = s.journal.upProducer + 1 ∧
              ∃ more, t.link.own = s.link.own ++ s.uploadRequests c2 s.journal.upProducer [closed] ++ more)) ∧
        (∀ m, m ≠ n → t.till m = s.till m) ∧ t.mem = s.mem

/-- O43. The walk of a load. A KEEP request of a FRESH walk writes a fresh entry without reading. In a KEEP walk a bad check
byte has the entry written fresh and counted as repaired; a good one has QUEUED cleared, its previous charge and changeover
second set, its live charge computed afresh under the new charter with the generation raised when it changed, and no label
left CONFIRMED below its charge or SENT; an item that needs labelling is offered, and its QUEUED is the answer (R3, R5, R27,
R28). A pending change takes its place in the open group, or in the timed part with the second of the load as due second and key; with
the list full it is discarded and the generation raised. What was repaired, recomputed, discarded and demoted is counted (R28). MODEL'S
CHOICES: the changeover second is the second in which the walk began (log 22), and an entry is taken with the retry limit of the
charter being loaded (log 59). -/
def Obligations.KeepWalkWritesFreshOrRecomputes : Prop :=
  ∀ (s : State) (c : Charter) (r : EntryReq) (rest : List EntryReq),
    (s.inReset = false → s.book.queue = r :: rest → r.kind = .keep → s.book.headPhase = .freshWrite →
      s.bookCharter = some c → s.linkQuiet → s.ownFree 1 →
      ∃ t, exec .keep s = .next t ∧ s.writesEntry t c r.item Entry.fresh [.kept] ∧ t.sweep = s.sweep ∧ t.control = s.control) ∧
    (∀ d l, s.HeadReturns c r rest d → r.kind = .keep → s.control.load = some l →
      let e := Entry.take c.retryLimit d
      let live := chargePrice c.unit e.noMarkdown e.base e.markdown e.floor
      ∀ i, i = Instr.keep ∨ i = .entryReadComplete →
        (entryCheckOk d = false → ∃ t l2, exec i s = .next t ∧ s.writesEntry t c r.item Entry.fresh [.kept] ∧
          t.control.load = some l2 ∧ l2.repaired = l.repaired + 1) ∧
        (entryCheckOk d = true → ∃ t e2, exec i s = .next t ∧ s.makesEntry t c r.item rest e e2 [.kept] ∧
          e2.charge = live ∧ e2.previous = e.charge ∧ e2.changeover = l.second ∧ e2.waiting = (e.waiting && !e.pending) ∧
          e2.item = e.item ∧ e2.base = e.base ∧ e2.retry ≤ e.retry ∧ e2.label ≠ .sent ∧
          (e2.label = .confirmed → e2.charge ≤ e2.shown) ∧
          e2.queued = ((e2.label == .unconfirmed || e2.label == .due) && s.answersQueued r.item) ∧
          (let recomputed := live ≠ e.charge
           let full := s.listed r.item = false ∧ 8192 ≤ s.listCount
           let discarded := e.pending = true ∧ full
           let demoted := e.label = .confirmed ∧ live = e.charge ∧ e.shown < live
           e2.generation = e.generation + (if recomputed then 1 else 0) + (if discarded then 1 else 0) ∧
           e2.pending = (e.pending && !decide full) ∧ e2.eff = e.eff ∧
           (e.pending = false ∨ discarded → t.book.timed = s.book.timed ∧ t.book.openGroup = s.book.openGroup ∧ e2.due = e.due) ∧
           (e.pending = true → ¬full → e.eff = .atOpen → e2.due = e.due ∧ ∃ x ∈ t.book.openGroup, x.item = r.item) ∧
           (e.pending = true → ¬full → e.eff ≠ .atOpen →
             e2.due = l.second ∧ ∃ x ∈ t.book.timed, x.item = r.item ∧ x.key = l.second ∧ x.due = l.second) ∧
           ∃ l2, t.control.load = some l2 ∧ l2.repaired = l.repaired ∧
             l2.recomputed = l.recomputed + (if recomputed then 1 else 0) ∧
             l2.discarded = l.discarded + (if discarded then 1 else 0) ∧
             l2.demoted = l.demoted + (if demoted then 1 else 0))))

/-- O44. The own write of the head request completes: the request leaves the queue, what it brings is handed on, and the
next one begins with its own read of 64 bytes, unless it is a KEEP request of a FRESH walk (R1, R7, R27). What a request
brings: the FORCED_CHANGEOVER or LABEL_FAULT report (R18, R22); the answer to the control record, or to the intake unit,
which counts it and, after the last answer of the batch, ends the apply with its index write and BATCH_DONE (R11, R59, R60);
the end of the item's record in the outstanding table, with a late record (R77, R82, R89) or a place in a zone queue (R65);
the item's frame and its record in the outstanding table (R22, R76, R77); the end of a resync (R94); and the count of the
walk (R29). In a cancelled visit an item that comes with a frame has its LABEL_RETURN request placed at once, and with the
last record and the last taken item the visit is over: the sweep is STOPPED in a load, else MANUAL_WAIT in MANUAL and IDLE in AUTO, with a
selection unless the warning stands; no duration is recorded and nothing else of the sweep changes (R95 to R97). MODEL'S CHOICES: the
cancel is over when the items taken are answered too, and one that is over with the warning clear makes a selection from IDLE (log
31); the sweep goes IDLE with its current slot kept (log 34); and a visit shows TX_WAIT from its selection on (log 11). -/
def Obligations.EntryWriteCompletes : Prop :=
  ∀ (s u : State) (c : Charter) (r : EntryReq) (rest : List EntryReq) (p : Purpose) (acts : List LeaveAct),
    s.inReset = false → s.book.queue = r :: rest → s.book.headPhase = .writing acts → s.bookCharter = some c → s.linkQuiet →
    s.takeWritten (· == .entryWrite) = some (p, u) →
    (∀ v, s.sweep.visit = some v → v.cancelled = true → v.table ≠ [] ∨ v.taken ≠ []) →
    let read : List OwnRequest := rest.head?.elim [] (fun r2 => if r2.kind = .keep ∧ c.keep = false then [] else
      [{ unit := .book, addr := (c.window .price).base + 64 * r2.item, body := .read 64, purpose := .entryRead
         placedAt := s.micros }])
    let leaves := fun P : State → Prop =>
      ∃ t, exec .entryWriteComplete s = .next t ∧ t.book.queue = rest ∧ t.book.timed = s.book.timed ∧ t.mem = s.mem ∧ P t
    let reported := fun (c0 : Charter) (rep : Report) (t : State) =>
      t.link.own = s.link.own ++ s.reportRequests c0 rep ++ read ∧
        t.control = { s.control with repProducer := s.control.repProducer + 1 } ∧ t.intake = s.intake ∧ t.journal = s.journal
    let i := s.intake
    (acts = [] → s.ownFree 1 → leaves (fun t => s.SameUnits { t with book := s.book } ∧ t.control = s.control ∧
      t.link.own = s.link.own ++ read ∧ (rest = [] → t.book.headPhase = .notBegun) ∧
      (read ≠ [] → t.book.headPhase = .reading))) ∧
    (∀ c0 rep, acts = [.report rep] → s.charter = some c0 → s.reportRoom c0 → s.ownFree 3 →
      leaves (fun t => reported c0 rep t ∧ t.sweep = s.sweep)) ∧
    (∀ clamped full, acts = [.staged .control clamped full] → leaves (fun t => s.SameUnits { t with book := s.book } ∧
      t.control = { s.control with record := s.control.record.map (fun x =>
        { x with result := some (if full = true then .refusedFull else .done), clamped }) })) ∧
    (∀ c0 block n clamped full, acts = [.staged (.intake block n) clamped full] → s.charter = some c0 → s.noneWaits →
      i.state = .applying →
      let counted := i.heard block n clamped full
      let accepted := (i.producer - i.consumer).toNat
      let last := ∃ b, i.block = some b ∧ min 15 (byteAt b 6) ≤ i.next ∧ accepted ≤ i.applyBlock + 1
      (i.block = none ∨ (last ∧ 1 < i.awaiting) → leaves (fun t => t.intake = counted ∧ t.control = s.control)) ∧
      (last → i.awaiting = 1 → s.reportRoom c0 → s.ownFree 4 → leaves (fun t =>
        t.intake = { counted with state := .idle, consumer := i.producer, block := none } ∧
        t.link.own = s.link.own ++ [{ unit := .intake, addr := (c0.window .intake).base
                                      body := .indexWords none (some i.producer), purpose := .silent, placedAt := s.micros }] ++
          s.reportRequests c0 (.batchDone i.batch i.urgent accepted counted.applied i.skipped counted.clamped counted.listFull
            counted.firstSkip) ++ read))) ∧
    (∀ v item, s.sweep.visit = some v →
      let aged := fun (z : Nat) (x : LateRecord) => s.sweep.zones.setIfInBounds z { s.zoneRec z with
        late := x :: ((s.zoneRec z).late.filter (fun y => y.item != x.item)).take 31 }
      let joined := fun z : Nat => s.sweep.queues.setIfInBounds z (s.zoneQueue z ++ [item])
      let goesOn := fun left : Visit => left.cancelled = true → left.table ≠ [] ∨ left.taken ≠ []
      let ends := fun (left : Visit) (sweep : SweepUnit) (control : ControlState) =>
        left.cancelled = true → left.table = [] → left.taken = [] → s.noneWaits →
        ∃ t, exec .entryWriteComplete s = .next t ∧ t.book.timed = s.book.timed ∧ t.mem = s.mem ∧ t.control = control ∧
          t.journal = s.journal ∧
          let comesTo := fun state : SweepState => t.book.queue = rest ∧ t.sweep = { sweep with visit := none, state }
          (s.control.part = .loading → comesTo .stopped) ∧
          (s.control.part ≠ .loading → s.sweep.manual = true → comesTo .manualWait) ∧
          (s.control.part ≠ .loading → s.sweep.manual = false → s.phase.warning = true → comesTo .idle) ∧
          (∀ c0, s.charter = some c0 → s.control.part ≠ .loading → s.sweep.manual = false → s.phase.warning = false →
            State.selects { s with
              book := { s.book with queue := rest }, sweep := { sweep with visit := none, state := .idle } } t c0)
      let answered := fun (left : Visit) (sweep : SweepUnit) =>
        (goesOn left → leaves (fun t => t.control = s.control ∧ t.sweep = { sweep with visit := some left })) ∧
          ends left sweep s.control
      (acts = [.close item] → answered (v.without item) s.sweep) ∧
      (∀ z x, acts = [.close item, .late z x] → answered (v.without item) { s.sweep with zones := aged z x }) ∧
      (∀ z, acts = [.close item, .join item z] → s.sweep.state ≠ .idle →
        answered (v.without item) { s.sweep with queues := joined z }) ∧
      (∀ z x, acts = [.close item, .join item z, .late z x] → s.sweep.state ≠ .idle →
        answered (v.without item) { s.sweep with queues := joined z, zones := aged z x }) ∧
      (∀ c0 rep, acts = [.close item, .report rep] → s.charter = some c0 → s.reportRoom c0 → s.ownFree 3 →
        (goesOn (v.without item) →
          leaves (fun t => reported c0 rep t ∧ t.sweep = { s.sweep with visit := some (v.without item) })) ∧
        ends (v.without item) s.sweep { s.control with repProducer := s.control.repProducer + 1 }) ∧
      (acts = [.frame item none] → answered { v with taken := v.taken.filter (fun x => x.item != item) } s.sweep) ∧
      (∀ f, acts = [.frame item (some f)] →
        let sent := fun status : OutStatus => { s.sweep with visit := some { v with
          taken := v.taken.filter (fun x => x.item != item), frames := v.frames ++ [f]
          table := v.table ++ [⟨item, f.address, f.gen, status⟩] } }
        (v.cancelled = false → leaves (fun t => t.control = s.control ∧ t.sweep = sent .opened)) ∧
        (v.cancelled = true → s.entryFree 0 → ∃ t, exec .entryWriteComplete s = .next t ∧
          t.book.queue = rest ++ [{ item, kind := .labelReturn }] ∧ t.book.timed = s.book.timed ∧ t.control = s.control ∧
          t.sweep = sent .closing ∧ t.mem = s.mem))) ∧
    (∀ last, acts = [.resynced last] → leaves (fun t => t.sweep = s.sweep ∧ t.control = if last = true then
        { s.control with record := s.control.record.map (fun x => { x with result := some .done, clamped := false }) }
      else s.control)) ∧
    (∀ l, acts = [.kept] → s.control.load = some l → leaves (fun t => t.sweep = s.sweep ∧ t.control = { s.control with
      load := some { l with
        performed := l.performed + 1
        stage := if l.stage = .walking ∧ s.book.cursor ≤ l.performed + 1 ∧ c.itemCount ≤ l.performed + 1 then .walked
          else l.stage } }))

/-- O45. An entry within its ranges, as R199 takes it, is written in 64 bytes with a valid check byte, and reads back as it
was: no bit of section 11.4's layout is dropped (R1, R5, R199). -/
def Obligations.EntryReadsBackAsWritten : Prop :=
  ∀ (e : Entry) (limit : Nat),
    e.zone ≤ 11 → e.pZone ≤ 11 → e.base < 2 ^ 32 → e.pBase < 2 ^ 32 → e.floor < 2 ^ 32 → e.pFloor < 2 ^ 32 →
    e.markdown < 2 ^ 16 → e.pMarkdown < 2 ^ 16 → e.address < 2 ^ 24 → e.pAddress < 2 ^ 24 → e.charge < 2 ^ 32 →
    e.previous < 2 ^ 32 → e.target < 2 ^ 32 → e.sentPrice < 2 ^ 32 → e.shown < 2 ^ 32 → e.retry ≤ 7 → e.retry ≤ limit →
    (e.label = .noLabel ↔ e.address = 0) → (e.pending = true → e.eff ≠ .unset) →
    e.bytes.length = 64 ∧ entryCheckOk e.bytes = true ∧ Entry.take limit e.bytes = e

/-- O46 (R23). No request leaves a label CONFIRMED below the live charge: whatever the kind of the request and the state it
is worked out in, an entry that keeps the law before it keeps it after. -/
def Obligations.ConfirmedLabelNeverBelowTheCharge : Prop :=
  ∀ (s : State) (c : Charter) (r : EntryReq) (e : Entry) (ok : Bool),
    (e.label = .confirmed → e.charge ≤ e.shown) →
    (perform s c r e ok).entry.label = .confirmed → (perform s c r e ok).entry.charge ≤ (perform s c r e ok).entry.shown

/-! ## Seconds, power and pacing -/

/-- O47. An advance of the second moves the monotonic count and the store clock by one, each with its wrap, and nothing else
in PASS; with a charter in force one own write of the status block follows, the status sequence one higher and the first-
refusal record empty; while ACTIVE the advance is handed on: to due processing, to the journal unit when some open block has
stood idle, and to an IDLE sweep that has an item or a sync to send, which makes a selection, counting the pass of the slot
table when it finds none (R13, R70 to R72, R135, R171, R181, R197). MODEL'S CHOICES: a sync falls due in the one second in which
its time since the last is the sync interval (log 36), and a visit shows TX_WAIT from its selection on (log 11). -/
def Obligations.SecondAdvanceMovesTheCounts : Prop :=
  ∀ s : State, s.inReset = false →
    let mono := s.phase.mono + 1
    let phase : PhaseState := { s.phase with mono, clock := (s.phase.clock + 1) % 86400 }
    let idle := fun (c : Charter) => ∃ n, n < c.tillCount ∧ (s.till n).block.count ≠ 0 ∧
      c.idleClose ≤ (mono - (s.till n).lastSecond).toNat
    let fallsDue := fun (c : Charter) => ∃ sl ∈ s.sweep.slots, sl.enabled = true ∧ sl.sync = true ∧
      ∃ l, (s.zoneRec sl.zone).lastSync = some l ∧ (mono - l).toNat = c.syncMinutes * 60
    let woken := fun (c : Charter) => s.sweep.state = .idle ∧ s.phase.warning = false ∧
      ((∃ z, z < 12 ∧ s.zoneQueue z ≠ []) ∨ fallsDue c)
    (s.charter = none → exec .secondAdvance s = .next { s with phase := phase }) ∧
    (∀ c, s.charter = some c → ∃ t, exec .secondAdvance s = .next t ∧ t.phase = phase ∧ t.control =
        { s.control with statusSeq := s.control.statusSeq + 1 } ∧ t.link.firstRefusal = none ∧ t.mem = s.mem ∧
      t.link.answers = s.link.answers ∧ t.link.stream = s.link.stream ∧
      (s.control.part ≠ .active ∨ ¬woken c → t.sweep = s.sweep ∧
        (s.ownFree 1 → ∃ q, t.link.own = s.link.own ++ [q] ∧ t.statusWrite c q)) ∧
      (s.control.part ≠ .active → t.book = s.book ∧ t.journal = s.journal) ∧
      (s.control.part = .active → t.book.dueTo = some mono ∧
        (idle c → JournalWork.idleClose ∉ s.journal.works →
          t.journal = { s.journal with works := s.journal.works ++ [.idleClose] }) ∧
        (¬idle c ∨ JournalWork.idleClose ∈ s.journal.works → t.journal = s.journal) ∧
        (woken c → s.noneWaits → State.selects { s with phase := phase } t c)))

/-- O48. Due processing does nothing outside ACTIVE or with no second handed to it (MODEL'S CHOICE, log 4). With a second it
walks the timed part up to the first key above it and places, in list order, a CHANGEOVER_DUE request for each item whose
mark is clear, once, and sets the mark; with the entry update queue full it comes to wait, its walk kept (R6, R13). -/
def Obligations.DueProcessingPlacesTheDueItems : Prop :=
  ∀ s : State, s.inReset = false →
    (s.control.part ≠ .active ∨ s.book.dueTo = none → exec .dueProcessing s = .next s) ∧
    (∀ m, s.control.part = .active → s.book.dueTo = some m →
      let due := (s.book.timed.takeWhile (fun x => decide (x.key.toNat ≤ m.toNat))).filter (fun x => !x.marked)
      (s.book.wait = [] → s.book.queue.length + due.length ≤ 64 →
        ∃ (t : State) (l : List Nat), exec .dueProcessing s = .next t ∧ t.book.dueTo = none ∧
          l.Sublist (due.map ListItem.item) ∧ l.Nodup ∧ (∀ x ∈ due, x.item ∈ l) ∧
          t.book.queue = s.book.queue ++ l.map (fun i => { item := i, kind := .changeoverDue }) ∧
          t.book.timed = s.book.timed.map (fun x => if x.item ∈ l then { x with marked := true } else x) ∧
          t.book.openGroup = s.book.openGroup ∧ t.mem = s.mem) ∧
      (64 ≤ s.book.queue.length → due ≠ [] →
        ∃ t, exec .dueProcessing s = .next t ∧ t.book.queue = s.book.queue ∧ t.book.timed = s.book.timed ∧
          t.book.dueTo = some m ∧ Source.due ∈ t.book.wait))

/-- O49. The filter's table: asserted samples count up to 4 and the warning stands, unasserted ones to 16 and it clears, and
a sample that breaks a run starts it again; a change under a charter in force is to be handed to the units. Handed as a
warning, it makes the power-fail closes due, cancels the visit in hand with a LABEL_RETURN request for each record still
OPEN or ANSWERED_FAULT, and writes POWER_WARNING; handed as a clearing, it opens a COMPLETE batch's gate, has an IDLE sweep
make a selection, and writes POWER_CLEAR (R55, R95, R96, R136, R183 to R185). A cancel takes the sweep out of BLANK or LISTEN, and the
guest floor is the phase's own again (R154). In PASS, and in the LOADING that follows reset, a change is not handed on (R184, R185).
MODEL'S CHOICES: with nothing to hand on the
two commands change nothing (log 4), a cancel keeps the current slot (log 34), and a visit shows TX_WAIT from its selection
on (log 11). -/
def Obligations.WarningFollowsTheFilter : Prop :=
  ∀ s : State, s.inReset = false →
    let p := s.phase
    (∀ b, s.filterInRange →
      let handed := fun w : Bool => if s.charter.isSome = true then p.handoffs ++ [w] else p.handoffs
      (p.warning = b → exec (.pfwSample b) s = .next { s with phase := { p with runCount := 0 } }) ∧
      (p.warning = false → b = true → exec (.pfwSample b) s = .next { s with phase :=
        if p.runCount + 1 = 4 then { p with warning := true, runCount := 0, handoffs := handed true }
        else { p with runCount := p.runCount + 1 } }) ∧
      (p.warning = true → b = false → exec (.pfwSample b) s = .next { s with phase :=
        if p.runCount + 1 = 16 then { p with warning := false, runCount := 0, handoffs := handed false }
        else { p with runCount := p.runCount + 1 } })) ∧
    (p.handoffs.head? ≠ some true → exec .warningStands s = .next s) ∧
    (p.handoffs.head? ≠ some false → exec .warningClears s = .next s) ∧
    (∀ c hs, s.charter = some c → p.handoffs = true :: hs → s.noneWaits → ∃ t, exec .warningStands s = .next t ∧
      t.phase = { p with handoffs := hs } ∧ JournalWork.powerClose ∈ t.journal.works ∧ t.mem = s.mem ∧
      (s.reportRoom c → s.ownFree 2 → t.control = { s.control with repProducer := s.control.repProducer + 1 }) ∧
      (s.reportFull c → t.control = { s.control with lost := min 65535 (s.control.lost + 1) }) ∧
      (s.sweep.visit = none → s.reportRoom c → s.ownFree 2 → t.sweep = s.sweep ∧ t.book = s.book ∧
        t.link.own = s.link.own ++ s.reportRequests c .powerWarning) ∧
      (∀ v, s.sweep.visit = some v → v.cancelled = false →
        let open_ := v.table.filter (fun r => r.status == .opened || r.status == .answeredFault)
        s.paced t c false false ∧
        (s.entryFree open_.length → (open_.map OutRecord.item).Nodup → p.warning = true ∨ v.table ≠ [] ∨ v.taken ≠ [] →
          t.book.queue = s.book.queue ++ open_.map (fun r => { item := r.item, kind := .labelReturn })) ∧
        (s.entryFree open_.length → v.table ≠ [] ∨ v.taken ≠ [] → t.sweep.visit = some { v with
          cancelled := true, table := v.table.map (fun r => { r with status := .closing }) }) ∧
        (v.table = [] → v.taken = [] → s.control.part ≠ .loading → p.warning = true → t.sweep.visit = none ∧
          t.sweep.state = (if s.sweep.manual = true then .manualWait else .idle) ∧ t.sweep.current = s.sweep.current))) ∧
    (∀ c hs, s.charter = some c → p.handoffs = false :: hs → s.noneWaits → ∃ t, exec .warningClears s = .next t ∧
      t.phase = { p with handoffs := hs } ∧ t.mem = s.mem ∧ t.journal = s.journal ∧
      (s.intake.state = .complete → s.control.part = .active → p.warning = false →
        s.intake.urgent = true ∨ p.phase = some .night ∨ p.phase = some .opening → t.intake.state = .applying) ∧
      (s.sweep.state = .idle → p.warning = false → s.selects t c) ∧
      (s.sweep.state ≠ .idle → s.intake.state ≠ .complete → s.reportRoom c → s.ownFree 2 →
        t.sweep = s.sweep ∧ t.book = s.book ∧ t.link.own = s.link.own ++ s.reportRequests c .powerClear))

/-- O50. A boundary of the pacing period: in PASS nothing changes; in OPENING and NIGHT the byte count becomes 0; in TRADING
and CLOSING the level first moves by the journal backlog and its triggers, then the count becomes 0, and held transactions
are released from the head, each that fits, into the stream in their order, up to the first that does not fit or finds the
stream full (R148, R149, R152, R153). -/
def Obligations.PacingPeriodAdjustsAndReleases : Prop :=
  ∀ s : State, s.inReset = false →
    (s.charter = none → exec .pacingPeriodBoundary s = .next s) ∧
    (∀ c, s.charter = some c → s.linkQuiet →
      let trades := s.phase.phase = some .trading ∨ s.phase.phase = some .closing
      let back := (s.journal.producer - s.journal.consumer).toNat
      let level := if c.highTrigger ≤ back then min 7 (s.guest.level + 1)
        else if back ≤ c.lowTrigger then max s.guest.floor (s.guest.level - 1) else s.guest.level
      let budget := c.budgets.getD (level - 1) 0
      let count := fun l : List Transaction => min 4294967295 ((l.map Transaction.len).sum)
      let fits := fun (l : List Transaction) (tx : Transaction) =>
        level = 0 ∨ count l + tx.len ≤ budget ∨ (count l = 0 ∧ budget < tx.len)
      (¬trades → exec .pacingPeriodBoundary s = .next { s with guest := { s.guest with periodBytes := 0 } }) ∧
      (trades → s.link.hold.length ≤ 8 → (∀ tx ∈ s.link.hold, tx.wordWritten s.charterBase ≠ some 1) →
        ∃ released kept, s.link.hold = released ++ kept ∧
          exec .pacingPeriodBoundary s = .next { s with
            link := { s.link with hold := kept, stream := s.link.stream ++ released.map (fun tx => { tx, role := .plain }) }
            guest := { s.guest with level := level, periodBytes := count released } } ∧
          (∀ a tx b, released = a ++ tx :: b → fits a tx ∧ s.link.stream.length + a.length < 16) ∧
          (∀ tx l, kept = tx :: l → ¬fits released tx ∨ 16 ≤ s.link.stream.length + released.length)))

/-! ## Work of the journal unit -/

/-- O51. The journal unit's due work, taken while no record is in hand and the unit waits for nothing (R104). The idle
closes take the open blocks that have stood idle and the power-fail closes take all, each in till order with its flag and
one block record (R133, R135, R136); the new-day work clears the day totals and the signed-on marks and sets every seed mark
(R107, R130); the request for NIGHT is answered BUSY while the hold list is not empty, and else the phase changes, with
every basket abandoned, every till CLOSED, every block closed with NIGHT, a TILL_DAY record for each till with its signed-on
mark, and the BRANCH_DAY record with the sums of all tills' totals: into the hold list when the ring is full, and else into
the ring, with the DAY_SUMMARY_READY report after them; and every held guest transaction is answered REFUSED, head first, a read
with zero data, counted, and reported PHASE with a GUARD_REFUSAL, which a full REPORT ring loses and counts (R139, R141 to R143,
R147, R155, R170, R172, R179, R195). MODEL'S CHOICES: work that is not
due does nothing (log 4), which works there are and how they become due (log 21), the sequence of a till whose expected
sequence is unknown is a free value (log 18), and the DAY_SUMMARY_READY report comes after the record's writes and before
the status block (log 19). -/
def Obligations.JournalWorksAreTaken : Prop :=
  ∀ (s : State) (c : Charter), s.inReset = false → s.charter = some c → s.linkQuiet → s.noneWaits →
    let works := s.journal.works
    let u := c.window .upload
    let filled := backlog s.journal.upProducer s.journal.upConsumer
    let closes := fun (i : Instr) (k : JournalWork) (due : Nat → Prop) (cause : BlockFlags) =>
      k ∈ works → ∀ l : List Nat, l.Sublist (List.range c.tillCount) → (∀ n, n < c.tillCount → (n ∈ l ↔ due n)) →
        s.journal.holdList ≠ [] ∨ u.slots ≤ filled ∨ s.ownFree (2 * l.length) →
        ∃ t, exec i s = .next t ∧ s.handsOn t c (l.map (fun n => s.blockRecord n cause)) ∧
          t.journal.works = works.erase k ∧
          (∀ n, t.till n = if n ∈ l then { s.till n with block := {} } else s.till n) ∧
          t.journal.producer = s.journal.producer ∧ t.link.stream = s.link.stream ∧ t.book = s.book ∧
          t.intake = s.intake ∧ t.sweep = s.sweep ∧ t.guest = s.guest ∧ t.phase = s.phase ∧ t.control = s.control ∧
          t.mem = s.mem
    let night := fun n : Nat => if (s.till n).state = .basket then
        { (s.till n).totals with abandoned := min 16777215 ((s.till n).totals.abandoned + 1) } else (s.till n).totals
    let tills := List.range c.tillCount
    let blocks := (tills.filter (fun n => (s.till n).block.count != 0)).map (fun n => s.blockRecord n { night := true })
    let signed := tills.filter (fun n => (s.till n).signedOn)
    let day := s.phase.day
    let clock := s.phase.clock
    let flushed := s.link.hold.map (fun tx => Report.guardRefusal
      { tag := tx.tag, cls := c.classOf tx.tag, dir := tx.dir, addr := tx.addr, len := tx.len, source := .pacer, reason := .phase })
    closes .idleClose .idleClose (fun n => (s.till n).block.count ≠ 0 ∧
      c.idleClose ≤ (s.phase.mono - (s.till n).lastSecond).toNat) { idle := true } ∧
    closes .powerClose .powerClose (fun n => (s.till n).block.count ≠ 0) { power := true } ∧
    (JournalWork.newDay ∈ works → ∃ t, exec .newDayWork s = .next t ∧
      (∀ n, n < 48 → t.till n = { s.till n with
        totals := {}, signedOn := false, seedMark := true
        acc := if (s.till n).block.count = 0 then 0xFFFFFFFF else (s.till n).acc }) ∧
      t = { s with journal := { s.journal with works := works.erase .newDay, tills := t.journal.tills } }) ∧
    (JournalWork.nightEntry ∈ works → s.journal.holdList ≠ [] → exec .nightEntry s = .next { s with
      journal := { s.journal with works := works.erase .nightEntry }
      control := { s.control with
        record := s.control.record.map (fun r => { r with result := some .refusedBusy, clamped := false }) } }) ∧
    (JournalWork.nightEntry ∈ works → s.journal.holdList = [] → c.tillCount ≤ 48 →
      u.slots ≤ filled ∨ s.ownFree (2 * (blocks.length + signed.length) + 4) →
      ∃ (t : State) (seq : Nat → Word16) (totals : DayTotals), exec .nightEntry s = .next t ∧
        t.phase = { s.phase with phase := some .night } ∧ t.guest.level = 7 ∧ t.link.hold = [] ∧
        t.link.answers = s.link.answers ++ s.link.hold.map (fun tx =>
          ⟨tx.tag, true, if tx.dir = .read then List.replicate tx.len 0 else []⟩) ∧
        (s.link.refusals ≤ 65535 → t.link.refusals = min 65535 (s.link.refusals + s.link.hold.length)) ∧
        t.control.record = s.control.record.map (fun r => { r with result := some .done, clamped := false }) ∧
        t.control.statusSeq = s.control.statusSeq + 1 ∧ t.mem = s.mem ∧
        (∀ n, n < c.tillCount → (t.till n).state = .closed ∧ (t.till n).block.count = 0 ∧ (t.till n).totals = night n ∧
          (t.till n).expected = (s.till n).expected ∧ (t.till n).acc = (s.till n).acc ∧
          (t.till n).signedOn = (s.till n).signedOn) ∧
        (s.intake.state = .complete → s.control.part = .active → s.phase.warning = false → t.intake.state = .applying) ∧
        (∀ n, (s.till n).expected = some (seq n) ∨ (s.till n).expected = none) ∧
        (∀ f, f = DayTotals.sales ∨ f = DayTotals.refunds →
          f totals = min 140737488355327 (tills.map (fun n => f (night n))).sum) ∧
        (∀ f, f = DayTotals.baskets ∨ f = DayTotals.refundCount ∨ f = DayTotals.cancelled ∨ f = DayTotals.abandoned ∨
            f = DayTotals.voids ∨ f = DayTotals.noSales ∨ f = DayTotals.mismatches ∨ f = DayTotals.outOfState ∨
            f = DayTotals.lineFaults ∨ f = DayTotals.gaps ∨ f = DayTotals.duplicates →
          f totals = min 16777215 (tills.map (fun n => f (night n))).sum) ∧
        let days := signed.map (fun n =>
          UploadRecord.tillDay n day clock (~~~(s.till n).acc) (seq n) (s.till n).expected.isSome (night n))
        let records := blocks ++ days ++ [.branchDay signed.length day clock totals]
        (u.slots ≤ filled → t.journal.holdList = records ∧ t.journal.upProducer = s.journal.upProducer ∧
          (s.reportFull c → s.control.lost ≤ 65535 →
            t.control.lost = min 65535 (s.control.lost + 1 + s.link.hold.length))) ∧
        (filled + records.length ≤ u.slots → s.accepting = false →
          (s.control.repProducer - s.control.repConsumer).toNat + flushed.length + 2 ≤ (c.window .report).slots →
          s.intake.state ≠ .complete → s.ownFree (2 * records.length + 2 * flushed.length + 5) →
          t.journal.holdList = [] ∧ t.journal.upProducer = s.journal.upProducer + BitVec.ofNat 32 records.length ∧
            t.control.repProducer = s.control.repProducer + BitVec.ofNat 32 (flushed.length + 2) ∧
            ∃ q, t.statusWrite c q ∧
            t.link.own = s.link.own ++ s.reportRequests c (.phaseChanged s.phase.phase (some .night) day clock) ++
              s.uploadRequests c s.journal.upProducer records ++
              s.reportSeries c (s.control.repProducer + 1)
                (.daySummaryReady day (s.journal.upProducer + BitVec.ofNat 32 records.length) :: flushed) ++ [q])) ∧
    (JournalWork.idleClose ∉ works → exec .idleClose s = .next s) ∧
    (JournalWork.powerClose ∉ works → exec .powerClose s = .next s) ∧
    (JournalWork.newDay ∉ works → exec .newDayWork s = .next s) ∧
    (JournalWork.nightEntry ∉ works → exec .nightEntry s = .next s)

/-- O52. The record in hand is in memory: the producer count and its index word move, its write leaves its accept queue, the
TILL master gets its completion and the record leaves hand, with the report it calls for, and then the block close it calls
for (R99, R103, R134, R159). -/
def Obligations.ForwardedRecordLeavesHand : Prop :=
  ∀ (s : State) (c : Charter) (h : JournalHand) (before after : List Issued) (x : StreamItem) (d : List Byte),
    s.inReset = false → s.charter = some c → s.journal.hand = some h →
    s.link.issued = before ++ .pass x d :: after → x.role = .journalRecord →
    (∀ y e, Issued.pass y e ∈ before → y.role ≠ .journalRecord) →
    s.link.waiting = [] → s.link.passQueue = [] → (s.queueOf h.queue.index).length = 1 →
    (∀ k, k ≠ h.queue.index → s.queueOf k = []) → s.journal.works = [] →
    let n := s.journal.producer + 1
    let index : OwnRequest :=
      { unit := .journal, addr := (c.window .journal).base, body := .indexWords (some n) none, purpose := .silent
        placedAt := s.micros }
    let answers := s.link.answers ++ [⟨h.tx.tag, false, []⟩]
    (s.ownFree 1 → h.report = none → h.closes.anyCause = false → exec .journalRecordForwarded s = .next { s with
      link := { s.link with
        issued := before ++ after, own := s.link.own ++ [index], answers := answers, accept := Vector.replicate 7 [] }
      journal := { s.journal with producer := n, hand := none } }) ∧
    (∀ r, s.ownFree 3 → s.reportRoom c → h.report = some r → h.closes.anyCause = false →
      ∃ t, exec .journalRecordForwarded s = .next t ∧ t.link.answers = answers ∧
        t.link.accept = Vector.replicate 7 [] ∧
        t.link.own = s.link.own ++ index :: s.reportRequests c r ∧
        t.journal = { s.journal with producer := n, hand := none } ∧
        t.control = { s.control with repProducer := s.control.repProducer + 1 } ∧ t.mem = s.mem) ∧
    (s.ownFree 3 → h.report = none → h.closes.anyCause = true → journalTill h.tx.data < 48 →
      (s.till (journalTill h.tx.data)).block.count ≠ 0 → s.journal.holdList = [] →
      backlog s.journal.upProducer s.journal.upConsumer < (c.window .upload).slots →
      ∃ t, exec .journalRecordForwarded s = .next t ∧ t.link.answers = answers ∧
        t.link.accept = Vector.replicate 7 [] ∧
        t.link.own = s.link.own ++ index ::
          s.uploadRequests c s.journal.upProducer [s.blockRecord (journalTill h.tx.data) h.closes] ∧
        t.journal.producer = n ∧ t.journal.hand = none ∧ t.journal.upProducer = s.journal.upProducer + 1 ∧
        (∀ m, t.till m = if m = journalTill h.tx.data then { s.till m with block := {} } else s.till m) ∧ t.mem = s.mem)

/-- O53. TILL_RESET: BAD_RECORD for a till at or above the till count and REFUSED_BUSY while LOADING, with nothing changed;
else, the unit being free, an open basket is abandoned, the open block is closed with RESET, the till is CLOSED with its
expected sequence unknown, its other day totals, signed-on mark, accumulator and seed mark are kept, and the result is DONE
(R126, R136, R193). -/
def Obligations.TillResetClosesTheTill : Prop :=
  ∀ (s : State) (c : Charter) (d : List Byte), s.RecordRead c 5 d → s.linkQuiet → s.noneWaits →
    s.journal.works = [] →
    let n := byteAt d 4
    let x := s.till n
    (s.control.part = .loading →
      ∃ t, exec .tillReset s = .next t ∧ t.answersRecord d .refusedBusy false ∧ s.SameUnits t) ∧
    (s.control.part ≠ .loading → c.tillCount ≤ n →
      ∃ t, exec .tillReset s = .next t ∧ t.answersRecord d .badRecord false ∧ s.SameUnits t) ∧
    (s.control.part ≠ .loading → n < c.tillCount → n < 48 →
      x.block.count = 0 ∨ s.journal.holdList ≠ [] ∨
        (c.window .upload).slots ≤ backlog s.journal.upProducer s.journal.upConsumer ∨ s.ownFree 2 →
      ∃ t, exec .tillReset s = .next t ∧ t.answersRecord d .done false ∧
        s.handsOn t c (if x.block.count = 0 then [] else [s.blockRecord n { reset := true }]) ∧
        (t.till n).state = .closed ∧ (t.till n).expected = none ∧ (t.till n).block.count = 0 ∧
        (t.till n).signedOn = x.signedOn ∧ (t.till n).acc = x.acc ∧ (t.till n).seedMark = x.seedMark ∧
        (t.till n).totals =
          (if x.state = .basket then { x.totals with abandoned := min 16777215 (x.totals.abandoned + 1) } else x.totals) ∧
        (x.state = .basket → (t.till n).basket = 0 ∧ (t.till n).lines = 0 ∧ (t.till n).lineList = []) ∧
        (∀ m, m ≠ n → t.till m = s.till m) ∧ t.journal.works = [] ∧ t.journal.producer = s.journal.producer ∧
        t.book = s.book ∧ t.intake = s.intake ∧ t.sweep = s.sweep ∧ t.guest = s.guest ∧ t.phase = s.phase ∧ t.mem = s.mem)

/-! ## Visits of the sweep -/

/-- O54. How a visit comes on the air. The RESCAN walk offers item after item from the cursor on, cyclically, until it comes
back to its start point, when RESCAN is cleared, or waits for room; paused or not begun it does nothing (R67). With every
taken item answered the frames are published, one own write each at the slots from the producer count on, with one index
write after them; a visit without a frame ends, and in AUTO a selection follows (R71, R76, R91). When that index write completes the visit starts: its base time,
blank and settle are fixed, and it is in BLANK, a SYNC visit setting its zone's last sync second (R76, R78, R91). With it the guest
floor takes the sweep floor in, and in TRADING and CLOSING the level rises to it at once (R154). MODEL'S CHOICES: a command whose event is not there changes nothing (log 4); a visit shows TX_WAIT from its selection on (log
11); the RESCAN walk goes on while another task of the sweep controller waits (log 7); frames of records that have left the table
are published too (log 41); and a selection after slot 15 counts no pass for that (log 47). -/
def Obligations.VisitIsPublishedAndStarts : Prop :=
  ∀ s : State, s.inReset = false →
    ((∀ w, s.sweep.scan = some w → w.paused = true) → exec .rescanWalk s = .next s) ∧
    (∀ w, s.sweep.scan = some w → w.paused = false → 0 < s.itemCount → s.book.wait = [] →
      let next := fun i => if s.itemCount ≤ i + 1 then 0 else i + 1
      let at_ := fun a => Nat.repeat next a s.sweep.scanCursor
      ∃ (t : State) (k : Nat), exec .rescanWalk s = .next t ∧ k ≤ 64 - s.book.queue.length ∧
        t.book.queue = s.book.queue ++ (List.range k).map (fun a => { item := at_ a, kind := .queueJoin }) ∧
        t.sweep.scanCursor = at_ k ∧ (∀ a, 0 < a → a < k → at_ a ≠ w.start) ∧ t.mem = s.mem ∧
        if 0 < k ∧ at_ k = w.start then t.sweep.scan = none ∧ t.sweep.rescan = false
        else t.sweep.scan = some w ∧ t.sweep.rescan = s.sweep.rescan ∧ k = 64 - s.book.queue.length ∧
          Source.sweep ∈ t.book.wait) ∧
    (∀ c v, s.charter = some c → s.sweep.visit = some v → v.stage = .building → v.cancelled = false →
      let w := c.window .labelTx
      let frames := if v.kind = .sync then
          [[3, BitVec.ofNat 8 v.zone, 0, 0] ++ toLe 3 (0xFFFF00 + v.zone) ++ [0] ++ toLe 4 0 ++ toLe 4 s.phase.clock ++
            List.replicate 16 0]
        else v.frames.map (fun f => [if f.withdrawn = true then 2 else 1, BitVec.ofNat 8 v.zone, f.gen, 0] ++ toLe 3 f.address ++
          [0] ++ toLe 4 f.price ++ List.replicate 20 0)
      let n := s.sweep.txProducer + BitVec.ofNat 32 frames.length
      let write := fun (k : Nat) (b : List Byte) =>
        ({ unit := .sweep, addr := w.base + 64 + (s.sweep.txProducer + BitVec.ofNat 32 k).toNat % w.slots * 32
           body := .write b, purpose := .silent, placedAt := s.micros } : OwnRequest)
      (v.taken ≠ [] → exec .framePublish s = .next s) ∧
      (v.taken = [] → frames ≠ [] → s.ownFree (frames.length + 1) → exec .framePublish s = .next { s with
        link := { s.link with own := s.link.own ++ frames.mapIdx write ++
          [{ unit := .sweep, addr := w.base, body := .indexWords (some n) none, purpose := .labelTxIndex n
             placedAt := s.micros }] }
        sweep := { s.sweep with txProducer := n, visit := some { v with stage := .publishing } } }) ∧
      (v.taken = [] → frames = [] → s.noneWaits → ∃ t, exec .framePublish s = .next t ∧ t.sweep.history = s.sweep.history ∧
        t.link.own.length ≤ s.link.own.length + 1 ∧ t.mem = s.mem ∧
        (s.sweep.manual = true → t.sweep.visit = none ∧ t.sweep.state = .manualWait ∧ t.sweep.zones = s.sweep.zones) ∧
        (s.sweep.manual = false → s.phase.warning = false → s.selects t c))) ∧
    (∀ v q n before after, s.sweep.visit = some v → v.stage = .publishing → v.cancelled = false →
      s.link.issued = before ++ .own q [] :: after → q.purpose = .labelTxIndex n → q.body = .indexWords (some n) none →
      (∀ y e m, Issued.own y e ∈ before → y.purpose ≠ .labelTxIndex m) → s.sweep.txProducer = n → s.noneWaits →
      let v1 : Visit := { v with
        stage := .onAir, start := s.micros, base := s.sweep.base, blank := s.sweep.blank, settle := s.sweep.settle }
      let after1 := { s.link with issued := before ++ after }
      (0 < s.sweep.blank → ∃ t, exec .visitStart s = .next t ∧ t.link = after1 ∧ t.sweep = { s.sweep with
          state := .blank, visit := some v1
          zones := if v.kind = .sync then
              s.sweep.zones.setIfInBounds v.zone { s.zoneRec v.zone with lastSync := some s.phase.mono }
            else s.sweep.zones } ∧ t.book = s.book ∧ t.mem = s.mem ∧ (∀ c, s.charter = some c → s.paced t c true true)) ∧
      (s.sweep.blank = 0 → v.kind ≠ .sync → (∃ r ∈ v.table, r.status = .opened) →
        ∃ t, exec .visitStart s = .next t ∧ t.link = after1 ∧ t.sweep = { s.sweep with state := .listen, visit := some v1 } ∧
          t.book = s.book ∧ t.mem = s.mem ∧ (∀ c, s.charter = some c → s.paced t c true true)) ∧
      (s.sweep.blank = 0 → v.kind = .sync → ∃ t, exec .visitStart s = .next t ∧ t.link = after1 ∧
        t.sweep.state = .settle ∧ t.sweep.visit = some { v1 with ending := .settling } ∧
        (v.zone < 12 → (t.zoneRec v.zone).lastSync = some s.phase.mono) ∧ t.book = s.book ∧ t.mem = s.mem ∧
        (∀ c, s.charter = some c → s.paced t c true false)))

/-- O55. How a visit ends. BLANK gives way to LISTEN, for a SYNC visit to SETTLE (R78, R91); a base time that runs out on
OPEN records forces the end: the zone's late list is aged by one and every record not yet CLOSING has a LABEL_UNANSWERED
request (R81, R89); the settle interval runs (R80); and the visit closes once it has ended and its table is empty: a PRICE
visit records its duration, the history keeps the 8 newest, and base time, blank and settle are computed anew (R79 to R81,
R83 to R85); a forced PRICE visit without a match counts for its zone, which the fourth in a row makes DARK, with its
ZONE_DARK report (R70). MANUAL then waits, AUTO selects from the slot after it, past slot 15 with a pass counted in every
DARK zone (R70, R71, R80). The guest floor takes the sweep floor in while the sweep is in LISTEN, and is the phase's own again when
the visit leaves BLANK and LISTEN (R154). MODEL'S CHOICES: a selection that begins at slot 1 because the current slot is 15 counts no pass for that
(log 47); the end of an interval brings the time at
which it has run (log 32); a forced end and an end without a match show SETTLE, and a visit TX_WAIT from its selection on
(log 11); a command whose event is not there changes nothing (log 4). -/
def Obligations.VisitEndsAndTeachesTheBase : Prop :=
  ∀ (s : State) (c : Charter) (v : Visit), s.inReset = false → s.charter = some c → s.sweep.visit = some v →
    v.cancelled = false → s.noneWaits →
    let opened := ∃ r ∈ v.table, r.status = .opened
    let reached := fun n : Nat => max s.micros (v.start + 100 * n)
    let aged := fun z : ZoneRecord => ((z.late.map (fun r => { r with age := r.age + 1 })).filter (fun r => r.age < 4))
    (s.sweep.state ≠ .blank → exec .blankEnd s = .next s) ∧
    (s.sweep.state = .blank → v.kind ≠ .sync → opened → ∃ t, exec .blankEnd s = .next t ∧
      t.sweep = { s.sweep with state := .listen } ∧ s.paced t c true true ∧ t.micros = reached v.blank ∧ t.book = s.book ∧ t.mem = s.mem) ∧
    (s.sweep.state = .blank → v.kind ≠ .sync → ¬opened → v.isMatched = false → v.zone < 12 →
      ∃ t, exec .blankEnd s = .next t ∧ t.sweep.state = .settle ∧ t.sweep.visit = some { v with ending := .silent } ∧
        (t.zoneRec v.zone).late = aged (s.zoneRec v.zone) ∧ s.paced t c true false ∧ t.book = s.book ∧ t.mem = s.mem) ∧
    (s.sweep.state = .blank → v.kind = .sync → ∃ t, exec .blankEnd s = .next t ∧
      t.sweep = { s.sweep with state := .settle, visit := some { v with ending := .settling } } ∧
      s.paced t c false false ∧ t.micros = reached v.blank ∧ t.book = s.book ∧ t.mem = s.mem) ∧
    (s.sweep.state ≠ .listen ∨ ¬opened → exec .forcedEnd s = .next s) ∧
    (s.sweep.state = .listen → opened → v.zone < 12 →
      let closing := v.table.filter (fun r => r.status == .opened || r.status == .answeredFault)
      s.entryFree closing.length → (closing.map OutRecord.item).Nodup → ∃ t, exec .forcedEnd s = .next t ∧ t.sweep.state = .settle ∧
        s.paced t c false false ∧ t.micros = reached v.base ∧ (t.zoneRec v.zone).late = aged (s.zoneRec v.zone) ∧
        t.sweep.visit = some { v with ending := .forced, table := v.table.map (fun r => { r with status := .closing }) } ∧
        t.book.queue = s.book.queue ++ closing.map (fun r => { item := r.item, kind := .labelUnanswered }) ∧ t.mem = s.mem) ∧
    (v.ending ≠ .settling → exec .settleEnd s = .next s) ∧
    (v.ending = .settling → exec .settleEnd s = .next { s with sweep := { s.sweep with
      visit := some { v with ending := .settled } } }) ∧
    (v.table ≠ [] ∨ v.stage ≠ .onAir ∨ v.ending = .running ∨ v.ending = .settling → exec .visitClose s = .next s) ∧
    (v.table = [] → v.stage = .onAir → v.ending = .settled ∨ v.ending = .forced ∨ v.ending = .silent →
      let duration := if v.kind ≠ .price ∨ v.ending = .silent then []
        else if v.ending = .settled then [v.lastAck]
        else if v.isMatched = true then [v.base] else [v.base + v.base / 4]
      let history := if duration = [] then s.sweep.history else (duration ++ s.sweep.history).take 8
      let mean := if history.length < c.averaging then c.baseInitial else (history.take c.averaging).sum / c.averaging
      let base := if duration = [] then s.sweep.base else min (max mean c.baseMin) c.baseMax
      let unheard := v.kind = .price ∧ v.ending = .forced ∧ v.isMatched = false
      let z := s.zoneRec v.zone
      let counted := if 3 ≤ z.emptyForced ∧ z.dark = false then { z with emptyForced := 4, dark := true, probeCycle := 0 }
        else { z with emptyForced := min 4 (z.emptyForced + 1) }
      ∃ t, exec .visitClose s = .next t ∧ t.sweep.history = history ∧ t.sweep.base = base ∧ t.mem = s.mem ∧
        (duration ≠ [] → t.sweep.blank = base * c.blankFraction / 128 ∧ t.sweep.settle = base * c.settleFraction / 128) ∧
        (s.sweep.manual = true → t.sweep.visit = none ∧ t.sweep.state = .manualWait ∧ t.sweep.current = s.sweep.current ∧
          t.book = s.book ∧ (unheard → 3 ≤ z.emptyForced → z.dark = false → s.reportsNow t c (.zoneDark v.zone)) ∧
          (v.zone < 12 → t.zoneRec v.zone = if unheard then counted else z)) ∧
        (s.sweep.manual = false → s.phase.warning = false → ¬unheard → s.selects t c) ∧
        (s.sweep.manual = false → s.phase.warning = false → unheard →
          State.selects { s with sweep := { s.sweep with zones := s.sweep.zones.setIfInBounds v.zone counted } } t c))

/-! ## Batches -/

/-- O56. A block is accepted when its upper half's write completes: it continues the batch in hand, starts one, or
supersedes one, with the counts, the batch record and the index write that follow, and END with an open gate begins the
apply; a superseded batch is reported (R43, R46, R49 to R52, R55). A start that frees slots and a superseding block place two
index writes, each of both words (R198). MODEL'S CHOICES: the two index writes carry both new values (log 40); a block is judged by
the batch and the next slot as they stand at the completion of its upper half, one that no longer follows there is only completed,
and so is one forwarded before an accepted load (log 38). The block read
back is taken record by record: one that fails a test is skipped with its reason, the others are placed as STAGE requests in
record order, and the first that fails in the batch is the first skip (R57 to R59); after the last block with nothing awaited
the apply ends (R60). BATCH_DISCARD frees a COMPLETE or
BROKEN batch (R61). -/
def Obligations.BatchIsAcceptedAppliedDiscarded : Prop :=
  ∀ (s : State) (c : Charter), s.inReset = false → s.charter = some c →
    let i := s.intake
    let w := c.window .intake
    let gate := fun urgent : Bool => s.control.part = .active ∧ s.phase.warning = false ∧
      (urgent = true ∨ s.phase.phase = some .night ∨ s.phase.phase = some .opening)
    (∀ x d before after hs, s.link.issued = before ++ .pass x d :: after → x.role = .intakeUpper →
      (∀ y e, Issued.pass y e ∈ before → y.role ≠ .intakeUpper) → i.accepting = none :: hs → s.noneWaits →
      exec .blockAccepted s = .next { s with
        link := { s.link with issued := before ++ after, answers := s.link.answers ++ [⟨x.tx.tag, false, []⟩] }
        intake := { i with accepting := hs } }) ∧
    (∀ x d before after h hs, s.link.issued = before ++ .pass x d :: after → x.role = .intakeUpper →
      (∀ y e, Issued.pass y e ∈ before → y.role ≠ .intakeUpper) → i.accepting = some h :: hs → s.ownFree 4 →
      let answers := s.link.answers ++ [⟨x.tx.tag, false, []⟩]
      let producer := i.producer + 1
      let accepted := (i.producer - i.consumer).toNat
      let continues := i.state = .receiving ∧ h.header.batch = i.batch ∧ h.header.block = accepted
      let starts := h.header.block = 0 ∧ (i.state = .idle ∨ i.state = .broken)
      let supersedes := h.header.block = 0 ∧ i.state = .receiving ∧ h.header.batch ≠ i.batch
      let follows := h.slot = i.producer.toNat % w.slots ∧ (continues ∨ starts ∨ supersedes)
      let urgent := if continues then i.urgent else h.header.urgent
      (¬follows → exec .blockAccepted s = .next { s with
        link := { s.link with issued := before ++ after, answers := answers }, intake := { i with accepting := hs } }) ∧
      (follows → ∃ t, exec .blockAccepted s = .next t ∧ t.link.answers = answers ∧ t.intake.accepting = hs ∧
        t.intake.producer = producer ∧ t.intake.urgent = urgent ∧ t.intake.brokenReason = i.brokenReason ∧
        t.mem = s.mem ∧ t.book = s.book ∧
        (h.header.ends = false → t.intake.state = .receiving) ∧
        (h.header.ends = true → ¬gate urgent → t.intake.state = .complete) ∧
        (h.header.ends = true → gate urgent → t.intake.state = .applying ∧ t.intake.applied = 0 ∧ t.intake.skipped = 0 ∧
          t.intake.clamped = 0 ∧ t.intake.listFull = 0 ∧ t.intake.firstSkip = none ∧ t.intake.applyBlock = 0 ∧
          t.intake.handedOn = 0) ∧
        (continues → t.intake.consumer = i.consumer ∧ t.intake.batch = i.batch) ∧
        (¬continues → t.intake.consumer = i.producer ∧ t.intake.batch = h.header.batch) ∧
        (¬supersedes → t.control = s.control) ∧
        let index := fun consumer : Option Word32 => ({ unit := .intake, addr := w.base, placedAt := s.micros
                                                        body := .indexWords (some producer) consumer
                                                        purpose := .silent } : OwnRequest)
        let both := index (some i.producer)
        ∃ more, t.link.own = s.link.own ++ more ∧
          (continues ∨ (starts ∧ i.consumer = i.producer) → more.head? = some (index none)) ∧
          (starts ∧ i.consumer ≠ i.producer → more.take 2 = [both, both]) ∧
          (supersedes → s.reportRoom c →
            more.take 4 = s.reportRequests c (.superseded i.batch accepted h.header.batch) ++ [both, both]))) ∧
    (∀ b u, s.takeBlockReads = some (b, u) → i.state = .applying → s.entryFree 15 →
      let judged := (List.range (min 15 (byteAt b 6))).map
        (fun r => judgeRecord c.itemCount i.applyBlock r (intakeRecord b r))
      let good := judged.filterMap (fun x => match x with | .ok q => some q | .error _ => none)
      let bad := judged.length - good.length
      let skips := (judged.zipIdx).filterMap (fun x => match x.1 with
        | .ok _ => none
        | .error why => some (⟨i.applyBlock, x.2, why⟩ : FirstSkip))
      let last := (i.producer - i.consumer).toNat ≤ i.applyBlock + 1
      ∃ t, exec .intakeBlockRead s = .next t ∧ t.book.queue = s.book.queue ++ good ∧ t.intake.skipped = i.skipped + bad ∧
        t.intake.handedOn = i.handedOn + bad ∧ t.intake.awaiting = i.awaiting + good.length ∧
        t.intake.applied = i.applied ∧ t.intake.firstSkip = (if i.firstSkip = none then skips.head? else i.firstSkip) ∧
        t.mem = s.mem ∧
        (¬last → t.intake.state = .applying ∧ t.intake.applyBlock = i.applyBlock + 1 ∧ t.intake.block = none) ∧
        (last → 0 < i.awaiting + good.length → t.intake.state = .applying ∧ t.intake.applyBlock = i.applyBlock) ∧
        (last → i.awaiting + good.length = 0 → s.ownFree 1 → t.intake.state = .idle ∧ t.intake.consumer = i.producer)) ∧
    (∀ (N block r : Nat) (x : List Byte),
      let kind := byteAt x 0
      let eff := byteAt x 1
      let label := field x 12 3
      judgeRecord N block r x =
        if kind = 0 ∨ 7 < kind then .error .unknownKind
        else if N ≤ field x 4 4 then .error .badItem
        else if eff = 0 ∨ 3 < eff ∨ (eff = 3 ∧ 86400 ≤ field x 8 4) then .error .badTime
        else if kind = 6 ∧ label ≠ 0 ∧ ((0xFFFF00 ≤ label ∧ label ≤ 0xFFFF0B) ∨ 11 < byteAt x 15) then .error .badValue
        else
          let v := field x 12 4
          let change : Change := if kind = 1 then .setPrice (min v 99999999)
            else if kind = 2 then .setMarkdown (min v 9000)
            else if kind = 3 then .clearMarkdown
            else if kind = 4 then .setFloor (min v 99999999)
            else if kind = 5 then .setFlags (bitAt x 12 0) (bitAt x 12 1)
            else if kind = 6 then .setLabel label (if label = 0 then 0 else byteAt x 15)
            else .retire
          let clamped := ((kind = 1 ∨ kind = 4) ∧ 99999999 < v) ∨ (kind = 2 ∧ 9000 < v)
          .ok { item := field x 4 4, kind := .stage change (if eff = 1 then .now else if eff = 2 then .atOpen else .atTime)
                  (field x 8 4) (.intake block r) (decide clamped) }) ∧
    (∀ d, s.RecordRead c 8 d → s.ownFree 1 →
      let kept := fun (result : ControlResult) => ∃ t, exec .batchDiscard s = .next t ∧ t.answersRecord d result false ∧
        s.SameUnits t ∧ t.link.own = s.link.own
      (s.control.part = .loading → kept .refusedBusy) ∧
      (s.control.part ≠ .loading → i.state = .idle → kept .done) ∧
      (s.control.part ≠ .loading → i.state = .receiving ∨ i.state = .applying → kept .refusedBusy) ∧
      (s.control.part ≠ .loading → i.state = .complete ∨ i.state = .broken →
        ∃ t, exec .batchDiscard s = .next t ∧ t.answersRecord d .done false ∧
          t.intake = { i with state := .idle, consumer := i.producer, half := none } ∧
          t.link.own = s.link.own ++ [{ unit := .intake, addr := w.base, body := .indexWords none (some i.producer)
                                        purpose := .silent, placedAt := s.micros }] ∧
          t.book = s.book ∧ t.sweep = s.sweep ∧ t.journal = s.journal ∧ t.phase = s.phase ∧ t.mem = s.mem))

/-! ## The control ring -/

/-- O57. SET_PHASE: refused while LOADING and when the phase named is not the next one; NIGHT becomes work of the journal
unit and its result is awaited; any other change is made at once, reported, and shown in the status block: OPENING counts
the business day, flushes the guests and makes the new-day work due; TRADING moves the open group into the timed part, due
now, and sets the level to the floor; CLOSING works the floor out again (R14, R154, R155, R178 to R180). MODEL'S CHOICE (log
19): PHASE_CHANGED is written before the status block. -/
def Obligations.SetPhaseMakesTheNextPhase : Prop :=
  ∀ (s : State) (c : Charter) (d : List Byte), s.RecordRead c 1 d → s.linkQuiet → s.noneWaits →
    let named := Phase.ofCode (byteAt d 4)
    let p := s.phase.phase
    let isNext := (p = some .night ∧ named = some .opening) ∨ (p = some .opening ∧ named = some .trading) ∨
      (p = some .trading ∧ named = some .closing) ∨ (p = some .closing ∧ named = some .night)
    let floor := fun (q : Phase) => if q = .trading then
        (if s.sweep.state = .blank ∨ s.sweep.state = .listen then max c.tradingFloor c.sweepFloor else c.tradingFloor)
      else if q = .closing then
        (if s.sweep.state = .blank ∨ s.sweep.state = .listen then max c.closingFloor c.sweepFloor else c.closingFloor)
      else 7
    let kept := fun (result : ControlResult) =>
      ∃ t, exec .setPhase s = .next t ∧ t.answersRecord d result false ∧ s.SameUnits t ∧ t.link.own = s.link.own
    (s.control.part = .loading → kept .refusedBusy) ∧
    (s.control.part ≠ .loading → ¬isNext → kept .refusedPhase) ∧
    (s.control.part ≠ .loading → isNext → named = some .night → ∃ t, exec .setPhase s = .next t ∧ t.awaitsResult d ∧
      JournalWork.nightEntry ∈ t.journal.works ∧ t.phase = s.phase ∧ t.book = s.book ∧ t.guest = s.guest ∧
      t.intake = s.intake ∧ t.sweep = s.sweep ∧ t.mem = s.mem) ∧
    (∀ q, s.control.part ≠ .loading → isNext → named = some q → q ≠ .night →
      ∃ t, exec .setPhase s = .next t ∧ t.answersRecord d .done false ∧
        t.phase = { s.phase with phase := some q, day := if q = .opening then s.phase.day + 1 else s.phase.day } ∧
        t.control.statusSeq = s.control.statusSeq + 1 ∧ t.link.firstRefusal = none ∧ t.guest.floor = floor q ∧
        t.guest.level = (if q = .opening then 7 else if q = .trading then floor q else max s.guest.level (floor q)) ∧
        t.guest.periodBytes = s.guest.periodBytes ∧ t.sweep = s.sweep ∧ t.mem = s.mem ∧
        t.link.hold = (if q = .opening then [] else s.link.hold) ∧
        t.link.answers = s.link.answers ++ (if q = .opening then s.link.hold.map (fun tx =>
          ⟨tx.tag, true, if tx.dir = .read then List.replicate tx.len 0 else []⟩) else []) ∧
        (q = .opening → JournalWork.newDay ∈ t.journal.works ∧ t.book = s.book) ∧
        (q ≠ .opening → t.journal = s.journal) ∧
        (q = .closing → t.book = s.book) ∧
        (q = .trading → t.book = { s.book with openGroup := [], timed := t.book.timed } ∧
          (s.book.openGroup.map (fun (x : ListItem) => { x with key := s.phase.mono, due := s.phase.mono }) ++ s.book.timed).Perm
            t.book.timed) ∧
        (s.intake.state ≠ .complete → t.intake = s.intake ∧ (q ≠ .opening → s.reportRoom c → s.ownFree 3 →
          ∃ x, t.statusWrite c x ∧ t.link.own = s.link.own ++
            s.reportRequests c (.phaseChanged p (some q) t.phase.day s.phase.clock) ++ [x])))

/-- O58. The records whose result is known at once: SET_CLOCK sets the store clock to a second of the day and nothing else;
SWEEP_MODE sets the mode, with MANUAL_WAIT for an IDLE sweep and a selection for one that waited; STEP_SWEEP makes one
selection in MANUAL_WAIT without a warning and is REFUSED_BUSY elsewhere; an unknown kind is BAD_RECORD (R70, R71, R92, R93,
R182, R193, R194). MODEL'S CHOICES: a selection that begins at slot 1 after slot 15 counts no pass for that (log 47); an unknown kind is BAD_RECORD while LOADING too (log 23), a sweep that goes IDLE under a
warning keeps its current slot and one that finds no slot takes current slot 0 (log 34), and a visit shows TX_WAIT from its
selection on (log 11). -/
def Obligations.PromptControlRecords : Prop :=
  ∀ (s : State) (c : Charter) (n : Nat) (d : List Byte), s.RecordRead c n d → s.noneWaits →
    let kept := fun (i : Instr) (result : ControlResult) =>
      ∃ t, exec i s = .next t ∧ t.answersRecord d result false ∧ s.SameUnits t ∧ t.link.own = s.link.own
    let sets := fun (i : Instr) (sweep : SweepUnit) => ∃ t, exec i s = .next t ∧ t.answersRecord d .done false ∧
      t.sweep = sweep ∧ t.book = s.book ∧ t.intake = s.intake ∧ t.journal = s.journal ∧ t.phase = s.phase ∧ t.mem = s.mem
    let manual := byteAt d 4 == 1
    (n = 2 → field d 4 4 < 86400 → ∃ t, exec .setClock s = .next t ∧ t.answersRecord d .done false ∧
      t.phase = { s.phase with clock := field d 4 4 } ∧ s.SameUnits { t with phase := s.phase } ∧
      t.link.own = s.link.own) ∧
    (n = 2 → 86400 ≤ field d 4 4 → kept .setClock .badRecord) ∧
    (n = 0 ∨ 9 < n → kept .unknownControlKind .badRecord) ∧
    (n = 6 → 1 < byteAt d 4 → kept .sweepMode .badRecord) ∧
    (n = 6 → byteAt d 4 ≤ 1 → s.sweep.manual = manual → kept .sweepMode .done) ∧
    (n = 6 → byteAt d 4 = 1 → s.sweep.manual = false → sets .sweepMode { s.sweep with
      manual := true, state := if s.sweep.state = .idle then .manualWait else s.sweep.state }) ∧
    (n = 6 → byteAt d 4 = 0 → s.sweep.manual = true → s.sweep.state ≠ .manualWait →
      sets .sweepMode { s.sweep with manual := false }) ∧
    (n = 6 → byteAt d 4 = 0 → s.sweep.manual = true → s.sweep.state = .manualWait → s.phase.warning = true →
      sets .sweepMode { s.sweep with manual := false, state := .idle }) ∧
    (n = 6 → byteAt d 4 = 0 → s.sweep.manual = true → s.sweep.state = .manualWait → s.phase.warning = false →
      ∃ t, exec .sweepMode s = .next t ∧ t.answersRecord d .done false ∧ t.sweep.manual = false ∧
        State.selects { s with sweep := { s.sweep with manual := false } } t c ∧
        (s.nothingToVisit c → t.sweep.state = .idle ∧ t.sweep.current = 0) ∧ t.mem = s.mem) ∧
    (n = 7 → s.control.part = .loading ∨ s.sweep.state ≠ .manualWait ∨ s.phase.warning = true →
      kept .stepSweep .refusedBusy) ∧
    (n = 7 → s.control.part ≠ .loading → s.sweep.state = .manualWait → s.phase.warning = false →
      ∃ t, exec .stepSweep s = .next t ∧ t.answersRecord d .done false ∧ t.sweep.manual = s.sweep.manual ∧ s.selects t c ∧
        (s.nothingToVisit c → s.sweep.manual = true → t.sweep.state = .manualWait ∧ t.sweep.current = 0) ∧ t.mem = s.mem)

/-- O59. The records whose result comes with other units' work. URGENT_MARKDOWN places its STAGE request, the markdown
clamped, or is BAD_RECORD (R40, R194); LABEL_RESYNC places one request, or one for every item in order while there is room,
or is BAD_RECORD (R94; MODEL'S CHOICE, log 8: the sweep controller is one source of requests, whose zone resync places while there
is room); each is REFUSED_BUSY while LOADING (R193). RELOAD_CHARTER outside NIGHT is REFUSED_PHASE, with
something left to take it is REFUSED_BUSY, and else it is done at once and the load begins (R191). A record whose result is
known is done: the consumer count and its index word move, CONTROL_DONE is written, or lost and counted when the REPORT ring is
full, and the next record is read, unless stage 4 of a load has begun (R191, R193, R195); MODEL'S CHOICE (log 4): with no result
known the command changes nothing. A completed index write of the ring in force sets the published count, by which
ATTN_N stands (R196). -/
def Obligations.LongControlRecords : Prop :=
  ∀ (s : State) (c : Charter), s.inReset = false → s.charter = some c → s.noneWaits →
    let w := c.window .control
    let read := fun n : Word32 => ({ unit := .control, addr := w.base + 64 + n.toNat % w.slots * 32, body := .read 32
                                     purpose := .controlRead, placedAt := s.micros } : OwnRequest)
    let index := ({ unit := .control, addr := w.base, body := .indexWords none (some (s.control.ctlConsumer + 1))
                    purpose := .silent, placedAt := s.micros } : OwnRequest)
    let left := (s.control.ctlProducer - (s.control.ctlConsumer + 1)).toNat
    let waiting := 0 < left ∧ left < 2 ^ 31
    let isOpen := ∀ l, s.control.load = some l → l.stage ≠ .walked ∧ l.stage ≠ .accepted
    let kept := fun (i : Instr) (d : List Byte) (result : ControlResult) =>
      ∃ t, exec i s = .next t ∧ t.answersRecord d result false ∧ s.SameUnits t ∧ t.link.own = s.link.own
    (∀ d, s.RecordRead c 3 d →
      let item := field d 4 4
      let eff := byteAt d 12
      let bad := c.itemCount ≤ item ∨ eff = 0 ∨ 3 < eff ∨ (eff = 3 ∧ 86400 ≤ field d 16 4)
      (s.control.part = .loading → kept .urgentMarkdown d .refusedBusy) ∧
      (s.control.part ≠ .loading → bad → kept .urgentMarkdown d .badRecord) ∧
      (s.control.part ≠ .loading → ¬bad → s.entryFree 1 → ∃ t, exec .urgentMarkdown s = .next t ∧ t.awaitsResult d ∧
        t.book.queue = s.book.queue ++ [⟨item, .stage (.setMarkdown (min (field d 8 4) 9000))
          (if eff = 1 then .now else if eff = 2 then .atOpen else .atTime) (field d 16 4) .control
          (decide (9000 < field d 8 4))⟩] ∧
        t.book.timed = s.book.timed ∧ t.sweep = s.sweep ∧ t.intake = s.intake ∧ t.journal = s.journal ∧ t.mem = s.mem)) ∧
    (∀ d, s.RecordRead c 4 d →
      let n := field d 8 4
      let selector := byteAt d 4
      (s.control.part = .loading → kept .labelResync d .refusedBusy) ∧
      (s.control.part ≠ .loading → 1 < selector ∨ (selector = 0 ∧ c.itemCount ≤ n) ∨ (selector = 1 ∧ 11 < n) →
        kept .labelResync d .badRecord) ∧
      (s.control.part ≠ .loading → selector = 0 → n < c.itemCount → s.entryFree 1 →
        ∃ t, exec .labelResync s = .next t ∧ t.awaitsResult d ∧
          t.book.queue = s.book.queue ++ [{ item := n, kind := .labelResync none true }] ∧ t.sweep = s.sweep ∧ t.mem = s.mem) ∧
      (s.control.part ≠ .loading → selector = 1 → n ≤ 11 → s.bookCharter = some c → 0 < c.itemCount → s.book.wait = [] →
        let k := min c.itemCount (64 - s.book.queue.length)
        ∃ t, exec .labelResync s = .next t ∧ t.awaitsResult d ∧ t.mem = s.mem ∧
          t.book.queue = s.book.queue ++ (List.range k).map
            (fun i => { item := i, kind := .labelResync (some n) (decide (c.itemCount ≤ i + 1)) }) ∧
          t.sweep = { s.sweep with resync := if k = c.itemCount then none else some { zone := n, next := k } })) ∧
    (∀ d, s.RecordRead c 9 d →
      let clear := s.intake.state = .idle ∧ s.journal.hand = none ∧ s.journal.producer = s.journal.consumer ∧
        s.journal.holdList = [] ∧ s.journal.upProducer = s.journal.upConsumer ∧ ∀ n, n < 48 → (s.till n).block.count = 0
      (s.control.part = .loading → kept .reloadCharter d .refusedBusy) ∧
      (s.control.part ≠ .loading → s.phase.phase ≠ some .night → kept .reloadCharter d .refusedPhase) ∧
      (s.control.part ≠ .loading → s.phase.phase = some .night → ¬clear → kept .reloadCharter d .refusedBusy) ∧
      (s.control.part ≠ .loading → s.phase.phase = some .night → clear → s.ownFree 3 → ∃ t, exec .reloadCharter s = .next t ∧
        t.control.part = .loading ∧ t.control.load = some {} ∧ t.control.ctlConsumer = s.control.ctlConsumer + 1 ∧
        t.charter = some c ∧ t.phase = s.phase ∧ t.journal = s.journal ∧ t.intake = { s.intake with half := none } ∧
        t.sweep.state = .stopped ∧ t.mem = s.mem ∧
        (s.sweep.visit = none → ¬waiting → s.reportRoom c → s.ownFree 10 → t.control.record = none ∧
          t.link.own = s.link.own ++ index ::
          s.reportRequests c (.controlDone (BitVec.ofNat 16 (field d 2 2)) (d.getD 0 0) .done false) ++
          { unit := .control, addr := s.charterBase, body := .resultWord 1, purpose := .silent, placedAt := s.micros } ::
          (List.range 6).map (fun k => { unit := .control, addr := s.charterBase + 128 * k, body := .read 128
                                         purpose := .charterRead, placedAt := s.micros })))) ∧
    (∀ r, s.control.record = some r → r.result = none → exec .controlDone s = .next s) ∧
    (∀ r result, s.control.record = some r → r.result = some result → s.ownFree 4 →
      let next := if waiting ∧ isOpen then [read (s.control.ctlConsumer + 1)] else []
      let after : ControlState := { s.control with
        ctlConsumer := s.control.ctlConsumer + 1, record := if waiting ∧ isOpen then some {} else none }
      (s.reportRoom c → exec .controlDone s = .next { s with
        link := { s.link with own := s.link.own ++
          index :: s.reportRequests c (.controlDone r.tag r.kind result r.clamped) ++ next }
        control := { after with repProducer := s.control.repProducer + 1 } }) ∧
      (s.reportFull c → exec .controlDone s = .next { s with
        link := { s.link with own := s.link.own ++ index :: next }
        control := { after with lost := min 65535 (s.control.lost + 1) } })) ∧
    (∀ q e v before after, s.link.issued = before ++ .own q [] :: after → q.purpose = .reportIndex e v →
      q.body = .indexWords (some v) none → (∀ y b e2 v2, Issued.own y b ∈ before → y.purpose ≠ .reportIndex e2 v2) →
      ∃ t, exec .reportPublished s = .next t ∧
        t = { s with
          link := { s.link with issued := before ++ after }
          control := if e = s.control.epoch then { s.control with published := v } else s.control } ∧
        (e = s.control.epoch → (t.attnAsserted = true ↔ v ≠ s.control.repConsumer)))

/-! ## Loading a charter -/

/-- O60. The stages of a load. The charter as read is checked by R190's tests in the order of their codes, ALIGN 16 to TRIGGERS 23:
one that fails ends the load with the code of the first test failed in the result word, in PASS or ACTIVE as before, with no
report; one that passes is kept, and is within its ranges (R189, R190). The walk begins with the
changeover list, the zone queues and the late lists empty, and places its KEEP requests in item order while there is room
(R27 to R29, R97). With the walk over, and no control record in hand unanswered (log 29), a record in hand that has its result is
finished in the old rings; then zeros go into the index words of the new rings, KEEP_REPAIRED when the walk called for it,
CHARTER_LOADED, and POWER_WARNING at a first load under the warning into the new REPORT ring, as far as it has slots, and LOADED into
the result word; every unit has taken the new charter, the guest level being the floor for a KEEP charter that resumes TRADING or
CLOSING, the part is ACTIVE, and the status block is written (R63, R84, R99, R106, R156, R186, R189, R191, R198). With the
own-request queue full the counts of the old rings are given up and the tills' contexts set anew at once, while the writes and reports
wait and the configuration before stays in force (R63, R99, R145, R158, R169, R187, R192). MODEL'S CHOICES:
a refused charter writes no status block (log 33); the second of the load is the one in which the walk begins (log 22); the index
writes of a ring are two, each of both words (log 40), the control unit's for every ring (log 50); a block forwarded before the load
makes no transition (log 38); the status block shows the sweep as it stood in the load (log 19); and a command whose event is not there changes
nothing (log 4). -/
def Obligations.LoadChecksWalksAccepts : Prop :=
  ∀ (s : State) (l : Load), s.inReset = false → s.control.load = some l →
    (∀ b u, l.stage = .reading → State.takeCharterReads 6 s = some (b, u) → s.noneWaits →
      (∀ code, charterRefusal s.charterBase b = some code → s.ownFree 1 → ∃ t, exec .charterCheck s = .next t ∧
        t.control = { s.control with part := if s.charter.isSome = true then .active else .pass, load := none } ∧
        t.charter = s.charter ∧ t.phase = s.phase ∧ t.journal = s.journal ∧ t.intake = s.intake ∧ t.mem = s.mem ∧
        (s.charter = none → t.sweep = s.sweep) ∧
        (s.charter.isSome = true → s.sweep.visit = none → s.sweep.manual = true →
          t.sweep = { s.sweep with state := .manualWait }) ∧
        (s.charter = none ∨ s.sweep.visit ≠ none ∨ s.sweep.manual = true → t.link.own = s.link.own ++
          [{ unit := .control, addr := s.charterBase, body := .resultWord (BitVec.ofNat 32 code), purpose := .silent
             placedAt := s.micros }])) ∧
      (charterRefusal s.charterBase b = none → ∃ t, exec .charterCheck s = .next t ∧ s.SameUnits t ∧
        t.control = { s.control with load := some { l with stage := .checked, charter := some (charterOf b) } } ∧
        t.link.own = s.link.own)) ∧
    (∀ (b : List Byte) (base : Nat),
      let ws := ((List.range 16).map (fun i => (b.drop (192 + 32 * i)).take 32)).filter (fun p => byteAt p 0 != 0)
      let kind := fun p : List Byte => byteAt p 0
      let start := fun p : List Byte => field p 4 4
      let size := fun p : List Byte => field p 8 4
      let slots := fun p : List Byte => field p 12 4
      let from_ := fun (lo hi n : Nat) => lo ≤ n ∧ n ≤ hi
      let aligned := ∀ p ∈ ws, (∃ k, from_ 12 30 k ∧ size p = 2 ^ k) ∧ start p % size p = 0
      let apart := (∀ p ∈ ws, start p + size p ≤ base ∨ base + 65536 ≤ start p) ∧
        ws.Pairwise (fun p q => start p + size p ≤ start q ∨ start q + size q ≤ start p)
      let once := ∀ k, from_ 1 9 k → (ws.filter (fun p => kind p == k)).length = 1
      let ring := fun p : List Byte => [(2, 64), (3, 64), (4, 256), (5, 32), (6, 16), (7, 32), (8, 32)].lookup (kind p)
      let counts :=
        (from_ 1 65536 (field b 16 4) ∧ from_ 1 48 (byteAt b 20)) ∧
        (∀ p ∈ ws, from_ 1 11 (kind p) ∧ (∀ n, ring p = some n → (∃ k, k ≤ 31 ∧ slots p = 2 ^ k) ∧ 64 + n * slots p ≤ size p) ∧
          (kind p = 1 → 64 * field b 16 4 ≤ size p) ∧ (10 ≤ kind p → ∀ k, k < 7 → byteAt p (16 + k) ≤ 2)) ∧
        ((ws.filter (fun p => kind p == 11)).length ≤ 6 ∧ (ws.filter (fun p => kind p == 10)).length ≤ 6) ∧
        (∀ k, k < 16 → from_ 1 7 (byteAt b (80 + k))) ∧
        (from_ 1 2 (byteAt b 12) ∧ (byteAt b 12 = 2 → from_ 1 4 (byteAt b 13))) ∧
        (byteAt b 14 = 1 ∨ byteAt b 14 = 5 ∨ byteAt b 14 = 10) ∧
        (from_ 60 14400 (field b 24 2) ∧ field b 26 2 ≤ 600 ∧ from_ 1 255 (byteAt b 28) ∧ from_ 1 240 (byteAt b 29)) ∧
        (from_ 1 8 (byteAt b 22) ∧ from_ 1 7 (byteAt b 21)) ∧
        (byteAt b 23 = 1 ∨ byteAt b 23 = 2 ∨ byteAt b 23 = 4 ∨ byteAt b 23 = 8) ∧
        (byteAt b 30 ≤ 127 ∧ byteAt b 31 ≤ 127) ∧ byteAt b 39 ≤ 7 ∧ byteAt b 40 ≤ 7 ∧ byteAt b 41 ≤ 7
      let bases := from_ 10 60000 (field b 32 2) ∧ from_ 10 60000 (field b 34 2) ∧ from_ 10 60000 (field b 36 2) ∧
        from_ (field b 32 2) (field b 34 2) (field b 36 2)
      let table := ∀ k, k < 15 → byteAt b (105 + 4 * k) ≤ 11 ∧ from_ 1 2 (byteAt b (106 + 4 * k)) ∧
        from_ 1 32 (byteAt b (107 + 4 * k))
      let budgets := (∀ k, k < 7 → from_ 8 1048576 (field b (52 + 4 * k) 4)) ∧
        ∀ k, k < 6 → field b (56 + 4 * k) 4 ≤ field b (52 + 4 * k) 4
      let triggers := field b 44 4 < field b 48 4 ∧ ∀ p ∈ ws, kind p = 2 → field b 48 4 ≤ slots p
      let refused := charterRefusal base b
      (¬aligned → refused = some 16) ∧ (aligned → ¬apart → refused = some 17) ∧
      (aligned → apart → ¬once → refused = some 18) ∧ (aligned → apart → once → ¬counts → refused = some 19) ∧
      (aligned → apart → once → counts →
        (¬bases → refused = some 20) ∧ (bases → ¬table → refused = some 21) ∧ (bases → table → ¬budgets → refused = some 22) ∧
        (bases → table → budgets → ¬triggers → refused = some 23) ∧ (bases → table → budgets → triggers → refused = none))) ∧
    (∀ b base, charterRefusal base b = none →
      let c := charterOf b
      (1 ≤ c.itemCount ∧ c.itemCount ≤ 65536) ∧ (1 ≤ c.tillCount ∧ c.tillCount ≤ 48) ∧
      (c.unit = 1 ∨ c.unit = 5 ∨ c.unit = 10) ∧ (1 ≤ c.retryLimit ∧ c.retryLimit ≤ 7) ∧ (1 ≤ c.trickle ∧ c.trickle ≤ 8) ∧
      (60 ≤ c.labelDeadline ∧ c.labelDeadline ≤ 14400) ∧ c.grace ≤ 600 ∧ c.Fits ∧
      (c.baseMin ≤ c.baseInitial ∧ c.baseInitial ≤ c.baseMax ∧ c.baseMax ≤ 60000) ∧
      (c.lowTrigger < c.highTrigger ∧ c.highTrigger ≤ (c.window .journal).slots) ∧
      (∀ x ∈ c.windows, x.base % x.size = 0 ∧ (x.base + x.size ≤ base ∨ base + 65536 ≤ x.base)) ∧
      (∀ x ∈ c.windows, ∀ y ∈ c.windows, x = y ∨ x.base + x.size ≤ y.base ∨ y.base + y.size ≤ x.base)) ∧
    (∀ c, l.stage = .checked → l.charter = some c → s.book.queue = [] → (∀ x ∈ s.link.tasks, x.2.isEntry = false) →
      s.book.wait = [] → s.sweep.visit = none →
      let k := min c.itemCount 64
      ∃ t, exec .walkStart s = .next t ∧
        t.control = { s.control with load := some { l with stage := .walking, second := s.phase.mono } } ∧ t.book.cursor = k ∧
        t.book.timed = [] ∧ t.book.openGroup = [] ∧
        t.book.queue = (List.range k).map (fun i => { item := i, kind := .keep }) ∧
        t.sweep = { s.sweep with
          queues := Vector.replicate 12 [], poolUsed := 0, rescan := false, scan := none, scanCursor := 0
          zones := s.sweep.zones.map (fun z => { z with late := [] }) } ∧ t.mem = s.mem) ∧
    (l.stage ≠ .checked ∨ s.book.queue ≠ [] ∨ (∃ x ∈ s.link.tasks, x.2.isEntry = true) ∨ s.sweep.visit.isSome = true →
      exec .walkStart s = .next s) ∧
    (∀ c old r, l.stage = .walked → l.charter = some c → s.charter = some old → s.control.record = some r → r.result = none →
      exec .charterAccept s = .next s) ∧
    (∀ c, l.stage = .walked → l.charter = some c → s.control.record = none → s.linkQuiet → s.noneWaits →
      s.link.own.length = 32 → ∃ t, exec .charterAccept s = .next t ∧ t.charter = s.charter ∧ t.phase = s.phase ∧
        t.guest = s.guest ∧ t.book = s.book ∧ t.mem = s.mem ∧ t.link.own = s.link.own ∧
        t.control = { s.control with
          load := some { l with stage := .accepted }, ctlProducer := 0, ctlConsumer := 0, repProducer := 0, repConsumer := 0
          published := 0, epoch := s.control.epoch + 1 } ∧
        t.intake = { s.intake with state := .idle, producer := 0, consumer := 0, half := none
                                   accepting := s.intake.accepting.map (fun _ => none) } ∧
        t.sweep = { s.sweep with txProducer := 0, txConsumer := 0 } ∧
        t.journal = { s.journal with producer := 0, consumer := 0, upProducer := 0, upConsumer := 0
                                     tills := Vector.replicate 48 { lastSecond := s.phase.mono } }) ∧
    (∀ c, l.stage = .walked → l.charter = some c →
      (∀ r, s.control.record = some r → r.result.isSome = true ∧ ∃ old, s.charter = some old ∧ s.reportRoom old) →
      s.linkQuiet → s.sweep.visit = none → s.ownFree 23 → 0 < c.averaging → c.baseMin ≤ c.baseInitial → c.baseInitial ≤ c.baseMax →
      let phase := if s.charter.isSome = true then s.phase.phase else if c.keep = true then c.resume else some .night
      let trades := phase = some .trading ∨ phase = some .closing
      let floor := if phase = some .trading then c.tradingFloor else c.closingFloor
      let place := fun (addr : Nat) (body : OwnBody) =>
        ({ unit := .control, addr, body, purpose := .silent, placedAt := s.micros } : OwnRequest)
      let finished := match s.charter, s.control.record with
        | some old, some r => place (old.window .control).base (.indexWords none (some (s.control.ctlConsumer + 1))) ::
            s.reportRequests old (.controlDone r.tag r.kind (r.result.getD .done) r.clamped)
        | some _, none => []
        | none, _ => []
      let zeros := [WindowKind.intake, .labelTx, .journal, .upload, .control, .report].flatMap
        (fun k => List.replicate 2 (place (c.window k).base (.indexWords (some 0) (some 0))))
      let reports : List Report :=
        (if 0 < l.repaired + l.recomputed + l.discarded + l.demoted then
          [.keepRepaired l.repaired l.recomputed l.discarded l.demoted] else []) ++
        [.charterLoaded c.revision c.keep phase] ++
        (if s.charter = none ∧ s.phase.warning = true then [.powerWarning] else [])
      let written := reports.take (c.window .report).slots
      let renewed := { s with control := { s.control with epoch := s.control.epoch + 1 } }
      ∃ t, exec .charterAccept s = .next t ∧ t.charter = some c ∧ t.control.part = .active ∧ t.control.load = none ∧
        t.phase = { s.phase with phase := phase } ∧
        t.control.ctlProducer = 0 ∧ t.control.ctlConsumer = 0 ∧ t.control.repConsumer = 0 ∧ t.control.published = 0 ∧
        t.control.repProducer = BitVec.ofNat 32 written.length ∧ t.control.record = none ∧
        t.control.lost = (if reports.length = written.length then s.control.lost
          else min 65535 (s.control.lost + (reports.length - written.length))) ∧
        t.control.statusSeq = s.control.statusSeq + 1 ∧ t.link.firstRefusal = none ∧
        (s.sweep.manual = true → ∃ q, State.statusWrite { t with sweep := { t.sweep with state := s.sweep.state } } c q ∧
          t.link.own = s.link.own ++ finished ++ zeros ++ renewed.reportSeries c 0 written ++
            [place s.charterBase (.resultWord 2), q]) ∧
        t.intake = { s.intake with state := .idle, producer := 0, consumer := 0, half := none
                                   accepting := s.intake.accepting.map (fun _ => none) } ∧
        (t.journal.producer = 0 ∧ t.journal.consumer = 0 ∧ t.journal.upProducer = 0 ∧ t.journal.upConsumer = 0) ∧
        (∀ n, n < 48 → t.till n = { ({} : TillContext) with lastSecond := s.phase.mono }) ∧
        (t.sweep.slots = c.slots ∧ t.sweep.history = [] ∧ t.sweep.base = c.baseInitial ∧
          t.sweep.blank = c.baseInitial * c.blankFraction / 128 ∧ t.sweep.settle = c.baseInitial * c.settleFraction / 128 ∧
          t.sweep.txProducer = 0 ∧ t.sweep.txConsumer = 0 ∧ t.sweep.manual = s.sweep.manual) ∧
        (s.sweep.manual = true → t.sweep.state = .manualWait ∧ t.sweep.current = 0 ∧ t.sweep.zones = Vector.replicate 12 {}) ∧
        (¬trades → t.guest = { level := 7, periodBytes := 0, floor := 7 }) ∧
        (trades → t.guest = { level := floor, periodBytes := 0, floor }) ∧
        t.book.timed = s.book.timed ∧ t.book.openGroup = s.book.openGroup ∧ t.mem = s.mem)

end
end

