-- ==== Sys2Proof/Laws/State.lean ====
section
/-! SUPPORT. What each replacement of one piece of the state leaves: one lemma for each field and each replacement. -/

namespace Sys2Proof.Machine

@[simp] theorem State.withLink_link (s : State) (x) : (s.withLink x).link = x := rfl
@[simp] theorem State.withLink_book (s : State) (x) : (s.withLink x).book = s.book := rfl
@[simp] theorem State.withLink_intake (s : State) (x) : (s.withLink x).intake = s.intake := rfl
@[simp] theorem State.withLink_sweep (s : State) (x) : (s.withLink x).sweep = s.sweep := rfl
@[simp] theorem State.withLink_journal (s : State) (x) : (s.withLink x).journal = s.journal := rfl
@[simp] theorem State.withLink_guest (s : State) (x) : (s.withLink x).guest = s.guest := rfl
@[simp] theorem State.withLink_phase (s : State) (x) : (s.withLink x).phase = s.phase := rfl
@[simp] theorem State.withLink_control (s : State) (x) : (s.withLink x).control = s.control := rfl
@[simp] theorem State.withLink_charter (s : State) (x) : (s.withLink x).charter = s.charter := rfl
@[simp] theorem State.withLink_mem (s : State) (x) : (s.withLink x).mem = s.mem := rfl
@[simp] theorem State.withLink_chb (s : State) (x) : (s.withLink x).chb = s.chb := rfl
@[simp] theorem State.withLink_inReset (s : State) (x) : (s.withLink x).inReset = s.inReset := rfl
@[simp] theorem State.withLink_micros (s : State) (x) : (s.withLink x).micros = s.micros := rfl
@[simp] theorem State.withLink_freeCount (s : State) (x) : (s.withLink x).freeCount = s.freeCount := rfl
@[simp] theorem State.withLink_pending (s : State) (x) : (s.withLink x).pending = s.pending := rfl
@[simp] theorem State.withLink_withLink (s : State) (x y) : (s.withLink x).withLink y = s.withLink y := rfl
@[simp] theorem State.withLink_same (s : State) : s.withLink s.link = s := rfl

@[simp] theorem State.withBook_link (s : State) (x) : (s.withBook x).link = s.link := rfl
@[simp] theorem State.withBook_book (s : State) (x) : (s.withBook x).book = x := rfl
@[simp] theorem State.withBook_intake (s : State) (x) : (s.withBook x).intake = s.intake := rfl
@[simp] theorem State.withBook_sweep (s : State) (x) : (s.withBook x).sweep = s.sweep := rfl
@[simp] theorem State.withBook_journal (s : State) (x) : (s.withBook x).journal = s.journal := rfl
@[simp] theorem State.withBook_guest (s : State) (x) : (s.withBook x).guest = s.guest := rfl
@[simp] theorem State.withBook_phase (s : State) (x) : (s.withBook x).phase = s.phase := rfl
@[simp] theorem State.withBook_control (s : State) (x) : (s.withBook x).control = s.control := rfl
@[simp] theorem State.withBook_charter (s : State) (x) : (s.withBook x).charter = s.charter := rfl
@[simp] theorem State.withBook_mem (s : State) (x) : (s.withBook x).mem = s.mem := rfl
@[simp] theorem State.withBook_chb (s : State) (x) : (s.withBook x).chb = s.chb := rfl
@[simp] theorem State.withBook_inReset (s : State) (x) : (s.withBook x).inReset = s.inReset := rfl
@[simp] theorem State.withBook_micros (s : State) (x) : (s.withBook x).micros = s.micros := rfl
@[simp] theorem State.withBook_freeCount (s : State) (x) : (s.withBook x).freeCount = s.freeCount := rfl
@[simp] theorem State.withBook_pending (s : State) (x) : (s.withBook x).pending = s.pending := rfl
@[simp] theorem State.withBook_withBook (s : State) (x y) : (s.withBook x).withBook y = s.withBook y := rfl
@[simp] theorem State.withBook_same (s : State) : s.withBook s.book = s := rfl

@[simp] theorem State.withIntake_link (s : State) (x) : (s.withIntake x).link = s.link := rfl
@[simp] theorem State.withIntake_book (s : State) (x) : (s.withIntake x).book = s.book := rfl
@[simp] theorem State.withIntake_intake (s : State) (x) : (s.withIntake x).intake = x := rfl
@[simp] theorem State.withIntake_sweep (s : State) (x) : (s.withIntake x).sweep = s.sweep := rfl
@[simp] theorem State.withIntake_journal (s : State) (x) : (s.withIntake x).journal = s.journal := rfl
@[simp] theorem State.withIntake_guest (s : State) (x) : (s.withIntake x).guest = s.guest := rfl
@[simp] theorem State.withIntake_phase (s : State) (x) : (s.withIntake x).phase = s.phase := rfl
@[simp] theorem State.withIntake_control (s : State) (x) : (s.withIntake x).control = s.control := rfl
@[simp] theorem State.withIntake_charter (s : State) (x) : (s.withIntake x).charter = s.charter := rfl
@[simp] theorem State.withIntake_mem (s : State) (x) : (s.withIntake x).mem = s.mem := rfl
@[simp] theorem State.withIntake_chb (s : State) (x) : (s.withIntake x).chb = s.chb := rfl
@[simp] theorem State.withIntake_inReset (s : State) (x) : (s.withIntake x).inReset = s.inReset := rfl
@[simp] theorem State.withIntake_micros (s : State) (x) : (s.withIntake x).micros = s.micros := rfl
@[simp] theorem State.withIntake_freeCount (s : State) (x) : (s.withIntake x).freeCount = s.freeCount := rfl
@[simp] theorem State.withIntake_pending (s : State) (x) : (s.withIntake x).pending = s.pending := rfl
@[simp] theorem State.withIntake_withIntake (s : State) (x y) : (s.withIntake x).withIntake y = s.withIntake y := rfl
@[simp] theorem State.withIntake_same (s : State) : s.withIntake s.intake = s := rfl

@[simp] theorem State.withSweep_link (s : State) (x) : (s.withSweep x).link = s.link := rfl
@[simp] theorem State.withSweep_book (s : State) (x) : (s.withSweep x).book = s.book := rfl
@[simp] theorem State.withSweep_intake (s : State) (x) : (s.withSweep x).intake = s.intake := rfl
@[simp] theorem State.withSweep_sweep (s : State) (x) : (s.withSweep x).sweep = x := rfl
@[simp] theorem State.withSweep_journal (s : State) (x) : (s.withSweep x).journal = s.journal := rfl
@[simp] theorem State.withSweep_guest (s : State) (x) : (s.withSweep x).guest = s.guest := rfl
@[simp] theorem State.withSweep_phase (s : State) (x) : (s.withSweep x).phase = s.phase := rfl
@[simp] theorem State.withSweep_control (s : State) (x) : (s.withSweep x).control = s.control := rfl
@[simp] theorem State.withSweep_charter (s : State) (x) : (s.withSweep x).charter = s.charter := rfl
@[simp] theorem State.withSweep_mem (s : State) (x) : (s.withSweep x).mem = s.mem := rfl
@[simp] theorem State.withSweep_chb (s : State) (x) : (s.withSweep x).chb = s.chb := rfl
@[simp] theorem State.withSweep_inReset (s : State) (x) : (s.withSweep x).inReset = s.inReset := rfl
@[simp] theorem State.withSweep_micros (s : State) (x) : (s.withSweep x).micros = s.micros := rfl
@[simp] theorem State.withSweep_freeCount (s : State) (x) : (s.withSweep x).freeCount = s.freeCount := rfl
@[simp] theorem State.withSweep_pending (s : State) (x) : (s.withSweep x).pending = s.pending := rfl
@[simp] theorem State.withSweep_withSweep (s : State) (x y) : (s.withSweep x).withSweep y = s.withSweep y := rfl
@[simp] theorem State.withSweep_same (s : State) : s.withSweep s.sweep = s := rfl

@[simp] theorem State.withJournal_link (s : State) (x) : (s.withJournal x).link = s.link := rfl
@[simp] theorem State.withJournal_book (s : State) (x) : (s.withJournal x).book = s.book := rfl
@[simp] theorem State.withJournal_intake (s : State) (x) : (s.withJournal x).intake = s.intake := rfl
@[simp] theorem State.withJournal_sweep (s : State) (x) : (s.withJournal x).sweep = s.sweep := rfl
@[simp] theorem State.withJournal_journal (s : State) (x) : (s.withJournal x).journal = x := rfl
@[simp] theorem State.withJournal_guest (s : State) (x) : (s.withJournal x).guest = s.guest := rfl
@[simp] theorem State.withJournal_phase (s : State) (x) : (s.withJournal x).phase = s.phase := rfl
@[simp] theorem State.withJournal_control (s : State) (x) : (s.withJournal x).control = s.control := rfl
@[simp] theorem State.withJournal_charter (s : State) (x) : (s.withJournal x).charter = s.charter := rfl
@[simp] theorem State.withJournal_mem (s : State) (x) : (s.withJournal x).mem = s.mem := rfl
@[simp] theorem State.withJournal_chb (s : State) (x) : (s.withJournal x).chb = s.chb := rfl
@[simp] theorem State.withJournal_inReset (s : State) (x) : (s.withJournal x).inReset = s.inReset := rfl
@[simp] theorem State.withJournal_micros (s : State) (x) : (s.withJournal x).micros = s.micros := rfl
@[simp] theorem State.withJournal_freeCount (s : State) (x) : (s.withJournal x).freeCount = s.freeCount := rfl
@[simp] theorem State.withJournal_pending (s : State) (x) : (s.withJournal x).pending = s.pending := rfl
@[simp] theorem State.withJournal_withJournal (s : State) (x y) : (s.withJournal x).withJournal y = s.withJournal y := rfl
@[simp] theorem State.withJournal_same (s : State) : s.withJournal s.journal = s := rfl

@[simp] theorem State.withGuest_link (s : State) (x) : (s.withGuest x).link = s.link := rfl
@[simp] theorem State.withGuest_book (s : State) (x) : (s.withGuest x).book = s.book := rfl
@[simp] theorem State.withGuest_intake (s : State) (x) : (s.withGuest x).intake = s.intake := rfl
@[simp] theorem State.withGuest_sweep (s : State) (x) : (s.withGuest x).sweep = s.sweep := rfl
@[simp] theorem State.withGuest_journal (s : State) (x) : (s.withGuest x).journal = s.journal := rfl
@[simp] theorem State.withGuest_guest (s : State) (x) : (s.withGuest x).guest = x := rfl
@[simp] theorem State.withGuest_phase (s : State) (x) : (s.withGuest x).phase = s.phase := rfl
@[simp] theorem State.withGuest_control (s : State) (x) : (s.withGuest x).control = s.control := rfl
@[simp] theorem State.withGuest_charter (s : State) (x) : (s.withGuest x).charter = s.charter := rfl
@[simp] theorem State.withGuest_mem (s : State) (x) : (s.withGuest x).mem = s.mem := rfl
@[simp] theorem State.withGuest_chb (s : State) (x) : (s.withGuest x).chb = s.chb := rfl
@[simp] theorem State.withGuest_inReset (s : State) (x) : (s.withGuest x).inReset = s.inReset := rfl
@[simp] theorem State.withGuest_micros (s : State) (x) : (s.withGuest x).micros = s.micros := rfl
@[simp] theorem State.withGuest_freeCount (s : State) (x) : (s.withGuest x).freeCount = s.freeCount := rfl
@[simp] theorem State.withGuest_pending (s : State) (x) : (s.withGuest x).pending = s.pending := rfl
@[simp] theorem State.withGuest_withGuest (s : State) (x y) : (s.withGuest x).withGuest y = s.withGuest y := rfl
@[simp] theorem State.withGuest_same (s : State) : s.withGuest s.guest = s := rfl

@[simp] theorem State.withPhase_link (s : State) (x) : (s.withPhase x).link = s.link := rfl
@[simp] theorem State.withPhase_book (s : State) (x) : (s.withPhase x).book = s.book := rfl
@[simp] theorem State.withPhase_intake (s : State) (x) : (s.withPhase x).intake = s.intake := rfl
@[simp] theorem State.withPhase_sweep (s : State) (x) : (s.withPhase x).sweep = s.sweep := rfl
@[simp] theorem State.withPhase_journal (s : State) (x) : (s.withPhase x).journal = s.journal := rfl
@[simp] theorem State.withPhase_guest (s : State) (x) : (s.withPhase x).guest = s.guest := rfl
@[simp] theorem State.withPhase_phase (s : State) (x) : (s.withPhase x).phase = x := rfl
@[simp] theorem State.withPhase_control (s : State) (x) : (s.withPhase x).control = s.control := rfl
@[simp] theorem State.withPhase_charter (s : State) (x) : (s.withPhase x).charter = s.charter := rfl
@[simp] theorem State.withPhase_mem (s : State) (x) : (s.withPhase x).mem = s.mem := rfl
@[simp] theorem State.withPhase_chb (s : State) (x) : (s.withPhase x).chb = s.chb := rfl
@[simp] theorem State.withPhase_inReset (s : State) (x) : (s.withPhase x).inReset = s.inReset := rfl
@[simp] theorem State.withPhase_micros (s : State) (x) : (s.withPhase x).micros = s.micros := rfl
@[simp] theorem State.withPhase_freeCount (s : State) (x) : (s.withPhase x).freeCount = s.freeCount := rfl
@[simp] theorem State.withPhase_pending (s : State) (x) : (s.withPhase x).pending = s.pending := rfl
@[simp] theorem State.withPhase_withPhase (s : State) (x y) : (s.withPhase x).withPhase y = s.withPhase y := rfl
@[simp] theorem State.withPhase_same (s : State) : s.withPhase s.phase = s := rfl

@[simp] theorem State.withControl_link (s : State) (x) : (s.withControl x).link = s.link := rfl
@[simp] theorem State.withControl_book (s : State) (x) : (s.withControl x).book = s.book := rfl
@[simp] theorem State.withControl_intake (s : State) (x) : (s.withControl x).intake = s.intake := rfl
@[simp] theorem State.withControl_sweep (s : State) (x) : (s.withControl x).sweep = s.sweep := rfl
@[simp] theorem State.withControl_journal (s : State) (x) : (s.withControl x).journal = s.journal := rfl
@[simp] theorem State.withControl_guest (s : State) (x) : (s.withControl x).guest = s.guest := rfl
@[simp] theorem State.withControl_phase (s : State) (x) : (s.withControl x).phase = s.phase := rfl
@[simp] theorem State.withControl_control (s : State) (x) : (s.withControl x).control = x := rfl
@[simp] theorem State.withControl_charter (s : State) (x) : (s.withControl x).charter = s.charter := rfl
@[simp] theorem State.withControl_mem (s : State) (x) : (s.withControl x).mem = s.mem := rfl
@[simp] theorem State.withControl_chb (s : State) (x) : (s.withControl x).chb = s.chb := rfl
@[simp] theorem State.withControl_inReset (s : State) (x) : (s.withControl x).inReset = s.inReset := rfl
@[simp] theorem State.withControl_micros (s : State) (x) : (s.withControl x).micros = s.micros := rfl
@[simp] theorem State.withControl_freeCount (s : State) (x) : (s.withControl x).freeCount = s.freeCount := rfl
@[simp] theorem State.withControl_pending (s : State) (x) : (s.withControl x).pending = s.pending := rfl
@[simp] theorem State.withControl_withControl (s : State) (x y) : (s.withControl x).withControl y = s.withControl y := rfl
@[simp] theorem State.withControl_same (s : State) : s.withControl s.control = s := rfl

end Sys2Proof.Machine
end

