-- ==== Sys2Proof/Laws/Frame.lean ====
section
/-! SUPPORT. What the units' operations leave alone. `Quiet s t` says that from s to t neither memory nor time, neither the
configuration in force nor the transactions in front of the decoder, in the stream or at memory changed, and that every bound
was kept; each operation of a unit is shown quiet here, in the order of the files of Machine. -/

namespace Sys2Proof.Machine

/-- Memory, reset, the clocks and the power-fail filter are as they were. -/
structure State.SameTime (s t : State) : Prop where
  mem      : t.mem = s.mem
  chb      : t.chb = s.chb
  inReset  : t.inReset = s.inReset
  pending  : t.pending = s.pending
  micros   : t.micros = s.micros
  clock    : t.phase.clock = s.phase.clock
  mono     : t.phase.mono = s.phase.mono
  warning  : t.phase.warning = s.phase.warning
  runCount : t.phase.runCount = s.phase.runCount

theorem State.SameTime.refl (s : State) : s.SameTime s := ⟨rfl, rfl, rfl, rfl, rfl, rfl, rfl, rfl, rfl⟩

theorem State.SameTime.trans {s t u : State} (a : s.SameTime t) (b : t.SameTime u) : s.SameTime u :=
  ⟨b.mem.trans a.mem, b.chb.trans a.chb, b.inReset.trans a.inReset, b.pending.trans a.pending, b.micros.trans a.micros,
    b.clock.trans a.clock, b.mono.trans a.mono, b.warning.trans a.warning, b.runCount.trans a.runCount⟩

/-- What the invariant rests on of a load in progress: its charter, and whether that charter is accepted. -/
def Load.mode (l : Load) : Option Charter × Bool := (l.charter, l.stage == .accepted)

/-- The configuration and the phase are as they were. -/
structure State.SameMode (s t : State) : Prop where
  charter  : t.charter = s.charter
  part     : t.control.part = s.control.part
  phase    : t.phase.phase = s.phase.phase
  day      : t.phase.day = s.phase.day
  handoffs : t.phase.handoffs = s.phase.handoffs
  load     : t.control.load.map Load.mode = s.control.load.map Load.mode

theorem State.SameMode.refl (s : State) : s.SameMode s := ⟨rfl, rfl, rfl, rfl, rfl, rfl⟩

theorem State.SameMode.trans {s t u : State} (a : s.SameMode t) (b : t.SameMode u) : s.SameMode u :=
  ⟨b.charter.trans a.charter, b.part.trans a.part, b.phase.trans a.phase, b.day.trans a.day, b.handoffs.trans a.handoffs,
    b.load.trans a.load⟩

/-- The transactions on their way through the part are as they were. -/
structure State.SamePath (s t : State) : Prop where
  waiting    : t.link.waiting = s.link.waiting
  passQueue  : t.link.passQueue = s.link.passQueue
  accept     : t.link.accept = s.link.accept
  hold       : t.link.hold = s.link.hold
  stream     : t.link.stream = s.link.stream
  streamWait : t.link.streamWait = s.link.streamWait
  issued     : t.link.issued = s.link.issued

theorem State.SamePath.refl (s : State) : s.SamePath s := ⟨rfl, rfl, rfl, rfl, rfl, rfl, rfl⟩

theorem State.SamePath.trans {s t u : State} (a : s.SamePath t) (b : t.SamePath u) : s.SamePath u :=
  ⟨b.waiting.trans a.waiting, b.passQueue.trans a.passQueue, b.accept.trans a.accept, b.hold.trans a.hold,
    b.stream.trans a.stream, b.streamWait.trans a.streamWait, b.issued.trans a.issued⟩

/-- The charter in force fits: what the floor's and the base time's bounds rest on. -/
def State.ForceFits (s : State) : Prop := ∀ c, s.charter = some c → c.Fits

/-- The bounds, with what they rest on. -/
def State.Good (s : State) : Prop := s.ForceFits ∧ s.Bounds

/-- Nothing but the units' own state changed, and within its bounds. -/
structure State.Quiet (s t : State) : Prop where
  time   : s.SameTime t
  mode   : s.SameMode t
  path   : s.SamePath t
  good : s.Good → t.Good

theorem State.Quiet.refl (s : State) : s.Quiet s := ⟨.refl s, .refl s, .refl s, id⟩

theorem State.Quiet.trans {s t u : State} (a : s.Quiet t) (b : t.Quiet u) : s.Quiet u :=
  ⟨a.time.trans b.time, a.mode.trans b.mode, a.path.trans b.path, fun h => b.good (a.good h)⟩

/-- A quiet step keeps the invariant of the units. -/
theorem State.Quiet.unitsInv {s t : State} (q : s.Quiet t) (h : s.UnitsInv) : t.UnitsInv := by
  obtain ⟨hb, hm⟩ := h
  have hl : t.control.load.bind Load.charter = s.control.load.bind Load.charter := by
    have := q.mode.load
    cases hs : s.control.load <;> cases ht : t.control.load <;> simp_all [Load.mode]
  have ha : ∀ l, t.control.load = some l → l.stage = .accepted → l.charter.isSome = true := by
    intro l e k
    have := q.mode.load
    rw [e] at this
    obtain ⟨x, hx, hy⟩ := Option.map_eq_some_iff.mp this.symm
    have h1 := hm.accepted x hx (by have := congrArg Prod.snd hy; simpa [Load.mode, k] using this)
    have h2 : x.charter = l.charter := congrArg Prod.fst hy
    rwa [h2] at h1
  have hn : t.control.load.isSome = s.control.load.isSome := by
    have := congrArg Option.isSome q.mode.load
    simpa using this
  have hz : t.control.load = none ↔ s.control.load = none := by
    rw [← Option.isNone_iff_eq_none, ← Option.isNone_iff_eq_none]
    cases hs : s.control.load <;> cases ht : t.control.load <;> simp_all
  refine ⟨(q.good ⟨hm.fits, hb⟩).2, ?_⟩
  constructor
  · intro h; rw [q.mode.part] at h; rw [q.mode.charter, hz]; exact hm.pass h
  · intro h; rw [q.mode.part] at h; rw [q.mode.charter, hz]; exact hm.active h
  · intro h; rw [q.mode.part] at h; rw [hn]; exact hm.loading h
  · exact ha
  · rw [q.mode.charter, q.mode.phase]; exact hm.phase
  · intro c h; rw [q.mode.charter] at h; exact hm.fits c h
  · intro c h; rw [hl] at h; exact hm.loadFits c h
  · intro h k; rw [q.mode.charter] at h; have := hm.passFront h k; simpa [State.queueOf, q.path.accept] using this
  · intro h; rw [q.mode.charter] at h; rw [q.path.passQueue]; exact hm.classFront h

/-! ## The replacements of one piece

Each lemma says that a quiet run followed by the operation is a quiet run. -/

variable {s t : State}

theorem State.Quiet.withIntake (q : s.Quiet t) (x : IntakeState) : s.Quiet (t.withIntake x) :=
  q.trans ⟨⟨rfl, rfl, rfl, rfl, rfl, rfl, rfl, rfl, rfl⟩, ⟨rfl, rfl, rfl, rfl, rfl, rfl⟩, ⟨rfl, rfl, rfl, rfl, rfl, rfl, rfl⟩, fun g =>
    have h := g.2
    ⟨g.1, ⟨h.own, h.stream, h.hold, h.passQueue, h.accept, h.queue, h.list, h.pool, h.history, h.zones, h.base, h.refusals, h.lost, h.level, h.period⟩⟩⟩

theorem State.Quiet.withJournal (q : s.Quiet t) (x : JournalState) : s.Quiet (t.withJournal x) :=
  q.trans ⟨⟨rfl, rfl, rfl, rfl, rfl, rfl, rfl, rfl, rfl⟩, ⟨rfl, rfl, rfl, rfl, rfl, rfl⟩, ⟨rfl, rfl, rfl, rfl, rfl, rfl, rfl⟩, fun g =>
    have h := g.2
    ⟨g.1, ⟨h.own, h.stream, h.hold, h.passQueue, h.accept, h.queue, h.list, h.pool, h.history, h.zones, h.base, h.refusals, h.lost, h.level, h.period⟩⟩⟩

theorem State.Quiet.withBook (q : s.Quiet t) (x : BookState)
    (hq : t.Bounds → x.queue.length ≤ Config.entryDepth := by exact fun b => b.queue)
    (hl : t.Bounds → x.timed.length + x.openGroup.length ≤ Config.listDepth := by exact fun b => b.list) :
    s.Quiet (t.withBook x) :=
  q.trans ⟨⟨rfl, rfl, rfl, rfl, rfl, rfl, rfl, rfl, rfl⟩, ⟨rfl, rfl, rfl, rfl, rfl, rfl⟩, ⟨rfl, rfl, rfl, rfl, rfl, rfl, rfl⟩, fun g =>
    have h := g.2
    ⟨g.1, ⟨h.own, h.stream, h.hold, h.passQueue, h.accept, hq h, hl h, h.pool, h.history, h.zones, h.base, h.refusals, h.lost, h.level, h.period⟩⟩⟩

theorem State.Quiet.withSweep (q : s.Quiet t) (x : SweepUnit)
    (hp : t.Bounds → x.poolUsed ≤ Config.poolDepth := by exact fun b => b.pool)
    (hh : t.Bounds → x.history.length ≤ Config.historyDepth := by exact fun b => b.history)
    (hz : t.Bounds → ∀ z, (x.zones.getD z {}).InRange := by exact fun b => b.zones)
    (hb : t.Good → ∀ c, t.charter = some c → c.baseMin ≤ x.base ∧ x.base ≤ c.baseMax ∧ x.blank < x.base := by
      exact fun b => b.2.base) :
    s.Quiet (t.withSweep x) :=
  q.trans ⟨⟨rfl, rfl, rfl, rfl, rfl, rfl, rfl, rfl, rfl⟩, ⟨rfl, rfl, rfl, rfl, rfl, rfl⟩, ⟨rfl, rfl, rfl, rfl, rfl, rfl, rfl⟩, fun g =>
    have h := g.2
    ⟨g.1, ⟨h.own, h.stream, h.hold, h.passQueue, h.accept, h.queue, h.list, hp h, hh h, hz h, hb g, h.refusals, h.lost, h.level, h.period⟩⟩⟩

theorem State.Quiet.withGuest (q : s.Quiet t) (x : GuestState)
    (hl : t.Good → x.level ≤ 7 ∧ x.floor ≤ 7 := by exact fun b => b.2.level)
    (hp : t.Bounds → x.periodBytes < 2 ^ 32 := by exact fun b => b.period) : s.Quiet (t.withGuest x) :=
  q.trans ⟨⟨rfl, rfl, rfl, rfl, rfl, rfl, rfl, rfl, rfl⟩, ⟨rfl, rfl, rfl, rfl, rfl, rfl⟩, ⟨rfl, rfl, rfl, rfl, rfl, rfl, rfl⟩, fun g =>
    have h := g.2
    ⟨g.1, ⟨h.own, h.stream, h.hold, h.passQueue, h.accept, h.queue, h.list, h.pool, h.history, h.zones, h.base, h.refusals, h.lost, hl g, hp h⟩⟩⟩

theorem State.Quiet.withControl (q : s.Quiet t) (x : ControlState) (hp : x.part = t.control.part := by rfl)
    (hl : x.load.map Load.mode = t.control.load.map Load.mode := by rfl)
    (hc : t.Bounds → x.lost ≤ 65535 := by exact fun b => b.lost) : s.Quiet (t.withControl x) :=
  q.trans ⟨⟨rfl, rfl, rfl, rfl, rfl, rfl, rfl, rfl, rfl⟩, ⟨rfl, hp, rfl, rfl, rfl, hl⟩, ⟨rfl, rfl, rfl, rfl, rfl, rfl, rfl⟩, fun g =>
    have h := g.2
    ⟨g.1, ⟨h.own, h.stream, h.hold, h.passQueue, h.accept, h.queue, h.list, h.pool, h.history, h.zones, h.base, h.refusals, hc h, h.level, h.period⟩⟩⟩

/-- A replacement that touches the own requests, the answers and the refusals alone. -/
theorem State.Quiet.withLink (q : s.Quiet t) (x : LinkState)
    (hw : x.waiting = t.link.waiting := by rfl) (hp : x.passQueue = t.link.passQueue := by rfl)
    (ha : x.accept = t.link.accept := by rfl) (hh : x.hold = t.link.hold := by rfl)
    (hs : x.stream = t.link.stream := by rfl) (ht : x.streamWait = t.link.streamWait := by rfl)
    (hi : x.issued = t.link.issued := by rfl)
    (ho : t.Bounds → x.own.length ≤ Config.ownDepth := by exact fun b => b.own)
    (hr : t.Bounds → x.refusals ≤ 65535 := by exact fun b => b.refusals) : s.Quiet (t.withLink x) :=
  q.trans ⟨⟨rfl, rfl, rfl, rfl, rfl, rfl, rfl, rfl, rfl⟩, ⟨rfl, rfl, rfl, rfl, rfl, rfl⟩, ⟨hw, hp, ha, hh, hs, ht, hi⟩, fun g =>
    have h := g.2
    ⟨g.1, ⟨ho h, by simpa [hs] using h.stream, by simpa [hh] using h.hold, by simpa [hp] using h.passQueue,
      fun k => by have := h.accept k; simpa [State.queueOf, ha] using this,
      h.queue, h.list, h.pool, h.history, h.zones, h.base, hr h, h.lost, h.level, h.period⟩⟩⟩

theorem State.Quiet.freeCount (q : s.Quiet t) (n : Nat) : s.Quiet { t with freeCount := n } :=
  q.trans ⟨⟨rfl, rfl, rfl, rfl, rfl, rfl, rfl, rfl, rfl⟩, ⟨rfl, rfl, rfl, rfl, rfl, rfl⟩, ⟨rfl, rfl, rfl, rfl, rfl, rfl, rfl⟩, fun g =>
    have h := g.2
    ⟨g.1, ⟨h.own, h.stream, h.hold, h.passQueue, h.accept, h.queue, h.list, h.pool, h.history, h.zones, h.base, h.refusals, h.lost, h.level, h.period⟩⟩⟩

/-- A run of quiet operations is quiet. -/
theorem State.Quiet.foldl {α : Type} (q : s.Quiet t) (f : State → α → State) (l : List α)
    (hf : ∀ u a, s.Quiet u → s.Quiet (f u a)) : s.Quiet (l.foldl f t) := by
  induction l generalizing t with
  | nil => exact q
  | cons a l ih => exact ih (hf t a q)

/-! ## Ops -/

theorem State.Quiet.enqueueOwn (q : s.Quiet t) (r : OwnRequest) (h : t.link.own.length < Config.ownDepth) :
    s.Quiet (t.enqueueOwn r) := by
  unfold State.enqueueOwn
  split <;> exact q.withLink _ (ho := fun _ => by simp; omega)

theorem State.Quiet.addTask (q : s.Quiet t) (u : PartUnit) (k : Task) : s.Quiet (t.addTask u k) := q.withLink _

/-- Work that may have to follow a request that waits is quiet when the work is. -/
theorem State.Quiet.orDefer (q : s.Quiet t) (u : PartUnit) (k : Task) {f : State → State} (h : s.Quiet (f t)) :
    s.Quiet (t.orDefer u k f) := by
  unfold State.orDefer
  split
  · exact q.addTask u k
  · exact h

theorem State.Quiet.placeOwn (q : s.Quiet t) (r : OwnRequest) : s.Quiet (t.placeOwn r) := by
  refine q.orDefer _ _ ?_
  split
  · exact q.enqueueOwn r (by omega)
  · exact q.withLink _

theorem State.Quiet.placeOwns (q : s.Quiet t) (rs : List OwnRequest) : s.Quiet (t.placeOwns rs) :=
  q.foldl _ _ fun _ r h => h.placeOwn r

theorem State.Quiet.writeResult (q : s.Quiet t) (k : Nat) : s.Quiet (t.writeResult k) := q.placeOwn _

theorem countUp_le (top a : Nat) : countUp top a ≤ top := Nat.min_le_left _ _

theorem addUpTo_le (top a b : Nat) : addUpTo top a b ≤ top := Nat.min_le_left _ _

theorem State.Quiet.countReport (q : s.Quiet t) : s.Quiet t.countReport := by
  unfold State.countReport
  split
  · exact q
  · exact (q.withControl _).placeOwn _

theorem State.Quiet.writeReport (q : s.Quiet t) (r : Report) : s.Quiet (t.writeReport r) := by
  unfold State.writeReport
  split
  · exact q
  · dsimp only
    split
    · exact (q.placeOwn _).orDefer _ _ (q.placeOwn _).countReport
    · exact q.withControl _ (hc := fun _ => countUp_le _ _)

theorem State.Quiet.report (q : s.Quiet t) (r : Report) : s.Quiet (t.report r) := q.orDefer _ _ (q.writeReport r)

theorem State.Quiet.reports (q : s.Quiet t) (rs : List Report) : s.Quiet (t.reports rs) :=
  q.foldl _ _ fun _ r h => h.report r

theorem State.Quiet.answer (q : s.Quiet t) (a : Answer) : s.Quiet (t.answer a) := q.withLink _

theorem State.Quiet.refuse (q : s.Quiet t) (c : Charter) (src : RefusalSource) (why : Reason) (tx : Transaction) :
    s.Quiet (t.refuse c src why tx) := by
  unfold State.refuse
  dsimp only
  split
  · exact ((q.answer _).withLink _ (hr := fun _ => countUp_le _ _)).report _
  · exact (q.answer _).withLink _ (hr := fun _ => countUp_le _ _)

theorem State.Quiet.beginHead (q : s.Quiet t) : s.Quiet t.beginHead := by
  unfold State.beginHead
  split
  · split
    · exact q.withBook _
    · exact (q.withBook _).placeOwn _
  · exact q

theorem State.Quiet.pushEntry (q : s.Quiet t) (r : EntryReq) (h : t.book.queue.length < Config.entryDepth) :
    s.Quiet (t.pushEntry r) :=
  (q.withBook _ (hq := fun _ => by simp; omega)).beginHead

theorem State.Quiet.waitEntry (q : s.Quiet t) (src : Source) : s.Quiet (t.waitEntry src) := q.withBook _

theorem State.Quiet.placeEntry (q : s.Quiet t) (src : Source) (r : EntryReq) : s.Quiet (t.placeEntry src r) := by
  refine q.orDefer _ _ ?_
  split
  · rename_i h
    exact q.pushEntry r (by simpa [State.entryRoom] using h.1)
  · exact (q.addTask _ _).waitEntry _

end Sys2Proof.Machine
end

