-- ==== Sys2Proof/Laws/FrameApart.lean ====
section
/-! SUPPORT. The operations of the link interface's own requests, of reports and refusals, of the entry update queue and of the
sweep controller touch neither the journal unit, nor the intake unit, nor the phase unit, nor the charter in force. -/

namespace Sys2Proof.Machine

/-- The journal unit, the intake unit, the phase unit and the charter in force are as they were. -/
structure State.Apart (s t : State) : Prop where
  journal : t.journal = s.journal
  intake  : t.intake = s.intake
  phase   : t.phase = s.phase
  charter : t.charter = s.charter

theorem State.Apart.refl (s : State) : s.Apart s := ⟨rfl, rfl, rfl, rfl⟩

theorem State.Apart.trans {s t u : State} (a : s.Apart t) (b : t.Apart u) : s.Apart u :=
  ⟨b.journal.trans a.journal, b.intake.trans a.intake, b.phase.trans a.phase, b.charter.trans a.charter⟩

variable {s t : State}

theorem State.Apart.withBook (a : s.Apart t) (x : BookState) : s.Apart (t.withBook x) := a.trans ⟨rfl, rfl, rfl, rfl⟩
theorem State.Apart.withSweep (a : s.Apart t) (x : SweepUnit) : s.Apart (t.withSweep x) := a.trans ⟨rfl, rfl, rfl, rfl⟩
theorem State.Apart.withGuest (a : s.Apart t) (x : GuestState) : s.Apart (t.withGuest x) := a.trans ⟨rfl, rfl, rfl, rfl⟩
theorem State.Apart.withLink (a : s.Apart t) (x : LinkState) : s.Apart (t.withLink x) := a.trans ⟨rfl, rfl, rfl, rfl⟩
theorem State.Apart.withControl (a : s.Apart t) (x : ControlState) : s.Apart (t.withControl x) :=
  a.trans ⟨rfl, rfl, rfl, rfl⟩
theorem State.Apart.freeCount (a : s.Apart t) (n : Nat) : s.Apart { t with freeCount := n } := a.trans ⟨rfl, rfl, rfl, rfl⟩

theorem State.Apart.foldl {α : Type} (q : s.Apart t) (f : State → α → State) (l : List α)
    (hf : ∀ u a, s.Apart u → s.Apart (f u a)) : s.Apart (l.foldl f t) := by
  induction l generalizing t with
  | nil => exact q
  | cons a l ih => exact ih (hf t a q)

/-! ## Ops -/

theorem State.Apart.enqueueOwn (q : s.Apart t) (r : OwnRequest) : s.Apart (t.enqueueOwn r) := by
  unfold State.enqueueOwn
  split <;> exact q.withLink _

theorem State.Apart.addTask (q : s.Apart t) (u : PartUnit) (k : Task) : s.Apart (t.addTask u k) := q.withLink _

theorem State.Apart.orDefer (q : s.Apart t) (u : PartUnit) (k : Task) {f : State → State} (h : s.Apart (f t)) :
    s.Apart (t.orDefer u k f) := by
  unfold State.orDefer
  split
  · exact q.addTask u k
  · exact h

theorem State.Apart.placeOwn (q : s.Apart t) (r : OwnRequest) : s.Apart (t.placeOwn r) := by
  refine q.orDefer _ _ ?_
  split
  · exact q.enqueueOwn r
  · exact q.withLink _

theorem State.Apart.placeOwns (q : s.Apart t) (rs : List OwnRequest) : s.Apart (t.placeOwns rs) :=
  q.foldl _ _ fun _ r h => h.placeOwn r

theorem State.Apart.writeResult (q : s.Apart t) (k : Nat) : s.Apart (t.writeResult k) := q.placeOwn _

theorem State.Apart.countReport (q : s.Apart t) : s.Apart t.countReport := by
  unfold State.countReport
  split
  · exact q
  · exact (q.withControl _).placeOwn _

theorem State.Apart.writeReport (q : s.Apart t) (r : Report) : s.Apart (t.writeReport r) := by
  unfold State.writeReport
  split
  · exact q
  · dsimp only
    split
    · exact (q.placeOwn _).orDefer _ _ (q.placeOwn _).countReport
    · exact q.withControl _

theorem State.Apart.report (q : s.Apart t) (r : Report) : s.Apart (t.report r) := q.orDefer _ _ (q.writeReport r)

theorem State.Apart.answer (q : s.Apart t) (a : Answer) : s.Apart (t.answer a) := q.withLink _

theorem State.Apart.refuse (q : s.Apart t) (c : Charter) (src : RefusalSource) (why : Reason) (tx : Transaction) :
    s.Apart (t.refuse c src why tx) := by
  unfold State.refuse
  dsimp only
  split
  · exact ((q.answer _).withLink _).report _
  · exact (q.answer _).withLink _

theorem State.Apart.beginHead (q : s.Apart t) : s.Apart t.beginHead := by
  unfold State.beginHead
  split
  · split
    · exact q.withBook _
    · exact (q.withBook _).placeOwn _
  · exact q

theorem State.Apart.pushEntry (q : s.Apart t) (r : EntryReq) : s.Apart (t.pushEntry r) := (q.withBook _).beginHead

theorem State.Apart.waitEntry (q : s.Apart t) (src : Source) : s.Apart (t.waitEntry src) := q.withBook _

theorem State.Apart.placeEntry (q : s.Apart t) (src : Source) (r : EntryReq) : s.Apart (t.placeEntry src r) := by
  refine q.orDefer _ _ ?_
  split
  · exact q.pushEntry r
  · exact (q.addTask _ _).waitEntry _

theorem State.Apart.refloor (q : s.Apart t) : s.Apart t.refloor := by
  unfold State.refloor
  split
  · exact q
  · exact q.withGuest _

theorem State.Apart.setSweepState (q : s.Apart t) (st : SweepState) : s.Apart (t.setSweepState st) :=
  (q.withSweep _).refloor

/-! ## Sweep -/

theorem State.Apart.setZone (q : s.Apart t) (z : Nat) (r : ZoneRecord) : s.Apart (t.setZone z r) := q.withSweep _

theorem State.Apart.setVisit (q : s.Apart t) (v : Option Visit) : s.Apart (t.setVisit v) := q.withSweep _

theorem State.Apart.rescanTrigger (q : s.Apart t) : s.Apart t.rescanTrigger := by
  unfold State.rescanTrigger
  split
  · split <;> exact q.withSweep _
  · exact q

theorem State.Apart.leaveQueue (q : s.Apart t) (z item : Nat) : s.Apart (t.leaveQueue z item) :=
  ((q.withSweep _).setZone _ _).rescanTrigger

theorem State.Apart.ageLate (q : s.Apart t) (z : Nat) : s.Apart (t.ageLate z) := q.setZone _ _

theorem State.Apart.examine (q : s.Apart t) (c : Charter) (n k : Nat) : s.Apart (State.examine c n k t).1 := by
  induction n generalizing t k with
  | zero => exact q
  | succ n ih =>
    unfold State.examine
    split
    · exact q
    · split
      · exact ih (q.withSweep _) 1
      · exact ih q _

theorem State.Apart.takeItems (q : s.Apart t) (c : Charter) (v : Visit) : s.Apart (t.takeItems c v) := by
  unfold State.takeItems
  exact State.Apart.foldl (State.Apart.setVisit (q.foldl _ _ fun _ _ h => h.leaveQueue _ _) _) _ _ fun _ _ h =>
    h.placeEntry _ _

theorem State.Apart.proceedVisit (q : s.Apart t) (c : Charter) (v : Visit) : s.Apart (t.proceedVisit c v) := by
  unfold State.proceedVisit
  split
  · exact q
  · split
    · exact q.setVisit _
    · exact q.takeItems _ _
    · exact q.takeItems _ _

theorem State.Apart.beginVisit (q : s.Apart t) (c : Charter) (k : Nat) (kind : VisitKind) :
    s.Apart (t.beginVisit c k kind) := by
  unfold State.beginVisit
  refine State.Apart.proceedVisit ?_ _ _
  by_cases hk : kind = .probe
  · simp only [hk, ↓reduceIte]
    exact ((q.withSweep _).setSweepState _).setZone _ _
  · simp only [hk, ↓reduceIte]
    exact (q.withSweep _).setSweepState _

theorem State.Apart.restSweep (q : s.Apart t) : s.Apart t.restSweep := q.setSweepState _

theorem State.Apart.select (q : s.Apart t) : s.Apart t.select := by
  unfold State.select
  split
  · exact q
  · rename_i c hc
    split
    · exact q.restSweep
    · have h := q.examine c 15 t.firstSlot
      split <;> rename_i e <;> rw [e] at h
      · exact h.beginVisit _ _ _
      · exact (h.withSweep _).restSweep

theorem State.Apart.afterVisit (q : s.Apart t) : s.Apart t.afterVisit := by
  unfold State.afterVisit
  split
  · exact (q.setVisit _).restSweep
  · exact (q.setVisit _).select

theorem State.Apart.wakeNow (q : s.Apart t) : s.Apart t.wakeNow := by
  unfold State.wakeNow
  split
  · exact q.select
  · exact q

theorem State.Apart.retryNow (q : s.Apart t) : s.Apart t.retryNow := by
  unfold State.retryNow
  split
  · split
    · split
      · exact q.afterVisit
      · exact q.proceedVisit _ _
    · exact q
  · exact q

theorem State.Apart.retryTake (q : s.Apart t) : s.Apart t.retryTake := by
  unfold State.retryTake
  split
  · split
    · exact q.orDefer _ _ q.retryNow
    · exact q
  · exact q

theorem State.Apart.finishNow (q : s.Apart t) : s.Apart t.finishNow := by
  unfold State.finishNow
  split
  · split
    · split
      · exact (q.setVisit _).setSweepState _
      · exact (q.setVisit _).restSweep.wakeNow
    · exact q
  · exact q

theorem State.Apart.finishCancel (q : s.Apart t) : s.Apart t.finishCancel := by
  unfold State.finishCancel
  split
  · split
    · exact q.orDefer _ _ q.finishNow
    · exact q
  · exact q

theorem State.Apart.closeOne (q : s.Apart t) (item : Nat) (kind : ReqKind) : s.Apart (t.closeOne item kind) := by
  unfold State.closeOne
  split
  · split
    · exact (q.setVisit _).placeEntry _ _
    · exact q
  · exact q

theorem State.Apart.closeRecords (q : s.Apart t) (v : Visit) (kind : ReqKind) (p : OutStatus → Bool) :
    s.Apart (t.closeRecords v kind p) := by
  unfold State.closeRecords
  exact (q.setVisit _).foldl _ _ fun _ _ h => h.orDefer _ _ (h.closeOne _ _)

theorem State.Apart.cancelVisit (q : s.Apart t) : s.Apart t.cancelVisit := by
  unfold State.cancelVisit
  split
  · exact q
  · split
    · exact q
    · exact ((q.setSweepState _).closeRecords _ _ _).finishCancel

theorem State.Apart.endListen (q : s.Apart t) (v : Visit) : s.Apart (t.endListen v) := by
  unfold State.endListen
  split
  · exact ((q.setSweepState _).ageLate _).closeRecords _ _ _
  · exact ((q.setSweepState _).ageLate _).setVisit _

theorem State.Apart.listenNow (q : s.Apart t) : s.Apart t.listenNow := by
  unfold State.listenNow
  split
  · split
    · exact q.endListen _
    · exact q
  · exact q

theorem State.Apart.listenCheck (q : s.Apart t) : s.Apart t.listenCheck := by
  unfold State.listenCheck
  split
  · split
    · exact q.orDefer _ _ q.listenNow
    · exact q
  · exact q

theorem State.Apart.countMatch (q : s.Apart t) (z : Nat) (probe : Bool) : s.Apart (t.countMatch z probe) := by
  unfold State.countMatch
  dsimp only
  split
  · exact (q.setZone _ _).report _
  · exact q.setZone _ _

theorem State.Apart.matchOpen (q : s.Apart t) (v : Visit) (r : OutRecord) (ok : Bool) : s.Apart (t.matchOpen v r ok) := by
  unfold State.matchOpen
  dsimp only
  split
  · exact ((((q.freeCount _).setVisit _).countMatch _ _).placeEntry _ _).listenCheck
  · exact (((q.freeCount _).setVisit _).countMatch _ _).listenCheck

theorem State.Apart.matchLate (q : s.Apart t) (z : Nat) (r : LateRecord) (ok : Bool) : s.Apart (t.matchLate z r ok) :=
  ((q.setZone _ _).countMatch _ _).placeEntry _ _

theorem State.Apart.ackNow (q : s.Apart t) (c : Charter) (d : List Byte) : s.Apart (t.ackNow c d) := by
  unfold State.ackNow
  dsimp only
  split
  · exact q
  · split
    · exact q
    · split
      · exact q
      · split
        · exact q.matchOpen _ _ _
        · split
          · exact q.matchLate _ _ _
          · exact q

theorem State.Apart.examineAck (q : s.Apart t) (c : Charter) (d : List Byte) : s.Apart (t.examineAck c d) :=
  q.orDefer _ _ (q.ackNow c d)

end Sys2Proof.Machine
end

