-- ==== Sys2Proof/Laws/FrameSweep.lean ====
section
/-! SUPPORT. The operations of the sweep controller and of the guest floor are quiet. -/

namespace Sys2Proof.Machine

variable {s t : State}

theorem floorFor_le (c : Charter) (h : c.Fits) (p : Option Phase) (st : SweepState) : floorFor c p st ≤ 7 := by
  obtain ⟨h1, h2, h3⟩ := h.floors
  unfold floorFor
  dsimp only
  split <;> (try split) <;> omega

theorem State.Quiet.refloor (q : s.Quiet t) : s.Quiet t.refloor := by
  unfold State.refloor
  split
  · exact q
  · rename_i c hc
    refine q.withGuest _ (hl := fun b => ?_)
    have hl := floorFor_le c (b.1 c hc) t.phase.phase t.sweep.state
    have := b.2.level
    dsimp only
    refine ⟨?_, hl⟩
    split <;> omega

theorem State.Quiet.setSweepState (q : s.Quiet t) (st : SweepState) : s.Quiet (t.setSweepState st) :=
  (q.withSweep _).refloor

theorem vector_getD_lt {α : Type} {n i : Nat} (v : Vector α n) (d : α) (h : i < n) : v.getD i d = v[i] := by
  simp [Vector.getD, Array.getD, h]

theorem vector_getD_ge {α : Type} {n i : Nat} (v : Vector α n) (d : α) (h : ¬ i < n) : v.getD i d = d := by
  simp [Vector.getD, Array.getD, h]

theorem State.zoneRec_getD (x : SweepUnit) (z i : Nat) (r : ZoneRecord) :
    (x.zones.setIfInBounds z r).getD i {} = x.zones.getD i {} ∨ (x.zones.setIfInBounds z r).getD i {} = r := by
  by_cases h : i < 12
  · rw [vector_getD_lt _ _ h, vector_getD_lt _ _ h, Vector.getElem_setIfInBounds]
    split <;> simp
  · exact .inl (by rw [vector_getD_ge _ _ h, vector_getD_ge _ _ h])

theorem State.Quiet.setZone (q : s.Quiet t) (z : Nat) (r : ZoneRecord) (h : t.Bounds → r.InRange) :
    s.Quiet (t.setZone z r) := by
  refine q.withSweep _ (hz := fun b i => ?_)
  rcases State.zoneRec_getD t.sweep z i r with e | e <;> simp only [e]
  · exact b.zones i
  · exact h b

theorem State.Quiet.rescanTrigger (q : s.Quiet t) : s.Quiet t.rescanTrigger := by
  unfold State.rescanTrigger
  split
  · split <;> exact q.withSweep _
  · exact q

theorem ZoneRecord.InRange.shrink {z : ZoneRecord} (h : z.InRange) (p : LateRecord → Bool) :
    ({ z with late := z.late.filter p } : ZoneRecord).InRange :=
  ⟨Nat.le_trans (List.length_filter_le _ _) h.1, h.2⟩

theorem State.Quiet.leaveQueue (q : s.Quiet t) (z item : Nat) : s.Quiet (t.leaveQueue z item) := by
  unfold State.leaveQueue
  refine (State.Quiet.setZone (q.withSweep _ (hp := fun b => ?_)) _ _ fun b => ?_).rescanTrigger
  · exact Nat.le_trans (Nat.sub_le _ _) b.pool
  · exact ZoneRecord.InRange.shrink (b.zones z) _

theorem State.Quiet.removeQueued (q : s.Quiet t) (item : Nat) : s.Quiet (t.removeQueued item) := by
  unfold State.removeQueued
  split
  · exact q.leaveQueue _ _
  · exact q

theorem State.Quiet.takePoolPlace (q : s.Quiet t) (h : t.sweep.poolUsed < Config.poolDepth) : s.Quiet t.takePoolPlace :=
  q.withSweep _ (hp := fun _ => h)

theorem State.Quiet.joinTail (q : s.Quiet t) (z item : Nat) : s.Quiet (t.joinTail z item) := q.withSweep _

theorem State.Quiet.offer (q : s.Quiet t) (item zone : Nat) (closing : Bool) : s.Quiet (t.offer item zone closing).st := by
  unfold State.offer
  split
  · exact q
  · split
    · exact q
    · split
      · exact q.withSweep _
      · split
        · exact q.takePoolPlace (by omega)
        · exact (q.takePoolPlace (by omega)).joinTail _ _

theorem State.Quiet.ageLate (q : s.Quiet t) (z : Nat) : s.Quiet (t.ageLate z) := by
  refine q.setZone _ _ fun b => ⟨Nat.le_trans (List.length_filter_le _ _) ?_, (b.zones z).2⟩
  rw [List.length_map]
  exact (b.zones z).1

theorem State.Quiet.addLate (q : s.Quiet t) (z : Nat) (r : LateRecord) : s.Quiet (t.addLate z r) := by
  refine q.setZone _ _ fun b => ⟨?_, (b.zones z).2⟩
  simp only [List.length_cons, List.length_take, Config.lateDepth]
  omega

theorem State.Quiet.countPass (q : s.Quiet t) : s.Quiet t.countPass := by
  refine q.withSweep _ (hz := fun b z => ?_)
  have h := b.zones z
  by_cases hz : z < 12
  · simp only [State.zoneRec, vector_getD_lt _ _ hz] at h ⊢
    rw [Vector.getElem_map]
    split
    · exact ⟨h.1, h.2.1, Nat.min_le_left _ _⟩
    · exact h
  · rw [vector_getD_ge _ _ hz]
    exact ⟨Nat.zero_le _, Nat.zero_le _, Nat.zero_le _⟩

theorem State.Quiet.examine (q : s.Quiet t) (c : Charter) (n k : Nat) : s.Quiet (State.examine c n k t).1 := by
  induction n generalizing t k with
  | zero => exact q
  | succ n ih =>
    unfold State.examine
    split
    · exact q
    · split
      · exact ih q.countPass 1
      · exact ih q _

theorem State.Quiet.setVisit (q : s.Quiet t) (v : Option Visit) : s.Quiet (t.setVisit v) := q.withSweep _

theorem State.Quiet.takeItems (q : s.Quiet t) (c : Charter) (v : Visit) : s.Quiet (t.takeItems c v) := by
  unfold State.takeItems
  refine State.Quiet.foldl (State.Quiet.setVisit (q.foldl _ _ fun _ _ h => h.leaveQueue _ _) _) _ _ fun _ _ h => h.placeEntry _ _

theorem State.Quiet.proceedVisit (q : s.Quiet t) (c : Charter) (v : Visit) : s.Quiet (t.proceedVisit c v) := by
  unfold State.proceedVisit
  split
  · exact q
  · split
    · exact q.setVisit _
    · exact q.takeItems _ _
    · exact q.takeItems _ _

theorem State.Quiet.beginVisit (q : s.Quiet t) (c : Charter) (k : Nat) (kind : VisitKind) :
    s.Quiet (t.beginVisit c k kind) := by
  unfold State.beginVisit
  refine State.Quiet.proceedVisit ?_ _ _
  by_cases hk : kind = .probe
  · simp only [hk, ↓reduceIte]
    refine State.Quiet.setZone (State.Quiet.setSweepState (q.withSweep _) _) _ _ ?_
    exact fun b => ⟨(b.zones _).1, (b.zones _).2.1, Nat.zero_le _⟩
  · simp only [hk, ↓reduceIte]
    exact (q.withSweep _).setSweepState _

theorem State.Quiet.restSweep (q : s.Quiet t) : s.Quiet t.restSweep := q.setSweepState _

theorem State.Quiet.select (q : s.Quiet t) : s.Quiet t.select := by
  unfold State.select
  split
  · exact q
  · rename_i c hc
    split
    · exact q.restSweep
    · have h := q.examine c 15 t.firstSlot
      split <;> rename_i e <;> rw [e] at h
      · exact h.beginVisit _ _ _
      · exact (h.withSweep _).restSweep

theorem State.Quiet.afterVisit (q : s.Quiet t) : s.Quiet t.afterVisit := by
  unfold State.afterVisit
  split
  · exact (q.setVisit _).restSweep
  · exact (q.setVisit _).select

theorem State.Quiet.wakeNow (q : s.Quiet t) : s.Quiet t.wakeNow := by
  unfold State.wakeNow
  split
  · exact q.select
  · exact q

theorem State.Quiet.wakeSweep (q : s.Quiet t) : s.Quiet t.wakeSweep := by
  unfold State.wakeSweep
  split
  · exact q.orDefer _ _ q.wakeNow
  · exact q

theorem State.Quiet.retryNow (q : s.Quiet t) : s.Quiet t.retryNow := by
  unfold State.retryNow
  split
  · split
    · split
      · exact q.afterVisit
      · exact q.proceedVisit _ _
    · exact q
  · exact q

theorem State.Quiet.retryTake (q : s.Quiet t) : s.Quiet t.retryTake := by
  unfold State.retryTake
  split
  · split
    · exact q.orDefer _ _ q.retryNow
    · exact q
  · exact q

theorem State.Quiet.finishNow (q : s.Quiet t) : s.Quiet t.finishNow := by
  unfold State.finishNow
  split
  · split
    · split
      · exact (q.setVisit _).setSweepState _
      · exact (q.setVisit _).restSweep.wakeNow
    · exact q
  · exact q

theorem State.Quiet.finishCancel (q : s.Quiet t) : s.Quiet t.finishCancel := by
  unfold State.finishCancel
  split
  · split
    · exact q.orDefer _ _ q.finishNow
    · exact q
  · exact q

theorem State.Quiet.closeOne (q : s.Quiet t) (item : Nat) (kind : ReqKind) : s.Quiet (t.closeOne item kind) := by
  unfold State.closeOne
  split
  · split
    · exact (q.setVisit _).placeEntry _ _
    · exact q
  · exact q

theorem State.Quiet.closeRecords (q : s.Quiet t) (v : Visit) (kind : ReqKind) (p : OutStatus → Bool) :
    s.Quiet (t.closeRecords v kind p) :=
  (q.setVisit _).foldl _ _ fun _ _ h => h.orDefer _ _ (h.closeOne _ _)

theorem State.Quiet.cancelVisit (q : s.Quiet t) : s.Quiet t.cancelVisit := by
  unfold State.cancelVisit
  split
  · exact q
  · split
    · exact q
    · exact ((q.setSweepState _).closeRecords _ _ _).finishCancel

theorem State.Quiet.endListen (q : s.Quiet t) (v : Visit) : s.Quiet (t.endListen v) := by
  unfold State.endListen
  split
  · exact ((q.setSweepState _).ageLate _).closeRecords _ _ _
  · exact ((q.setSweepState _).ageLate _).setVisit _

theorem State.Quiet.listenNow (q : s.Quiet t) : s.Quiet t.listenNow := by
  unfold State.listenNow
  split
  · split
    · exact q.endListen _
    · exact q
  · exact q

theorem State.Quiet.listenCheck (q : s.Quiet t) : s.Quiet t.listenCheck := by
  unfold State.listenCheck
  split
  · split
    · exact q.orDefer _ _ q.listenNow
    · exact q
  · exact q

theorem State.Quiet.countMatch (q : s.Quiet t) (z : Nat) (probe : Bool) : s.Quiet (t.countMatch z probe) := by
  unfold State.countMatch
  dsimp only
  split
  · exact (q.setZone _ _ (by exact fun b => ⟨(b.zones z).1, Nat.zero_le _, (b.zones z).2.2⟩)).report _
  · exact q.setZone _ _ (by exact fun b => ⟨(b.zones z).1, Nat.zero_le _, (b.zones z).2.2⟩)

theorem State.Quiet.matchOpen (q : s.Quiet t) (v : Visit) (r : OutRecord) (ok : Bool) :
    s.Quiet (t.matchOpen v r ok) := by
  unfold State.matchOpen
  dsimp only
  split
  · exact ((((q.freeCount _).setVisit _).countMatch _ _).placeEntry _ _).listenCheck
  · exact (((q.freeCount _).setVisit _).countMatch _ _).listenCheck

theorem State.Quiet.matchLate (q : s.Quiet t) (z : Nat) (r : LateRecord) (ok : Bool) : s.Quiet (t.matchLate z r ok) :=
  ((q.setZone _ _ fun b => ZoneRecord.InRange.shrink (b.zones z) _).countMatch _ _).placeEntry _ _

theorem State.Quiet.ackNow (q : s.Quiet t) (c : Charter) (d : List Byte) :
    s.Quiet (t.ackNow c d) := by
  unfold State.ackNow
  dsimp only
  split
  · exact q
  · split
    · exact q
    · split
      · exact q
      · split
        · exact q.matchOpen _ _ _
        · split
          · exact q.matchLate _ _ _
          · exact q

theorem State.Quiet.examineAck (q : s.Quiet t) (c : Charter) (d : List Byte) : s.Quiet (t.examineAck c d) :=
  q.orDefer _ _ (q.ackNow c d)

theorem State.Quiet.dropAssignment (q : s.Quiet t) (item : Nat) (queued sent : Bool) :
    s.Quiet (t.dropAssignment item queued sent) := by
  unfold State.dropAssignment
  have h : s.Quiet (if queued then t.removeQueued item else t) := by
    split
    · exact q.removeQueued _
    · exact q
  dsimp only
  split
  · exact h
  · exact ((h.setVisit _).listenCheck).finishCancel

theorem baseOf_inRange (c : Charter) (h : c.Fits) (l : List Nat) : c.baseMin ≤ baseOf c l ∧ baseOf c l ≤ c.baseMax := by
  have := h.bases
  unfold baseOf
  dsimp only
  omega

theorem blank_lt (c : Charter) (h : c.Fits) (b : Nat) (hb : c.baseMin ≤ b) : b * c.blankFraction / 128 < b := by
  have h1 := h.bases.1
  have h2 := h.blank
  rw [Nat.div_lt_iff_lt_mul (by omega)]
  exact Nat.mul_lt_mul_of_pos_left (by omega) (by omega)

/-- The base time computed afresh under a charter that is the one in force, or that comes into force (R84, R85). -/
theorem State.Quiet.setBase (q : s.Quiet t) (c : Charter) (hc : t.charter = some c) (l : List Nat)
    (hl : l.length ≤ Config.historyDepth) : s.Quiet (t.setBase c l) := by
  refine q.withSweep _ (hh := fun _ => hl) (hb := fun b c' e => ?_)
  obtain rfl : c = c' := by simpa [hc] using e
  have hb := baseOf_inRange c (b.1 c hc) l
  exact ⟨hb.1, hb.2, blank_lt c (b.1 c hc) _ hb.1⟩

theorem State.Quiet.recordDuration (q : s.Quiet t) (c : Charter) (hc : t.charter = some c) (d : Nat) :
    s.Quiet (t.recordDuration c d) :=
  q.setBase c hc _ (by simp only [List.length_take]; omega)

theorem State.Quiet.countEmptyForced (q : s.Quiet t) (z : Nat) : s.Quiet (t.countEmptyForced z) := by
  unfold State.countEmptyForced
  dsimp only
  split
  · exact (q.setZone _ _ (by exact fun b => ⟨(b.zones z).1, Nat.min_le_left _ _, Nat.zero_le _⟩)).report _
  · exact q.setZone _ _ (by exact fun b => ⟨(b.zones z).1, Nat.min_le_left _ _, (b.zones z).2.2⟩)

end Sys2Proof.Machine
end

