-- ==== Sys2Proof/Laws/FrameUnits.lean ====
section
/-! SUPPORT. The operations of the journal unit, the intake unit and the sources of the entry update queue are quiet. -/

namespace Sys2Proof.Machine

variable {s t : State}

/-! ## Journal unit -/

theorem State.Quiet.setTill (q : s.Quiet t) (n : Nat) (x : TillContext) : s.Quiet (t.setTill n x) := q.withJournal _

theorem State.Quiet.setHand (q : s.Quiet t) (h : Option JournalHand) : s.Quiet (t.setHand h) := q.withJournal _

theorem State.Quiet.countUpload (q : s.Quiet t) : s.Quiet t.countUpload := q.withJournal _

theorem State.Quiet.putUpload (q : s.Quiet t) (c : Charter) (r : UploadRecord) : s.Quiet (t.putUpload c r) :=
  (q.placeOwn _).orDefer _ _ (q.placeOwn _).countUpload

theorem State.Quiet.indexNow (q : s.Quiet t) (c : Charter) : s.Quiet (t.indexNow c) := q.placeOwn _

theorem State.Quiet.writeUploadIndex (q : s.Quiet t) (c : Charter) : s.Quiet (t.writeUploadIndex c) :=
  q.orDefer _ _ (q.indexNow c)

theorem State.Quiet.summaryNow (q : s.Quiet t) (r : UploadRecord) : s.Quiet (t.summaryNow r) := q.reports _

theorem State.Quiet.uploadNow (q : s.Quiet t) (c : Charter) (r : UploadRecord) : s.Quiet (t.uploadNow c r) := by
  unfold State.uploadNow
  split
  · have h := (q.putUpload c r).writeUploadIndex c
    exact h.orDefer _ _ (h.summaryNow r)
  · exact q.withJournal _

theorem State.Quiet.handUpload (q : s.Quiet t) (c : Charter) (r : UploadRecord) : s.Quiet (t.handUpload c r) :=
  q.orDefer _ _ (q.uploadNow c r)

theorem State.Quiet.drainOne (q : s.Quiet t) (c : Charter) : s.Quiet (t.drainOne c) := by
  unfold State.drainOne
  split
  · exact (q.withJournal _).putUpload c _
  · exact q

theorem State.Quiet.drainNow (q : s.Quiet t) (c : Charter) : s.Quiet (t.drainNow c) := by
  unfold State.drainNow
  dsimp only
  split
  · exact q
  · exact (State.Quiet.writeUploadIndex (q.foldl _ _ fun _ _ h => h.orDefer _ _ (h.drainOne c)) c).foldl _ _
      fun _ _ h => h.orDefer _ _ (h.report _)

theorem State.Quiet.drain (q : s.Quiet t) (c : Charter) : s.Quiet (t.drain c) := q.orDefer _ _ (q.drainNow c)

theorem State.Quiet.handBlock (q : s.Quiet t) (c : Charter) (n : Nat) (b : OpenBlock) (f : BlockFlags) :
    s.Quiet (t.handBlock c n b f) := q.handUpload c _

theorem State.Quiet.closeNow (q : s.Quiet t) (c : Charter) (n : Nat) (f : BlockFlags) :
    s.Quiet (t.closeNow c n f) := by
  unfold State.closeNow
  dsimp only
  split
  · exact q
  · exact (q.setTill _ _).handBlock c _ _ _

theorem State.Quiet.closeBlock (q : s.Quiet t) (c : Charter) (n : Nat) (f : BlockFlags) :
    s.Quiet (t.closeBlock c n f) := q.orDefer _ _ (q.closeNow c n f)

theorem State.Quiet.closeBlocks (q : s.Quiet t) (c : Charter) (p : Nat → Bool) (f : BlockFlags) :
    s.Quiet (t.closeBlocks c p f) := q.foldl _ _ fun _ n h => h.closeBlock c n f

theorem State.Quiet.enterBlock (q : s.Quiet t) (c : Charter) (n : Nat) (h : JournalHand) (f : Finding) :
    s.Quiet (t.enterBlock c n h f) := by
  unfold State.enterBlock
  dsimp only
  split
  · exact (q.setTill _ _).handBlock c _ _ _
  · exact q.setTill _ _

theorem State.Quiet.stampNow (q : s.Quiet t) : s.Quiet t.stampNow := by
  unfold State.stampNow
  split
  · exact q.setHand _
  · exact q

theorem State.Quiet.stampHand (q : s.Quiet t) (h : JournalHand) : s.Quiet (t.stampHand h) :=
  (q.setHand _).orDefer _ _ (q.setHand _).stampNow

theorem State.Quiet.finishTaken (q : s.Quiet t) (c : Charter) (h : JournalHand) (f : Finding) (r : Option Report) :
    s.Quiet (t.finishTaken c h f r) := (q.enterBlock c _ h f).stampHand _

theorem State.Quiet.takeKind (q : s.Quiet t) (c : Charter) (h : JournalHand) : s.Quiet (t.takeKind c h) := by
  unfold State.takeKind
  dsimp only
  split
  case h_3 =>
    split
    · exact ((q.setTill _ _).setHand _).placeEntry _ _
    · exact (q.setTill _ _).finishTaken c _ _ _
  case h_7 =>
    split
    · exact (q.setHand _).placeEntry _ _
    · exact q.finishTaken c _ _ _
  all_goals exact q.finishTaken c _ _ _

theorem State.Quiet.priceAnswered (q : s.Quiet t) (a : PriceAnswer) : s.Quiet (t.priceAnswered a) := by
  unfold State.priceAnswered
  split
  · dsimp only
    split
    · exact q.finishTaken _ _ _ _
    · exact q.finishTaken _ _ _ _
    · exact q
  · exact q

theorem State.Quiet.takeRecord (q : s.Quiet t) (c : Charter) (h : JournalHand) : s.Quiet (t.takeRecord c h) :=
  (q.setTill _ _).takeKind c _

theorem State.Quiet.takeHand (q : s.Quiet t) (c : Charter) : s.Quiet (t.takeHand c) := by
  unfold State.takeHand
  split
  · exact q.takeRecord c _
  · exact q

theorem State.Quiet.acceptRecord (q : s.Quiet t) (c : Charter) (k : Class) (tx : Transaction) :
    s.Quiet (t.acceptRecord c k tx) := by
  unfold State.acceptRecord
  dsimp only
  split
  · exact (q.setTill _ _).stampHand _
  · exact q.takeRecord c _
  · exact q.takeRecord c _
  · exact (q.setTill _ _).stampHand _
  · exact State.Quiet.orDefer (((q.setTill _ _).setHand _).closeBlock c _ _) _ _
      (State.Quiet.takeHand (((q.setTill _ _).setHand _).closeBlock c _ _) c)

theorem State.Quiet.countFreeSlot (q : s.Quiet t) (w : Window) (n a : Nat) : s.Quiet (t.countFreeSlot w n a) :=
  q.freeCount _

theorem State.Quiet.refuseJournal (q : s.Quiet t) (c : Charter) (why : Reason) (tx : Transaction) :
    s.Quiet (t.refuseJournal c why tx) := ((q.refuse c _ why tx).countFreeSlot _ _ _).withJournal _

theorem State.Quiet.addWork (q : s.Quiet t) (k : JournalWork) : s.Quiet (t.addWork k) := q.withJournal _

theorem State.Quiet.dropWork (q : s.Quiet t) (k : JournalWork) : s.Quiet (t.dropWork k) := q.withJournal _

theorem State.Quiet.idleWork (q : s.Quiet t) (c : Charter) : s.Quiet (t.idleWork c) := q.closeBlocks c _ _

theorem State.Quiet.powerWork (q : s.Quiet t) (c : Charter) : s.Quiet (t.powerWork c) := q.closeBlocks c _ _

theorem State.Quiet.newDayContexts (q : s.Quiet t) : s.Quiet t.newDayContexts := q.withJournal _

theorem State.Quiet.setResult (q : s.Quiet t) (r : ControlResult) (cl : Bool) : s.Quiet (t.setResult r cl) :=
  q.withControl _

theorem State.Quiet.resetDone (q : s.Quiet t) (n : Nat) : s.Quiet (t.resetDone n) := (q.setTill _ _).setResult _ _

theorem State.Quiet.resetTill (q : s.Quiet t) (c : Charter) (n : Nat) : s.Quiet (t.resetTill c n) := by
  have h := (q.setTill n ((t.till n).abandon .ready)).closeBlock c n { reset := true }
  exact h.orDefer _ _ (h.resetDone n)

theorem State.Quiet.summariesNow (q : s.Quiet t) (c : Charter) (day : Word16) (clock : Nat) :
    s.Quiet (t.summariesNow c day clock) := by
  unfold State.summariesNow
  exact State.Quiet.handUpload (q.foldl _ _ fun _ _ h => (h.handUpload c _).freeCount _) c _

theorem State.Quiet.nightWork (q : s.Quiet t) (c : Charter) : s.Quiet (t.nightWork c) := by
  unfold State.nightWork
  have h := State.Quiet.closeBlocks (State.Quiet.foldl q (fun s n => s.setTill n (s.till n).signOffNight)
    (List.range c.tillCount) fun _ _ h => h.setTill _ _) c (fun _ => true) { night := true }
  exact h.orDefer _ _ (h.summariesNow c _ _)

/-! ## Intake unit -/

theorem State.Quiet.writeIntakeIndexes (q : s.Quiet t) (c : Charter) : s.Quiet (t.writeIntakeIndexes c) :=
  (q.placeOwn _).placeOwn _

theorem State.Quiet.setHalf (q : s.Quiet t) (h : Option HalfBlock) : s.Quiet (t.setHalf h) := q.withIntake _

theorem State.Quiet.breakBatch (q : s.Quiet t) (why : Reason) (n : Nat) : s.Quiet (t.breakBatch why n) := by
  unfold State.breakBatch
  split
  · exact (q.withIntake _).report _
  · exact q

theorem State.Quiet.refuseHalf (q : s.Quiet t) (c : Charter) (r : HalfRefusal) (tx : Transaction) :
    s.Quiet (t.refuseHalf c r tx) := by
  unfold State.refuseHalf
  dsimp only
  split
  · exact (((q.refuse c _ _ tx).freeCount _).withIntake _).breakBatch _ _
  · exact ((q.refuse c _ _ tx).freeCount _).withIntake _

theorem State.Quiet.readBlock (q : s.Quiet t) (c : Charter) : s.Quiet (t.readBlock c) := (q.placeOwn _).placeOwn _

theorem State.Quiet.gateNow (q : s.Quiet t) : s.Quiet t.gateNow := by
  unfold State.gateNow
  split
  · exact q
  · split
    · exact (q.withIntake _).readBlock _
    · exact q

theorem State.Quiet.examineGate (q : s.Quiet t) : s.Quiet t.examineGate := q.orDefer _ _ q.gateNow

theorem State.Quiet.startBatch (q : s.Quiet t) (h : BlockHeader) : s.Quiet (t.startBatch h) := q.withIntake _

theorem State.Quiet.writeIntakeProducer (q : s.Quiet t) (c : Charter) : s.Quiet (t.writeIntakeProducer c) := q.placeOwn _

theorem State.Quiet.takeBlock (q : s.Quiet t) (c : Charter) (h : BlockHeader) (o : BlockOutcome) :
    s.Quiet (t.takeBlock c h o) := by
  unfold State.takeBlock
  split
  · exact ((q.withIntake _).writeIntakeProducer c).examineGate
  · dsimp only
    split
    · exact ((q.startBatch h).writeIntakeProducer c).examineGate
    · exact ((q.startBatch h).writeIntakeIndexes c).examineGate
  · exact (((q.report _).startBatch h).writeIntakeIndexes c).examineGate

theorem State.Quiet.acceptBlock (q : s.Quiet t) (c : Charter) (h : HalfBlock) : s.Quiet (t.acceptBlock c h) := by
  unfold State.acceptBlock
  split
  · exact q.takeBlock c _ _
  · exact q

theorem State.Quiet.acceptForwarded (q : s.Quiet t) (c : Charter) (h : Option HalfBlock) :
    s.Quiet (t.acceptForwarded c h) := by
  cases h with
  | none => exact q
  | some h => exact q.acceptBlock c h

theorem State.Quiet.batchDiscarded (q : s.Quiet t) : s.Quiet t.batchDiscarded := q.withIntake _

theorem State.Quiet.skipRecords (q : s.Quiet t) (n : Nat) : s.Quiet (State.skipRecords n t) := by
  induction n generalizing t with
  | zero => exact q
  | succ n ih =>
    unfold State.skipRecords
    split
    · exact ih (q.withIntake _)
    · exact q
    · exact q

theorem State.Quiet.batchOver (q : s.Quiet t) (n : Nat) : s.Quiet (t.batchOver n) := (q.withIntake _).report _

theorem State.Quiet.endApply (q : s.Quiet t) (c : Charter) : s.Quiet (t.endApply c) := by
  unfold State.endApply
  have h := (q.withIntake { t.intake with consumer := t.intake.producer, block := none }).placeOwn
    (ownIndex .intake (c.window .intake) none (some t.intake.producer) .silent)
  exact h.orDefer _ _ (h.batchOver _)

theorem State.Quiet.settleIntake (q : s.Quiet t) : s.Quiet t.settleIntake := by
  unfold State.settleIntake
  split
  · exact q
  · have h := q.skipRecords 15
    dsimp only
    split
    · split
      · exact h
      · split
        · exact (h.withIntake _).readBlock _
        · split
          · exact h.endApply _
          · exact h
    · exact h

theorem State.Quiet.stagedNow (q : s.Quiet t) (b r : Nat) (cl full : Bool) :
    s.Quiet (t.stagedNow b r cl full) := by
  unfold State.stagedNow
  dsimp only
  split
  · exact (q.withIntake _).settleIntake
  · exact q

theorem State.Quiet.stageAnswered (q : s.Quiet t) (b r : Nat) (cl full : Bool) :
    s.Quiet (t.stageAnswered b r cl full) := q.orDefer _ _ (q.stagedNow b r cl full)

/-! ## Sources of the entry update queue -/

theorem State.Quiet.nextRescan (q : s.Quiet t) {r : EntryReq} {u : State} (h : t.nextRescan = some (r, u)) : s.Quiet u := by
  unfold State.nextRescan at h
  split at h
  · split at h
    · cases h
    · simp only [Option.some.injEq, Prod.mk.injEq] at h
      obtain ⟨_, rfl⟩ := h
      exact q.withSweep _
  · cases h

theorem State.Quiet.nextResync (q : s.Quiet t) {r : EntryReq} {u : State} (h : t.nextResync = some (r, u)) : s.Quiet u := by
  unfold State.nextResync at h
  split at h
  · simp only [Option.some.injEq, Prod.mk.injEq] at h
    obtain ⟨_, rfl⟩ := h
    exact q.withSweep _
  · cases h

theorem State.Quiet.nextOf (q : s.Quiet t) (src : Source) {r : EntryReq} {u : State} (h : t.nextOf src = some (r, u)) :
    s.Quiet u := by
  unfold State.nextOf at h
  split at h
  · cases h
  · cases h
  · rcases hn : t.nextResync with _ | x
    · rw [hn] at h
      exact q.nextRescan (by simpa using h)
    · rw [hn] at h
      exact q.nextResync (hn.trans (by simpa using h))
  · split at h
    · cases h; exact q.withIntake _
    · cases h
    · cases h
  · split at h
    · split at h
      · simp only [Option.map_eq_some_iff, Prod.mk.injEq] at h
        obtain ⟨_, _, _, rfl⟩ := h
        exact q.withBook _ (hl := fun b => by simpa [markItem, State.listCount] using b.list)
      · cases h
    · cases h
  · split at h
    · split at h
      · simp only [Option.some.injEq, Prod.mk.injEq] at h
        obtain ⟨_, rfl⟩ := h
        exact q.withBook _
      · cases h
    · cases h

theorem State.nextRescan_queue (t : State) {r : EntryReq} {u : State} (h : t.nextRescan = some (r, u)) :
    u.book.queue.length = t.book.queue.length := by
  unfold State.nextRescan at h
  split at h
  · split at h
    · cases h
    · cases h; rfl
  · cases h

theorem State.nextResync_queue (t : State) {r : EntryReq} {u : State} (h : t.nextResync = some (r, u)) :
    u.book.queue.length = t.book.queue.length := by
  unfold State.nextResync at h
  split at h
  · cases h; rfl
  · cases h

/-- What a source places next leaves the queue itself as it is. -/
theorem State.nextOf_queue (t : State) (src : Source) {r : EntryReq} {u : State} (hu : t.nextOf src = some (r, u)) :
    u.book.queue.length = t.book.queue.length := by
  unfold State.nextOf at hu
  split at hu
  · cases hu
  · cases hu
  · rcases hn : t.nextResync with _ | x
    · rw [hn] at hu
      exact t.nextRescan_queue (by simpa using hu)
    · rw [hn] at hu
      exact t.nextResync_queue (hn.trans (by simpa using hu))
  all_goals
    repeat' split at hu
    all_goals first
      | (cases hu; done)
      | (cases hu; rfl)
      | (simp only [Option.map_eq_some_iff, Prod.mk.injEq] at hu
         obtain ⟨_, _, _, rfl⟩ := hu; rfl)

theorem State.Quiet.settleSource (q : s.Quiet t) (src : Source) : s.Quiet (t.settleSource src) := by
  unfold State.settleSource
  split
  · exact q.settleIntake
  · split
    · split
      · exact q.withBook _
      · exact q
    · exact q
  all_goals exact q

/-- A source that fills the queue is quiet when what it places next is. -/
theorem State.Quiet.fillFrom (q : s.Quiet t) (next : State → Option (EntryReq × State)) (src : Source) (n : Nat)
    (hn : ∀ {v u r}, s.Quiet v → next v = some (r, u) → s.Quiet u ∧ u.book.queue.length = v.book.queue.length) :
    s.Quiet (State.fillFrom next src n t) := by
  induction n generalizing t with
  | zero => exact q
  | succ n ih =>
    unfold State.fillFrom
    split
    · exact q
    · rename_i r u hu
      obtain ⟨h, hlen⟩ := hn q hu
      split
      · rename_i hr
        exact ih ((h.pushEntry r (by simpa [hlen, State.entryRoom] using hr.1)).settleSource src)
      · exact q.waitEntry _

theorem State.Quiet.fill (q : s.Quiet t) (src : Source) : s.Quiet (t.fill src) :=
  q.fillFrom _ src _ fun h e => ⟨h.nextOf src e, State.nextOf_queue _ src e⟩

theorem State.Quiet.fillRescan (q : s.Quiet t) : s.Quiet t.fillRescan :=
  q.fillFrom _ _ _ fun h e => ⟨h.nextRescan e, State.nextRescan_queue _ e⟩

end Sys2Proof.Machine
end

