-- ==== Sys2Proof/Laws/FrameBook.lean ====
section
/-! SUPPORT. The operations of the price book unit are quiet. -/

namespace Sys2Proof.Machine

variable {s t : State}

/-! ## The changeover list -/

theorem insertTimed_length (x : ListItem) (l : List ListItem) : (insertTimed x l).length = l.length + 1 := by
  induction l with
  | nil => rfl
  | cons y ys ih =>
    unfold insertTimed
    split
    · rfl
    · simp [ih]

theorem insertOpen_length (x : ListItem) (l : List ListItem) : (insertOpen x l).length = l.length + 1 := by
  induction l with
  | nil => rfl
  | cons y ys ih =>
    unfold insertOpen
    split
    · rfl
    · simp [ih]

theorem State.Quiet.unlist (q : s.Quiet t) (item : Nat) : s.Quiet (t.unlist item) := by
  refine q.withBook _ (hl := fun b => Nat.le_trans (Nat.add_le_add ?_ ?_) b.list)
  · exact List.length_filter_le _ _
  · exact List.length_filter_le _ _

theorem length_filter_lt {l : List ListItem} {item : Nat} (h : (l.find? (fun x => x.item == item)).isSome = true) :
    (l.filter (fun x => x.item != item)).length < l.length := by
  obtain ⟨x, hx, hp⟩ := List.find?_isSome.mp h
  exact List.length_filter_lt_length_iff_exists.mpr ⟨x, hx, by simpa using hp⟩

/-- Taking an item out of the changeover list makes room for it. -/
theorem State.unlist_room (t : State) (item : Nat) (b : t.listCount ≤ Config.listDepth)
    (h : t.listed item = true ∨ t.listCount < Config.listDepth) : (t.unlist item).listCount < Config.listDepth := by
  have h1 := List.length_filter_le (fun x : ListItem => x.item != item) t.book.timed
  have h2 := List.length_filter_le (fun x : ListItem => x.item != item) t.book.openGroup
  simp only [State.listCount, State.unlist, State.withBook_book] at *
  rcases h with h | h
  · unfold State.listed State.listItem at h
    split at h
    · have := length_filter_lt (l := t.book.timed) (item := item) (by simp [*])
      omega
    · have := length_filter_lt (l := t.book.openGroup) (item := item) h
      omega
  · omega

theorem State.Quiet.listTimed (q : s.Quiet t) (item : Nat) (key due : Word32)
    (h : t.listed item = true ∨ t.listCount < Config.listDepth) : s.Quiet (t.listTimed item key due) := by
  have hq := q.unlist item
  refine q.trans ⟨⟨rfl, rfl, rfl, rfl, rfl, rfl, rfl, rfl, rfl⟩, ⟨rfl, rfl, rfl, rfl, rfl, rfl⟩,
    ⟨rfl, rfl, rfl, rfl, rfl, rfl, rfl⟩, fun g => ?_⟩
  have b := g.2
  have hr := t.unlist_room item b.list h
  refine ((State.Quiet.refl t).unlist item).withBook
    { (t.unlist item).book with
      timed := insertTimed { item, key, due, marked := t.listMark item } (t.unlist item).book.timed }
    (hl := fun _ => ?_) |>.good ⟨g.1, b⟩
  simp only [State.listCount] at hr
  simp only [insertTimed_length]
  omega

theorem State.Quiet.listOpen (q : s.Quiet t) (item : Nat)
    (h : t.listed item = true ∨ t.listCount < Config.listDepth) : s.Quiet (t.listOpen item) := by
  refine q.trans ⟨⟨rfl, rfl, rfl, rfl, rfl, rfl, rfl, rfl, rfl⟩, ⟨rfl, rfl, rfl, rfl, rfl, rfl⟩,
    ⟨rfl, rfl, rfl, rfl, rfl, rfl, rfl⟩, fun g => ?_⟩
  have b := g.2
  have hr := t.unlist_room item b.list h
  refine ((State.Quiet.refl t).unlist item).withBook
    { (t.unlist item).book with
      openGroup := insertOpen { item, key := 0, due := 0, marked := t.listMark item } (t.unlist item).book.openGroup }
    (hl := fun _ => ?_) |>.good ⟨g.1, b⟩
  simp only [State.listCount] at hr
  simp only [insertOpen_length]
  omega

theorem State.Quiet.unmark (q : s.Quiet t) (item : Nat) : s.Quiet (t.unmark item) :=
  q.withBook _ (hl := fun b => by simpa [State.listCount] using b.list)

theorem State.timedDue_listed (t : State) (item : Nat) {x : ListItem} (h : t.timedDue item = some x) :
    t.listed item = true := by
  unfold State.timedDue at h
  unfold State.listed State.listItem
  split
  · rfl
  · simp_all

/-! ## Work on an entry -/

theorem Work.offer_quiet {w : Work} (q : s.Quiet w.st) (item : Nat) (closing anew : Bool) :
    s.Quiet (w.offer item closing anew).st := by
  unfold Work.offer
  split
  · exact q.offer _ _ _
  · exact q

theorem Work.add_quiet {w : Work} (q : s.Quiet w.st) (a : LeaveAct) : s.Quiet (w.add a).st := q

theorem Work.goOver_quiet {w : Work} (q : s.Quiet w.st) (c : Charter) (item : Nat)
    (forced closing : Bool) : s.Quiet (w.goOver c item forced closing).st := by
  unfold Work.goOver
  dsimp only
  split
  · exact Work.offer_quiet ((q.unlist item).dropAssignment _ _ _) _ _ _
  · refine Work.offer_quiet ?_ _ _ _
    exact q.unlist item

theorem Work.wait_quiet {w : Work} (q : s.Quiet w.st) (c : Charter) (item : Nat) (due : Word32)
    (h : w.st.listed item = true ∨ w.st.listCount < Config.listDepth) : s.Quiet (w.wait c item due).st := by
  unfold Work.wait
  refine Work.offer_quiet ?_ _ _ _
  exact q.listTimed _ _ _ h

theorem performStage_quiet (q : s.Quiet t) (c : Charter) (item : Nat) (e : Entry) (ch : Change)
    (eff : EffKind) (second : Nat) (src : StageSource) (cl : Bool) :
    s.Quiet (performStage t c item e ch eff second src cl).st := by
  unfold performStage
  dsimp only
  split
  · exact q
  · rename_i hn
    have room : (eff != .now || !(e.staged ch eff (dueSecond t.phase e.due second eff)).goesAtOnce c.unit) = true →
        t.listed item = true ∨ t.listCount < Config.listDepth := by
      intro hp
      by_cases hl : t.listed item = true
      · exact .inl hl
      · refine .inr (Nat.lt_of_not_le fun hc => hn ⟨hp, by simpa using hl, hc⟩)
    split
    · split
      · exact Work.wait_quiet q _ _ _ (room (by simp_all))
      · exact Work.goOver_quiet q _ _ _ _
    · refine Work.offer_quiet ?_ _ _ _
      exact q.listTimed _ _ _ (room (by simp))
    · refine Work.offer_quiet ?_ _ _ _
      exact q.listOpen _ (room (by simp))
    · refine Work.offer_quiet ?_ _ _ _
      exact q.listOpen _ (room (by simp))

theorem performDue_quiet (q : s.Quiet t) (c : Charter) (item : Nat) (e : Entry) :
    s.Quiet (performDue t c item e).st := by
  have h := q.unmark item
  unfold performDue
  dsimp only
  split
  · exact h
  · rename_i x hx
    split
    · exact Work.goOver_quiet h _ _ _ _
    · split
      · exact Work.goOver_quiet h _ _ _ _
      · exact Work.wait_quiet h _ _ _ (.inl (State.timedDue_listed _ _ hx))

theorem Work.release_quiet {w : Work} (q : s.Quiet w.st) (c : Charter) (item : Nat) :
    s.Quiet (w.release c item).st := by
  unfold Work.release
  split
  · exact Work.goOver_quiet q _ _ _ _
  · exact q

theorem State.Quiet.countLoad (q : s.Quiet t) (f : Load → Load) (h : ∀ l, (f l).mode = l.mode) :
    s.Quiet (t.countLoad f) := by
  refine q.withControl _ (hl := ?_)
  cases t.control.load <;> simp [h]

theorem Work.keepPending_quiet {w : Work} (q : s.Quiet w.st) (item : Nat) : s.Quiet (w.keepPending item).st := by
  unfold Work.keepPending
  dsimp only
  split
  · exact q
  · split
    · exact q.countLoad _ (fun _ => rfl)
    · rename_i hn
      have room : w.st.listed item = true ∨ w.st.listCount < Config.listDepth := by
        by_cases hl : w.st.listed item = true
        · exact .inl hl
        · exact .inr (Nat.lt_of_not_le fun hc => hn ⟨by simpa using hl, hc⟩)
      split
      · exact q.listOpen _ room
      · exact q.listTimed _ _ _ room

theorem performKeep_quiet (q : s.Quiet t) (c : Charter) (item : Nat) (e : Entry) (ok : Bool) :
    s.Quiet (performKeep t c item e ok).st := by
  unfold performKeep
  split
  · exact q.countLoad _ (fun _ => rfl)
  · dsimp only
    refine Work.offer_quiet ?_ _ _ _
    have h1 : s.Quiet (if (e.keepLive c.unit t.loadSecond).charge = e.charge then t else
        t.countLoad (fun l => { l with recomputed := l.recomputed + 1 })) := by
      split
      · exact q
      · exact q.countLoad _ (fun _ => rfl)
    generalize (if (e.keepLive c.unit t.loadSecond).charge = e.charge then t else
        t.countLoad (fun l => { l with recomputed := l.recomputed + 1 })) = u at h1 ⊢
    have h2 := Work.keepPending_quiet (w := { st := u, entry := e.keepLive c.unit t.loadSecond, acts := [.kept] }) h1 item
    dsimp only
    split
    · exact h2.countLoad _ (fun _ => rfl)
    · exact h2

theorem performUnanswered_quiet (q : s.Quiet t) (c : Charter) (item : Nat) (e : Entry) :
    s.Quiet (performUnanswered t c item e).st := by
  unfold performUnanswered
  dsimp only
  split
  · exact q
  · split
    · split
      · exact Work.offer_quiet q _ _ _
      · exact Work.offer_quiet q _ _ _
    · exact q

/-- Whatever its kind, the work of a request is quiet. -/
theorem perform_quiet (q : s.Quiet t) (c : Charter) (r : EntryReq) (e : Entry) (ok : Bool) :
    s.Quiet (perform t c r e ok).st := by
  unfold perform
  split
  · exact performStage_quiet q c _ _ _ _ _ _ _
  · exact performDue_quiet q c _ _
  · exact q
  · exact Work.offer_quiet q _ _ _
  · unfold performFrame
    dsimp only
    split
    · exact q
    · split <;> exact q
  · unfold performAck
    split
    · exact Work.release_quiet (Work.offer_quiet q _ _ _) _ _
    · exact q
  · unfold performLate
    dsimp only
    split
    · split
      · exact Work.release_quiet (w := { st := t.removeQueued r.item, entry := _ }) (q.removeQueued _) _ _
      · exact q
    · exact q
  · exact performUnanswered_quiet q c _ _
  · unfold performReturn
    dsimp only
    split
    · exact Work.offer_quiet q _ _ _
    · exact q
  · unfold performResync
    dsimp only
    split
    · exact Work.offer_quiet q _ _ _
    · exact q
  · exact performKeep_quiet q c _ _ _

/-! ## A request leaves the queue -/

theorem State.Quiet.closeOut (q : s.Quiet t) (item : Nat) : s.Quiet (t.closeOut item) := by
  unfold State.closeOut
  split
  · exact q.setVisit _
  · exact q

theorem State.Quiet.frameAnswered (q : s.Quiet t) (item : Nat) (f : Option FrameInfo) :
    s.Quiet (t.frameAnswered item f) := by
  unfold State.frameAnswered
  split
  · exact q
  · dsimp only
    split
    · exact q.setVisit _
    · split
      · exact (q.setVisit _).placeEntry _ _
      · exact q.setVisit _

theorem State.Quiet.leaveAct (q : s.Quiet t) (a : LeaveAct) : s.Quiet (t.leaveAct a) := by
  unfold State.leaveAct
  split
  · exact q.report _
  · exact q.stageAnswered _ _ _ _
  · exact q.setResult _ _
  · exact q.priceAnswered _
  · exact q.joinTail _ _
  · exact q.addLate _ _
  · exact q.closeOut _
  · exact q.frameAnswered _ _
  · split
    · exact q.setResult _ _
    · exact q
  · refine q.countLoad _ fun l => ?_
    simp only [Load.mode, Prod.mk.injEq, true_and]
    split
    · rename_i h
      rw [h.1]
      rfl
    · rfl

theorem State.Quiet.headLeaves (q : s.Quiet t) (acts : List LeaveAct) :
    s.Quiet (t.headLeaves acts) := by
  have h : s.Quiet ((acts.foldl State.leaveAct
      (t.withBook { t.book with queue := t.book.queue.tail, headPhase := .notBegun })).beginHead.finishCancel) := by
    refine State.Quiet.finishCancel (State.Quiet.beginHead (State.Quiet.foldl (q.withBook _ (hq := fun b => ?_)) _ _
      fun _ _ h => h.leaveAct _))
    have := b.queue
    simp only [List.length_tail]
    omega
  unfold State.headLeaves
  dsimp only
  split
  · exact h.wakeSweep
  · exact h

theorem State.Quiet.performFresh (q : s.Quiet t) : s.Quiet t.performFresh := by
  unfold State.performFresh
  split
  · exact (q.withBook _).placeOwn _
  · exact q

/-! ## Control unit -/

theorem State.Quiet.placeStatus (q : s.Quiet t) (r : OwnRequest) : s.Quiet (t.placeStatus r) := by
  unfold State.placeStatus
  split
  · exact q.withLink _
  · exact q.placeOwn r

theorem State.Quiet.writeStatus (q : s.Quiet t) : s.Quiet t.writeStatus := by
  unfold State.writeStatus
  split
  · exact q
  · exact ((q.withControl _).withLink _).placeStatus _

theorem State.Quiet.takeControlProducer (q : s.Quiet t) (c : Charter) (v : Word32) :
    s.Quiet (t.takeControlProducer c v) := by
  unfold State.takeControlProducer
  dsimp only
  split
  · exact q
  split
  · exact q.withControl _
  · split
    · exact q.withControl _
    · exact q

theorem State.Quiet.fetchNow (q : s.Quiet t) : s.Quiet t.fetchNow := by
  unfold State.fetchNow
  split
  · exact q
  · split
    · exact (q.withControl _).placeOwn _
    · exact q

theorem State.Quiet.fetchControl (q : s.Quiet t) : s.Quiet t.fetchControl := q.orDefer _ _ q.fetchNow

theorem State.Quiet.finishControl (q : s.Quiet t) (c : Charter) (r : ControlRecord) (x : ControlResult) :
    s.Quiet (t.finishControl c r x) := ((q.withControl _).placeOwn _).report _

end Sys2Proof.Machine
end

