-- ==== Sys2Proof/Laws/FrameLink.lean ====
section
/-! SUPPORT. What the link interface, the changes of phase and the load leave: memory, time and the invariant of the units.
`Kept s t` says that memory, reset, the clocks and the power-fail filter are as they were and that the invariant is kept. -/

namespace Sys2Proof.Machine

variable {s t : State}

/-- Memory and time are as they were, and the invariant of the units is kept. -/
structure State.Kept (s t : State) : Prop where
  time : s.SameTime t
  inv  : s.UnitsInv → t.UnitsInv

theorem State.Kept.refl (s : State) : s.Kept s := ⟨.refl s, id⟩

theorem State.Kept.trans {u : State} (a : s.Kept t) (b : t.Kept u) : s.Kept u :=
  ⟨a.time.trans b.time, fun h => b.inv (a.inv h)⟩

theorem State.Quiet.kept (q : s.Quiet t) : s.Kept t := ⟨q.time, q.unitsInv⟩

/-- A quiet operation after a run that kept the invariant. -/
theorem State.Kept.quiet {u : State} (a : s.Kept t) (q : t.Quiet u) : s.Kept u := a.trans q.kept

theorem State.UnitsInv.good (h : s.UnitsInv) : s.Good := ⟨h.2.fits, h.1⟩

/-- A replacement of the link interface's piece. -/
theorem State.Kept.withLink (a : s.Kept t) (x : LinkState)
    (own : t.UnitsInv → x.own.length ≤ Config.ownDepth := by exact fun h => h.1.own)
    (stream : t.UnitsInv → x.stream.length ≤ Config.streamDepth := by exact fun h => h.1.stream)
    (hold : t.UnitsInv → x.hold.length ≤ Config.holdDepth := by exact fun h => h.1.hold)
    (passQueue : t.UnitsInv → x.passQueue.length ≤ Config.acceptDepth := by exact fun h => h.1.passQueue)
    (accept : t.UnitsInv → ∀ k, (x.accept.getD k []).length ≤ Config.acceptDepth := by exact fun h => h.1.accept)
    (refusals : t.UnitsInv → x.refusals ≤ 65535 := by exact fun h => h.1.refusals)
    (passFront : t.UnitsInv → t.charter = none → ∀ k, x.accept.getD k [] = [] := by exact fun h => h.2.passFront)
    (classFront : t.UnitsInv → t.charter.isSome = true → x.passQueue = [] := by exact fun h => h.2.classFront) :
    s.Kept (t.withLink x) :=
  a.trans ⟨⟨rfl, rfl, rfl, rfl, rfl, rfl, rfl, rfl, rfl⟩, fun h =>
    have b := h.1
    have m := h.2
    ⟨⟨own h, stream h, hold h, passQueue h, accept h, b.queue, b.list, b.pool, b.history, b.zones, b.base, refusals h, b.lost,
      b.level, b.period⟩,
     ⟨m.pass, m.active, m.loading, m.accepted, m.phase, m.fits, m.loadFits, passFront h, classFront h⟩⟩⟩

theorem State.Kept.foldl {α : Type} (a : s.Kept t) (f : State → α → State) (l : List α)
    (hf : ∀ u x, s.Kept u → s.Kept (f u x)) : s.Kept (l.foldl f t) := by
  induction l generalizing t with
  | nil => exact a
  | cons x l ih => exact ih (hf t x a)

/-- Work that may have to follow a request that waits keeps the invariant when the work does. -/
theorem State.Kept.orDefer (a : s.Kept t) (u : PartUnit) (k : Task) {f : State → State} (h : s.Kept (f t)) :
    s.Kept (t.orDefer u k f) := by
  unfold State.orDefer
  split
  · exact a.quiet ((State.Quiet.refl t).addTask u k)
  · exact h

theorem State.Kept.unlessWaiting (a : s.Kept t) (u : PartUnit) {f : State → State} (h : s.Kept (f t)) :
    s.Kept (t.unlessWaiting u f) := by
  unfold State.unlessWaiting
  split
  · exact a
  · exact h

/-! ## Phases and pacing -/

theorem State.Kept.flushHold (a : s.Kept t) (c : Charter) : s.Kept (t.flushHold c) := by
  refine State.Kept.foldl (a.withLink _ (hold := fun _ => Nat.zero_le _)) _ _ fun u _ h => h.quiet ((State.Quiet.refl u).refuse _ _ _ _)

theorem State.Kept.refloor (a : s.Kept t) : s.Kept t.refloor := a.quiet (State.Quiet.refl t).refloor

theorem State.Kept.closeGuests (a : s.Kept t) (c : Charter) : s.Kept (t.closeGuests c) :=
  (a.flushHold c).refloor.quiet ((State.Quiet.refl _).withGuest _ (hl := fun b => ⟨Nat.le_refl _, b.2.level.2⟩))

theorem State.Kept.openGuests (a : s.Kept t) : s.Kept t.openGuests :=
  a.refloor.quiet ((State.Quiet.refl _).withGuest _ (hl := fun b => ⟨b.2.level.2, b.2.level.2⟩))

theorem foldl_insertTimed_length (f : ListItem → ListItem) (l m : List ListItem) :
    (l.foldl (fun l x => insertTimed (f x) l) m).length = m.length + l.length := by
  induction l generalizing m with
  | nil => rfl
  | cons x l ih =>
    rw [List.foldl_cons, ih, insertTimed_length, List.length_cons]
    omega

theorem State.Quiet.moveOpenGroup (q : s.Quiet t) : s.Quiet t.moveOpenGroup := by
  refine q.withBook _ (hl := fun b => ?_)
  have := b.list
  simp only [State.listCount] at this
  rw [foldl_insertTimed_length]
  exact this

theorem State.Kept.recordPhase (a : s.Kept t) (p : Phase) (h : t.charter.isSome = true) : s.Kept (t.recordPhase p) := by
  unfold State.recordPhase
  dsimp only
  refine State.Kept.quiet ?_ ((State.Quiet.refl _).report _)
  refine a.trans ⟨⟨rfl, rfl, rfl, rfl, rfl, rfl, rfl, rfl, rfl⟩, fun i => ?_⟩
  have b := i.1
  have m := i.2
  exact ⟨⟨b.own, b.stream, b.hold, b.passQueue, b.accept, b.queue, b.list, b.pool, b.history, b.zones, b.base, b.refusals,
      b.lost, b.level, b.period⟩,
    ⟨m.pass, m.active, m.loading, m.accepted, by simpa using h, m.fits, m.loadFits, m.passFront, m.classFront⟩⟩

theorem State.Kept.enterPhase (a : s.Kept t) (c : Charter) (p : Phase) : s.Kept (t.enterPhase c p) := by
  unfold State.enterPhase
  split
  · exact ((a.quiet ((State.Quiet.refl _).addWork _)).closeGuests c).quiet (State.Quiet.refl _).examineGate
  · exact ((a.quiet (State.Quiet.refl _).moveOpenGroup).openGuests).quiet (State.Quiet.refl _).examineGate
  · exact a.refloor.quiet (State.Quiet.refl _).examineGate
  · exact ((a.quiet ((State.Quiet.refl _).nightWork c)).closeGuests c).quiet (State.Quiet.refl _).examineGate

theorem State.Kept.changePhase (a : s.Kept t) (c : Charter) (p : Phase) (h : t.charter.isSome = true) :
    s.Kept (t.changePhase c p) := ((a.recordPhase p h).enterPhase c p).quiet (State.Quiet.refl _).writeStatus

theorem State.Kept.takeWork (a : s.Kept t) (c : Charter) (k : JournalWork) (h : t.charter.isSome = true) :
    s.Kept (t.takeWork c k) := by
  unfold State.takeWork
  dsimp only
  have h1 := a.quiet ((State.Quiet.refl _).dropWork k)
  split
  · exact h1.quiet ((State.Quiet.refl _).idleWork c)
  · exact h1.quiet ((State.Quiet.refl _).powerWork c)
  · exact h1.quiet (State.Quiet.refl _).newDayContexts
  · exact h1.quiet ((State.Quiet.refl _).resetTill c _)
  · split
    · exact (h1.changePhase c _ h).quiet ((State.Quiet.refl _).setResult _ _)
    · exact h1.quiet ((State.Quiet.refl _).setResult _ _)

theorem State.Kept.workNow (a : s.Kept t) (k : JournalWork) : s.Kept (t.workNow k) := by
  unfold State.workNow
  split
  · rename_i c hc
    split
    · exact a.takeWork c k (by simp [hc])
    · exact a
  · exact a

theorem State.Kept.workAll (a : s.Kept t) : s.Kept t.workAll := by
  have h := a.foldl State.workNow t.journal.works fun _ _ h => h.workNow _
  exact h.orDefer _ _ h

/-! ## The stages of a load -/

theorem State.Kept.loadNow (a : s.Kept t) : s.Kept t.loadNow := by
  unfold State.loadNow
  dsimp only
  refine State.Kept.quiet ?_ ((((State.Quiet.refl _).setSweepState .stopped).cancelVisit.writeResult 1).placeOwns _)
  refine a.trans ⟨⟨rfl, rfl, rfl, rfl, rfl, rfl, rfl, rfl, rfl⟩, fun i => ?_⟩
  have b := i.1
  have m := i.2
  exact ⟨⟨b.own, b.stream, b.hold, b.passQueue, b.accept, b.queue, b.list, b.pool, b.history, b.zones, b.base, b.refusals,
      b.lost, b.level, b.period⟩,
    ⟨by simp, by simp, by simp, by simp, m.phase, m.fits, by simp, m.passFront, m.classFront⟩⟩

theorem State.Kept.loadWordNow (a : s.Kept t) : s.Kept t.loadWordNow := by
  unfold State.loadWordNow
  split
  · exact a.loadNow
  · exact a.quiet ((State.Quiet.refl t).writeResult 3)

theorem State.Quiet.resumeSweep (q : s.Quiet t) : s.Quiet t.resumeSweep := by
  unfold State.resumeSweep
  split
  · exact q.setSweepState _
  · exact q.restSweep.wakeSweep

theorem State.Kept.endLoadNow (a : s.Kept t) : s.Kept t.endLoadNow := by
  unfold State.endLoadNow
  split
  · split
    · dsimp only
      have h : s.Kept (t.withControl { t.control with part := if t.inForce then .active else .pass, load := none }) := by
        refine a.trans ⟨⟨rfl, rfl, rfl, rfl, rfl, rfl, rfl, rfl, rfl⟩, fun i => ?_⟩
        have b := i.1
        have m := i.2
        refine ⟨⟨b.own, b.stream, b.hold, b.passQueue, b.accept, b.queue, b.list, b.pool, b.history, b.zones, b.base,
            b.refusals, b.lost, b.level, b.period⟩,
          ⟨?_, ?_, ?_, by simp, m.phase, m.fits, by simp, m.passFront, m.classFront⟩⟩ <;>
        (rcases hc : t.charter with _ | c <;> simp [State.inForce, hc])
      generalize t.withControl { t.control with part := if t.inForce then .active else .pass, load := none } = u at h ⊢
      split
      · exact h.quiet (State.Quiet.refl _).resumeSweep
      · exact h
    · exact a
  · exact a

theorem State.Kept.refuseCharter (a : s.Kept t) (code : Nat) : s.Kept (t.refuseCharter code) := by
  have h := a.quiet ((State.Quiet.refl t).writeResult code)
  exact h.orDefer _ _ h.endLoadNow

theorem State.Quiet.zeroIndexes (q : s.Quiet t) (c : Charter) (k : WindowKind) : s.Quiet (t.zeroIndexes c k) :=
  (q.placeOwn _).placeOwn _

/-- The accept queues by index, one of them replaced. -/
theorem accept_getD (v : Vector (List Transaction) 7) (k i : Nat) (l : List Transaction) :
    (v.setIfInBounds k l).getD i [] = v.getD i [] ∨ (v.setIfInBounds k l).getD i [] = l ∧ i = k := by
  by_cases h : i < 7
  · rw [vector_getD_lt _ _ h, vector_getD_lt _ _ h, Vector.getElem_setIfInBounds]
    split
    · exact .inr ⟨rfl, by omega⟩
    · exact .inl rfl
  · exact .inl (by rw [vector_getD_ge _ _ h, vector_getD_ge _ _ h])

/-- The queues after the PASS queue has been sorted into them hold no more than they and it held. -/
theorem sortPass_length (c : Charter) (l : List Transaction) (v : Vector (List Transaction) 7) (i : Nat) :
    ((l.foldl (fun a tx => a.setIfInBounds (c.classOf tx.tag).index (a.getD (c.classOf tx.tag).index [] ++ [tx])) v).getD
      i []).length ≤ (v.getD i []).length + l.length := by
  induction l generalizing v with
  | nil => exact Nat.le_refl _
  | cons tx l ih =>
    rw [List.foldl_cons]
    refine Nat.le_trans (ih _) ?_
    rcases accept_getD v (c.classOf tx.tag).index i (v.getD (c.classOf tx.tag).index [] ++ [tx]) with e | ⟨e, rfl⟩ <;>
      simp only [e, List.length_cons, List.length_append, List.length_nil] <;> omega

theorem State.loadPhase_isSome (s : State) (c : Charter) (hc : c.Fits) (h : s.charter.isSome = s.phase.phase.isSome) :
    (s.loadPhase c).isSome = true := by
  unfold State.loadPhase State.inForce
  split
  · rename_i hs
    rw [← h]
    exact hs
  · split
    · exact hc.resume ‹_›
    · rfl

/-- Nothing but the taking of the charter changes what the units' invariant rests on: it is in force and fits, with a phase, and the
control unit, the path of the transactions and time are as they were. -/
theorem State.takeCharter_good (s : State) (c : Charter) (hc : c.Fits) (h : s.UnitsInv) :
    (s.takeCharter c).Good ∧ (s.takeCharter c).phase.phase.isSome = true := by
  have b := h.1
  have hb := baseOf_inRange c hc []
  have hf := floorFor_le c hc (s.loadPhase c) .stopped
  refine ⟨⟨fun c' e => by obtain rfl : c = c' := Option.some.inj e
                          exact hc, ?_⟩, s.loadPhase_isSome c hc h.2.phase⟩
  refine ⟨b.own, b.stream, b.hold, b.passQueue, b.accept, b.queue, b.list, b.pool, Nat.zero_le _, fun z => ?_,
    fun c' e => ?_, b.refusals, b.lost, ?_, Nat.two_pow_pos 32⟩
  · have : (Vector.replicate 12 ({} : ZoneRecord)).getD z {} = {} := by
      by_cases hz : z < 12
      · rw [vector_getD_lt _ _ hz]; simp
      · rw [vector_getD_ge _ _ hz]
    show ((Vector.replicate 12 ({} : ZoneRecord)).getD z {}).InRange
    rw [this]
    exact ⟨Nat.zero_le _, Nat.zero_le _, Nat.zero_le _⟩
  · obtain rfl : c = c' := Option.some.inj e
    exact ⟨hb.1, hb.2, blank_lt c hc _ hb.1⟩
  · refine ⟨?_, hf⟩
    show (if s.loadPhase c = some .trading ∨ s.loadPhase c = some .closing then floorFor c (s.loadPhase c) .stopped else 7) ≤ 7
    split
    · exact hf
    · exact Nat.le_refl _

/-- The part goes ACTIVE: the units have taken the charter and the PASS queue is sorted in the same moment. -/
theorem State.Kept.activateNow (a : s.Kept t) : s.Kept t.activateNow := by
  unfold State.activateNow
  split
  · rename_i l hl
    split
    · rename_i c _ hc
      dsimp only
      refine State.Kept.quiet ?_ (State.Quiet.refl _).writeStatus.resumeSweep
      refine a.trans ⟨⟨rfl, rfl, rfl, rfl, rfl, rfl, rfl, rfl, rfl⟩, fun h => ?_⟩
      have m := h.2
      have hfit : c.Fits := m.loadFits c (by rw [hl]; exact hc)
      obtain ⟨g, hph⟩ := t.takeCharter_good c hfit h
      refine ⟨⟨g.2.own, g.2.stream, g.2.hold, Nat.zero_le _, fun k => ?_, g.2.queue, g.2.list, g.2.pool, g.2.history,
        g.2.zones, g.2.base, g.2.refusals, g.2.lost, g.2.level, g.2.period⟩,
        ⟨by simp, fun _ => ⟨rfl, rfl⟩, by simp, by simp, hph.symm, fun x e => ?_, by simp, fun x => absurd x (by
          show ¬ (some c = none)
          simp), fun _ => rfl⟩⟩
      · refine Nat.le_trans (sortPass_length c t.link.passQueue t.link.accept k) ?_
        rcases hs : t.charter with _ | x
        · have := m.passFront hs k
          simp only [State.queueOf] at this
          rw [this]
          have := h.1.passQueue
          simpa using this
        · have := m.classFront (by simp [hs])
          rw [this]
          exact h.1.accept k
      · obtain rfl : c = x := Option.some.inj e
        exact hfit
    · exact a
  · exact a

/-- The POWER_WARNING report of a first load changes of the load only what the invariant does not rest on. -/
theorem State.Quiet.loadWarning (q : s.Quiet t) : s.Quiet t.loadWarning := by
  unfold State.loadWarning
  split
  · split
    · exact (q.withControl _ (hl := by simp [Load.mode, *])).report _
    · exact q
  · exact q

/-- The counts of the old rings are given up when the charter read has been accepted. -/
theorem State.Kept.giveUpRings (a : s.Kept t) {l : Load} (hl : t.control.load = some l) (hc : l.charter.isSome = true) :
    s.Kept (t.giveUpRings l) := by
  refine a.trans ⟨⟨rfl, rfl, rfl, rfl, rfl, rfl, rfl, rfl, rfl⟩, fun h => ?_⟩
  have b := h.1
  have m := h.2
  refine ⟨⟨b.own, b.stream, b.hold, b.passQueue, b.accept, b.queue, b.list, b.pool, b.history, b.zones, b.base, b.refusals,
      b.lost, b.level, b.period⟩,
    ⟨fun h2 => ?_, fun h2 => ?_, fun _ => rfl, fun x e _ => ?_, m.phase, m.fits, fun c h2 => ?_, m.passFront, m.classFront⟩⟩
  · have := (m.pass h2).2
    rw [hl] at this
    cases this
  · have := (m.active h2).2
    rw [hl] at this
    cases this
  · cases e
    exact hc
  · exact m.loadFits c (by rw [hl]; exact h2)

/-- An accepted load keeps the invariant of the units: but for the change of the part state its steps are quiet. -/
theorem State.Kept.acceptCharter (a : s.Kept t) (c : Charter) {l : Load} (hl : t.control.load = some l)
    (hc : l.charter.isSome = true) : s.Kept (t.acceptCharter c l) := by
  unfold State.acceptCharter
  dsimp only
  have q := State.Quiet.reports
    (State.Quiet.foldl (.refl (t.giveUpRings l)) (fun s k => s.zeroIndexes c k) zeroedRings fun _ k h => h.zeroIndexes c k)
    (t.loadReports c l)
  have h := (a.giveUpRings hl hc).quiet ((q.orDefer .control .loadWarning q.loadWarning).writeResult 2)
  exact h.orDefer _ _ h.activateNow

theorem State.Kept.acceptNow (a : s.Kept t) : s.Kept t.acceptNow := by
  unfold State.acceptNow
  split
  · split
    · exact a.acceptCharter _ ‹_› (by simp [*])
    · exact a
  · exact a

/-! ## A request leaves the entry update queue -/

/-- A till read that is released takes a place in the stream only while there is one (R25). -/
theorem State.Kept.releaseRead (a : s.Kept t) (k : Nat) : s.Kept (t.releaseRead k) := by
  unfold State.releaseRead
  split
  · rename_i tx rest hq
    split
    · rename_i ho
      unfold State.streamOpen at ho
      simp only [Bool.and_eq_true, decide_eq_true_eq] at ho
      refine a.withLink _ (stream := fun _ => by simpa using Nat.succ_le_of_lt ho.1) (accept := fun h i => ?_)
        (passFront := fun h n i => ?_)
      · rcases accept_getD t.link.accept k i rest with e | ⟨e, -⟩ <;> rw [e]
        · exact h.1.accept i
        · have := h.1.accept k
          simp only [State.queueOf, hq, List.length_cons] at this
          exact Nat.le_of_succ_le this
      · have := h.2.passFront n k
        simp only [State.queueOf, hq] at this
        cases this
    · exact a
  · exact a

theorem State.Kept.leaveHead (a : s.Kept t) (acts : List LeaveAct) : s.Kept (t.leaveHead acts) :=
  (a.foldl State.releaseRead _ fun _ k h => h.releaseRead k).quiet ((State.Quiet.refl _).headLeaves acts)

theorem State.Kept.performHead (a : s.Kept t) (b : List Byte) : s.Kept (t.performHead b) := by
  unfold State.performHead
  split
  · rename_i r rest c _ _
    have hp := a.quiet (perform_quiet (.refl t) c r (Entry.take c.retryLimit b) (entryCheckOk b))
    dsimp only
    generalize perform t c r (Entry.take c.retryLimit b) (entryCheckOk b) = w at *
    have h1 : s.Kept (if w.force = true ∨ w.entry ≠ Entry.take c.retryLimit b then
        (w.st.withBook { w.st.book with headPhase := .writing w.acts }).placeOwn
          (ownWrite .book (c.entryAddr r.item) w.entry.bytes .entryWrite)
      else w.st.leaveHead w.acts) := by
      split
      · exact hp.quiet (((State.Quiet.refl _).withBook _).placeOwn _)
      · exact hp.leaveHead _
    split
    · exact h1.quiet (State.Quiet.refl _).wakeSweep
    · exact h1
  · exact a

end Sys2Proof.Machine
end

