-- ==== Sys2Proof/Laws/FrameFront.lean ====
section
/-! SUPPORT. The judgement, forwarding and taking of transactions keep memory, time and the invariant of the units. -/

namespace Sys2Proof.Machine

variable {s t : State}

theorem State.Kept.watchLoadWord (a : s.Kept t) (tx : Transaction) : s.Kept (t.watchLoadWord tx) := by
  unfold State.watchLoadWord
  split
  · exact a.orDefer _ _ a.loadWordNow
  · exact a

theorem State.Quiet.takeUploadConsumer (q : s.Quiet t) (c : Charter) (v : Word32) : s.Quiet (t.takeUploadConsumer c v) :=
  (q.withJournal _).drain c

theorem State.Quiet.takeLabelConsumer (q : s.Quiet t) (v : Word32) : s.Quiet (t.takeLabelConsumer v) := by
  unfold State.takeLabelConsumer
  dsimp only
  split
  · exact q.withSweep _
  · exact (q.withSweep _).retryTake

theorem State.Quiet.takeReportConsumer (q : s.Quiet t) (v : Word32) : s.Quiet (t.takeReportConsumer v) := by
  unfold State.takeReportConsumer
  split
  · exact q
  · exact q.withControl _

theorem State.Quiet.observe (q : s.Quiet t) (c : Charter) (tx : Transaction) (o : Observed) :
    s.Quiet (t.observe c tx o) := by
  unfold State.observe
  split
  · exact q
  · exact q.withJournal _
  · exact q.takeUploadConsumer c _
  · exact q.takeReportConsumer _
  · exact q.takeLabelConsumer _
  · exact (q.takeControlProducer c _).fetchControl
  · exact q.examineAck c _
  · exact q.setHalf _
  · exact q.withIntake _
  · exact q.withGuest _ (hp := fun _ => by dsimp only; omega)

theorem State.Kept.pushStream (a : s.Kept t) (tx : Transaction) (r : Role)
    (h : t.link.stream.length < Config.streamDepth) : s.Kept (t.pushStream tx r) :=
  a.withLink _ (stream := fun _ => by simpa using Nat.succ_le_of_lt h)

theorem State.Kept.forwardTx (a : s.Kept t) (c : Charter) (tx : Transaction) (r : Role) (o : Observed)
    (h : t.link.stream.length < Config.streamDepth) : s.Kept (t.forwardTx c tx r o) :=
  ((a.pushStream tx r h).quiet ((State.Quiet.refl _).observe c tx o)).watchLoadWord tx

theorem State.Kept.popHead (a : s.Kept t) (k : Nat) : s.Kept (t.popHead k) := by
  refine a.withLink _ (accept := fun h i => ?_) (passFront := fun h n i => ?_)
  · rcases accept_getD t.link.accept k i (t.queueOf k).tail with e | ⟨e, -⟩ <;> rw [e]
    · exact h.1.accept i
    · rw [List.length_tail]
      exact Nat.le_trans (Nat.sub_le _ _) (h.1.accept k)
  · rcases accept_getD t.link.accept k i (t.queueOf k).tail with e | ⟨e, -⟩ <;> rw [e]
    · exact h.2.passFront n i
    · rw [h.2.passFront n k]
      rfl

theorem State.Kept.waitStream (a : s.Kept t) (k : Option Class) : s.Kept (t.waitStream k) := a.withLink _

theorem State.Kept.unwait (a : s.Kept t) (k : Class) : s.Kept (t.unwait k) := a.withLink _

theorem State.Kept.dropHead (a : s.Kept t) (k : Class) : s.Kept (t.dropHead k) := (a.unwait k).popHead _

theorem State.Quiet.promote (q : s.Quiet t) (a : Nat) : s.Quiet (t.promote a) := by
  unfold State.promote
  dsimp only
  generalize (fun q : OwnRequest => q.purpose == .entryWrite && q.addr == a) = p
  split
  · rename_i x hx
    refine q.withLink _ (ho := fun b => ?_)
    have h1 := List.find?_some hx
    have h2 := List.mem_of_find?_eq_some hx
    have := List.length_eraseP_of_mem h2 h1
    have := List.length_pos_of_mem h2
    have := b.own
    simp only [List.length_cons]
    omega
  · exact q

/-- The stream takes a head only while it has a place. -/
theorem State.streamOpen_room {t : State} {turn : Bool} (h : t.streamOpen turn = true) :
    t.link.stream.length < Config.streamDepth := by
  unfold State.streamOpen at h
  simp only [Bool.and_eq_true, decide_eq_true_eq] at h
  exact h.1

/-- The decoder sends a guest transaction to the hold queue only while it has a place (R151). -/
theorem State.judge_toHold (t : State) (c : Charter) (tx : Transaction) (h : t.judge c tx = .toHold) :
    t.link.hold.length < Config.holdDepth := by
  have guest : ∀ tx, t.judgeGuest c tx = .toHold → t.link.hold.length < Config.holdDepth := by
    intro tx h
    unfold State.judgeGuest at h
    split at h
    · split at h
      · cases h
      · split at h
        · assumption
        · cases h
    · cases h
  have opens : ∀ k p, t.judgeOpen c k p tx = .toHold → t.link.hold.length < Config.holdDepth := by
    intro k p h
    unfold State.judgeOpen at h
    split at h
    · split at h
      · exact guest tx h
      · cases h
    · cases h
  unfold State.judge at h
  dsimp only at h
  split at h
  · cases h
  · split at h
    · split at h <;> cases h
    · unfold State.judgeSpecial at h
      split at h
      · split at h
        · split at h <;> cases h
        · unfold State.judgePriceRead at h
          split at h
          · split at h
            · cases h
            · split at h <;> cases h
          · cases h
        · cases h
      · split at h
        · split at h
          · unfold State.judgeJournal at h
            split at h
            · cases h
            · split at h
              · cases h
              · split at h <;> cases h
          · cases h
        · unfold judgeAdminRing at h
          split at h
          · cases h
          · split at h <;> cases h
        · cases h
      · split at h
        · unfold judgeAdminRing at h
          split at h
          · cases h
          · split at h <;> cases h
        · cases h
      · split at h
        · unfold judgeAdminRing at h
          split at h
          · cases h
          · split at h <;> cases h
        · cases h
      · split at h
        · cases h
        · split at h
          · cases h
          · split at h <;> cases h
      · split at h <;> cases h
      · split at h
        · split at h
          · cases h
          · unfold State.judgeIntake at h
            split at h
            · cases h
            · split at h <;> split at h <;> cases h
        · split at h <;> cases h
        · cases h
      · split at h
        · split at h
          · cases h
          · split at h <;> cases h
        · split at h <;> cases h
        · cases h
      · split at h
        · split at h
          · cases h
          · unfold judgeLabelRx at h
            split at h
            · split at h <;> cases h
            · split at h <;> cases h
        · split at h <;> cases h
        · cases h
      · exact opens _ _ h
      · exact opens _ _ h
    · exact opens _ _ h

theorem State.Kept.carryOut (a : s.Kept t) (c : Charter) (k : Class) (turn : Bool) (tx : Transaction) (v : Verdict)
    (hv : v = .toHold → t.link.hold.length < Config.holdDepth) : s.Kept (t.carryOut c k turn tx v).1 := by
  unfold State.carryOut
  split
  · exact a.unwait k
  · exact (a.unwait k).quiet ((State.Quiet.refl _).promote _)
  · exact (a.dropHead k).quiet ((State.Quiet.refl _).refuse _ _ _ _)
  · exact (a.dropHead k).quiet ((State.Quiet.refl _).refuseJournal _ _ _)
  · dsimp only
    split
    · exact (a.dropHead k).quiet (((State.Quiet.refl _).refuseHalf _ _ _).setHalf _)
    · exact (a.dropHead k).quiet ((State.Quiet.refl _).refuseHalf _ _ _)
  · exact (a.dropHead k).quiet ((State.Quiet.refl _).answer _)
  · have := hv rfl
    exact (a.dropHead k).withLink _
      (hold := fun _ => by simpa [State.dropHead, State.unwait, State.popHead] using Nat.succ_le_of_lt this)
  · exact (a.unwait k).quiet ((State.Quiet.refl _).acceptRecord c _ _)
  · split
    · rename_i h
      exact (a.popHead _).forwardTx c tx _ _ (State.streamOpen_room h)
    · exact a.waitStream _

theorem State.Kept.forwardHand (a : s.Kept t) (c : Charter) (turn : Bool) (h : JournalHand) :
    s.Kept (t.forwardHand c turn h).1 := by
  unfold State.forwardHand
  split
  · rename_i ho
    exact (a.quiet ((State.Quiet.refl _).setHand _)).forwardTx c _ _ _ (State.streamOpen_room ho)
  · exact a.waitStream _

theorem State.Kept.serveHead (a : s.Kept t) (c : Charter) (k : Class) (turn : Bool) : s.Kept (t.serveHead c k turn).1 := by
  unfold State.serveHead
  split
  · split
    · exact a.forwardHand c turn _
    · exact a
    · exact a
  · split
    · exact a.carryOut c _ turn _ _ fun h => State.judge_toHold _ c _ h
    · exact a

theorem State.Kept.servePass (a : s.Kept t) (turn : Bool) : s.Kept (t.servePass turn).1 := by
  unfold State.servePass
  split
  · rename_i tx rest hq
    split
    · rename_i h
      have h1 : s.Kept (t.withLink { t.link with passQueue := rest }) := by
        refine a.withLink _ (passQueue := fun i => ?_) (classFront := fun i hs => ?_)
        · have := i.1.passQueue
          rw [hq, List.length_cons] at this
          exact Nat.le_of_succ_le this
        · have := i.2.classFront hs
          rw [hq] at this
          cases this
      exact (h1.pushStream _ _ (State.streamOpen_room h)).watchLoadWord _
    · exact a.waitStream _
  · exact a

theorem State.Kept.takeIn (a : s.Kept t) (tx : Transaction) : s.Kept (t.takeIn tx) := by
  unfold State.takeIn
  split
  · rename_i hc
    unfold State.canTake at hc
    split
    · rename_i hn
      simp only [hn, Bool.and_eq_true, decide_eq_true_eq] at hc
      exact a.withLink _ (passQueue := fun _ => by simpa using Nat.succ_le_of_lt hc.1) (classFront := fun _ hs => by simp [hn] at hs)
    · rename_i c hs
      simp only [hs, Bool.and_eq_true, decide_eq_true_eq] at hc
      refine a.withLink _ (accept := fun i j => ?_) (passFront := fun _ hn => by simp [hs] at hn)
      rcases accept_getD t.link.accept (c.classOf tx.tag).index j (t.queueOf (c.classOf tx.tag).index ++ [tx]) with e | ⟨e, -⟩ <;>
        rw [e]
      · exact i.1.accept j
      · simpa using Nat.succ_le_of_lt hc.1.1
  · exact a.withLink _

theorem State.Kept.refill (a : s.Kept t) : s.Kept t.refill :=
  (a.withLink _).foldl _ _ fun _ _ h => h.takeIn _

theorem State.Kept.pumpClass (a : s.Kept t) (c : Charter) (k : Class) (n : Nat) : s.Kept (State.pumpClass c k n t) := by
  induction n generalizing t with
  | zero => exact a
  | succ n ih =>
    unfold State.pumpClass
    have h := a.serveHead c k false
    split <;> rename_i e <;> rw [e] at h
    · exact ih h.refill
    · exact h

theorem State.Kept.pumpPass (a : s.Kept t) (n : Nat) : s.Kept (State.pumpPass n t) := by
  induction n generalizing t with
  | zero => exact a
  | succ n ih =>
    unfold State.pumpPass
    have h := a.servePass false
    split <;> rename_i e <;> rw [e] at h
    · exact ih h.refill
    · exact h

theorem State.Kept.pump (a : s.Kept t) : s.Kept t.pump := by
  unfold State.pump
  dsimp only
  split
  · exact a.refill.pumpPass _
  · exact a.refill.foldl _ _ fun _ k h => h.pumpClass _ k _

theorem State.Kept.offerTx (a : s.Kept t) (tx : Transaction) : s.Kept (t.offerTx tx) := a.withLink _

theorem State.Kept.transact (a : s.Kept t) (tx : Transaction) : s.Kept (t.transact tx) := by
  unfold State.transact
  split
  · exact a.offerTx tx
  · exact (a.offerTx tx).pump

theorem State.Kept.serveStream (a : s.Kept t) (n : Nat) : s.Kept (State.serveStream n t) := by
  induction n generalizing t with
  | zero => exact a
  | succ n ih =>
    unfold State.serveStream
    split
    · split
      · exact a
      · dsimp only
        split
        · exact ih ((a.withLink _).serveHead _ _ _)
        · exact ih ((a.withLink _).servePass _)
        · exact ih (a.withLink _)
        · exact ih (a.withLink _)
    · exact a

theorem State.Kept.releaseHold (a : s.Kept t) (c : Charter) (n : Nat) : s.Kept (State.releaseHold c n t) := by
  induction n generalizing t with
  | zero => exact a
  | succ n ih =>
    unfold State.releaseHold
    split
    · exact a
    · rename_i tx rest hq
      split
      · rename_i h
        refine ih (State.Kept.forwardTx (a.withLink _ (hold := fun i => ?_)) c tx _ _ (State.streamOpen_room h.2))
        have := i.1.hold
        rw [hq, List.length_cons] at this
        exact Nat.le_of_succ_le this
      · exact a

/-! ## Answers from memory -/

theorem State.Kept.takePassed (a : s.Kept t) (p : StreamItem → Bool) {x : StreamItem} {d : List Byte} {u : State}
    (h : t.takePassed p = some (x, d, u)) : s.Kept u := by
  unfold State.takePassed at h
  dsimp only at h
  split at h
  · cases h
    exact a.withLink _
  · cases h
  · cases h

theorem State.Kept.takeRead (a : s.Kept t) (p : Purpose) {d : List Byte} {u : State}
    (h : t.takeRead p = some (d, u)) : s.Kept u := by
  unfold State.takeRead at h
  dsimp only at h
  split at h
  · cases h
    exact a.withLink _
  · cases h
  · cases h

theorem State.Kept.takeWritten (a : s.Kept t) (p : Purpose → Bool) {q : Purpose} {u : State}
    (h : t.takeWritten p = some (q, u)) : s.Kept u := by
  unfold State.takeWritten at h
  dsimp only at h
  split at h
  · cases h
    exact a.withLink _
  · cases h
  · cases h

theorem State.Kept.takeControl (a : s.Kept t) (p : Nat → Bool) {d : List Byte} {u : State}
    (h : t.takeControl p = some (d, u)) : s.Kept u := by
  unfold State.takeControl at h
  split at h
  · rename_i h1
    split at h
    · cases h
      exact (a.takeRead _ h1).quiet ((State.Quiet.refl _).withControl _)
    · cases h
  · cases h

theorem State.Kept.takeBlockReads (a : s.Kept t) {d : List Byte} {u : State} (h : t.takeBlockReads = some (d, u)) :
    s.Kept u := by
  unfold State.takeBlockReads at h
  split at h
  · rename_i h1
    split at h
    · rename_i h2
      cases h
      exact (a.takeRead _ h1).takeRead _ h2
    · cases h
  · cases h

theorem State.Kept.takeCharterReads (a : s.Kept t) (n : Nat) {d : List Byte} {u : State}
    (h : State.takeCharterReads n t = some (d, u)) : s.Kept u := by
  induction n generalizing t d with
  | zero => cases h; exact a
  | succ n ih =>
    unfold State.takeCharterReads at h
    split at h
    · rename_i h1
      simp only [Option.map_eq_some_iff, Prod.mk.injEq] at h
      obtain ⟨q, hq, _, rfl⟩ := h
      exact ih (a.takeRead _ h1) hq
    · cases h

end Sys2Proof.Machine
end

