-- ==== Sys2Proof/Laws/Memory.lean ====
section
/-! SUPPORT. The laws of memory: what a read finds after a write, and the canonical form that every operation keeps. -/

namespace Sys2Proof.Machine

theorem Memory.wfFrom_mono {m : Memory} {lo lo' : Nat} (h : Memory.wfFrom lo m = true) (hl : lo' ≤ lo) :
    Memory.wfFrom lo' m = true := by
  cases m with
  | nil => rfl
  | cons p m =>
    obtain ⟨k, v⟩ := p
    simp only [Memory.wfFrom, Bool.and_eq_true, decide_eq_true_eq] at h ⊢
    exact ⟨⟨Nat.le_trans hl h.1.1, h.1.2⟩, h.2⟩

theorem Memory.write_wfFrom {m : Memory} {lo a : Nat} (b : Byte) (h : Memory.wfFrom lo m = true) (ha : lo ≤ a) :
    Memory.wfFrom lo (m.write a b) = true := by
  induction m generalizing lo with
  | nil =>
    unfold Memory.write
    split
    · rfl
    · simp [Memory.wfFrom, *]
  | cons p m ih =>
    obtain ⟨k, v⟩ := p
    have h' := h
    simp only [Memory.wfFrom, Bool.and_eq_true, decide_eq_true_eq] at h
    unfold Memory.write
    split
    · split
      · exact h'
      · rename_i hk hb
        simp only [Memory.wfFrom, Bool.and_eq_true, decide_eq_true_eq]
        exact ⟨⟨ha, by simpa using hb⟩, ⟨⟨hk, h.1.2⟩, h.2⟩⟩
    · split
      · rename_i hak
        split
        · exact Memory.wfFrom_mono h.2 (by omega)
        · rename_i hb
          simp only [Memory.wfFrom, Bool.and_eq_true, decide_eq_true_eq]
          exact ⟨⟨ha, by simpa using hb⟩, hak ▸ h.2⟩
      · simp only [Memory.wfFrom, Bool.and_eq_true, decide_eq_true_eq]
        exact ⟨h.1, ih h.2 (by omega)⟩

/-- One byte written keeps the canonical form. -/
theorem Memory.write_wf {m : Memory} (a : Nat) (b : Byte) (h : m.wf = true) : (m.write a b).wf = true :=
  Memory.write_wfFrom b h (Nat.zero_le a)

/-- A run of bytes written keeps the canonical form. -/
theorem Memory.writeBytes_wf {m : Memory} (a : Nat) (bs : List Byte) (h : m.wf = true) :
    (m.writeBytes a bs).wf = true := by
  induction bs generalizing m a with
  | nil => exact h
  | cons b bs ih => exact ih (a + 1) (Memory.write_wf a b h)

/-- A run of bytes written under a mask keeps the canonical form. -/
theorem Memory.writeMasked_wf {m : Memory} (a : Nat) (bs : List Byte) (ks : List Bool) (h : m.wf = true) :
    (m.writeMasked a bs ks).wf = true := by
  induction bs generalizing m a ks with
  | nil => cases ks <;> exact h
  | cons b bs ih =>
    cases ks with
    | nil => exact h
    | cons k ks =>
      unfold Memory.writeMasked
      cases k
      · exact ih (a + 1) ks h
      · exact ih (a + 1) ks (Memory.write_wf a b h)

theorem Memory.read_of_lt {m : Memory} {lo a : Nat} (h : Memory.wfFrom lo m = true) (ha : a < lo) :
    m.read a = Memory.blank := by
  induction m generalizing lo with
  | nil => rfl
  | cons p m ih =>
    obtain ⟨k, v⟩ := p
    simp only [Memory.wfFrom, Bool.and_eq_true, decide_eq_true_eq] at h
    unfold Memory.read
    rw [if_neg (by omega)]
    exact ih h.2 (by omega)

/-- A read of the byte just written finds it, in a memory in canonical form. -/
theorem Memory.read_write {m : Memory} (a : Nat) (b : Byte) (h : m.wf = true) : (m.write a b).read a = b := by
  unfold Memory.wf at h
  generalize 0 = lo at h
  induction m generalizing lo with
  | nil =>
    unfold Memory.write
    split
    · simp_all [Memory.read]
    · simp [Memory.read]
  | cons p m ih =>
    obtain ⟨k, v⟩ := p
    have h' := h
    simp only [Memory.wfFrom, Bool.and_eq_true, decide_eq_true_eq] at h
    unfold Memory.write
    split
    · split
      · rename_i hb
        rw [hb]
        exact Memory.read_of_lt (Memory.wfFrom_mono (lo' := a + 1) (by
          simp only [Memory.wfFrom, Bool.and_eq_true, decide_eq_true_eq]
          exact ⟨⟨by assumption, h.1.2⟩, h.2⟩) (Nat.le_refl _)) (by omega)
      · simp [Memory.read]
    · split
      · split
        · rename_i hb
          rw [hb]
          exact Memory.read_of_lt h.2 (by omega)
        · simp [Memory.read]
      · unfold Memory.read
        rw [if_neg (by omega)]
        exact ih _ h.2

/-- Every other byte reads as before. -/
theorem Memory.read_write_other {m : Memory} {a c : Nat} (b : Byte) (h : c ≠ a) : (m.write a b).read c = m.read c := by
  induction m with
  | nil =>
    unfold Memory.write
    split
    · rfl
    · simp [Memory.read, Ne.symm h]
  | cons p m ih =>
    obtain ⟨k, v⟩ := p
    unfold Memory.write
    split
    · split
      · rfl
      · rw [Memory.read, if_neg (by omega)]
    · split
      · rename_i hk
        split
        · rw [Memory.read.eq_2, if_neg (by omega)]
        · rw [Memory.read, Memory.read.eq_2, if_neg (by omega), if_neg (by omega)]
      · rw [Memory.read, Memory.read, ih]

/-- A byte outside a run written reads as before. -/
theorem Memory.read_writeBytes_outside {m : Memory} {a c : Nat} (bs : List Byte) (h : c < a ∨ a + bs.length ≤ c) :
    (m.writeBytes a bs).read c = m.read c := by
  induction bs generalizing m a with
  | nil => rfl
  | cons b bs ih =>
    simp only [List.length_cons] at h
    rw [Memory.writeBytes, ih (by omega), Memory.read_write_other b (by omega)]

/-- A byte outside a run written under a mask, or whose mask bit is clear, reads as before. -/
theorem Memory.read_writeMasked_kept {m : Memory} {a c : Nat} (bs : List Byte) (ks : List Bool)
    (h : c < a ∨ a + bs.length ≤ c ∨ ks.getD (c - a) false = false) : (m.writeMasked a bs ks).read c = m.read c := by
  induction bs generalizing m a ks with
  | nil => cases ks <;> rfl
  | cons b bs ih =>
    cases ks with
    | nil => rfl
    | cons k ks =>
      simp only [List.length_cons] at h
      rw [Memory.writeMasked]
      have hr : c < a + 1 ∨ a + 1 + bs.length ≤ c ∨ ks.getD (c - (a + 1)) false = false := by
        rcases h with h | h | h
        · omega
        · omega
        · by_cases hc : c < a + 1
          · exact .inl hc
          · refine .inr (.inr ?_)
            have : c - a = (c - (a + 1)) + 1 := by omega
            rw [this, List.getD_cons_succ] at h
            exact h
      rw [ih ks hr]
      split
      · rename_i hk
        refine Memory.read_write_other b fun e => ?_
        subst e
        rcases h with h | h | h
        · omega
        · omega
        · simp [hk] at h
      · rfl

/-- The bytes of a run written read back, in a memory in canonical form. -/
theorem Memory.read_writeBytes {m : Memory} (a i : Nat) (bs : List Byte) (h : m.wf = true) (hi : i < bs.length) :
    (m.writeBytes a bs).read (a + i) = bs[i] := by
  induction bs generalizing m a i with
  | nil => cases hi
  | cons b bs ih =>
    rw [Memory.writeBytes]
    cases i with
    | zero =>
      rw [Memory.read_writeBytes_outside bs (by omega)]
      exact Memory.read_write a b h
    | succ i =>
      have := ih (m := m.write a b) (a + 1) i (Memory.write_wf a b h) (by simpa using hi)
      rw [show a + (i + 1) = a + 1 + i by omega, this]
      rfl

theorem Memory.readBytes_length (m : Memory) (a n : Nat) : (m.readBytes a n).length = n := by
  induction n generalizing a with
  | zero => rfl
  | succ n ih => rw [Memory.readBytes, List.length_cons, ih]

theorem Memory.readBytes_getElem (m : Memory) (a n i : Nat) (h : i < (m.readBytes a n).length) :
    (m.readBytes a n)[i] = m.read (a + i) := by
  induction n generalizing a i with
  | zero => rw [Memory.readBytes_length] at h; omega
  | succ n ih =>
    cases i with
    | zero => rfl
    | succ i =>
      have := ih (a + 1) i (by simpa [Memory.readBytes] using h)
      simp only [Memory.readBytes, List.getElem_cons_succ]
      rw [this]
      congr 1
      omega

/-- A run of bytes just written reads back whole. -/
theorem Memory.readBytes_writeBytes {m : Memory} (a : Nat) (bs : List Byte) (h : m.wf = true) :
    (m.writeBytes a bs).readBytes a bs.length = bs := by
  apply List.ext_getElem (Memory.readBytes_length _ _ _)
  intro i h1 h2
  rw [Memory.readBytes_getElem]
  exact Memory.read_writeBytes a i bs h h2

end Sys2Proof.Machine
end

