-- ==== Sys2Proof/Laws/FrameCommands.lean ====
section
/-! SUPPORT. What the operations that only one command uses leave: each is quiet, or keeps memory, time and the invariant of
the units. A command's own frame is then one of these. -/

namespace Sys2Proof.Machine

variable {s t : State}

/-- A command whose operation keeps the invariant keeps it, whether RESET_N is asserted or not. -/
theorem State.running_kept (f : State → State) (h : s.Kept (f s)) (e : s.running f = .next t) : s.Kept t := by
  unfold State.running at e
  cases e
  split
  · exact .refl s
  · exact h

theorem State.Quiet.completeWrite (q : s.Quiet t) (x : StreamItem) : s.Quiet (t.completeWrite x) := q.answer _

/-! ## Entry update queue -/

theorem State.Kept.readReturned (a : s.Kept t) : s.Kept t.readReturned := by
  unfold State.readReturned
  split
  · rename_i h
    exact ((a.takeRead _ h).performHead _).pump
  · exact a

theorem State.Kept.readReturnedFor (a : s.Kept t) (p : ReqKind → Bool) : s.Kept (t.readReturnedFor p) := by
  unfold State.readReturnedFor
  split
  · split
    · exact a.readReturned
    · exact a
  · exact a

theorem State.Kept.writeCompleted (a : s.Kept t) : s.Kept t.writeCompleted := by
  unfold State.writeCompleted
  split
  · rename_i h
    exact ((a.takeWritten _ h).leaveHead _).pump
  · exact a

/-! ## Time, power and pacing -/

theorem State.Kept.handoffs (a : s.Kept t) (l : List Bool) :
    s.Kept (t.withPhase { t.phase with handoffs := l }) :=
  a.trans ⟨⟨rfl, rfl, rfl, rfl, rfl, rfl, rfl, rfl, rfl⟩, fun i =>
    have b := i.1
    have m := i.2
    ⟨⟨b.own, b.stream, b.hold, b.passQueue, b.accept, b.queue, b.list, b.pool, b.history, b.zones, b.base, b.refusals,
      b.lost, b.level, b.period⟩,
    ⟨m.pass, m.active, m.loading, m.accepted, m.phase, m.fits, m.loadFits, m.passFront, m.classFront⟩⟩⟩

theorem State.Quiet.secondSweep (q : s.Quiet t) (c : Charter) : s.Quiet (t.secondSweep c) := by
  unfold State.secondSweep
  split
  · exact q.wakeSweep
  · exact q

theorem State.Quiet.handSecond (q : s.Quiet t) (c : Charter) : s.Quiet (t.handSecond c) := by
  unfold State.handSecond
  dsimp only
  refine State.Quiet.secondSweep ?_ c
  split
  · exact (q.withBook _).addWork _
  · exact q.withBook _

theorem State.Quiet.endPeriod (q : s.Quiet t) (c : Charter) : s.Quiet (t.endPeriod c) := by
  unfold State.endPeriod
  split
  · refine q.withGuest _ (hl := fun b => ?_)
    have := b.2.level
    dsimp only
    unfold adjustLevel
    refine ⟨?_, this.2⟩
    split
    · omega
    · split <;> omega
  · exact q

theorem State.Kept.beginPeriod (a : s.Kept t) (c : Charter) : s.Kept (t.beginPeriod c) := by
  unfold State.beginPeriod
  dsimp only
  have h := a.quiet ((State.Quiet.refl t).withGuest { t.guest with periodBytes := 0 } (hp := fun _ => by dsimp only; decide))
  split
  · exact h.releaseHold c _
  · exact h

/-! ## Sweep -/

theorem State.Quiet.placeFrames (q : s.Quiet t) (w : Window) (n : Word32) (fs : List (List Byte)) :
    s.Quiet (State.placeFrames w n fs t) := by
  induction fs generalizing t n with
  | nil => exact q
  | cons f fs ih => exact ih (q.placeOwn _) _

theorem State.Quiet.frameIndexNow (q : s.Quiet t) (c : Charter) (n : Nat) : s.Quiet (t.frameIndexNow c n) := by
  unfold State.frameIndexNow
  split
  · exact q
  · split
    · exact q
    · exact (q.withSweep _).placeOwn _

theorem State.Quiet.publish (q : s.Quiet t) (c : Charter) (v : Visit) : s.Quiet (t.publish c v) := by
  unfold State.publish
  dsimp only
  split
  · exact q.afterVisit
  · exact (q.placeFrames _ _ _).orDefer _ _ ((q.placeFrames _ _ _).frameIndexNow c _)

theorem State.Quiet.endBlank (q : s.Quiet t) (v : Visit) : s.Quiet (t.endBlank v) := by
  unfold State.endBlank
  split
  · exact (q.setVisit _).setSweepState _
  · exact (q.setSweepState _).listenCheck
  · exact (q.setSweepState _).listenCheck

theorem State.Quiet.startVisit (q : s.Quiet t) (v : Visit) : s.Quiet (t.startVisit v) := by
  unfold State.startVisit
  dsimp only
  have h := (q.setVisit (some { v with
    stage := .onAir, start := t.micros, base := t.sweep.base, blank := t.sweep.blank, settle := t.sweep.settle })).setSweepState
    .blank
  generalize State.setSweepState _ .blank = u at h ⊢
  have h2 : s.Quiet (if v.kind = .sync then u.setZone v.zone { u.zoneRec v.zone with lastSync := some t.phase.mono } else u) := by
    split
    · exact h.setZone _ _ (by exact fun b => b.zones v.zone)
    · exact h
  generalize (if v.kind = .sync then u.setZone v.zone { u.zoneRec v.zone with lastSync := some t.phase.mono } else u) = w at h2 ⊢
  split
  · exact h2.endBlank _
  · exact h2

theorem State.Quiet.forceEnd (q : s.Quiet t) (v : Visit) : s.Quiet (t.forceEnd v) :=
  ((q.setSweepState _).ageLate _).closeRecords _ _ _

theorem State.Quiet.closeVisit (q : s.Quiet t) (c : Charter) (v : Visit) (hc : t.charter = some c) :
    s.Quiet (t.closeVisit c v) := by
  unfold State.closeVisit
  dsimp only
  have h : s.Quiet (match v.duration with | some d => t.recordDuration c d | none => t) := by
    split
    · exact q.recordDuration c hc _
    · exact q
  refine State.Quiet.afterVisit ?_
  split
  · exact h.countEmptyForced _
  · exact h

/-! ## Journal -/

theorem State.Kept.leaveNow (a : s.Kept t) (c : Charter) : s.Kept (t.leaveNow c) := by
  unfold State.leaveNow
  split
  · rename_i h _
    dsimp only
    have h2 := (a.popHead h.queue.index).quiet (((State.Quiet.refl _).setHand none).answer
      { tag := h.tx.tag, refused := false, data := [] } |>.reports h.report.toList)
    generalize State.reports _ h.report.toList = u at h2 ⊢
    have h3 : s.Kept (if h.closes.anyCause = true then u.closeBlock c (journalTill h.tx.data) h.closes else u) := by
      split
      · exact h2.quiet ((State.Quiet.refl u).closeBlock c _ _)
      · exact h2
    exact h3.orDefer _ _ h3.workAll
  · exact a

theorem State.Kept.leaveHand (a : s.Kept t) (c : Charter) : s.Kept (t.leaveHand c) := by
  unfold State.leaveHand
  have h := a.quiet (((State.Quiet.refl t).withJournal { t.journal with producer := t.journal.producer + 1 }).placeOwn
    (ownIndex .journal (c.window .journal) (some (t.journal.producer + 1)) none .silent))
  exact h.orDefer _ _ (h.leaveNow c)

/-! ## Control ring -/

/-- The charter is in force still when an answer is taken. -/
theorem State.takeRead_charter {p : Purpose} {d : List Byte} {u : State} (h : t.takeRead p = some (d, u)) :
    u.charter = t.charter := by
  unfold State.takeRead at h
  dsimp only at h
  split at h <;> cases h
  rfl

theorem State.takeControl_charter {p : Nat → Bool} {d : List Byte} {u : State} (h : t.takeControl p = some (d, u)) :
    u.charter = t.charter := by
  unfold State.takeControl at h
  split at h
  · rename_i h1
    split at h
    · cases h
      have := State.takeRead_charter h1
      exact this
    · cases h
  · cases h

theorem State.Kept.withRecordOf (a : s.Kept t) (p : Nat → Bool) (f : Charter → List Byte → State → State)
    (h : ∀ c d u, u.charter = some c → s.Kept u → s.Kept (f c d u)) : s.Kept (t.withRecordOf p f) := by
  refine a.unlessWaiting _ ?_
  split
  · rename_i c d s1 hc hd
    exact h _ _ _ ((State.takeControl_charter hd).trans hc) (a.takeControl _ hd)
  · exact a

theorem State.Kept.withRecord (a : s.Kept t) (k : Nat) (f : Charter → List Byte → State → State)
    (h : ∀ c d u, u.charter = some c → s.Kept u → s.Kept (f c d u)) : s.Kept (t.withRecord k f) := a.withRecordOf _ f h

theorem State.Kept.unlessLoading (a : s.Kept t) (f : State → State) (h : s.Kept (f t)) : s.Kept (t.unlessLoading f) := by
  unfold State.unlessLoading
  split
  · exact a.quiet ((State.Quiet.refl _).setResult _ _)
  · exact h

theorem State.Kept.takeSetPhase (a : s.Kept t) (c : Charter) (p : Option Phase) (h : t.charter.isSome = true) :
    s.Kept (t.takeSetPhase c p) := by
  unfold State.takeSetPhase
  split
  · exact a.quiet ((State.Quiet.refl _).setResult _ _)
  · split
    · exact a.quiet ((State.Quiet.refl _).setResult _ _)
    · split
      · exact a.quiet ((State.Quiet.refl _).addWork _)
      · exact (a.changePhase c _ h).quiet ((State.Quiet.refl _).setResult _ _)
      · exact a

theorem State.Quiet.takeUrgent (q : s.Quiet t) (c : Charter) (d : List Byte) : s.Quiet (t.takeUrgent c d) := by
  unfold State.takeUrgent
  dsimp only
  split
  · exact q.setResult _ _
  · exact q.placeEntry _ _

theorem State.Quiet.resyncNow (q : s.Quiet t) (c : Charter) (sel n : Nat) : s.Quiet (t.resyncNow c sel n) := by
  unfold State.resyncNow
  split
  · exact q.placeEntry _ _
  · split
    · exact (q.withSweep _).fillFrom _ _ _ fun h e => ⟨h.nextResync e, State.nextResync_queue _ e⟩
    · exact q.setResult _ _

theorem State.Quiet.takeResync (q : s.Quiet t) (c : Charter) (sel n : Nat) : s.Quiet (t.takeResync c sel n) :=
  q.orDefer _ _ (q.resyncNow c sel n)

theorem State.Kept.takeTillReset (a : s.Kept t) (c : Charter) (n : Nat) : s.Kept (t.takeTillReset c n) := by
  unfold State.takeTillReset
  split
  · exact a.quiet ((State.Quiet.refl _).setResult _ _)
  · exact (a.quiet ((State.Quiet.refl _).addWork _)).workNow _

theorem State.Kept.dueTillReset (a : s.Kept t) : s.Kept t.dueTillReset := a.foldl _ _ fun _ _ h => h.workNow _

theorem State.Quiet.modeNow (q : s.Quiet t) (n : Nat) : s.Quiet (t.modeNow n) := by
  unfold State.modeNow
  dsimp only
  split
  · exact q.setResult _ _
  · split
    · exact q.setResult _ _
    · split
      · split
        · exact ((q.withSweep _).setResult _ _).setSweepState _
        · exact (q.withSweep _).setResult _ _
      · split
        · exact ((q.withSweep _).setResult _ _).select
        · exact (q.withSweep _).setResult _ _

theorem State.Quiet.takeMode (q : s.Quiet t) (n : Nat) : s.Quiet (t.takeMode n) := q.orDefer _ _ (q.modeNow n)

theorem State.Quiet.stepNow (q : s.Quiet t) : s.Quiet t.stepNow := by
  unfold State.stepNow
  split
  · exact (q.setResult _ _).select
  · exact q.setResult _ _

theorem State.Quiet.takeStep (q : s.Quiet t) : s.Quiet t.takeStep := q.orDefer _ _ q.stepNow

theorem State.Quiet.discardBatch (q : s.Quiet t) (c : Charter) : s.Quiet (t.discardBatch c) := by
  have h := ((q.setResult .done false).withIntake { t.intake with consumer := t.intake.producer }).placeOwn
    (ownIndex .intake (c.window .intake) none (some t.intake.producer) .silent)
  exact h.orDefer _ _ h.batchDiscarded

theorem State.Quiet.discardNow (q : s.Quiet t) (c : Charter) : s.Quiet (t.discardNow c) := by
  unfold State.discardNow
  split
  · exact q.setResult _ _
  · exact q.setResult _ _
  · exact q.setResult _ _
  · exact q.discardBatch c
  · exact q.discardBatch c

theorem State.Quiet.takeDiscard (q : s.Quiet t) (c : Charter) : s.Quiet (t.takeDiscard c) := q.orDefer _ _ (q.discardNow c)

theorem State.Kept.takeReload (a : s.Kept t) (c : Charter) : s.Kept (t.takeReload c) := by
  unfold State.takeReload
  split
  · exact a.quiet ((State.Quiet.refl _).setResult _ _)
  · split
    · exact a.quiet ((State.Quiet.refl _).setResult _ _)
    · split
      · exact (a.quiet ((State.Quiet.refl _).finishControl _ _ _)).loadNow.quiet (State.Quiet.refl _).fetchControl
      · exact a

/-! ## Loading -/

/-- A charter that passes the check fits (R190). -/
theorem charterOf_fits (base : Nat) (b : List Byte) (h : charterRefusal base b = none) : (charterOf b).Fits := by
  unfold charterRefusal at h
  dsimp only at h
  split at h
  · cases h
  split at h
  · cases h
  split at h
  · cases h
  split at h
  · cases h
  rename_i hc
  split at h
  · cases h
  rename_i hb
  clear h
  simp only [Bool.not_eq_true', Bool.not_eq_false] at hc hb
  simp only [countsInRange, basesInRange, inRange, Bool.and_eq_true, decide_eq_true_eq, Bool.or_eq_true, bne_iff_ne] at hc hb
  refine ⟨?_, ?_, ?_, ?_⟩
  · simp only [charterOf]; omega
  · simp only [charterOf]; omega
  · simp only [charterOf]; omega
  · intro hk
    simp only [charterOf, beq_iff_eq] at hk ⊢
    rw [if_pos hk]
    have : byteAt b 13 = 1 ∨ byteAt b 13 = 2 ∨ byteAt b 13 = 3 ∨ byteAt b 13 = 4 := by omega
    rcases this with h | h | h | h <;> rw [h] <;> rfl

theorem State.takeCharterReads_control {n : Nat} {d : List Byte} {u : State}
    (h : State.takeCharterReads n t = some (d, u)) : u.control = t.control := by
  induction n generalizing t d with
  | zero => cases h; rfl
  | succ n ih =>
    unfold State.takeCharterReads at h
    split at h
    · rename_i h1
      simp only [Option.map_eq_some_iff, Prod.mk.injEq] at h
      obtain ⟨q, hq, _, rfl⟩ := h
      rw [ih hq]
      unfold State.takeRead at h1
      dsimp only at h1
      split at h1 <;> cases h1
      rfl
    · cases h

theorem State.Kept.checkCharter (a : s.Kept t) (l : Load) (b : List Byte) (hl : t.control.load = some l) :
    s.Kept (t.checkCharter l b) := by
  unfold State.checkCharter
  split
  · exact a.refuseCharter _
  · rename_i h
    refine a.trans ⟨⟨rfl, rfl, rfl, rfl, rfl, rfl, rfl, rfl, rfl⟩, fun i => ?_⟩
    have b := i.1
    have m := i.2
    refine ⟨⟨b.own, b.stream, b.hold, b.passQueue, b.accept, b.queue, b.list, b.pool, b.history, b.zones, b.base, b.refusals,
      b.lost, b.level, b.period⟩, ⟨fun h => ?_, fun h => ?_, fun _ => rfl, by simp, m.phase, m.fits, fun c h2 => ?_, m.passFront,
      m.classFront⟩⟩
    · have := (m.pass h).2
      rw [hl] at this
      cases this
    · have := (m.active h).2
      rw [hl] at this
      cases this
    · cases h2
      exact charterOf_fits _ _ h

theorem State.Quiet.startWalk (q : s.Quiet t) (l : Load) (hl : t.control.load = some l) (hk : l.stage ≠ .accepted) : s.Quiet (t.startWalk l) := by
  unfold State.startWalk
  dsimp only
  refine State.Quiet.fill (State.Quiet.withSweep (State.Quiet.withBook (q.withControl _ (hl := ?_)) _ (hl := ?_)) _ (hp := ?_)
    (hz := ?_)) _
  · have : (l.stage == .accepted) = false := by simpa using hk
    simp [hl, Load.mode, this]
  · exact fun _ => Nat.zero_le _
  · exact fun _ => Nat.zero_le _
  · intro b z
    have h := b.zones z
    by_cases hz : z < 12
    · simp only [State.zoneRec, vector_getD_lt _ _ hz] at h ⊢
      rw [Vector.getElem_map]
      exact ⟨Nat.zero_le _, h.2⟩
    · rw [vector_getD_ge _ _ hz]
      exact ⟨Nat.zero_le _, Nat.zero_le _, Nat.zero_le _⟩

theorem State.Quiet.finishRecordInHand (q : s.Quiet t) : s.Quiet t.finishRecordInHand := by
  unfold State.finishRecordInHand
  split
  · split
    · exact q.finishControl _ _ _
    · exact q
  · exact q

end Sys2Proof.Machine
end

