-- ==== Sys2Proof/Laws/FrameTasks.lean ====
section
/-! SUPPORT. What a unit does once a request of its own that waited is placed, and how freed places are given to the units that
wait, keep memory, time and the invariant of the units (R6, R173). -/

namespace Sys2Proof.Machine

variable {s t : State}

theorem State.Kept.underCharter (a : s.Kept t) {f : Charter → State → State}
    (h : ∀ c, t.charter = some c → s.Kept (f c t)) : s.Kept (t.underCharter f) := by
  unfold State.underCharter
  split
  · exact h _ ‹_›
  · exact a

/-- Every piece of work that can follow a request keeps the invariant. -/
theorem State.Kept.doTask (a : s.Kept t) (k : Task) : s.Kept (t.doTask k) := by
  have q := State.Quiet.refl t
  cases k with
  | own r => exact a.quiet (q.placeOwn r)
  | entry src r => exact a.quiet (q.placeEntry src r)
  | report r => exact a.quiet (q.writeReport r)
  | fetch => exact a.quiet q.fetchNow
  | loadWord => exact a.loadWordNow
  | countReport => exact a.quiet q.countReport
  | endLoad => exact a.endLoadNow
  | accept => exact a.acceptNow
  | loadWarning => exact a.quiet (State.Quiet.refl _).loadWarning
  | activate => exact a.activateNow
  | gate => exact a.quiet q.gateNow
  | staged b r cl full => exact a.quiet (q.stagedNow b r cl full)
  | batchDone n => exact a.quiet (q.batchOver n)
  | discard =>
    simp only [State.doTask]
    refine a.underCharter fun c _ => ?_
    exact a.quiet (q.discardNow c)
  | discarded => exact a.quiet q.batchDiscarded
  | frameIndex n =>
    simp only [State.doTask]
    refine a.underCharter fun c _ => ?_
    exact a.quiet (q.frameIndexNow c n)
  | closing item kind => exact a.quiet (q.closeOne item kind)
  | listen => exact a.quiet q.listenNow
  | finishCancel => exact a.quiet q.finishNow
  | wake => exact a.quiet q.wakeNow
  | retry => exact a.quiet q.retryNow
  | ack d =>
    simp only [State.doTask]
    refine a.underCharter fun c _ => ?_
    exact a.quiet (q.ackNow c d)
  | mode n => exact a.quiet (q.modeNow n)
  | stepSweep => exact a.quiet q.stepNow
  | resync sel n =>
    simp only [State.doTask]
    refine a.underCharter fun c _ => ?_
    exact a.quiet (q.resyncNow c sel n)
  | upload r =>
    simp only [State.doTask]
    refine a.underCharter fun c _ => ?_
    exact a.quiet (q.uploadNow c r)
  | countUpload => exact a.quiet q.countUpload
  | uploadIndex =>
    simp only [State.doTask]
    refine a.underCharter fun c _ => ?_
    exact a.quiet (q.indexNow c)
  | summary r => exact a.quiet (q.summaryNow r)
  | drain =>
    simp only [State.doTask]
    refine a.underCharter fun c _ => ?_
    exact a.quiet (q.drainNow c)
  | drainOne =>
    simp only [State.doTask]
    refine a.underCharter fun c _ => ?_
    exact a.quiet (q.drainOne c)
  | handReport r => exact a.quiet (q.report r)
  | close n f =>
    simp only [State.doTask]
    refine a.underCharter fun c _ => ?_
    exact a.quiet (q.closeNow c n f)
  | take =>
    simp only [State.doTask]
    refine a.underCharter fun c _ => ?_
    exact a.quiet (q.takeHand c)
  | stamp => exact a.quiet q.stampNow
  | leave =>
    simp only [State.doTask]
    refine a.underCharter fun c _ => ?_
    exact a.leaveNow c
  | works => exact a.workAll
  | resetDone n => exact a.quiet (q.resetDone n)
  | summaries day clock =>
    simp only [State.doTask]
    refine a.underCharter fun c _ => ?_
    exact a.quiet (q.summariesNow c day clock)

theorem State.Kept.resume (a : s.Kept t) (u : PartUnit) (ts : List Task) : s.Kept (t.resume u ts) :=
  a.foldl _ _ fun _ k h => h.orDefer u k (h.doTask k)

theorem State.Quiet.dropTasks (q : s.Quiet t) (u : PartUnit) : s.Quiet (t.dropTasks u) := q.withLink _

theorem State.Kept.serveOwnWait (a : s.Kept t) (n : Nat) : s.Kept (State.serveOwnWait n t) := by
  induction n generalizing t with
  | zero => exact a
  | succ n ih =>
    unfold State.serveOwnWait
    split
    · rename_i h
      split
      · exact a
      · rename_i u us _
        dsimp only
        have q := (State.Quiet.refl t).withLink { t.link with ownWait := us }
        split
        · exact ih ((a.quiet ((q.dropTasks u).enqueueOwn _ h)).resume u _)
        · exact ih (a.quiet q)
    · exact a

theorem State.Kept.serveSource (a : s.Kept t) (src : Source) (h : t.entryRoom = true) : s.Kept (t.serveSource src) := by
  unfold State.serveSource
  simp only [State.entryRoom, decide_eq_true_eq] at h
  split
  · exact (a.quiet (((State.Quiet.refl t).dropTasks _).pushEntry _ h)).resume _ _
  · split
    · rename_i e
      exact a.quiet ((((State.Quiet.refl t).nextOf src e).pushEntry _ (by rw [State.nextOf_queue t src e]; exact h)).settleSource
        src)
    · exact a

theorem State.Kept.serveEntry (a : s.Kept t) (n : Nat) : s.Kept (State.serveEntry n t) := by
  induction n generalizing t with
  | zero => exact a
  | succ n ih =>
    unfold State.serveEntry
    split
    · rename_i h
      split
      · exact a
      · rename_i src rest _
        dsimp only
        have k := (a.quiet ((State.Quiet.refl t).withBook { t.book with wait := rest })).serveSource src h
        split
        · exact ih (k.quiet ((State.Quiet.refl _).waitEntry src))
        · exact ih k
    · exact a

theorem State.Kept.serveEntryWait (a : s.Kept t) : s.Kept t.serveEntryWait := a.serveEntry _

end Sys2Proof.Machine
end

