-- ==== Sys2Proof/Laws/PerInstr.lean ====
section
/-! SUPPORT. One law of every command as syntax: a well-formed command offers a well-formed transaction, and a row that names an
event offers none. -/

namespace Sys2Proof.Laws.OffersWellFormedTransaction

/-- A command with well-formed operands offers, if its row is a transaction, one of 8 to 128 bytes in whole words of 8 whose data and
mask fit its length (chapter Introduction, The Part in Its Setting). -/
def Statement (i : Instr) : Prop :=
  i.wf = true → ∀ tx, i.transaction = some tx → tx.wf = true

theorem of_wf_and {a b : Bool} (h : (a && b) = true) : a = true := by
  cases a <;> simp_all

theorem resetNAssert : Statement .resetNAssert := fun _ _ h => nomatch h

theorem resetNRise (straps : Byte) : Statement (.resetNRise straps) := fun _ _ h => nomatch h

theorem secondAdvance : Statement .secondAdvance := fun _ _ h => nomatch h

theorem dueProcessing : Statement .dueProcessing := fun _ _ h => nomatch h

theorem idleClose : Statement .idleClose := fun _ _ h => nomatch h

theorem pfwSample (asserted : Bool) : Statement (.pfwSample asserted) := fun _ _ h => nomatch h

theorem warningStands : Statement .warningStands := fun _ _ h => nomatch h

theorem warningClears : Statement .warningClears := fun _ _ h => nomatch h

theorem powerClose : Statement .powerClose := fun _ _ h => nomatch h

theorem pacingPeriodBoundary : Statement .pacingPeriodBoundary := fun _ _ h => nomatch h

theorem guestTransaction (tx : Transaction) : Statement (.guestTransaction tx) := by
  intro h x hx
  cases hx
  exact h

theorem passTransaction (tx : Transaction) : Statement (.passTransaction tx) := by
  intro h x hx
  cases hx
  exact h

theorem plainTransaction (tx : Transaction) : Statement (.plainTransaction tx) := by
  intro h x hx
  cases hx
  exact h

theorem specialWindowAccess (tx : Transaction) : Statement (.specialWindowAccess tx) := by
  intro h x hx
  cases hx
  exact h

theorem registerWrite (tx : Transaction) : Statement (.registerWrite tx) := by
  intro h x hx
  cases hx
  exact of_wf_and h

theorem portGrant : Statement .portGrant := fun _ _ h => nomatch h

theorem passThroughReadReturn : Statement .passThroughReadReturn := fun _ _ h => nomatch h

theorem passThroughWriteComplete : Statement .passThroughWriteComplete := fun _ _ h => nomatch h

theorem ownRequestQueueRoom : Statement .ownRequestQueueRoom := fun _ _ h => nomatch h

theorem passThroughStreamRoom : Statement .passThroughStreamRoom := fun _ _ h => nomatch h

theorem entryUpdateQueueRoom : Statement .entryUpdateQueueRoom := fun _ _ h => nomatch h

theorem tillPriceRead (tx : Transaction) : Statement (.tillPriceRead tx) := by
  intro h x hx
  cases hx
  exact of_wf_and (of_wf_and h)

theorem entryReadComplete : Statement .entryReadComplete := fun _ _ h => nomatch h

theorem entryWriteComplete : Statement .entryWriteComplete := fun _ _ h => nomatch h

theorem stage : Statement .stage := fun _ _ h => nomatch h

theorem changeoverDue : Statement .changeoverDue := fun _ _ h => nomatch h

theorem priceCheck : Statement .priceCheck := fun _ _ h => nomatch h

theorem queueJoin : Statement .queueJoin := fun _ _ h => nomatch h

theorem frameSent : Statement .frameSent := fun _ _ h => nomatch h

theorem labelAck : Statement .labelAck := fun _ _ h => nomatch h

theorem labelUnanswered : Statement .labelUnanswered := fun _ _ h => nomatch h

theorem labelReturn : Statement .labelReturn := fun _ _ h => nomatch h

theorem labelResyncRequest : Statement .labelResyncRequest := fun _ _ h => nomatch h

theorem keep : Statement .keep := fun _ _ h => nomatch h

theorem rescanWalk : Statement .rescanWalk := fun _ _ h => nomatch h

theorem framePublish : Statement .framePublish := fun _ _ h => nomatch h

theorem visitStart : Statement .visitStart := fun _ _ h => nomatch h

theorem blankEnd : Statement .blankEnd := fun _ _ h => nomatch h

theorem forcedEnd : Statement .forcedEnd := fun _ _ h => nomatch h

theorem settleEnd : Statement .settleEnd := fun _ _ h => nomatch h

theorem visitClose : Statement .visitClose := fun _ _ h => nomatch h

theorem acknowledgment (tx : Transaction) : Statement (.acknowledgment tx) := by
  intro h x hx
  cases hx
  exact of_wf_and (of_wf_and h)

theorem labelTxConsumerWrite (tx : Transaction) : Statement (.labelTxConsumerWrite tx) := by
  intro h x hx
  cases hx
  exact of_wf_and (of_wf_and h)

theorem journalConsumerWrite (tx : Transaction) : Statement (.journalConsumerWrite tx) := by
  intro h x hx
  cases hx
  exact of_wf_and (of_wf_and h)

theorem uploadConsumerWrite (tx : Transaction) : Statement (.uploadConsumerWrite tx) := by
  intro h x hx
  cases hx
  exact of_wf_and (of_wf_and h)

theorem signOn (tx : Transaction) : Statement (.signOn tx) := by
  intro h x hx
  cases hx
  exact of_wf_and h

theorem item (tx : Transaction) : Statement (.item tx) := by
  intro h x hx
  cases hx
  exact of_wf_and h

theorem voidLine (tx : Transaction) : Statement (.voidLine tx) := by
  intro h x hx
  cases hx
  exact of_wf_and h

theorem basketTotal (tx : Transaction) : Statement (.basketTotal tx) := by
  intro h x hx
  cases hx
  exact of_wf_and h

theorem basketCancel (tx : Transaction) : Statement (.basketCancel tx) := by
  intro h x hx
  cases hx
  exact of_wf_and h

theorem refund (tx : Transaction) : Statement (.refund tx) := by
  intro h x hx
  cases hx
  exact of_wf_and h

theorem noSale (tx : Transaction) : Statement (.noSale tx) := by
  intro h x hx
  cases hx
  exact of_wf_and h

theorem signOff (tx : Transaction) : Statement (.signOff tx) := by
  intro h x hx
  cases hx
  exact of_wf_and h

theorem unknownJournalKind (tx : Transaction) : Statement (.unknownJournalKind tx) := by
  intro h x hx
  cases hx
  exact of_wf_and h

theorem journalRecordForwarded : Statement .journalRecordForwarded := fun _ _ h => nomatch h

theorem nightEntry : Statement .nightEntry := fun _ _ h => nomatch h

theorem newDayWork : Statement .newDayWork := fun _ _ h => nomatch h

theorem intakeLowerHalf (tx : Transaction) : Statement (.intakeLowerHalf tx) := by
  intro h x hx
  cases hx
  exact of_wf_and h

theorem intakeUpperHalf (tx : Transaction) : Statement (.intakeUpperHalf tx) := by
  intro h x hx
  cases hx
  exact of_wf_and h

theorem blockAccepted : Statement .blockAccepted := fun _ _ h => nomatch h

theorem intakeBlockRead : Statement .intakeBlockRead := fun _ _ h => nomatch h

theorem controlProducerWrite (tx : Transaction) : Statement (.controlProducerWrite tx) := by
  intro h x hx
  cases hx
  exact of_wf_and (of_wf_and h)

theorem setPhase : Statement .setPhase := fun _ _ h => nomatch h

theorem setClock : Statement .setClock := fun _ _ h => nomatch h

theorem urgentMarkdown : Statement .urgentMarkdown := fun _ _ h => nomatch h

theorem labelResync : Statement .labelResync := fun _ _ h => nomatch h

theorem tillReset : Statement .tillReset := fun _ _ h => nomatch h

theorem sweepMode : Statement .sweepMode := fun _ _ h => nomatch h

theorem stepSweep : Statement .stepSweep := fun _ _ h => nomatch h

theorem batchDiscard : Statement .batchDiscard := fun _ _ h => nomatch h

theorem reloadCharter : Statement .reloadCharter := fun _ _ h => nomatch h

theorem unknownControlKind : Statement .unknownControlKind := fun _ _ h => nomatch h

theorem controlDone : Statement .controlDone := fun _ _ h => nomatch h

theorem reportPublished : Statement .reportPublished := fun _ _ h => nomatch h

theorem reportConsumerWrite (tx : Transaction) : Statement (.reportConsumerWrite tx) := by
  intro h x hx
  cases hx
  exact of_wf_and (of_wf_and h)

theorem loadWordWrite (tx : Transaction) : Statement (.loadWordWrite tx) := by
  intro h x hx
  cases hx
  exact of_wf_and h

theorem charterCheck : Statement .charterCheck := fun _ _ h => nomatch h

theorem walkStart : Statement .walkStart := fun _ _ h => nomatch h

theorem charterAccept : Statement .charterAccept := fun _ _ h => nomatch h

end Sys2Proof.Laws.OffersWellFormedTransaction
end

