-- ==== Sys2Proof/Laws/Place.lean ====
section
/-! SUPPORT. What the placing of requests and of reports comes to: done at once while nothing waits and there is room, and
followed up later otherwise (R6, R173, R195). -/

namespace Sys2Proof.Machine

variable {s : State}

/-! ## Units that wait -/

@[simp] theorem State.addTask_tasks (s : State) (u : PartUnit) (k : Task) :
    (s.addTask u k).link.tasks = s.link.tasks ++ [(u, k)] := rfl

@[simp] theorem State.addTask_own (s : State) (u : PartUnit) (k : Task) : (s.addTask u k).link.own = s.link.own := rfl

@[simp] theorem State.addTask_ownWait (s : State) (u : PartUnit) (k : Task) :
    (s.addTask u k).link.ownWait = s.link.ownWait := rfl

@[simp] theorem State.dropTasks_own (s : State) (u : PartUnit) : (s.dropTasks u).link.own = s.link.own := rfl

/-- While no unit waits, none does. -/
theorem State.noneWaits.waits (h : s.noneWaits) (u : PartUnit) : s.waits u = false := by
  unfold State.noneWaits at h
  simp [State.waits, h]

/-- A unit whose work is put off waits. -/
theorem State.addTask_waits (s : State) (u : PartUnit) (k : Task) : (s.addTask u k).waits u = true := by
  simp [State.waits]

/-- A unit that does not wait does its work at once. -/
theorem State.orDefer_now {u : PartUnit} (h : s.waits u = false) (k : Task) (f : State → State) : s.orDefer u k f = f s :=
  if_neg (by simp [h])

/-- A unit that waits has its work follow. -/
theorem State.orDefer_later {u : PartUnit} (h : s.waits u = true) (k : Task) (f : State → State) :
    s.orDefer u k f = s.addTask u k := if_pos h

theorem State.unlessWaiting_now {u : PartUnit} (h : s.waits u = false) (f : State → State) : s.unlessWaiting u f = f s :=
  if_neg (by simp [h])

/-! ## Own requests (R173) -/

/-- A request other than the write of an entry joins the tail of the own-request queue. -/
theorem State.enqueueOwn_tail (r : OwnRequest) (h : r.purpose ≠ .entryWrite) :
    s.enqueueOwn r = s.withLink { s.link with own := s.link.own ++ [{ r with placedAt := s.micros }] } :=
  if_neg fun e => h e.1

/-- With room, and no unit before it, a request is placed at once. -/
theorem State.placeOwn_now (r : OwnRequest) (h : s.ownFree 1) (hp : r.purpose ≠ .entryWrite) :
    s.placeOwn r = s.withLink { s.link with own := s.link.own ++ [{ r with placedAt := s.micros }] } := by
  unfold State.placeOwn
  rw [State.orDefer_now (h.1.waits _), if_pos ⟨by have := h.2.2; omega, h.2.1⟩]
  exact State.enqueueOwn_tail r hp

/-- With room for all of them, and no unit before them, requests are placed at once and in order. -/
theorem State.placeOwns_now (rs : List OwnRequest) (h : s.ownFree rs.length) (hp : ∀ r ∈ rs, r.purpose ≠ .entryWrite) :
    s.placeOwns rs = s.withLink { s.link with own := s.link.own ++ rs.map (fun r => { r with placedAt := s.micros }) } := by
  induction rs generalizing s with
  | nil =>
    rw [List.map_nil, List.append_nil]
    rfl
  | cons r rs ih =>
    have hl := h.2.2
    rw [List.length_cons] at hl
    have h1 := State.placeOwn_now r ⟨h.1, h.2.1, by omega⟩ (hp r List.mem_cons_self)
    show (s.placeOwn r).placeOwns rs = _
    rw [h1]
    generalize hu : s.withLink _ = u
    have hf : u.ownFree rs.length := by
      subst hu
      exact ⟨h.1, h.2.1, by simp; omega⟩
    rw [ih hf fun q hq => hp q (List.mem_cons_of_mem _ hq)]
    subst hu
    simp

/-- Without room, or behind another unit, a unit comes to wait with its request. -/
theorem State.placeOwn_waits (r : OwnRequest) (h : s.waits r.unit = false)
    (hr : Config.ownDepth ≤ s.link.own.length ∨ s.link.ownWait ≠ []) :
    s.placeOwn r = s.withLink { s.link with
      tasks := s.link.tasks ++ [(r.unit, .own r)], ownWait := s.link.ownWait ++ [r.unit] } := by
  unfold State.placeOwn
  rw [State.orDefer_now h, if_neg fun e => hr.elim (Nat.not_le_of_lt e.1) (fun k => k e.2)]

/-- A unit that waits already places nothing. -/
theorem State.placeOwn_later (r : OwnRequest) (h : s.waits r.unit = true) : s.placeOwn r = s.addTask r.unit (.own r) :=
  State.orDefer_later h _ _

/-! ## The entry update queue (R6) -/

/-- With room, and no source before it, a request joins the queue at once. -/
theorem State.placeEntry_now (src : Source) (r : EntryReq) (h : s.entryFree 1) : s.placeEntry src r = s.pushEntry r := by
  unfold State.placeEntry
  rw [State.orDefer_now (h.1.waits _), if_pos ⟨by have := h.2.2; simp [State.entryRoom]; omega, h.2.1⟩]

/-- Without room, or behind another source, a source comes to wait with its request. -/
theorem State.placeEntry_waits (src : Source) (r : EntryReq) (h : s.waits src.unit = false)
    (hr : s.entryRoom = false ∨ s.book.wait ≠ []) :
    s.placeEntry src r = (s.addTask src.unit (.entry src r)).waitEntry src := by
  unfold State.placeEntry
  rw [State.orDefer_now h, if_neg (by rintro ⟨a, b⟩; rcases hr with e | e <;> simp_all)]

/-- A unit that waits already places nothing. -/
theorem State.placeEntry_later (src : Source) (r : EntryReq) (h : s.waits src.unit = true) :
    s.placeEntry src r = s.addTask src.unit (.entry src r) := State.orDefer_later h _ _

/-! ## Reports (R195) -/

/-- What a report comes to while no unit waits. -/
theorem State.report_reportsNow {c : Charter} (hc : s.charter = some c) (hn : s.noneWaits) (r : Report) :
    s.reportsNow (s.report r) c r := by
  have e : s.report r = s.writeReport r := State.orDefer_now (hn.waits _) _ _
  have rc (ha : s.accepting = false) : s.reportCharter = some c := by rw [State.reportCharter, if_neg (by simp [ha]), hc]
  rw [e]
  unfold State.writeReport
  refine ⟨fun room free => ?_, fun full => ?_⟩
  · have hc := rc room.1
    simp only [hc]
    rw [if_pos room.2]
    rw [State.placeOwn_now _ ⟨free.1, free.2.1, by have := free.2.2; omega⟩ (by simp [ownWrite])]
    generalize hu : s.withLink _ = u
    have hf : u.ownFree 1 := by
      subst hu
      exact ⟨free.1, free.2.1, by have := free.2.2; simp; omega⟩
    have hr : u.reportCharter = some c := by
      subst hu
      exact hc
    rw [State.orDefer_now (hf.1.waits _)]
    unfold State.countReport
    simp only [hr]
    rw [State.placeOwn_now _ (by exact hf) (by simp [ownIndex])]
    subst hu
    simp [State.reportRequests, ownWrite, ownIndex, slotAddr]
  · have hf : ¬(s.control.repProducer - s.control.repConsumer).toNat < (c.window .report).slots := Nat.not_lt.mpr full.2
    simp only [rc full.1]
    rw [if_neg hf]
    exact ⟨rfl, by simp [countUp]⟩

end Sys2Proof.Machine
end

