-- ==== Sys2Proof/Laws/Transact.lean ====
section
/-! SUPPORT. A transaction offered while nothing stands in front of it: what the taking, judging and carrying out of it come to
(State.transact), by the decoder's verdict. -/

namespace Sys2Proof.Machine

variable {s t : State}

/-! ## The record in hand and its queue -/

/-- The record in hand whose write stands in class queue `k` (R103). -/
theorem State.handAt_some {k : Class} {h : JournalHand} (e : s.handAt k = some h) :
    s.journal.hand = some h ∧ h.queue = k := by
  unfold State.handAt at e
  rw [Option.filter_eq_some_iff] at e
  exact ⟨e.1, by simpa using e.2⟩

theorem State.handAt_none (h : s.journal.hand = none) (k : Class) : s.handAt k = none := by
  unfold State.handAt
  rw [h]
  rfl

/-- A head that does not wait for the stream has no place among those that do to give up. -/
theorem State.unwait_idle (h : s.link.streamWait = []) (k : Class) : s.unwait k = s := by
  unfold State.unwait
  rw [h, List.filter_nil, ← h]
  rfl

/-! ## An empty front stays as it is -/

/-- Nothing waits in front of the decoder, and no journal record is ready to be forwarded. -/
structure State.FrontEmpty (s : State) : Prop where
  waiting : s.link.waiting = []
  accept  : s.link.accept = Vector.replicate 7 []
  hand    : ∀ h, s.journal.hand = some h → h.stage ≠ .ready

theorem queueOf_replicate (k : Nat) : (Vector.replicate 7 ([] : List Transaction)).getD k [] = [] := by
  by_cases h : k < 7
  · rw [vector_getD_lt _ _ h]
    simp
  · exact vector_getD_ge _ _ h

theorem State.FrontEmpty.queueOf (h : s.FrontEmpty) (k : Nat) : s.queueOf k = [] := by
  unfold State.queueOf
  rw [h.accept]
  exact queueOf_replicate k

theorem State.FrontEmpty.refill (h : s.FrontEmpty) : s.refill = s := by
  have : s.withLink { s.link with waiting := [] } = s := by
    rw [← h.waiting]
    rfl
  unfold State.refill
  rw [h.waiting, this]
  rfl

theorem State.FrontEmpty.serveHead (h : s.FrontEmpty) (c : Charter) (k : Class) : s.serveHead c k false = (s, false) := by
  unfold State.serveHead
  split
  · rename_i x hx
    have := h.hand x (State.handAt_some hx).1
    split
    · exact absurd ‹_› this
    · rfl
    · rfl
  · rw [h.queueOf]
    rfl

theorem State.FrontEmpty.pumpClass (h : s.FrontEmpty) (c : Charter) (k : Class) (n : Nat) :
    State.pumpClass c k n s = s := by
  cases n with
  | zero => rfl
  | succ n =>
    unfold State.pumpClass
    rw [h.serveHead]

theorem State.FrontEmpty.pumpAll (h : s.FrontEmpty) (c : Charter) (n : Nat) (l : List Class) :
    l.foldl (fun s k => State.pumpClass c k n s) s = s := by
  induction l with
  | nil => rfl
  | cons k l ih => rw [List.foldl_cons, h.pumpClass, ih]

/-- With nothing in front, taking and serving changes nothing. -/
theorem State.FrontEmpty.pump (h : s.FrontEmpty) (hp : s.link.passQueue = []) : s.pump = s := by
  unfold State.pump
  rw [h.refill]
  dsimp only
  split
  · have : s.servePass false = (s, false) := by
      unfold State.servePass
      rw [hp]
    cases hn : s.turns with
    | zero => rfl
    | succ n =>
      unfold State.pumpPass
      rw [this]
  · exact h.pumpAll _ _ _

/-- A quiet link has nothing in front. -/
theorem State.linkQuiet.frontEmpty (h : s.linkQuiet) : s.FrontEmpty :=
  ⟨h.1, h.2.2.1, fun x e => by rw [h.2.2.2.2] at e; cases e⟩

/-- With a quiet link, taking and serving changes nothing. -/
theorem State.linkQuiet.pump (h : s.linkQuiet) : s.pump = s := h.frontEmpty.pump h.2.1

/-- An operation that leaves the path of the transactions and the journal's hand leaves the front empty. -/
theorem State.FrontEmpty.keep (h : s.FrontEmpty) (hw : t.link.waiting = s.link.waiting)
    (ha : t.link.accept = s.link.accept) (hh : t.journal.hand = s.journal.hand) : t.FrontEmpty :=
  ⟨hw.trans h.waiting, ha.trans h.accept, fun x e => h.hand x (by rw [← hh]; exact e)⟩

/-! ## The journal's hand and the front through the operations of a forwarding -/

theorem State.reports_hand (rs : List Report) (u : State) : (u.reports rs).journal.hand = u.journal.hand := by
  induction rs generalizing u with
  | nil => rfl
  | cons r rs ih => exact (ih _).trans (congrArg JournalState.hand ((State.Apart.refl u).report r).journal)

theorem State.orDefer_hand {f : State → State} (h : (f t).journal.hand = t.journal.hand) (u : PartUnit) (k : Task) :
    (t.orDefer u k f).journal.hand = t.journal.hand := by
  unfold State.orDefer
  split
  · rfl
  · exact h

theorem State.placeOwn_hand (u : State) (r : OwnRequest) : (u.placeOwn r).journal.hand = u.journal.hand :=
  congrArg JournalState.hand ((State.Apart.refl u).placeOwn r).journal

theorem State.putUpload_hand (u : State) (c : Charter) (r : UploadRecord) :
    (u.putUpload c r).journal.hand = u.journal.hand :=
  (State.orDefer_hand (f := State.countUpload) rfl _ _).trans (u.placeOwn_hand _)

theorem State.drainOne_hand (u : State) (c : Charter) : (u.drainOne c).journal.hand = u.journal.hand := by
  unfold State.drainOne
  split
  · exact State.putUpload_hand _ c _
  · rfl

theorem foldl_hand {α : Type} (f : State → α → State) (hf : ∀ u a, (f u a).journal.hand = u.journal.hand) (l : List α)
    (u : State) : (l.foldl f u).journal.hand = u.journal.hand := by
  induction l generalizing u with
  | nil => rfl
  | cons a l ih => exact (ih _).trans (hf u a)

theorem State.drainNow_hand (u : State) (c : Charter) : (u.drainNow c).journal.hand = u.journal.hand := by
  unfold State.drainNow
  dsimp only
  split
  · rfl
  · refine (foldl_hand _ (fun v r => ?_) _ _).trans ?_
    · exact State.orDefer_hand (congrArg JournalState.hand ((State.Apart.refl v).report r).journal) _ _
    · refine (State.orDefer_hand (f := fun s => s.indexNow c) (State.placeOwn_hand _ _) _ _).trans ?_
      exact foldl_hand _ (fun v _ => State.orDefer_hand (v.drainOne_hand c) _ _) _ _

theorem State.drain_hand (u : State) (c : Charter) : (u.drain c).journal.hand = u.journal.hand :=
  State.orDefer_hand (u.drainNow_hand c) _ _

theorem State.observe_hand (u : State) (c : Charter) (tx : Transaction) (o : Observed) :
    (u.observe c tx o).journal.hand = u.journal.hand := by
  unfold State.observe
  split
  · rfl
  · rfl
  · exact State.drain_hand _ c
  · unfold State.takeReportConsumer
    split <;> rfl
  · unfold State.takeLabelConsumer
    dsimp only
    split
    · rfl
    · exact congrArg JournalState.hand (((State.Apart.refl u).withSweep _).retryTake).journal
  · have h : u.Apart (u.takeControlProducer c ‹_›).fetchControl := by
      have h1 : u.Apart (u.takeControlProducer c ‹_›) := by
        unfold State.takeControlProducer
        dsimp only
        split
        · exact .refl u
        split
        · exact (State.Apart.refl u).withControl _
        · split
          · exact (State.Apart.refl u).withControl _
          · exact .refl u
      refine h1.orDefer _ _ ?_
      unfold State.fetchNow
      split
      · exact h1
      · split
        · exact (h1.withControl _).placeOwn _
        · exact h1
    exact congrArg JournalState.hand h.journal
  · exact congrArg JournalState.hand ((State.Apart.refl u).examineAck c _).journal
  · rfl
  · rfl
  · rfl

theorem State.loadWordNow_front (u : State) : u.loadWordNow.journal = u.journal ∧ u.SamePath u.loadWordNow := by
  unfold State.loadWordNow
  split
  · unfold State.loadNow
    dsimp only
    generalize hv : State.withBook _ _ = v
    have h1 : v.journal = u.journal := by subst hv; rfl
    have h2 : u.SamePath v := by subst hv; exact ⟨rfl, rfl, rfl, rfl, rfl, rfl, rfl⟩
    have h3 := ((State.Apart.refl v).setSweepState .stopped).cancelVisit
    have h4 := ((State.Quiet.refl v).setSweepState .stopped).cancelVisit
    exact ⟨((h3.writeResult 1).placeOwns _).journal.trans h1, h2.trans ((h4.writeResult 1).placeOwns _).path⟩
  · exact ⟨((State.Apart.refl u).writeResult 3).journal, ((State.Quiet.refl u).writeResult 3).path⟩

theorem State.watchLoadWord_front (u : State) (tx : Transaction) :
    (u.watchLoadWord tx).journal = u.journal ∧ u.SamePath (u.watchLoadWord tx) := by
  unfold State.watchLoadWord
  split
  · unfold State.orDefer
    split
    · exact ⟨rfl, ((State.Quiet.refl u).addTask _ _).path⟩
    · exact u.loadWordNow_front
  · exact ⟨rfl, .refl u⟩

/-- A forwarding leaves the front empty. -/
theorem State.FrontEmpty.forwardTx (h : s.FrontEmpty) (c : Charter) (tx : Transaction) (r : Role) (o : Observed) :
    (s.forwardTx c tx r o).FrontEmpty := by
  unfold State.forwardTx
  have h0 : (s.pushStream tx r).FrontEmpty := h.keep rfl rfl rfl
  have q := ((State.Quiet.refl (s.pushStream tx r)).observe c tx o).path
  have h1 := h0.keep q.waiting q.accept (State.observe_hand _ c tx o)
  obtain ⟨j, p⟩ := State.watchLoadWord_front ((s.pushStream tx r).observe c tx o) tx
  exact h1.keep p.waiting p.accept (congrArg JournalState.hand j)

/-! ## One transaction -/

theorem Class.index_lt (k : Class) : k.index < 7 := by cases k <;> decide

/-- The state with a transaction at the head of its class's accept queue, all else in front empty. -/
def State.atHead (s : State) (c : Charter) (tx : Transaction) : State :=
  s.withLink { s.link with accept := s.link.accept.setIfInBounds (c.classOf tx.tag).index [tx] }

theorem State.decides.refill (h : s.decides c) (tx : Transaction) : (s.offerTx tx).refill = s.atHead c tx := by
  obtain ⟨-, hc, hq, -, -, hh⟩ := h
  have hw := hq.1
  have hk := hq.frontEmpty.queueOf (c.classOf tx.tag).index
  simp only [State.queueOf] at hk
  have hne : ¬ Config.holdDepth ≤ s.link.hold.length := by omega
  unfold State.refill State.offerTx
  simp only [State.withLink_link, hw, List.nil_append, List.foldl_cons, List.foldl_nil]
  have hcan : (State.withLink (s.withLink { s.link with waiting := [tx] }) { s.link with waiting := [] }).canTake tx = true := by
    unfold State.canTake
    simp only [State.withLink_charter, hc, State.queueOf, State.withLink_link, hk, List.length_nil, List.any_nil, hne]
    simp [Config.acceptDepth]
  rw [State.withLink_withLink] at hcan ⊢
  unfold State.takeIn
  rw [if_pos hcan]
  simp only [State.withLink_charter, hc, State.withLink_withLink, State.withLink_link, State.queueOf, hk, List.nil_append]
  unfold State.atHead
  rw [← hw]

theorem setIfInBounds_setIfInBounds (k : Nat) (a b : List Transaction) (v : Vector (List Transaction) 7) :
    (v.setIfInBounds k a).setIfInBounds k b = v.setIfInBounds k b := by
  apply Vector.ext
  intro i hi
  simp only [Vector.getElem_setIfInBounds]
  split <;> simp

theorem replicate_setIfInBounds (k : Nat) :
    (Vector.replicate 7 ([] : List Transaction)).setIfInBounds k [] = Vector.replicate 7 [] := by
  apply Vector.ext
  intro i hi
  rw [Vector.getElem_setIfInBounds]
  split <;> simp

theorem State.atHead_queueOf (_h : s.linkQuiet) (c : Charter) (tx : Transaction) :
    (s.atHead c tx).queueOf (c.classOf tx.tag).index = [tx] := by
  have hi := Class.index_lt (c.classOf tx.tag)
  unfold State.queueOf State.atHead
  simp only [State.withLink_link]
  rw [vector_getD_lt _ _ hi, Vector.getElem_setIfInBounds]
  simp

/-- The head leaves: the front is as it was. -/
theorem State.atHead_popHead (h : s.linkQuiet) (c : Charter) (tx : Transaction) :
    (s.atHead c tx).popHead (c.classOf tx.tag).index = s := by
  unfold State.popHead
  rw [State.atHead_queueOf h]
  unfold State.atHead
  simp only [State.withLink_withLink, State.withLink_link, setIfInBounds_setIfInBounds, h.2.2.1, replicate_setIfInBounds,
    List.tail_cons]
  rw [← h.2.2.1]
  rfl

/-- The head leaves without going into the stream: the front is as it was. -/
theorem State.atHead_dropHead (h : s.linkQuiet) (c : Charter) (tx : Transaction) :
    (s.atHead c tx).dropHead (c.classOf tx.tag) = s := by
  unfold State.dropHead
  rw [State.unwait_idle (s := s.atHead c tx) h.2.2.2.1]
  exact State.atHead_popHead h c tx

theorem State.atHead_placeOf (s : State) (c : Charter) (tx : Transaction) (a : Nat) :
    (s.atHead c tx).placeOf c a = s.placeOf c a := by
  have h : (s.atHead c tx).charterBase = s.charterBase := rfl
  unfold State.placeOf
  rw [h]

theorem State.atHead_judge (s : State) (c : Charter) (tx : Transaction) : (s.atHead c tx).judge c tx = s.judge c tx := by
  have h1 : (s.atHead c tx).straddles c tx = s.straddles c tx := by
    unfold State.straddles
    rw [State.atHead_placeOf, State.atHead_placeOf]
  have h2 : ∀ k p, (s.atHead c tx).judgeOpen c k p tx = s.judgeOpen c k p tx := fun k p => by
    unfold State.judgeOpen State.judgeGuest State.guestFits
    rfl
  have h3 : (s.atHead c tx).judgePriceRead c tx = s.judgePriceRead c tx := rfl
  have h4 : (s.atHead c tx).judgeJournal c tx = s.judgeJournal c tx := rfl
  have h5 : (s.atHead c tx).judgeIntake c tx = s.judgeIntake c tx := rfl
  unfold State.judge
  dsimp only
  rw [h1, State.atHead_placeOf]
  split
  · rfl
  · split
    · rfl
    · unfold State.judgeSpecial
      rw [h2, h3, h4, h5]
    · exact h2 _ _

/-- The classes before and after that of a transaction find nothing to serve. -/
theorem State.atHead_serveHead (h : s.linkQuiet) (c : Charter) (tx : Transaction) (k : Class)
    (hk : k ≠ c.classOf tx.tag) : (s.atHead c tx).serveHead c k false = (s.atHead c tx, false) := by
  have hq : (s.atHead c tx).queueOf k.index = [] := by
    unfold State.queueOf State.atHead
    simp only [State.withLink_link]
    rcases accept_getD s.link.accept (c.classOf tx.tag).index k.index [tx] with e | ⟨-, e⟩
    · rw [e]
      exact h.frontEmpty.queueOf k.index
    · refine absurd ?_ hk
      generalize c.classOf tx.tag = j at e
      cases k <;> cases j <;> first | rfl | (exact absurd e (by decide))
  have hn : (s.atHead c tx).journal.hand = none := h.2.2.2.2
  unfold State.serveHead
  rw [State.handAt_none hn, hq]
  rfl

/-- Serving class by class: nothing before the transaction's class, its class's pump, nothing after. -/
theorem State.atHead_pumpAll (h : s.linkQuiet) (c : Charter) (tx : Transaction) (n : Nat) (l : List Class)
    (hu : (State.pumpClass c (c.classOf tx.tag) (n + 1) (s.atHead c tx)).FrontEmpty) (hl : c.classOf tx.tag ∈ l) :
    l.foldl (fun s k => State.pumpClass c k (n + 1) s) (s.atHead c tx) =
      State.pumpClass c (c.classOf tx.tag) (n + 1) (s.atHead c tx) := by
  induction l with
  | nil => cases hl
  | cons k l ih =>
    rw [List.foldl_cons]
    by_cases hk : k = c.classOf tx.tag
    · subst hk
      exact hu.pumpAll c _ l
    · have : State.pumpClass c k (n + 1) (s.atHead c tx) = s.atHead c tx := by
        unfold State.pumpClass
        rw [State.atHead_serveHead h c tx k hk]
      rw [this]
      refine ih ?_
      cases hl with
      | head => exact absurd rfl hk
      | tail _ h => exact h

theorem mem_allClasses (k : Class) : k ∈ allClasses := by cases k <;> decide

/-- A head that moves on, after which nothing stands in front: the transaction comes to exactly what its verdict says. -/
theorem State.transact_moved (h : s.decides c) (tx : Transaction) {u : State}
    (hv : (s.atHead c tx).carryOut c (c.classOf tx.tag) false tx (s.judge c tx) = (u, true)) (hu : u.FrontEmpty) :
    s.transact tx = u := by
  have hq := h.2.2.1
  have hs : (s.atHead c tx).serveHead c (c.classOf tx.tag) false = (u, true) := by
    have hn : (s.atHead c tx).journal.hand = none := hq.2.2.2.2
    unfold State.serveHead
    rw [State.handAt_none hn, State.atHead_queueOf hq, List.head?_cons]
    dsimp only
    rw [State.atHead_judge]
    exact hv
  have hp : ∀ n, State.pumpClass c (c.classOf tx.tag) (n + 1) (s.atHead c tx) = u := by
    intro n
    unfold State.pumpClass
    rw [hs]
    dsimp only
    rw [hu.refill, hu.pumpClass]
  unfold State.transact
  rw [if_neg (by rw [h.1]; decide)]
  unfold State.pump
  rw [h.refill]
  have hc : (s.atHead c tx).charter = some c := h.2.1
  simp only [hc]
  obtain ⟨n, hn⟩ : ∃ n, (s.atHead c tx).turns = n + 1 :=
    ⟨(s.atHead c tx).turns - 1, by unfold State.turns; omega⟩
  rw [hn, State.atHead_pumpAll hq c tx _ allClasses (by rw [hp]; exact hu) (mem_allClasses _), hp]

/-- A refused transaction: the front is as it was, and the refusal is made. -/
theorem State.transact_refuse (h : s.decides c) (tx : Transaction) {src : RefusalSource} {why : Reason}
    (hv : s.judge c tx = .refuse src why) : s.transact tx = s.refuse c src why tx := by
  refine State.transact_moved h tx (by rw [hv]; unfold State.carryOut; rw [State.atHead_dropHead h.2.2.1]) ?_
  have q := ((State.Quiet.refl s).refuse c src why tx).path
  exact h.2.2.1.frontEmpty.keep q.waiting q.accept (congrArg JournalState.hand ((State.Apart.refl s).refuse c src why tx).journal)

/-- A forwarded transaction. -/
theorem State.transact_forward (h : s.decides c) (tx : Transaction) {r : Role} {o : Observed}
    (hv : s.judge c tx = .forward r o) : s.transact tx = s.forwardTx c tx r o := by
  have ho : (s.atHead c tx).streamOpen false = true := by
    have h1 := h.2.2.2.2.1
    have h2 := h.2.2.1.2.2.2.1
    unfold State.streamOpen State.atHead
    simp only [State.withLink_link, h2]
    simp [h1]
  refine State.transact_moved h tx ?_ (h.2.2.1.frontEmpty.forwardTx c tx r o)
  rw [hv]
  unfold State.carryOut
  dsimp only
  rw [if_pos ho, State.atHead_popHead h.2.2.1]

/-- A journal write refused by the journal unit. -/
theorem State.transact_refuseJournal (h : s.decides c) (tx : Transaction) {why : Reason}
    (hv : s.judge c tx = .refuseJournal why) : s.transact tx = s.refuseJournal c why tx := by
  refine State.transact_moved h tx (by rw [hv]; unfold State.carryOut; rw [State.atHead_dropHead h.2.2.1]) ?_
  have q := ((State.Quiet.refl s).refuseJournal c why tx).path
  refine h.2.2.1.frontEmpty.keep q.waiting q.accept ?_
  show (s.refuse c .journal why tx).journal.hand = _
  rw [((State.Apart.refl s).refuse c .journal why tx).journal]

/-- A half-block refused by the intake unit. -/
theorem State.transact_refuseHalf (h : s.decides c) (tx : Transaction) {r : HalfRefusal} {d : Bool}
    (hv : s.judge c tx = .refuseHalf r d) :
    s.transact tx = if d then (s.refuseHalf c r tx).setHalf none else s.refuseHalf c r tx := by
  have hj : (s.refuseHalf c r tx).journal = s.journal := by
    have hb : ∀ (u : State) (w : Reason) (n : Nat), (u.breakBatch w n).journal = u.journal := fun u w n => by
      unfold State.breakBatch
      split
      · exact ((State.Apart.refl _).report _).journal
      · rfl
    have h0 := ((State.Apart.refl s).refuse c .intake r.why tx).journal
    unfold State.refuseHalf
    generalize s.refuse c .intake r.why tx = u at h0
    dsimp only
    cases r.breaks
    · exact h0
    · exact (hb _ _ _).trans h0
  have q := ((State.Quiet.refl s).refuseHalf c r tx).path
  refine State.transact_moved h tx (by rw [hv]; unfold State.carryOut; rw [State.atHead_dropHead h.2.2.1]) ?_
  split
  · exact h.2.2.1.frontEmpty.keep q.waiting q.accept (congrArg JournalState.hand hj)
  · exact h.2.2.1.frontEmpty.keep q.waiting q.accept (congrArg JournalState.hand hj)

/-- A till read beyond the item count. -/
theorem State.transact_zeros (h : s.decides c) (tx : Transaction) (hv : s.judge c tx = .zeros) :
    s.transact tx = s.answer { tag := tx.tag, refused := false, data := List.replicate 16 0 } :=
  State.transact_moved h tx (by rw [hv]; unfold State.carryOut; rw [State.atHead_dropHead h.2.2.1])
    (h.2.2.1.frontEmpty.keep rfl rfl rfl)

/-- A guest transaction that is held. -/
theorem State.transact_toHold (h : s.decides c) (tx : Transaction) (hv : s.judge c tx = .toHold) :
    s.transact tx = s.withLink { s.link with hold := s.link.hold ++ [tx] } :=
  State.transact_moved h tx (by rw [hv]; unfold State.carryOut; rw [State.atHead_dropHead h.2.2.1])
    (h.2.2.1.frontEmpty.keep rfl rfl rfl)

/-! ## A transaction in PASS -/

theorem State.FrontEmpty.pumpPass (_h : s.FrontEmpty) (hp : s.link.passQueue = []) (n : Nat) : State.pumpPass n s = s := by
  have : s.servePass false = (s, false) := by
    unfold State.servePass
    rw [hp]
  cases n with
  | zero => rfl
  | succ n =>
    unfold State.pumpPass
    rw [this]

theorem State.passes.refill (h : s.passes) (tx : Transaction) :
    (s.offerTx tx).refill = s.withLink { s.link with passQueue := [tx] } := by
  obtain ⟨-, hc, hq, -⟩ := h
  have hw := hq.1
  have hp := hq.2.1
  unfold State.refill State.offerTx
  simp only [State.withLink_link, hw, List.nil_append, List.foldl_cons, List.foldl_nil]
  rw [State.withLink_withLink]
  have hcan : (s.withLink { s.link with waiting := [] }).canTake tx = true := by
    unfold State.canTake
    simp only [State.withLink_charter, hc, State.withLink_link, hp, List.length_nil, List.isEmpty_nil]
    simp [Config.acceptDepth]
  unfold State.takeIn
  rw [if_pos hcan]
  simp only [State.withLink_charter, hc, State.withLink_withLink, State.withLink_link, hp, List.nil_append]

/-- In PASS a transaction joins the stream, and a write of the load word is watched. -/
theorem State.transact_pass (h : s.passes) (tx : Transaction) :
    s.transact tx = (s.pushStream tx .plain).watchLoadWord tx := by
  have hq := h.2.2.1
  have hc := h.2.1
  have hs : (s.withLink { s.link with passQueue := [tx] }).servePass false =
      ((s.pushStream tx .plain).watchLoadWord tx, true) := by
    have ho : (s.withLink { s.link with passQueue := [tx] }).streamOpen false = true := by
      unfold State.streamOpen
      simp only [State.withLink_link, hq.2.2.2.1]
      simp [h.2.2.2.2]
    unfold State.servePass
    simp only [State.withLink_link]
    rw [if_pos ho, State.withLink_withLink, ← hq.2.1]
    rfl
  have hu : ((s.pushStream tx .plain).watchLoadWord tx).FrontEmpty ∧
      ((s.pushStream tx .plain).watchLoadWord tx).link.passQueue = [] := by
    obtain ⟨j, p⟩ := State.watchLoadWord_front (s.pushStream tx .plain) tx
    refine ⟨?_, p.passQueue.trans hq.2.1⟩
    exact State.FrontEmpty.keep (s := s.pushStream tx .plain) (hq.frontEmpty.keep rfl rfl rfl) p.waiting p.accept
      (congrArg JournalState.hand j)
  unfold State.transact
  rw [if_neg (by rw [h.1]; decide)]
  unfold State.pump
  rw [h.refill]
  have hc' : (s.withLink { s.link with passQueue := [tx] }).charter = none := hc
  simp only [hc']
  obtain ⟨n, hn⟩ : ∃ n, (s.withLink { s.link with passQueue := [tx] }).turns = n + 1 :=
    ⟨(s.withLink { s.link with passQueue := [tx] }).turns - 1, by unfold State.turns; omega⟩
  rw [hn]
  unfold State.pumpPass
  rw [hs]
  dsimp only
  rw [hu.1.refill, hu.1.pumpPass hu.2]

/-! ## What lies outside the charter window touches no load word; what a refusal leaves -/

theorem Transaction.wf_len {tx : Transaction} (h : tx.wf = true) : 8 ≤ tx.len ∧ tx.len ≤ 128 := by
  unfold Transaction.wf at h
  simp at h
  exact ⟨h.1.1.1, h.1.1.2⟩

theorem Transaction.wf_write {tx : Transaction} (h : tx.wf = true) (hd : tx.dir = .write) :
    tx.mask.length = tx.len ∧ tx.data.length = tx.len := by
  unfold Transaction.wf at h
  rw [hd] at h
  simp at h
  exact ⟨h.2.2, h.2.1⟩

theorem State.placeOf_charter (s : State) (c : Charter) (a : Nat) :
    s.placeOf c a = .charter ↔ s.charterBase ≤ a ∧ a < s.charterBase + 65536 := by
  unfold State.placeOf
  split
  · simp [*]
  · split <;> simp [*]

/-- A well-formed transaction that lies wholly outside the charter window writes no load word. -/
theorem State.liesIn.no_load_word {c : Charter} {tx : Transaction} {p : Place} (hw : tx.wf = true) (h : s.liesIn c tx p)
    (hp : p ≠ .charter) : tx.wordWritten s.charterBase = none := by
  unfold Transaction.wordWritten
  split
  · rename_i hh
    obtain ⟨hd, hle, hen⟩ := hh
    have hm := (Transaction.wf_write hw hd).1
    have hl := Transaction.wf_len hw
    unfold Transaction.enables at hen
    simp at hen
    have h1 := h.1
    unfold State.straddles at h1
    simp at h1
    have h2 := h1.2
    rw [h.2] at h2
    have hnc : ¬ (s.charterBase ≤ tx.start ∧ tx.start < s.charterBase + 65536) := fun e =>
      hp (by rw [← h.2]; exact (s.placeOf_charter c _).2 e)
    have hnl : ¬ (s.charterBase ≤ tx.start + tx.len - 1 ∧ tx.start + tx.len - 1 < s.charterBase + 65536) := fun e =>
      hp (by rw [h2]; exact (s.placeOf_charter c _).2 e)
    omega
  · rfl

theorem State.watchLoadWord_none {tx : Transaction} (h : tx.wordWritten s.charterBase ≠ some 1) : s.watchLoadWord tx = s :=
  if_neg h

/-- A forwarded transaction that no unit observes only joins the stream. -/
theorem State.forwardTx_nothing {c : Charter} {tx : Transaction} {r : Role}
    (h : tx.wordWritten s.charterBase ≠ some 1) : s.forwardTx c tx r .nothing = s.pushStream tx r := by
  unfold State.forwardTx
  exact State.watchLoadWord_none h

/-- A forwarded transaction that a unit observes, when it writes no load word. -/
theorem State.forwardTx_observe {c : Charter} {tx : Transaction} {r : Role} {o : Observed}
    (h : tx.wordWritten s.charterBase ≠ some 1) : s.forwardTx c tx r o = (s.pushStream tx r).observe c tx o := by
  unfold State.forwardTx
  refine State.watchLoadWord_none ?_
  have e : ((s.pushStream tx r).observe c tx o).charterBase = s.charterBase := by
    unfold State.charterBase
    rw [((State.Quiet.refl (s.pushStream tx r)).observe c tx o).time.chb]
    rfl
  rw [e]
  exact h

/-- What a report leaves of the link interface's account of refusals. -/
structure State.SameAnswers (s t : State) : Prop where
  answers  : t.link.answers = s.link.answers
  refusals : t.link.refusals = s.link.refusals
  first    : t.link.firstRefusal = s.link.firstRefusal
  stream   : t.link.stream = s.link.stream
  units    : s.SameUnits t

theorem State.SameUnits.refl (s : State) : s.SameUnits s := ⟨rfl, rfl, rfl, rfl, rfl, rfl, rfl, rfl⟩

theorem State.SameAnswers.refl (s : State) : s.SameAnswers s := ⟨rfl, rfl, rfl, rfl, .refl s⟩

theorem State.SameAnswers.addTask {s t : State} (a : s.SameAnswers t) (u : PartUnit) (k : Task) :
    s.SameAnswers (t.addTask u k) := ⟨a.answers, a.refusals, a.first, a.stream, a.units⟩

theorem State.SameAnswers.placeOwn {s t : State} (a : s.SameAnswers t) (r : OwnRequest) : s.SameAnswers (t.placeOwn r) := by
  unfold State.placeOwn State.orDefer State.enqueueOwn
  split
  · exact a.addTask _ _
  · dsimp only
    split
    · split <;> exact ⟨a.answers, a.refusals, a.first, a.stream, a.units⟩
    · exact ⟨a.answers, a.refusals, a.first, a.stream, a.units⟩

theorem State.SameAnswers.withControl {s t : State} (a : s.SameAnswers t) (x : ControlState) :
    s.SameAnswers (t.withControl x) := ⟨a.answers, a.refusals, a.first, a.stream, a.units⟩

theorem State.SameAnswers.countReport {s t : State} (a : s.SameAnswers t) : s.SameAnswers t.countReport := by
  unfold State.countReport
  split
  · exact a
  · exact (a.withControl _).placeOwn _

theorem State.SameAnswers.report {s t : State} (a : s.SameAnswers t) (r : Report) : s.SameAnswers (t.report r) := by
  unfold State.report State.orDefer State.writeReport
  split
  · exact a.addTask _ _
  · dsimp only
    split
    · exact a
    · split
      · unfold State.orDefer
        split
        · exact (a.placeOwn _).addTask _ _
        · exact (a.placeOwn _).countReport
      · exact a.withControl _

/-- What a refusal leaves: the REFUSED completion, the count and the first refusal, the report of the guard's refusals, and
every unit as it was. -/
theorem State.refuse_refusedTo (s : State) (c : Charter) (src : RefusalSource) (why : Reason) (tx : Transaction)
    (hc : s.charter = some c) (hn : s.noneWaits) :
    s.RefusedTo (s.refuse c src why tx) c src why tx ∧ s.SameUnits (s.refuse c src why tx) := by
  unfold State.refuse
  dsimp only
  generalize hu : State.withLink _ _ = u
  have hg : (src = .decoder ∨ src = .pacer ∨ src = .sweep) ↔ src.guards = true := by
    cases src <;> simp [RefusalSource.guards]
  have h1 : u.link.answers = s.link.answers ++
      [{ tag := tx.tag, refused := true, data := if tx.dir = .read then List.replicate tx.len 0 else [] }] := by
    subst hu
    rfl
  have h2 : u.link.refusals = min 65535 (s.link.refusals + 1) := by
    subst hu
    rfl
  have h3 : u.link.firstRefusal = some (s.link.firstRefusal.getD (refusedRecord c src why tx)) := by
    subst hu
    show (match s.link.firstRefusal with | none => _ | some f => _) = _
    cases s.link.firstRefusal <;> rfl
  have h4 : u.link.stream = s.link.stream := by
    subst hu
    rfl
  have h5 : s.SameUnits u := by
    subst hu
    exact .refl s
  have h6 : s.reportsNow (u.report (.guardRefusal (refusedRecord c src why tx))) c
      (.guardRefusal (refusedRecord c src why tx)) := by
    have := State.report_reportsNow (s := u) (c := c) (by subst hu; exact hc) (by subst hu; exact hn)
      (.guardRefusal (refusedRecord c src why tx))
    subst hu
    exact this
  split
  · have a := (State.SameAnswers.refl u).report (.guardRefusal (refusedRecord c src why tx))
    obtain ⟨g1, g2, g3, g4, g5, g6, g7, g8⟩ := h5
    obtain ⟨k1, k2, k3, k4, k5, k6, k7, k8⟩ := a.units
    exact ⟨⟨a.answers.trans h1, a.refusals.trans h2, a.first.trans h3, a.stream.trans h4, fun _ => h6⟩, k1.trans g1,
      k2.trans g2, k3.trans g3, k4.trans g4, k5.trans g5, k6.trans g6, k7.trans g7, k8.trans g8⟩
  · rename_i hne
    exact ⟨⟨h1, h2, h3, h4, fun e => absurd (hg.1 e) hne⟩, h5⟩

end Sys2Proof.Machine
end

