-- ==== Sys2Proof/Laws/Record.lean ====
section
/-! SUPPORT. A journal write accepted while nothing stands in front of it: it becomes the record in hand, and is forwarded in the same
step when it needs no price (R103). -/

namespace Sys2Proof.Machine

variable {s t : State} {c : Charter}

/-- The state with the write accepted as the record in hand, the write still at the head of its accept queue. -/
def State.inHand (s : State) (c : Charter) (tx : Transaction) : State := (s.atHead c tx).acceptRecord c (c.classOf tx.tag) tx

theorem State.inHand_path (s : State) (c : Charter) (tx : Transaction) : (s.atHead c tx).SamePath (s.inHand c tx) :=
  ((State.Quiet.refl (s.atHead c tx)).acceptRecord c _ tx).path

theorem State.inHand_accept (s : State) (c : Charter) (tx : Transaction) :
    (s.inHand c tx).link.accept = s.link.accept.setIfInBounds (c.classOf tx.tag).index [tx] := (s.inHand_path c tx).accept

/-- A class other than the record's, with nothing in its queue, finds nothing to serve. -/
theorem State.serveHead_idle {u : State} {k : Class} (hk : u.handAt k = none) (hq : u.queueOf k.index = []) (c : Charter)
    (b : Bool) : u.serveHead c k b = (u, false) := by
  unfold State.serveHead
  rw [hk, hq]
  rfl

/-- The record in hand stands in no other class's queue. -/
theorem State.handAt_other {u : State} {x : JournalHand} {k : Class} (hx : u.journal.hand = some x) (hk : x.queue ≠ k) :
    u.handAt k = none := by
  unfold State.handAt
  simp [hx, hk]

/-- The record in hand stands in the queue of its class. -/
theorem State.handAt_own {u : State} {x : JournalHand} {k : Class} (hx : u.journal.hand = some x) (hk : x.queue = k) :
    u.handAt k = some x := by
  unfold State.handAt
  simp [hx, hk]

/-- A record in hand that is not ready to be forwarded keeps its queue as it is. -/
theorem State.serveHead_held {u : State} {x : JournalHand} {k : Class} (hx : u.journal.hand = some x) (hk : x.queue = k)
    (hst : x.stage ≠ .ready) (c : Charter) (b : Bool) : u.serveHead c k b = (u, false) := by
  unfold State.serveHead
  rw [State.handAt_own hx hk]
  dsimp only
  split
  · exact absurd ‹_› hst
  · rfl
  · rfl

theorem State.pumpClass_stays {u : State} {k : Class} (n : Nat) (h : u.serveHead c k false = (u, false)) :
    State.pumpClass c k n u = u := by
  cases n with
  | zero => rfl
  | succ n =>
    unfold State.pumpClass
    rw [h]

theorem State.pumpAll_stays {u : State} (n : Nat) (l : List Class)
    (h : ∀ k ∈ l, u.serveHead c k false = (u, false)) : l.foldl (fun s k => State.pumpClass c k n s) u = u := by
  induction l with
  | nil => rfl
  | cons k l ih =>
    rw [List.foldl_cons, State.pumpClass_stays n (h k List.mem_cons_self)]
    exact ih fun j hj => h j (List.mem_cons_of_mem _ hj)

theorem State.refill_idle {u : State} (h : u.link.waiting = []) : u.refill = u := by
  have : u.withLink { u.link with waiting := [] } = u := by
    rw [← h]
    rfl
  unfold State.refill
  rw [h, this]
  rfl

theorem Class.index_inj {j k : Class} (h : j.index = k.index) : j = k := by
  cases j <;> cases k <;> first | rfl | (exact absurd h (by decide))

/-- With a quiet link, the queue of a class that is not the transaction's is empty. -/
theorem State.other_queue (h : s.linkQuiet) (tx : Transaction) {u : State}
    (hu : u.link.accept = s.link.accept.setIfInBounds (c.classOf tx.tag).index [tx]) {k : Class}
    (hk : k ≠ c.classOf tx.tag) : u.queueOf k.index = [] := by
  unfold State.queueOf
  rw [hu]
  rcases accept_getD s.link.accept (c.classOf tx.tag).index k.index [tx] with e | ⟨-, e⟩
  · rw [e]
    exact h.frontEmpty.queueOf k.index
  · exact absurd (Class.index_inj e.symm) (Ne.symm hk)

/-- The pump of an accepted write, up to the class of the write. -/
theorem State.transact_taken (h : s.decides c) (tx : Transaction) (hk : c.classOf tx.tag = .till)
    (hv : s.judge c tx = .accept) (n : Nat) :
    State.pumpClass c .till (n + 1) (s.atHead c tx) = State.pumpClass c .till n (s.inHand c tx) := by
  have hq := h.2.2.1
  have hn : (s.atHead c tx).journal.hand = none := hq.2.2.2.2
  have hs : (s.atHead c tx).serveHead c .till false = (s.inHand c tx, true) := by
    have := State.atHead_queueOf hq c tx
    rw [hk] at this
    unfold State.serveHead
    rw [State.handAt_none hn, this, List.head?_cons]
    dsimp only
    rw [State.atHead_judge, hv]
    unfold State.carryOut State.inHand
    dsimp only
    rw [State.unwait_idle (s := s.atHead c tx) hq.2.2.2.1, hk]
  have hw : (s.inHand c tx).link.waiting = [] := (s.inHand_path c tx).waiting.trans hq.1
  rw [State.pumpClass.eq_2, hs]
  dsimp only
  rw [State.refill_idle hw]

/-- The other classes, before and after the TILL class. -/
theorem State.transact_till (h : s.decides c) (tx : Transaction) (hk : c.classOf tx.tag = .till) {u : State}
    (hp : ∀ n, 2 ≤ n → State.pumpClass c .till (n + 1) (s.atHead c tx) = u)
    (hu : ∀ k : Class, k ≠ .till → u.handAt k = none ∧ u.queueOf k.index = []) : s.transact tx = u := by
  have hq := h.2.2.1
  unfold State.transact
  rw [if_neg (by rw [h.1]; decide)]
  unfold State.pump
  rw [h.refill]
  have hc : (s.atHead c tx).charter = some c := h.2.1
  simp only [hc]
  obtain ⟨n, hn, hn2⟩ : ∃ n, (s.atHead c tx).turns = n + 1 ∧ 2 ≤ n :=
    ⟨(s.atHead c tx).turns - 1, by unfold State.turns; omega, by unfold State.turns; omega⟩
  rw [hn]
  have ha : (s.atHead c tx).serveHead c .admin false = (s.atHead c tx, false) :=
    State.atHead_serveHead hq c tx .admin (by rw [hk]; decide)
  unfold allClasses
  rw [List.foldl_cons, State.pumpClass_stays _ ha, List.foldl_cons, hp n hn2]
  refine State.pumpAll_stays _ _ fun k hm => ?_
  have hne : k ≠ .till := by
    rintro rfl
    exact absurd hm (by decide)
  exact State.serveHead_idle (hu k hne).1 (hu k hne).2 c false

/-- A record that waits for its price stays at the head of the TILL queue. -/
theorem State.transact_pricing (h : s.decides c) (tx : Transaction) (hk : c.classOf tx.tag = .till)
    (hv : s.judge c tx = .accept) {x : JournalHand} (hx : (s.inHand c tx).journal.hand = some x) (hxq : x.queue = .till)
    (hst : x.stage = .pricing) : s.transact tx = s.inHand c tx := by
  refine State.transact_till h tx hk (fun n _ => ?_) fun k hne =>
    ⟨State.handAt_other hx (by rw [hxq]; exact Ne.symm hne),
     State.other_queue h.2.2.1 tx (s.inHand_accept c tx) (by rw [hk]; exact hne)⟩
  rw [State.transact_taken h tx hk hv]
  exact State.pumpClass_stays _ (State.serveHead_held hx hxq (by rw [hst]; decide) c false)

/-- A record whose findings are in is forwarded with its stamp; its write stays at the head of the TILL queue. -/
theorem State.transact_ready (h : s.decides c) (tx : Transaction) (hk : c.classOf tx.tag = .till)
    (hv : s.judge c tx = .accept) {x : JournalHand} (hx : (s.inHand c tx).journal.hand = some x) (hxq : x.queue = .till)
    (hst : x.stage = .ready) :
    s.transact tx =
      ((s.inHand c tx).setHand (some { x with stage := .sent })).forwardTx c x.tx .journalRecord .nothing := by
  have hq := h.2.2.1
  have hp := s.inHand_path c tx
  have ho : (s.inHand c tx).streamOpen false = true := by
    have h1 : (s.inHand c tx).link.stream = s.link.stream := hp.stream
    have h2 : (s.inHand c tx).link.streamWait = s.link.streamWait := hp.streamWait
    unfold State.streamOpen
    rw [h1, h2, hq.2.2.2.1]
    simp [h.2.2.2.2.1]
  have hs : (s.inHand c tx).serveHead c .till false =
      (((s.inHand c tx).setHand (some { x with stage := .sent })).forwardTx c x.tx .journalRecord .nothing, true) := by
    unfold State.serveHead
    rw [State.handAt_own hx hxq]
    simp only [hst]
    unfold State.forwardHand
    rw [if_pos ho]
  generalize hu : ((s.inHand c tx).setHand (some { x with stage := .sent })).forwardTx c x.tx .journalRecord
    .nothing = u at hs
  have hf : u.link.waiting = [] ∧ u.link.accept = s.link.accept.setIfInBounds (c.classOf tx.tag).index [tx] ∧
      u.journal.hand = some { x with stage := .sent } := by
    obtain ⟨j, p⟩ := State.watchLoadWord_front
      (((s.inHand c tx).setHand (some { x with stage := .sent })).pushStream x.tx .journalRecord) x.tx
    subst hu
    exact ⟨p.waiting.trans (hp.waiting.trans hq.1), p.accept.trans (s.inHand_accept c tx), congrArg JournalState.hand j⟩
  refine State.transact_till h tx hk (fun n hn => ?_) fun k hne =>
    ⟨State.handAt_other hf.2.2 (by simpa [hxq] using Ne.symm hne),
     State.other_queue hq tx hf.2.1 (by rw [hk]; exact hne)⟩
  rw [State.transact_taken h tx hk hv]
  obtain ⟨m, rfl⟩ : ∃ m, n = m + 1 := ⟨n - 1, by omega⟩
  rw [State.pumpClass.eq_2, hs]
  dsimp only
  rw [State.refill_idle hf.1]
  exact State.pumpClass_stays _ (State.serveHead_held hf.2.2 hxq (by simp) c false)

end Sys2Proof.Machine
end

