-- ==== Sys2Proof/Tests/Slice0.lean ====
section
/-! SUPPORT. Tests of the model: the checks of well-formed commands, single commands on small states with results worked out by
hand from the manual, and for each statement with hypotheses states that meet them. -/

namespace Sys2Proof.Tests

open Sys2Proof.Machine

/-! ## Small states -/

/-- A write with every byte enabled, and a read. -/
def wr (tag : Fin 16) (addr : Word32) (data : List Byte) : Transaction :=
  { tag, dir := .write, addr, len := data.length, data, mask := List.replicate data.length true }
def rd (tag : Fin 16) (addr : Word32) (len : Nat) : Transaction := { tag, dir := .read, addr, len, data := [], mask := [] }

/-- A write of one index word of a ring. -/
def wrIndex (tag : Fin 16) (addr : Word32) (consumer : Bool) (v : Nat) : Transaction :=
  { tag, dir := .write, addr, len := 8, data := toLe 4 v ++ toLe 4 v
    mask := List.replicate 4 (!consumer) ++ List.replicate 4 consumer }

def window (kind : WindowKind) (base slots : Nat) : Window := { kind, base, size := 4096, slots, rights := [] }

def guestWindow : Window :=
  { window .guest 0x208000 0 with rights := [.readWrite, .none, .none, .readWrite, .none, .none, .none] }

def plainWindow : Window :=
  { window .plain 0x209000 0 with rights := [.readWrite, .readWrite, .none, .readWrite, .read, .none, .none] }

/-- Tags 0 to 6 are of the seven classes in the order of their codes; the windows stand from 1 MiB on, with straps of 1 in mind. -/
def chart : Charter where
  revision := 7
  keep := false
  resume := none
  unit := 5
  itemCount := 5000
  tillCount := 4
  retryLimit := 3
  trickle := 4
  averaging := 2
  labelDeadline := 900
  grace := 60
  idleClose := 30
  syncMinutes := 10
  blankFraction := 16
  settleFraction := 24
  baseMin := 40
  baseMax := 2000
  baseInitial := 100
  qualityMin := 10
  sweepFloor := 3
  tradingFloor := 1
  closingFloor := 2
  lowTrigger := 1
  highTrigger := 3
  budgets := [4096, 2048, 1024, 512, 256, 128, 64]
  classes := [.admin, .till, .label, .guest, .link, .lan, .other]
  openRights := [.readWrite, .none, .none, .read, .none, .readWrite, .none]
  slots := [{ enabled := true, zone := 7, sync := false, quota := 8 }, { enabled := true, zone := 4, sync := true, quota := 1 }]
  windows :=
    [{ window .price 0x100000 0 with size := 0x80000 }, window .journal 0x200000 4, window .upload 0x201000 4,
     window .intake 0x202000 4, window .labelTx 0x203000 4, window .labelRx 0x204000 4, window .control 0x205000 4,
     window .report 0x206000 8, window .status 0x207000 0,
     guestWindow, plainWindow]

/-- The part ACTIVE in TRADING under that charter, with the sweep in MANUAL and nothing in any queue. -/
def active : State :=
  { State.reset with
    chb := 1, charter := some chart
    control := { ControlState.reset with part := .active }
    phase := { PhaseState.reset with phase := some .trading, clock := 68100, mono := 500000, day := 9 }
    sweep := { SweepUnit.reset with
      state := .manualWait, manual := true, slots := chart.slots, base := 100, blank := 12, settle := 18 }
    guest := { level := 1, periodBytes := 0, floor := 1 } }

/-- The state a command answers, or the state given when it stops. -/
def after (i : Instr) (s : State) : State :=
  match exec i s with
  | .next t => t
  | .fault _ => s
  | .refused _ => s

theorem active_decides : active.decides chart := ⟨rfl, rfl, ⟨rfl, rfl, rfl, rfl, rfl⟩, rfl, by decide, by decide⟩

theorem reset_passes : State.reset.passes := ⟨rfl, rfl, ⟨rfl, rfl, rfl, rfl, rfl⟩, rfl, by decide⟩

/-! ## Well-formed commands: one ill-formed term for each check -/

theorem test_wf_transaction_length :
    (Instr.passTransaction (rd 0 0 0)).wf = false ∧ (Instr.passTransaction (rd 0 0 136)).wf = false ∧
      (Instr.passTransaction (rd 0 0 12)).wf = false := by decide

theorem test_wf_read_carries_nothing :
    (Instr.plainTransaction { rd 0 0 8 with data := [0] }).wf = false ∧
      (Instr.plainTransaction { rd 0 0 8 with mask := [true] }).wf = false := by decide

theorem test_wf_write_carries_its_bytes :
    (Instr.plainTransaction { wr 0 0 (toLe 8 0) with data := toLe 7 0 }).wf = false ∧
      (Instr.plainTransaction { wr 0 0 (toLe 8 0) with mask := [] }).wf = false := by decide

theorem test_wf_write_rows_refuse_a_read :
    [Instr.registerWrite (rd 0 0 8), .acknowledgment (rd 0 0 16), .labelTxConsumerWrite (rd 0 0 8),
      .journalConsumerWrite (rd 0 0 8), .uploadConsumerWrite (rd 0 0 8), .signOn (rd 0 0 64), .unknownJournalKind (rd 0 0 64),
      .intakeLowerHalf (rd 0 0 128), .intakeUpperHalf (rd 0 0 128), .controlProducerWrite (rd 0 0 8),
      .reportConsumerWrite (rd 0 0 8), .loadWordWrite (rd 0 0 8)].all (fun i => !i.wf) = true := by decide

theorem test_wf_rows_of_one_length :
    [Instr.tillPriceRead (rd 0 0 8), .acknowledgment (wr 0 0 (toLe 8 0)), .labelTxConsumerWrite (wr 0 0 (toLe 16 0)),
      .journalConsumerWrite (wr 0 0 (toLe 16 0)), .uploadConsumerWrite (wr 0 0 (toLe 16 0)),
      .controlProducerWrite (wr 0 0 (toLe 16 0)), .reportConsumerWrite (wr 0 0 (toLe 16 0))].all (fun i => !i.wf) = true := by
  decide

theorem test_wf_price_read_is_a_read : (Instr.tillPriceRead (wr 0 0 (toLe 16 0))).wf = false := by decide

theorem test_wf_journal_rows_name_their_kind :
    [Instr.signOn (wr 0 0 [0, 2, 0, 0, 0, 0, 0, 0]), .item (wr 0 0 [0, 1, 0, 0, 0, 0, 0, 0]),
      .voidLine (wr 0 0 [0, 1, 0, 0, 0, 0, 0, 0]), .basketTotal (wr 0 0 [0, 1, 0, 0, 0, 0, 0, 0]),
      .basketCancel (wr 0 0 [0, 1, 0, 0, 0, 0, 0, 0]), .refund (wr 0 0 [0, 1, 0, 0, 0, 0, 0, 0]),
      .noSale (wr 0 0 [0, 1, 0, 0, 0, 0, 0, 0]), .signOff (wr 0 0 [0, 1, 0, 0, 0, 0, 0, 0]),
      .unknownJournalKind (wr 0 0 [0, 8, 0, 0, 0, 0, 0, 0])].all (fun i => !i.wf) = true := by decide

theorem test_wf_accepts :
    [Instr.secondAdvance, .tillPriceRead (rd 1 0x100000 16), .signOn (wr 1 0 [0, 1, 0, 0, 0, 0, 0, 0]),
      .unknownJournalKind (wr 1 0 [0, 9, 0, 0, 0, 0, 0, 0]), .passTransaction (rd 0 0 128)].all Instr.wf = true := by decide

/-! ## Values from the manual's worked examples -/

/-- The table of section 2.3. -/
theorem test_worked_charges :
    chargePrice 5 false 1249 3000 0 = 870 ∧ chargePrice 10 false 999 2500 0 = 740 ∧ chargePrice 1 false 3 5000 0 = 1 ∧
      chargePrice 1 false 1001 5000 0 = 500 ∧ chargePrice 1 false 1001 5001 0 = 500 ∧ chargePrice 10 false 2000 9000 450 = 450 ∧
      chargePrice 1 false 1237 3300 0 = 829 ∧ chargePrice 5 false 3 5000 0 = 0 ∧ chargePrice 5 false 500 2000 800 = 500 ∧
      chargePrice 5 false 1000 5000 603 = 603 ∧ chargePrice 5 true 1249 3000 0 = 1249 ∧
      chargePrice 5 false 99999999 1 0 = 99989995 := by decide

/-- The examples of section 2.4. -/
theorem test_worked_lines :
    lineAmount true 385 1299 = (500, false) ∧ lineAmount true 500 1001 = (501, false) ∧
      lineAmount false 3 870 = (2610, false) ∧ lineAmount false 9999 99999999 = (999999999, true) := by decide

/-- The check of the nine characters "123456789", the usual example of the CRC that R129 describes, complemented. -/
theorem test_crc :
    ~~~crcFeed crcSeed [0x31, 0x32, 0x33, 0x34, 0x35, 0x36, 0x37, 0x38, 0x39] = 0xCBF43926 := by decide +kernel

/-- The example of section 5.1: producer 1,004, copy 996. -/
theorem test_worked_counts :
    takeCount 1004 996 1003 = 1003 ∧ takeCount 1004 996 1010 = 1004 ∧ takeCount 1004 996 990 = 996 := by decide

/-- The examples of section 4.4: the base time of four durations, and after a silent visit. -/
theorem test_worked_base :
    baseOf { chart with averaging := 4 } [120, 136, 128, 140] = 131 ∧ 131 * 16 / 128 = 16 ∧ 131 * 24 / 128 = 24 ∧
      baseOf { chart with averaging := 4 } [136, 128, 140, 163] = 141 := by decide

/-- The example of section 4.3: quotas 8, 3 and 1 with a trickle of 4, at night and in trading. -/
theorem test_worked_quota :
    visitQuota chart (some .night) 8 .price = 8 ∧ visitQuota chart (some .trading) 8 .price = 4 ∧
      visitQuota chart (some .trading) 3 .price = 1 ∧ visitQuota chart (some .trading) 1 .price = 1 := by decide

/-! ## The worked evening markdown (section 1.10): item 4,117 -/

/-- A state in which the own read of the head request returns with the bytes `d`. -/
def headState (r : EntryReq) (d : List Byte) : State :=
  { active with
    book := { BookState.reset with queue := [r], headPhase := .reading }
    link := { LinkState.reset with issued :=
      [.own { unit := .book, addr := chart.entryAddr r.item, body := .read 64, purpose := .entryRead } d] } }

theorem headState_returns (r : EntryReq) (d : List Byte) : (headState r d).HeadReturns chart r [] d :=
  ⟨rfl, rfl, rfl, rfl, ⟨_, rfl⟩, ⟨rfl, rfl, rfl, rfl, rfl⟩, ⟨rfl, rfl, by show 0 + 1 ≤ 32; decide⟩⟩

/-- The entry that a state's last own request writes. -/
def written (s : State) : Option Entry :=
  match s.link.own.getLast? with
  | some q =>
    match q.body with
    | .write d => some (Entry.take 3 d)
    | _ => none
  | none => none

/-- The tray at 18:55:00. -/
def tray : Entry :=
  { Entry.fresh with
    item := .active, label := .confirmed, zone := 7, base := 1249, address := 0x3A41C2, charge := 1249, previous := 1199
    changeover := 212040, generation := 41, target := 1249, sentPrice := 1249, sentGen := 41, shown := 1249 }

/-- The tray after the staging of 30 percent for 19:00. -/
def trayStaged : Entry :=
  { tray with
    pending := true, pBase := 1249, pMarkdown := 3000, pAddress := 0x3A41C2, pZone := 7, eff := .atTime, due := 500300
    generation := 42 }

/-- The tray as an increase waits for its label at 22:00:02. -/
def trayWaiting : Entry :=
  { tray with
    label := .sent, markdown := 3000, charge := 870, previous := 1249, changeover := 500300, generation := 44, shown := 870
    pending := true, waiting := true, pBase := 1249, pAddress := 0x3A41C2, pZone := 7, eff := .now, due := 511100
    target := 1249, sentPrice := 1249, sentGen := 44 }

def stageRequest (eff : EffKind) (markdown second : Nat) : EntryReq :=
  { item := 4117, kind := .stage (.setMarkdown markdown) eff second .control false }

theorem test_worked_staging :
    written (after .stage (headState (stageRequest .atTime 3000 68400) tray.bytes)) = some trayStaged := by decide +kernel

/-- At 19:00:00 the item is due. -/
def dueState : State :=
  let s := headState { item := 4117, kind := .changeoverDue } trayStaged.bytes
  { s with
    phase := { s.phase with mono := 500300, clock := 68400 }
    book := { s.book with timed :=
      [{ item := 4117, key := 500300, due := 500300, marked := true }, { item := 5, key := 513000, due := 513000, marked := false }] } }

theorem test_worked_changeover :
    written (after .changeoverDue dueState) = some { trayStaged with
      markdown := 3000, charge := 870, previous := 1249, changeover := 500300, pending := false, generation := 43
      target := 870, label := .due, queued := true } ∧
      (after .changeoverDue dueState).book.timed = [{ item := 5, key := 513000, due := 513000, marked := false }] ∧
      (after .changeoverDue dueState).zoneQueue 7 = [4117] := by decide +kernel

/-- At 22:00:03 the label has acknowledged the increase. -/
def ackState : State :=
  let s := headState { item := 4117, kind := .labelAck none } trayWaiting.bytes
  { s with
    phase := { s.phase with mono := 511103 }
    book := { s.book with timed := [{ item := 4117, key := 512000, due := 511100, marked := false }] } }

theorem test_worked_release :
    written (after .labelAck ackState) = some { trayWaiting with
      markdown := 0, charge := 1249, previous := 870, changeover := 511103, pending := false, waiting := false
      generation := 45, shown := 1249, label := .confirmed } ∧
      (after .labelAck ackState).book.timed = [] := by decide +kernel
/-! ## States that meet the hypotheses of the statements, in their order; each theorem is named after its statement -/

theorem witness_StepRunsFrontCommand :
    { active with pending := [.portGrant, .stage] }.pending = .portGrant :: [.stage] ∧ active.pending = [] := by decide

theorem till_default (n : Nat) : active.till n = {} := by
  unfold State.till active State.reset JournalState.reset
  by_cases h : n < 48 <;> simp [Vector.getD, h]

theorem zoneRec_default (z : Nat) : active.zoneRec z = {} := by
  unfold State.zoneRec active State.reset SweepUnit.reset
  by_cases h : z < 12 <;> simp [Vector.getD, h]

theorem active_inv : active.Inv := by
  refine ⟨⟨⟨by decide, by decide, by decide, by decide, ?_, by decide, by decide, by decide, by decide, ?_, ?_, by decide,
    by decide, by decide, by decide⟩, ⟨by decide, by decide, by decide, by simp [active, State.reset, ControlState.reset],
    by decide, ?_, ?_, by simp [active], by intro; rfl⟩⟩, by unfold State.clockInDay; decide,
    by unfold State.filterInRange; decide, by unfold State.memoryWf; decide⟩
  · intro k
    have h : active.queueOf k = [] := by
      unfold State.queueOf active State.reset LinkState.reset
      by_cases h : k < 7 <;> simp [Vector.getD, h]
    simp [h]
  · intro z
    rw [zoneRec_default]
    exact ⟨by decide, by decide, by decide⟩
  · intro c h
    have : chart = c := by simpa [active] using h
    subst this
    decide
  · intro c h
    have : chart = c := by simpa [active] using h
    subst this
    exact ⟨by decide, by decide, by decide, by decide⟩
  · intro c h
    simp [active, State.reset, ControlState.reset] at h

/-- An inhabited invariant and a step from it. -/
theorem witness_EveryStepKeepsInvariant :
    active.Inv ∧ step { active with pending := [.pacingPeriodBoundary] } =
      .next (after .pacingPeriodBoundary active) := ⟨active_inv, by rfl⟩

/-- A transaction of 8 bytes whose last byte would lie beyond the address space. -/
def beyond : State :=
  { State.reset with link := { LinkState.reset with stream := [{ tx := rd 0 0xFFFFFFFC 8, role := .plain }] } }

/-- A grant of a transaction that reaches beyond the address space answers a next state, which holds its 8 bytes. -/
theorem witness_EveryCommandAnswersNext :
    beyond.portChoice = .stream ∧ 2 ^ 32 < (rd 0 0xFFFFFFFC 8).start + 8 ∧
      ∃ t d, exec .portGrant beyond = .next t ∧ t.link.issued = [.pass ⟨rd 0 0xFFFFFFFC 8, .plain⟩ d] ∧ d.length = 8 :=
  ⟨by decide, by decide, _, _, rfl, rfl, rfl⟩

theorem witness_TimeChangesByItsCommands :
    (∃ t, exec .secondAdvance active = .next t ∧ t.phase.mono = 500001) ∧
      (∃ t, exec .portGrant beyond.atReset = .next t ∧ t.mem = []) := ⟨⟨_, rfl, by decide +kernel⟩, ⟨_, rfl, by decide +kernel⟩⟩

/-- A grant that changes memory. -/
theorem witness_OnlyPortGrantChangesMemory :
    ∃ t, exec .portGrant { active with link := { active.link with
        own := [{ unit := .control, addr := 5, body := .write [1], purpose := .silent }] } } = .next t ∧
      t.mem.read 5 = 1 ∧ t.pending = active.pending := ⟨_, rfl, by decide +kernel⟩

theorem witness_RiseLatchesStraps : active.link.waiting = [] := rfl

theorem witness_AssertedResetHoldsThePart :
    { active with inReset := true }.inReset = true ∧ Instr.portGrant ≠ .resetNAssert ∧
      Instr.transaction (.passTransaction (rd 0 0 8)) = some (rd 0 0 8) := by decide

/-- A markdown of 0; a point at the floor; a point below it. -/
theorem witness_ChargeWithinFloorAndBase :
    (0 < 5) ∧ (870 : Nat) ≤ discounted 1249 3000 / 5 * 5 ∧ discounted 1249 3000 / 5 * 5 < 871 := by decide

/-- The largest product, and an exact half. -/
theorem witness_DiscountAndLineAmountsRound :
    99999999 * (10000 - 1) = 10000 * 99989999 + 1 ∧ 1001 * (10000 - 5000) = 10000 * 500 + 5000 ∧ 1 * 499 < 500 := by decide

theorem witness_PassForwardsUnchanged :
    State.reset.passes ∧ (rd 3 0x20 128).wf = true ∧ (rd 3 0x20 128).wordWritten State.reset.charterBase ≠ some 1 :=
  ⟨reset_passes, by decide, by decide⟩

/-- A write of 1 to the load word in PASS, in the LOADING that follows reset, and by ADMIN in ACTIVE. -/
def loadWrite : Transaction := wr 0 0x1000000 (toLe 8 1)

theorem witness_LoadWordWriteStartsLoadOrBusy :
    let s : State := { State.reset with chb := 1 }
    let l : State := { s with control := { ControlState.reset with part := .loading, load := some {} } }
    loadWrite.wf = true ∧ loadWrite.wordWritten s.charterBase = some 1 ∧ s.passes ∧ s.control.part = .pass ∧ s.ownFree 7 ∧
      l.passes ∧ l.ownFree 1 ∧ active.control.part ≠ .pass ∧ chart.classOf loadWrite.tag = .admin ∧
      active.liesIn chart loadWrite .charter ∧ active.ownFree 1 :=
  ⟨by decide, by decide, ⟨rfl, rfl, ⟨rfl, rfl, rfl, rfl, rfl⟩, rfl, by decide⟩, rfl, ⟨rfl, rfl, by decide⟩,
    ⟨rfl, rfl, ⟨rfl, rfl, rfl, rfl, rfl⟩, rfl, by decide⟩, ⟨rfl, rfl, by decide⟩, by decide, by decide,
    ⟨by decide +kernel, by decide +kernel⟩, ⟨rfl, rfl, by decide⟩⟩

/-- The last 8 bytes of the PLAIN window read by TILL, which may, and open memory read by TILL, which may not. -/
theorem witness_PlainTransactionJudgedByRight :
    (rd 1 0x209FF8 8).wf = true ∧ chart.classOf 1 = .till ∧
      active.liesIn chart (rd 1 0x209FF8 8) (.window plainWindow) ∧ plainWindow.kind = .plain ∧
      plainWindow.rights.getD Class.till.index .none = .readWrite ∧
      active.liesIn chart (rd 1 0x20A000 8) .openMemory ∧ chart.openRights.getD Class.till.index .none = .none :=
  ⟨by decide, by decide, ⟨by decide +kernel, by decide +kernel⟩, by decide, by decide,
    ⟨by decide +kernel, by decide +kernel⟩, by decide⟩

/-- The last byte lies one past the PLAIN window; or beyond the address space. -/
theorem witness_StraddlingTransactionRefused :
    active.decides chart ∧ (rd 0 0x209FF9 8).wf = true ∧
      active.placeOf chart 0x209FF9 ≠ active.placeOf chart (0x209FF9 + 8 - 1) ∧ 2 ^ 32 < (rd 0 0xFFFFFFF9 8).start + 8 ∧
      Instr.transaction (.plainTransaction (rd 0 0x209FF9 8)) = some (rd 0 0x209FF9 8) :=
  ⟨active_decides, by decide, by decide +kernel, by decide, rfl⟩

/-- Transactions that lie in the places named with them. -/
def placesCheck (l : List (Transaction × Place)) : Bool :=
  l.all (fun x => decide (active.straddles chart x.1 = false ∧ active.placeOf chart x.1.start = x.2 ∧ x.1.wf = true))

theorem places_of_check (l : List (Transaction × Place)) (h : placesCheck l = true) :
    ∀ x ∈ l, active.liesIn chart x.1 x.2 ∧ x.1.wf = true := by
  intro x hx
  have h1 := of_decide_eq_true (List.all_eq_true.mp h x hx)
  exact ⟨⟨h1.1, h1.2.1⟩, h1.2.2⟩

theorem witness_FixedAccessOfSpecialWindows :
    ∀ x ∈ [(rd 0 0x207000 128, Place.window (window .status 0x207000 0)), (rd 4 0x202000 8, .window (window .intake 0x202000 4)),
        (rd 2 0x203000 8, .window (window .labelTx 0x203000 4)), (rd 1 0x200000 8, .window (window .journal 0x200000 4)),
        (wr 0 0x207000 (toLe 8 0), .window (window .status 0x207000 0)), (rd 5 0x1000000 8, .charter), (rd 0 0x100FFF8 8, .charter)],
      active.liesIn chart x.1 x.2 ∧ x.1.wf = true := places_of_check _ (by decide +kernel)

/-- Writes of the wrong shape: ADMIN's producer words of JOURNAL and LABEL_RX, its consumer word of CONTROL, LABEL's producer word
of LABEL_TX, an acknowledgment between two slots, and both words at once. -/
theorem witness_WrongShapesRefused :
    (∀ x ∈ [(wrIndex 0 0x200000 false 1, Place.window (window .journal 0x200000 4)),
        (wrIndex 0 0x204000 false 1, .window (window .labelRx 0x204000 4)),
        (wrIndex 0 0x205000 true 1, .window (window .control 0x205000 4)),
        (wrIndex 2 0x203000 false 1, .window (window .labelTx 0x203000 4)),
        (wr 2 0x204048 (toLe 16 0), .window (window .labelRx 0x204000 4)),
        (wr 0 0x206000 (toLe 8 1), .window (window .report 0x206000 8))], active.liesIn chart x.1 x.2 ∧ x.1.wf = true) ∧
      (wrIndex 0 0x200000 false 1).indexTarget 0x200000 ≠ some .consumer ∧
      (wrIndex 0 0x205000 true 1).indexTarget 0x205000 ≠ some .producer ∧
      (slotStart (window .labelRx 0x204000 4) 16 (wr 2 0x204048 (toLe 16 0)).start).isSome = false ∧
      (∀ b ∈ (wr 0 0x206000 (toLe 8 1)).mask, b = true) ∧
      (after (.specialWindowAccess (wr 0 0x206000 (toLe 8 1))) active).link.refusals = 1 :=
  ⟨places_of_check _ (by decide +kernel), by decide +kernel⟩

/-- TILL reads of PRICE that are no price read: of 8 bytes, and of 16 beside an entry's start (R164). -/
theorem witness_WrongPriceReadsRefused :
    (∀ x ∈ [(rd 1 0x100040 8, Place.window (chart.window .price)), (rd 1 0x100048 16, .window (chart.window .price))],
      active.liesIn chart x.1 x.2 ∧ x.1.wf = true) ∧
      (chart.window .price).kind = .price ∧ (rd 1 0x100040 8).len ≠ 16 ∧ ((rd 1 0x100048 16).start - 0x100000) % 64 ≠ 0 ∧
      (after (.specialWindowAccess (rd 1 0x100048 16)) active).link.refusals = 1 :=
  ⟨places_of_check _ (by decide +kernel), by decide +kernel⟩

theorem witness_UnobservedWritesPass :
    (Instr.registerWrite (wr 0 0x205040 (toLe 8 0))).wf = true ∧
      active.liesIn chart (wr 0 0x205040 (toLe 8 0)) (.window (window .control 0x205000 4)) ∧
      active.liesIn chart (wrIndex 2 0x204000 false 1) (.window (window .labelRx 0x204000 4)) ∧
      (wrIndex 2 0x204000 false 1).indexTarget 0x204000 = some .producer ∧
      active.liesIn chart (wrIndex 0 0x204000 true 1) (.window (window .labelRx 0x204000 4)) ∧
      (wrIndex 0 0x204000 true 1).indexTarget 0x204000 = some .consumer ∧ (Instr.registerWrite (wrIndex 0 0x204000 true 1)).wf = true :=
  ⟨by decide, ⟨by decide +kernel, by decide +kernel⟩, ⟨by decide +kernel, by decide +kernel⟩, by decide,
    ⟨by decide +kernel, by decide +kernel⟩, by decide, by decide⟩

/-- The last entry, the first place beyond the item count, and a held read. -/
theorem witness_TillPriceReadServed :
    let w := chart.window .price
    let s : State := { headState { item := 4999, kind := .queueJoin } tray.bytes with
      book := { BookState.reset with queue := [{ item := 4999, kind := .queueJoin }], headPhase := .reading } }
    (Instr.tillPriceRead (rd 1 0x14E1C0 16)).wf = true ∧ active.liesIn chart (rd 1 0x14E1C0 16) (.window w) ∧
      (rd 1 0x14E1C0 16).start = w.base + 64 * 4999 ∧ w.kind = .price ∧ active.updateAddr ≠ some (w.base + 64 * 4999) ∧
      active.liesIn chart (rd 1 0x14E200 16) (.window w) ∧ (rd 1 0x14E200 16).start = w.base + 64 * 5000 ∧
      s.decides chart ∧ s.updateAddr = some (w.base + 64 * 4999) :=
  ⟨by decide, ⟨by decide +kernel, by decide +kernel⟩, by decide, by decide, by decide, ⟨by decide +kernel, by decide +kernel⟩,
    by decide, ⟨rfl, rfl, ⟨rfl, rfl, rfl, rfl, rfl⟩, rfl, by decide, by decide⟩, by decide +kernel⟩

/-- A held read promotes the update's own write, past another own request, and is forwarded when that write completes, though the
next request is on the same entry (R25, R176). -/
theorem witness_HeldTillReadIsForwarded :
    let w := chart.window .price
    let write : OwnRequest := { unit := .book, addr := w.base + 64 * 4999, body := .write tray.bytes, purpose := .entryWrite }
    let s : State := { active with
      book := { BookState.reset with
        queue := [{ item := 4999, kind := .queueJoin }, { item := 4999, kind := .changeoverDue }], headPhase := .writing [] }
      link := { LinkState.reset with own := [{ write with purpose := .silent, addr := 0x201040 }, write], issued := [.own write []] } }
    let t := after (.tillPriceRead (rd 1 0x14E1C0 16)) s
    let t2 := after .entryWriteComplete t
    s.decides chart ∧ s.updateAddr = some (w.base + 64 * 4999) ∧ (s.takeWritten (· == .entryWrite)).isSome = true ∧
      t.queueOf 1 = [rd 1 0x14E1C0 16] ∧
      t.link.own = [{ write with promoted := true }, { write with purpose := .silent, addr := 0x201040 }] ∧
      t2.link.stream = [⟨rd 1 0x14E1C0 16, .tillView⟩] ∧ t2.queueOf 1 = [] ∧
      t2.book.queue = [{ item := 4999, kind := .changeoverDue }] :=
  ⟨⟨rfl, rfl, ⟨rfl, rfl, rfl, rfl, rfl⟩, rfl, by decide, by decide⟩, by decide +kernel⟩

/-- GUEST in open memory, which it may read alone, in the GUEST window, and in a PLAIN window; at level 1 the budget is 4,096. -/
theorem witness_GuestTransactionPaced :
    chart.classOf 3 = .guest ∧ active.liesIn chart (rd 3 0x20A000 128) .openMemory ∧
      chart.openRights.getD Class.guest.index .none = .read ∧
      active.liesIn chart (wr 3 0x208000 (toLe 8 0)) (.window guestWindow) ∧
      guestWindow.rights.getD Class.guest.index .none = .readWrite ∧
      active.liesIn chart (rd 3 0x209000 8) (.window plainWindow) ∧ active.link.hold = [] ∧
      active.guest.periodBytes + 128 ≤ chart.budgets.getD 0 0 ∧ active.guest.periodBytes + 128 < 2 ^ 32 :=
  ⟨by decide, ⟨by decide +kernel, by decide +kernel⟩, by decide, ⟨by decide +kernel, by decide +kernel⟩, by decide,
    ⟨by decide +kernel, by decide +kernel⟩, rfl, by decide, by decide⟩

/-- d = n, d = n + 1, and d = 2^31. -/
theorem witness_TakenCountFollowsTheTable :
    ((1004 - 996 : Word32).toNat ≤ (1004 - 996 : Word32).toNat) ∧ (1004 - 996 : Word32).toNat < (1005 - 996 : Word32).toNat ∧
      2 ^ 31 ≤ (0x800003E4 - 996 : Word32).toNat := by decide

theorem witness_ConsumerWritesObserved :
    active.liesIn chart (wrIndex 0 0x200000 true 1) (.window (window .journal 0x200000 4)) ∧
      (wrIndex 0 0x200000 true 1).indexTarget 0x200000 = some .consumer ∧ (wrIndex 0 0x200000 true 1).wf = true ∧
      active.liesIn chart (wrIndex 0 0x201000 true 1) (.window (window .upload 0x201000 4)) ∧ active.journal.holdList = [] ∧
      active.liesIn chart (wrIndex 0 0x206000 true 1) (.window (window .report 0x206000 8)) ∧
      active.liesIn chart (wrIndex 2 0x203000 true 1) (.window (window .labelTx 0x203000 4)) ∧ active.sweep.visit = none :=
  ⟨⟨by decide +kernel, by decide +kernel⟩, by decide, by decide, ⟨by decide +kernel, by decide +kernel⟩, rfl,
    ⟨by decide +kernel, by decide +kernel⟩, ⟨by decide +kernel, by decide +kernel⟩, rfl⟩

/-- A visit in TX_WAIT with all 4 slots of LABEL_TX taken, and a consumer write that frees 3 of them (R74, R75): it takes 3 of its
zone's items, or, with none left, ends. -/
theorem witness_WaitingVisitGoesOn :
    let s (items : List Nat) : State := { active with sweep := { active.sweep with
      state := .txWait, current := 1, txProducer := 4, visit := some { slot := 1, zone := 7, kind := .price }
      queues := active.sweep.queues.setIfInBounds 7 items, poolUsed := items.length } }
    let t (items : List Nat) : State := after (.labelTxConsumerWrite (wrIndex 2 0x203000 true 3)) (s items)
    (s [4, 5, 6, 7]).decides chart ∧ (s [4, 5, 6, 7]).entryFree 3 ∧ takeCount 4 0 (wrIndex 2 0x203000 true 3).consumerWord = 3 ∧
      (t [4, 5, 6, 7]).zoneQueue 7 = [7] ∧ (t [4, 5, 6, 7]).book.queue = [4, 5, 6].map (fun i => { item := i, kind := .frameSent }) ∧
      (t []).sweep.visit = none ∧ (t []).sweep.state = .manualWait :=
  ⟨⟨rfl, rfl, ⟨rfl, rfl, rfl, rfl, rfl⟩, rfl, by decide, by decide⟩, ⟨rfl, rfl, by decide⟩, by decide +kernel⟩

/-- Two upload records held, the second a BRANCH_DAY, and a consumer write that frees two of the four slots. -/
def heldState : State :=
  active.withJournal { active.journal with upProducer := 4, holdList :=
    [.block 0 9 68000 0x1234 1 4 4 0 {} 870 0, .branchDay 1 9 68000 {}] }

theorem witness_ConsumerWriteDrainsTheHoldList :
    let tx := wrIndex 0 0x201000 true 2
    heldState.decides chart ∧ tx.wf = true ∧ heldState.liesIn chart tx (.window (window .upload 0x201000 4)) ∧
      takeCount 4 0 tx.consumerWord = 2 ∧ heldState.reportRoom chart ∧ heldState.ownFree 5 ∧
      heldState.journal.holdList.take (4 - backlog 4 2) =
        [.block 0 9 68000 0x1234 1 4 4 0 {} 870 0] ++ [.branchDay 1 9 68000 {}] ∧
      (after (.uploadConsumerWrite tx) heldState).link.own.length = 5 :=
  ⟨⟨rfl, rfl, ⟨rfl, rfl, rfl, rfl, rfl⟩, rfl, by decide, by decide⟩, by decide, ⟨by decide +kernel, by decide +kernel⟩, by decide,
    by unfold State.reportRoom; decide, ⟨rfl, rfl, by decide⟩, by decide, by decide +kernel⟩

/-- A record comes to wait: the counts differ by the slot count, 4. No load is in progress, or its stage 4 has begun. -/
theorem witness_ControlProducerObserved :
    active.liesIn chart (wrIndex 0 0x205000 false 4) (.window (window .control 0x205000 4)) ∧
      (Instr.controlProducerWrite (wrIndex 0 0x205000 false 4)).wf = true ∧ chart.window .control = window .control 0x205000 4 ∧
      (wrIndex 0 0x205000 false 4).indexTarget 0x205000 = some .producer ∧ active.ownFree 1 ∧ active.control.record = none ∧
      ((wrIndex 0 0x205000 false 4).producerWord - active.control.ctlConsumer).toNat ≤ 4 ∧ active.control.load = none ∧
      { ({} : Load) with stage := .walked }.stage = .walked :=
  ⟨⟨by decide +kernel, by decide +kernel⟩, by decide, by decide, by decide, ⟨rfl, rfl, by decide⟩, rfl, by decide, rfl, rfl⟩

/-- Stage 4 of a load that waits for room (log 50): the writes into the old CONTROL and REPORT rings are not taken. -/
theorem witness_OldRingsAreGivenUp :
    let s : State := { active with control := { active.control with
      part := .loading, repProducer := 2, load := some { stage := .accepted, charter := some chart } } }
    s.decides chart ∧ s.accepting = true ∧ active.accepting = false ∧
      (after (.reportConsumerWrite (wrIndex 0 0x206000 true 1)) s).control = s.control ∧
      (after (.controlProducerWrite (wrIndex 0 0x205000 false 4)) s).control = s.control :=
  ⟨⟨rfl, rfl, ⟨rfl, rfl, rfl, rfl, rfl⟩, rfl, by decide, by decide⟩, by decide +kernel⟩

/-- An acknowledgment of the tray's label, in slot 0 of LABEL_RX: generation 43, quality 10, status OK. -/
def ackWrite : Transaction := wr 2 0x204040 (toLe 3 0x3A41C2 ++ [43, 10, 1] ++ toLe 10 0)

/-- A visit that listens for the tray's label. -/
def listening : Visit :=
  { slot := 1, zone := 7, kind := .price, stage := .onAir, base := 100, blank := 12, settle := 18
    table := [{ item := 4117, address := 0x3A41C2, gen := 43, status := .opened }] }

def listenState : State := { active with sweep := { active.sweep with state := .listen, visit := some listening } }

def lateState : State :=
  active.setZone 7 { late := [{ item := 4117, address := 0x3A41C2, gen := 43, age := 3 }] }

theorem witness_AcknowledgmentExamined :
    (Instr.acknowledgment ackWrite).wf = true ∧ active.liesIn chart ackWrite (.window (window .labelRx 0x204000 4)) ∧
      ackWrite.fullWrite 16 = true ∧ (slotStart (window .labelRx 0x204000 4) 16 ackWrite.start).isSome = true ∧
      listenState.decides chart ∧ listenState.entryFree 1 ∧ chart.qualityMin ≤ byteAt ackWrite.data 4 ∧
      listening.table.find? (fun r => r.status == .opened && r.address == field ackWrite.data 0 3 &&
        r.gen == ackWrite.data.getD 3 0) ≠ none ∧
      lateState.decides chart ∧ lateState.sweep.visit = none ∧ lateState.findLate (field ackWrite.data 0 3) 43 ≠ none ∧
      active.findLate (field ackWrite.data 0 3) 43 = none :=
  ⟨by decide, ⟨by decide +kernel, by decide +kernel⟩, by decide, by decide,
    ⟨rfl, rfl, ⟨rfl, rfl, rfl, rfl, rfl⟩, rfl, by decide, by decide⟩, ⟨rfl, rfl, by decide⟩, by decide, by decide,
    ⟨rfl, rfl, ⟨rfl, rfl, rfl, rfl, rfl⟩, rfl, by decide, by decide⟩, rfl, by decide +kernel, by decide +kernel⟩

/-- With status DISPLAY_FAULT the last OPEN record ends LISTEN: SETTLE, the late list a turn older, and the LABEL_UNANSWERED requests
of both records (R79, R80, R88). -/
theorem witness_LastAnswerEndsListen :
    let v : Visit := { listening with table := listening.table ++ [⟨9, 5, 1, .answeredFault⟩] }
    let s : State := ({ active with sweep := { active.sweep with state := .listen, visit := some v } } : State).setZone 7
      { late := [⟨3, 1, 1, 3⟩, ⟨4, 2, 1, 0⟩] }
    let tx := wr 2 0x204040 (toLe 3 0x3A41C2 ++ [43, 10, 2] ++ toLe 10 0)
    let t := after (.acknowledgment tx) s
    s.decides chart ∧ s.entryFree (v.table.length + 1) ∧ v.table.map OutRecord.item = [4117, 9] ∧ t.sweep.state = .settle ∧
      t.sweep.visit.map Visit.table = some (v.table.map (fun q => { q with status := .closing })) ∧
      (t.zoneRec 7).late = [⟨4, 2, 1, 1⟩] ∧
      t.book.queue = [{ item := 4117, kind := .labelUnanswered }, { item := 9, kind := .labelUnanswered }] :=
  ⟨⟨rfl, rfl, ⟨rfl, rfl, rfl, rfl, rfl⟩, rfl, by decide, by decide⟩, ⟨rfl, rfl, by decide⟩, by decide +kernel⟩

/-- The match of a probe of a DARK zone makes it LIT (R70), with its report; the match of a late record does not. -/
theorem witness_AcknowledgmentLightsAProbedZone :
    let s : State := { active.setZone 7 { dark := true, emptyForced := 4 } with sweep :=
      { (active.setZone 7 { dark := true, emptyForced := 4 }).sweep with
        state := .listen, visit := some { listening with kind := .probe } } }
    let l : State := active.setZone 7 { dark := true, late := [{ item := 4117, address := 0x3A41C2, gen := 43, age := 3 }] }
    s.decides chart ∧ (s.zoneRec 7).dark = true ∧ s.reportRoom chart ∧ s.ownFree 2 ∧ s.entryFree 1 ∧
      ((after (.acknowledgment ackWrite) s).zoneRec 7).dark = false ∧
      ((after (.acknowledgment ackWrite) s).zoneRec 7).emptyForced = 0 ∧
      (after (.acknowledgment ackWrite) s).control.repProducer = 1 ∧
      ((after (.acknowledgment ackWrite) l).zoneRec 7).dark = true :=
  ⟨⟨rfl, rfl, ⟨rfl, rfl, rfl, rfl, rfl⟩, rfl, by decide, by decide⟩, by decide +kernel, by unfold State.reportRoom; decide,
    ⟨rfl, rfl, by decide⟩, ⟨rfl, rfl, by decide⟩, by decide +kernel, by decide +kernel, by decide +kernel, by decide +kernel⟩

/-- The lower half in slot 0 of block `block` of batch 5 with `count` records, `ends` set, and its upper half's place. -/
def lowerWrite (block count flags : Nat) : Transaction :=
  wr 4 0x202040 (padTo 128 (toLe 4 5 ++ toLe 2 block ++ toLe 1 count ++ toLe 1 flags))

def upperWrite : Transaction := wr 4 0x2020C0 (List.replicate 128 0)

/-- A block that waits for that upper half; its check is the one of 256 zero bytes but for the header. -/
def halfOf (check : Word32) : HalfBlock :=
  { slot := 0, header := { blockHeader (lowerWrite 0 15 1).data with check }
    running := crcFeed crcSeed (withoutCheckField (lowerWrite 0 15 1).data), outcome := .starts }

def halfState (check : Word32) : State := active.setHalf (some (halfOf check))

def goodCheck : Word32 := ~~~crcFeed (crcFeed crcSeed (withoutCheckField (lowerWrite 0 15 1).data)) upperWrite.data

theorem witness_IntakeLowerHalfJudged :
    (Instr.intakeLowerHalf (lowerWrite 0 15 1)).wf = true ∧ chart.classOf 4 = .link ∧
      active.liesIn chart (lowerWrite 0 15 1) (.window (window .intake 0x202000 4)) ∧
      chart.window .intake = window .intake 0x202000 4 ∧
      slotStart (window .intake 0x202000 4) 256 (lowerWrite 0 15 1).start = some (active.intake.producer.toNat % 4) ∧
      (blockHeader (lowerWrite 0 15 1).data).count = 15 ∧ (blockHeader (lowerWrite 1 16 0).data).count = 16 ∧
      (blockHeader (lowerWrite 1 16 0).data).block = 1 ∧ (blockHeader (lowerWrite 65535 0 0).data).block = 65535 ∧
      (blockHeader (lowerWrite 65535 0 0).data).ends = false ∧ (blockHeader (lowerWrite 0 15 1).data).ends = true := by
  unfold State.liesIn
  decide +kernel

/-- A batch in RECEIVING: its next block, a block out of order, a block 0 of another batch, and one with too many records. -/
theorem witness_IntakeLowerHalfInReceiving :
    let s := active.withIntake { active.intake with state := .receiving, batch := 5, producer := 1 }
    s.decides chart ∧ (blockHeader (lowerWrite 1 2 0).data).block = (s.intake.producer - s.intake.consumer).toNat ∧
      (blockHeader (lowerWrite 2 2 0).data).block = 2 ∧ (blockHeader (lowerWrite 1 2 0).data).batch = s.intake.batch ∧
      15 < (blockHeader (lowerWrite 1 16 0).data).count ∧ s.reportRoom chart ∧ s.ownFree 2 :=
  ⟨⟨rfl, rfl, ⟨rfl, rfl, rfl, rfl, rfl⟩, rfl, by show 0 < 16; decide, by show 0 < 8; decide⟩, by decide +kernel,
    by decide +kernel, by decide +kernel, by decide +kernel, by unfold State.reportRoom; decide, ⟨rfl, rfl, by decide⟩⟩

theorem ne_succ (x : Word32) : x ≠ x + 1 := by
  intro h
  have := congrArg BitVec.toNat h
  rw [BitVec.toNat_add] at this
  have := x.isLt
  simp at *

theorem witness_IntakeUpperHalfJudged :
    (Instr.intakeUpperHalf upperWrite).wf = true ∧
      active.liesIn chart upperWrite (.window (window .intake 0x202000 4)) ∧
      slotStart (window .intake 0x202000 4) 256 upperWrite.start = none ∧ active.intake.half = none ∧
      upperWrite.start = 0x202000 + 64 + 0 * 256 + 128 ∧ (halfState 0).decides chart ∧
      (halfState goodCheck).intake.half = some (halfOf goodCheck) ∧
      ~~~crcFeed (halfOf goodCheck).running upperWrite.data = (halfOf goodCheck).header.check ∧
      (halfState (goodCheck + 1)).intake.half = some (halfOf (goodCheck + 1)) ∧
      ~~~crcFeed (halfOf (goodCheck + 1)).running upperWrite.data ≠ (halfOf (goodCheck + 1)).header.check :=
  ⟨by decide +kernel, ⟨by decide +kernel, by decide +kernel⟩, by decide +kernel, rfl, by decide +kernel,
    ⟨rfl, rfl, ⟨rfl, rfl, rfl, rfl, rfl⟩, rfl, by show 0 < 16; decide, by show 0 < 8; decide⟩, rfl,
    by simp only [halfOf, goodCheck], rfl, by simp only [halfOf]; exact ne_succ goodCheck⟩

/-! ### Journal records -/

/-- A record of till 0 in slot 0 of JOURNAL: its kind, its sequence, and bytes 4 to 19. -/
def record (kind : Byte) (seq : Nat) (rest : List Byte) : Transaction :=
  wr 1 0x200040 (padTo 64 ([0, kind] ++ toLe 2 seq ++ rest))

/-- An item line of one unit at 870, of an item and with a till amount. -/
def lineOf (kind : Byte) (item : Nat) : Transaction :=
  record kind 5 (toLe 3 item ++ [0, 0] ++ toLe 3 1 ++ toLe 4 870 ++ toLe 4 870)

def tillState (x : TillContext) : State := active.setTill 0 x

/-- Everything that JournalTakes asks, but for `decides`. -/
def takesCheck (s : State) (tx : Transaction) : Bool :=
  decide (chart.classOf tx.tag = .till ∧ s.straddles chart tx = false ∧
    s.placeOf chart tx.start = .window (chart.window .journal) ∧ (chart.window .journal).kind = .journal ∧
    slotStart (chart.window .journal) 64 tx.start = some (s.journal.producer.toNat % (chart.window .journal).slots) ∧
    tx.fullWrite 64 = true ∧ s.reloading = false ∧ s.phase.warning = false ∧
    backlog s.journal.producer s.journal.consumer < (chart.window .journal).slots ∧ s.journal.holdList = [] ∧
    journalTill tx.data < chart.tillCount ∧ JournalWork.newDay ∉ s.journal.works ∧
    JournalWork.powerClose ∉ s.journal.works ∧ s.link.tasks = [] ∧ s.link.ownWait = [] ∧
    s.link.own.length + 2 ≤ 32)

theorem takes_of_check (s : State) (tx : Transaction) (hd : s.decides chart) (h : takesCheck s tx = true) :
    s.JournalTakes chart tx := by
  obtain ⟨h1, h2, h3, h4, h5, h6, h7, h8, h9, h10, h11, h12, h16, h13, h14, h15⟩ := of_decide_eq_true h
  exact ⟨hd, h1, ⟨h2, h3⟩, h4, h5, h6, h7, h8, h9, h10, h11, by decide, ⟨h12, h16⟩, fun _ => ⟨h13, h14, h15⟩⟩

theorem tillState_decides (x : TillContext) : (tillState x).decides chart :=
  ⟨rfl, rfl, ⟨rfl, rfl, rfl, rfl, rfl⟩, rfl, by show 0 < 16; decide, by show 0 < 8; decide⟩

def ready : TillContext := { state := .ready, expected := some 5 }
def basket : TillContext :=
  { state := .basket, expected := some 5, basket := 870, lines := 1, lineList := [{ number := 1, item := 4117, amount := 870, voided := false }] }

theorem witness_JournalRecordStampedAndChained :
    active.takesInOrder chart (record 1 5 []) ∧ (tillState ready).takesInOrder chart (record 7 5 []) ∧
      (Instr.signOn (record 1 5 [])).wf = true ∧ Instr.transaction (.signOn (record 1 5 [])) = some (record 1 5 []) ∧
      journalKind (record 1 5 []).data ≠ some .item ∧ journalKind (record 1 5 []).data ≠ some .refund :=
  ⟨⟨takes_of_check _ _ active_decides (by decide +kernel), by decide, .inl (by decide +kernel)⟩,
    ⟨takes_of_check _ _ (tillState_decides _) (by decide +kernel), by decide, .inr (by decide +kernel)⟩,
    by decide, rfl, by decide, by decide⟩

theorem witness_TillStateRecords :
    active.takesInOrder chart (record 1 5 []) ∧ (Instr.signOn (record 1 5 [])).wf = true ∧
      (tillState ready).takesInOrder chart (record 8 5 []) ∧ (Instr.signOff (record 8 5 [])).wf = true ∧
      (Instr.noSale (record 7 5 [])).wf = true ∧ (tillState basket).takesInOrder chart (record 5 5 []) ∧
      (Instr.basketCancel (record 5 5 [])).wf = true ∧ (Instr.unknownJournalKind (record 9 5 [])).wf = true ∧
      (Instr.unknownJournalKind (record 0 5 [])).wf = true ∧ active.takesInOrder chart (record 9 5 []) :=
  ⟨⟨takes_of_check _ _ active_decides (by decide +kernel), by decide, .inl (by decide +kernel)⟩, by decide,
    ⟨takes_of_check _ _ (tillState_decides _) (by decide +kernel), by decide, .inr (by decide +kernel)⟩, by decide, by decide,
    ⟨takes_of_check _ _ (tillState_decides _) (by decide +kernel), by decide, .inr (by decide +kernel)⟩, by decide, by decide,
    by decide, ⟨takes_of_check _ _ active_decides (by decide +kernel), by decide, .inl (by decide +kernel)⟩⟩

/-- ITEM, VOID_LINE, BASKET_TOTAL and REFUND at a CLOSED till, a REFUND in a basket and a total in READY. -/
theorem witness_MoneyRecordsOutOfState :
    active.takesInOrder chart (lineOf 2 4117) ∧ (Instr.item (lineOf 2 4117)).wf = true ∧
      active.takesInOrder chart (record 3 5 []) ∧ (Instr.voidLine (record 3 5 [])).wf = true ∧
      (tillState ready).takesInOrder chart (record 4 5 []) ∧ (Instr.basketTotal (record 4 5 [])).wf = true ∧
      (tillState basket).takesInOrder chart (lineOf 6 4117) ∧ (Instr.refund (lineOf 6 4117)).wf = true ∧
      (active.till 0).state = .closed ∧ ((tillState basket).till 0).state ≠ .ready ∧ ((tillState ready).till 0).state ≠ .basket :=
  ⟨⟨takes_of_check _ _ active_decides (by decide +kernel), by decide, .inl (by decide +kernel)⟩, by decide,
    ⟨takes_of_check _ _ active_decides (by decide +kernel), by decide, .inl (by decide +kernel)⟩, by decide,
    ⟨takes_of_check _ _ (tillState_decides _) (by decide +kernel), by decide, .inr (by decide +kernel)⟩, by decide,
    ⟨takes_of_check _ _ (tillState_decides _) (by decide +kernel), by decide, .inr (by decide +kernel)⟩, by decide,
    by decide +kernel, by decide +kernel, by decide +kernel⟩

theorem witness_BasketRecords :
    (tillState basket).takesInOrder chart (record 4 5 []) ∧ (Instr.basketTotal (record 4 5 [])).wf = true ∧
      (tillState basket).phase.phase ≠ some .night ∧ ((tillState basket).till 0).state = .basket ∧
      (tillState basket).takesInOrder chart (record 3 5 [0, 0, 0, 0, 1]) ∧ (Instr.voidLine (record 3 5 [0, 0, 0, 0, 1])).wf = true ∧
      journalVoided (record 3 5 [0, 0, 0, 0, 1]).data = 1 ∧ (tillState ready).takesInOrder chart (record 3 5 [0, 0, 0, 0, 1]) ∧
      journalVoided (record 3 5 [0, 0, 0, 0, 2]).data = 2 ∧ (tillState basket).takesInOrder chart (record 3 5 [0, 0, 0, 0, 2]) :=
  ⟨⟨takes_of_check _ _ (tillState_decides _) (by decide +kernel), by decide, .inr (by decide +kernel)⟩, by decide, by decide,
    by decide +kernel,
    ⟨takes_of_check _ _ (tillState_decides _) (by decide +kernel), by decide, .inr (by decide +kernel)⟩, by decide, by decide,
    ⟨takes_of_check _ _ (tillState_decides _) (by decide +kernel), by decide, .inr (by decide +kernel)⟩, by decide,
    ⟨takes_of_check _ _ (tillState_decides _) (by decide +kernel), by decide, .inr (by decide +kernel)⟩⟩

/-- A basket of 870 on a block of 999,999,131: one more minor unit than it holds (R132). -/
theorem witness_BasketTotalSplitsTheBlock :
    let b : OpenBlock := { first := 1, last := 4, count := 4, sales := 999999131, check := 0x1234, day := 9, start := true }
    let s := tillState { basket with block := b }
    let t := after (.basketTotal (record 4 5 [])) s
    s.takesInOrder chart (record 4 5 []) ∧ 999999999 < b.sales + 870 ∧ (t.till 0).block.sales = 870 ∧
      (t.till 0).block.count = 1 ∧ (t.till 0).block.baskets = 1 ∧
      t.link.own.length = 2 ∧ ((after (.basketTotal (record 4 5 [])) (tillState { basket with block :=
        { b with sales := 999999129 } })).till 0).block.sales = 999999999 :=
  ⟨⟨takes_of_check _ _ (tillState_decides _) (by decide +kernel), by decide, .inr (by decide +kernel)⟩, by decide +kernel⟩

/-- The last item of the price book, and the first beyond it. -/
theorem witness_PricedRecordsAskForThePrice :
    (tillState ready).takesInOrder chart (lineOf 2 4999) ∧ (Instr.item (lineOf 2 4999)).wf = true ∧
      journalItem (lineOf 2 4999).data = 4999 ∧ (tillState ready).entryFree 1 ∧
      (tillState ready).takesInOrder chart (lineOf 6 4999) ∧ (Instr.refund (lineOf 6 4999)).wf = true ∧
      (tillState ready).takesInOrder chart (lineOf 2 5000) ∧ journalItem (lineOf 2 5000).data = 5000 ∧
      (tillState ready).takesInOrder chart (lineOf 6 5000) ∧ ((tillState ready).till 0).state = .ready :=
  ⟨⟨takes_of_check _ _ (tillState_decides _) (by decide +kernel), by decide, .inr (by decide +kernel)⟩, by decide, by decide,
    ⟨rfl, rfl, by decide⟩, ⟨takes_of_check _ _ (tillState_decides _) (by decide +kernel), by decide, .inr (by decide +kernel)⟩, by decide,
    ⟨takes_of_check _ _ (tillState_decides _) (by decide +kernel), by decide, .inr (by decide +kernel)⟩, by decide,
    ⟨takes_of_check _ _ (tillState_decides _) (by decide +kernel), by decide, .inr (by decide +kernel)⟩, by decide +kernel⟩

/-- A line fault; 1 and 1,024 behind the expected sequence; one ahead of it. -/
theorem witness_LineFaultDuplicateAndGap :
    (tillState ready).JournalTakes chart (record 7 5 [0, 0, 0, 1]) ∧ journalLineStatus (record 7 5 [0, 0, 0, 1]).data ≠ 0 ∧
      (tillState ready).JournalTakes chart (record 7 4 []) ∧ (5 - journalSeq (record 7 4 []).data).toNat = 1 ∧
      (tillState ready).JournalTakes chart (record 7 64517 []) ∧ (5 - journalSeq (record 7 64517 []).data).toNat = 1024 ∧
      (tillState ready).JournalTakes chart (record 7 6 []) ∧ 1024 < (5 - journalSeq (record 7 6 []).data).toNat ∧
      ((tillState ready).till 0).expected = some 5 ∧ (Instr.noSale (record 7 6 [])).wf = true :=
  ⟨takes_of_check _ _ (tillState_decides _) (by decide +kernel), by decide,
    takes_of_check _ _ (tillState_decides _) (by decide +kernel), by decide,
    takes_of_check _ _ (tillState_decides _) (by decide +kernel), by decide,
    takes_of_check _ _ (tillState_decides _) (by decide +kernel), by decide, by decide +kernel, by decide⟩

/-- A gap before a priced ITEM, its till's block open, with the UPLOAD ring free and full (R111, R134, R138). -/
theorem witness_GapBeforeAPricedRecord :
    let x : TillContext := { ready with expected := some 3, block := { first := 1, last := 2, count := 2 } }
    let full := (tillState x).withJournal { (tillState x).journal with upProducer := 4 }
    let t := after (.item (lineOf 2 4117)) (tillState x)
    let u := after (.item (lineOf 2 4117)) full
    (tillState x).JournalTakes chart (lineOf 2 4117) ∧ 1024 < ((3 : Word16) - journalSeq (lineOf 2 4117).data).toNat ∧
      t.journal.hand.map JournalHand.flags = some { gapBefore := true } ∧ t.journal.upProducer = 1 ∧
      t.book.queue = [{ item := 4117, kind := .priceCheck }] ∧ u.journal.holdList.length = 1 ∧ u.journal.upProducer = 4 ∧
      (t.till 0).block.count = 1 ∧ (t.till 0).totals.gaps = 2 :=
  ⟨takes_of_check _ _ (tillState_decides _) (by decide +kernel), by decide +kernel⟩

/-- Each test in turn: a short write, the wrong slot, a till at the till count, and a write that passes. -/
theorem witness_JournalTestsInOrder :
    active.decides chart ∧ chart.classOf 1 = .till ∧ (record 7 5 []).dir = .write ∧
      active.liesIn chart (record 7 5 []) (.window (chart.window .journal)) ∧
      (∀ k, k = JournalWork.newDay ∨ k = .powerClose →
        (after (.noSale (record 7 5 [])) (active.withJournal { active.journal with works := [k] })).queueOf 1 = [record 7 5 []]) ∧
      slotStart (chart.window .journal) 64 (record 7 5 []).start = some 0 ∧
      slotStart (chart.window .journal) 64 (wr 1 0x200100 (toLe 64 0)).start = some 3 ∧
      (wr 1 0x200040 (toLe 8 0)).len ≠ 64 ∧ journalTill (wr 1 0x200040 (4 :: toLe 63 0)).data = 4 ∧
      (Instr.noSale (record 7 5 [])).wf = true :=
  ⟨active_decides, by decide, by decide, ⟨by decide +kernel, by decide +kernel⟩,
    fun _ h => h.elim (fun e => by subst e; decide +kernel) (fun e => by subst e; decide +kernel), by decide +kernel⟩

/-- TILL writes in the index area, in the midst of slot 1, and past the last slot (R101, R165). -/
theorem witness_JournalWritesBesideTheSlots :
    let w := chart.window .journal
    let slot (tx : Transaction) : Option Word32 := (after (.noSale tx) active).journal.lastRefusal.map JournalRefusal.slot
    (∀ x ∈ [(wr 1 0x200000 (padTo 64 [0, 7]), Place.window w), (wr 1 0x200088 (padTo 64 [0, 7]), .window w),
        (wr 1 0x200140 (padTo 64 [0, 7]), .window w)], active.liesIn chart x.1 x.2 ∧ x.1.wf = true) ∧
      (Instr.noSale (wr 1 0x200088 (padTo 64 [0, 7]))).wf = true ∧ slot (wr 1 0x200088 (padTo 64 [0, 7])) = some 1 ∧
      (∀ n, n < w.slots → 0x200140 ≠ w.base + 64 + 64 * n) ∧ (∀ n, n < w.slots → 0x200088 ≠ w.base + 64 + 64 * n) :=
  ⟨places_of_check _ (by decide +kernel), by decide, by decide +kernel, by decide, by decide⟩

/-! ### The memory port and the queues in front of it -/

def plainOwn (at_ : Nat) (promoted : Bool) : OwnRequest :=
  { unit := .journal, addr := 0x201040, body := .write [1, 2], purpose := .silent, placedAt := at_, promoted }

def portState (own : List OwnRequest) (stream : List StreamItem) : State :=
  { active with micros := 50, link := { LinkState.reset with own, stream } }

def passRead : StreamItem := ⟨rd 0 0xFFFFFFF8 8, .plain⟩

/-- A promoted request; 8 requests; one of 50 µs; one of 49 µs before the stream; each queue alone; both empty. -/
theorem witness_PortGrantChoosesByAgeAndCrowd :
    (portState [plainOwn 50 true] [passRead]).portChoice = .own ∧
      (portState (List.replicate 8 (plainOwn 50 false)) [passRead]).portChoice = .own ∧
      (portState [plainOwn 0 false] [passRead]).portChoice = .own ∧
      (portState [plainOwn 1 false] [passRead]).portChoice = .stream ∧ passRead.tx.start + passRead.tx.len ≤ 2 ^ 32 ∧
      (portState [plainOwn 1 false] []).portChoice = .own ∧ (portState [] [passRead]).portChoice = .stream ∧
      (portState [] []).link.own = [] ∧ (portState [] []).link.stream = [] := by decide

theorem witness_PortGrantCarriesOutTheRequest :
    (portState [] [passRead]).mem.wf = true ∧
    (portState [] [passRead]).portChoice = .stream ∧ passRead.tx.wf = true ∧ passRead.tx.dir = .read ∧
      (wrIndex 0 0x200000 true 1).wf = true ∧ (portState [] [⟨wrIndex 0 0x200000 true 1, .plain⟩]).portChoice = .stream ∧
      (portState [plainOwn 0 false] []).portChoice = .own ∧ (plainOwn 0 false).body = .write [1, 2] ∧
      (portState [{ plainOwn 0 false with body := .read 64 }] []).portChoice = .own ∧
      (portState [{ plainOwn 0 false with body := .indexWords (some 1) none }] []).portChoice = .own ∧
      (portState [{ plainOwn 0 false with body := .indexWords none (some 1) }] []).portChoice = .own ∧
      (portState [{ plainOwn 0 false with body := .indexWords (some 1) (some 1) }] []).portChoice = .own ∧
      (portState [{ plainOwn 0 false with body := .resultWord 1 }] []).portChoice = .own := by decide

/-- Of a write that reaches beyond the address space, the bytes below 2^32 alone are memory's (log 25). -/
theorem test_write_beyond_the_address_space :
    let tx := wr 0 0xFFFFFFFC [1, 2, 3, 4, 5, 6, 7, 8]
    let s := portState [] [⟨tx, .plain⟩]
    s.portChoice = .stream ∧ tx.wf = true ∧ s.mem.wf = true ∧ min tx.len (2 ^ 32 - tx.start) = 4 ∧
      (after .portGrant s).mem.readBytes 0xFFFFFFFC 4 = [1, 2, 3, 4] ∧ (after .portGrant s).mem.length = 4 := by decide +kernel

/-- An index write keeps the other word (R198): the bytes 1 to 8 stand there, and the consumer word takes 9. -/
theorem test_index_write_keeps_the_other_word :
    ((after .portGrant { portState [{ plainOwn 0 false with addr := 0x40, body := .indexWords none (some 9) }] [] with
      mem := Memory.writeBytes [] 0x40 [1, 2, 3, 4, 5, 6, 7, 8] }).mem.readBytes 0x40 8) = [1, 2, 3, 4, 9, 0, 0, 0] := by
  decide +kernel

/-- The till view of a RETIRED item, and of an ACTIVE one under NO_MARKDOWN (R24). -/
theorem test_till_view :
    tillView { tray with item := .retired, markdown := 3000 }.bytes = [2, 0, 0, 0, 0, 0, 0, 0, 0, 0, 0, 0, 41, 0, 0, 0] ∧
      tillView { tray with weighed := true, noMarkdown := true, markdown := 3000 }.bytes =
        [1, 1, 0xE1, 4, 0, 0, 0xE1, 4, 0, 0, 0, 0, 41, 0, 0, 0] := by decide +kernel

theorem witness_AnswersReturnToMasters :
    passRead.tx.dir = .read ∧ (wrIndex 0 0x200000 true 1).dir = .write ∧
      ({ active.link with issued := [.pass passRead [1]] } : LinkState).issued = [] ++ .pass passRead [1] :: [] := by decide

/-- A unit with one request and another to follow; a unit with all its requests. -/
theorem witness_FreedPlaceGoesToTheLongestWaiting :
    let r := plainOwn 0 false
    let own : State := { active with link := { LinkState.reset with
      own := List.replicate 31 r, ownWait := [.journal, .sweep]
      tasks := [(.journal, .own r), (.sweep, .own { r with unit := .sweep }), (.journal, .own { r with addr := 0x201000 })] } }
    let all : State := { active with link := { LinkState.reset with
      own := List.replicate 30 r, ownWait := [.journal], tasks := [(.journal, .own r), (.journal, .own r)] } }
    own.linkQuiet ∧ own.link.own.length = 31 ∧ own.tasksOf .journal = .own r :: [.own { r with addr := 0x201000 }] ∧
      (after .ownRequestQueueRoom own).link.ownWait = [.sweep, .journal] ∧
      all.linkQuiet ∧ all.tasksOf .journal = [r, r].map Task.own ∧ all.link.own.length + 2 ≤ 32 ∧
      (after .ownRequestQueueRoom all).link.own.length = 32 :=
  ⟨⟨rfl, rfl, rfl, rfl, rfl⟩, by decide, by decide, by decide +kernel, ⟨rfl, rfl, rfl, rfl, rfl⟩, by decide, by decide,
    by decide +kernel⟩

/-- A source of the entry update queue with one request; the sweep, whose RESCAN walk follows; the KEEP walk; two heads. -/
theorem witness_FreedPlaceOfTheOtherQueues :
    let q : EntryReq := { item := 1, kind := .queueJoin }
    let entry : State := { active with
      link := { LinkState.reset with tasks := [(.sweep, .entry .sweep { item := 2, kind := .frameSent })] }
      sweep := { active.sweep with scan := some ⟨0, false⟩ }
      book := { BookState.reset with queue := List.replicate 63 q, headPhase := .reading, wait := [.sweep, .due] } }
    let walk : State := { active with
      control := { active.control with part := .loading, load := some { stage := .walking, charter := some chart } }
      book := { BookState.reset with queue := List.replicate 63 q, headPhase := .reading, wait := [.keepWalk], cursor := 4999 } }
    let heads : State := { active with link := { LinkState.reset with
      stream := List.replicate 14 passRead, streamWait := [some .admin, some .lan]
      accept := (LinkState.reset.accept.setIfInBounds 0 [rd 0 0x20A000 8]).setIfInBounds 5 [rd 5 0x20A000 8] } }
    (entry.book.queue.length = 63 ∧ entry.tasksOf Source.sweep.unit = [.entry .sweep { item := 2, kind := .frameSent }] ∧
      (after .entryUpdateQueueRoom entry).book.wait = [.due, .sweep]) ∧
    (walk.book.cursor < walk.itemCount ∧ walk.tasksOf .book = [] ∧ (after .entryUpdateQueueRoom walk).book.cursor = 5000 ∧
      (after .entryUpdateQueueRoom walk).book.wait = []) ∧
    (heads.link.stream.length ≤ 14 ∧ heads.queueOf Class.admin.index = [rd 0 0x20A000 8] ∧
      heads.queueOf Class.lan.index = [rd 5 0x20A000 8] ∧ heads.queueOf Class.till.index = [] ∧
      heads.judge chart (rd 0 0x20A000 8) = .forward .plain .nothing ∧
      heads.judge chart (rd 5 0x20A000 8) = .forward .plain .nothing) := by decide +kernel

/-- Due processing with a second item due, and the intake unit whose next record fails and whose third passes, both before another
source (R6). -/
theorem witness_FreedPlaceOfDueProcessingAndIntake :
    let queue : List EntryReq := List.replicate 63 { item := 1, kind := .queueJoin }
    let due : State := { active with book := { BookState.reset with
      queue, headPhase := .reading, wait := [.due, .sweep], dueTo := some 9
      timed := [⟨4, 7, 7, true⟩, ⟨5, 8, 8, false⟩, ⟨6, 9, 9, false⟩, ⟨7, 10, 10, false⟩] } }
    let rec1 (kind : Byte) : List Byte := [kind, 2, 0, 0] ++ toLe 4 4117 ++ toLe 4 0 ++ toLe 4 999
    let intake : State := { active with
      intake := { active.intake with
        state := .applying, producer := 1, block := some (padTo 256 (toLe 6 0 ++ padTo 10 [3] ++ rec1 1 ++ rec1 9 ++ rec1 3)) }
      book := { BookState.reset with queue, headPhase := .reading, wait := [.intake, .due] } }
    let t := after .entryUpdateQueueRoom due
    let u := after .entryUpdateQueueRoom intake
    due.tasksOf .book = [] ∧ t.book.timed.map ListItem.marked = [true, true, false, false] ∧ t.book.wait = [.sweep, .due] ∧
      t.book.dueTo = some 9 ∧ intake.tasksOf .intake = [] ∧ u.intake.next = 2 ∧ u.intake.skipped = 1 ∧
      u.intake.awaiting = 1 ∧ u.book.wait = [.due, .intake] := by decide +kernel

/-! ### The price book -/

/-- An entry as taken again from its bytes. -/
def taken (e : Entry) : Entry := Entry.take chart.retryLimit e.bytes

def dueTray : Entry := { tray with label := .due, shown := 870 }
def sentTray : Entry := { tray with label := .sent, retry := 2 }

theorem witness_LabelRequestsWorkedOut :
    (headState { item := 4117, kind := .queueJoin } dueTray.bytes).HeadReturns chart { item := 4117, kind := .queueJoin } []
      dueTray.bytes ∧ (taken dueTray).label = .due ∧
    (headState { item := 4117, kind := .labelReturn } sentTray.bytes).HeadReturns chart { item := 4117, kind := .labelReturn } []
      sentTray.bytes ∧ (taken sentTray).label = .sent ∧
    (headState { item := 4117, kind := .labelUnanswered } sentTray.bytes).HeadReturns chart
      { item := 4117, kind := .labelUnanswered } [] sentTray.bytes ∧ (taken sentTray).retry + 1 = chart.retryLimit ∧
    (headState { item := 4117, kind := .labelResync (some 7) true } tray.bytes).HeadReturns chart
      { item := 4117, kind := .labelResync (some 7) true } [] tray.bytes ∧ (taken tray).label = .confirmed ∧ (taken tray).zone = 7 :=
  ⟨headState_returns _ _, by decide +kernel, headState_returns _ _,
    ⟨by decide +kernel, headState_returns _ _, by decide +kernel, ⟨headState_returns _ _, by decide +kernel⟩⟩⟩

theorem noCancel_of_check (s : State) (h : s.sweep.visit.all (fun v => !v.cancelled) = true) : s.noCancel := by
  intro v hv
  rw [hv] at h
  simpa using h

/-- The request that closes the item's record: the item joins its zone's queue when the request leaves, with its late record; and
with the pool full RESCAN is set, a walk in progress ending at the item (R65, R67, R82, R89). -/
theorem witness_OfferFromAClosingRequest :
    let e := taken { sentTray with retry := 0 }
    let s (pool : Nat) : State := { headState { item := 4117, kind := .labelUnanswered } { sentTray with retry := 0 }.bytes with
      sweep := { active.sweep with state := .settle, poolUsed := pool, scan := some ⟨0, true⟩, visit := some { listening with
        table := [{ item := 4117, address := 0x3A41C2, gen := 41, status := .closing }], ending := .forced } } }
    let t := after .labelUnanswered (s 7)
    let u := after .labelUnanswered (s 2048)
    (s 7).HeadReturns chart { item := 4117, kind := .labelUnanswered } [] { sentTray with retry := 0 }.bytes ∧
      (s 7).noCancel ∧ (e.label = .sent ∧ e.retry + 1 < chart.retryLimit ∧ (s 7).joinsLater 4117 = true ∧
      t.book.headPhase = .writing [.close 4117, .join 4117 7, .late 7 ⟨4117, 0x3A41C2, 41, 0⟩] ∧
      t.sweep.poolUsed = 8 ∧ t.zoneQueue 7 = [] ∧ u.book.headPhase = .writing [.close 4117] ∧ u.sweep.rescan = true ∧
      u.sweep.scan = some ⟨4117, true⟩) :=
  ⟨⟨rfl, rfl, rfl, rfl, ⟨_, rfl⟩, ⟨rfl, rfl, rfl, rfl, rfl⟩, ⟨rfl, rfl, by show 0 + 1 ≤ 32; decide⟩⟩,
    noCancel_of_check _ rfl, by decide +kernel⟩

/-- A retry count of 7 in a SENT label. -/
theorem witness_RetryCountOfSeven :
    let e := { sentTray with retry := 7 }
    let t := Entry.take 7 e.bytes
    let s := { headState { item := 4117, kind := .labelUnanswered } e.bytes with charter := some { chart with retryLimit := 7 } }
    t.retry = 7 ∧ t.label = .sent ∧ (taken sentTray).retry ≠ 7 ∧
      (after .labelUnanswered s).book.headPhase = .writing [.close 4117, .report (.labelFault 4117 7 0x3A41C2 7)] := by decide +kernel

theorem witness_FrameSentMakesTheLabelSent :
    (headState { item := 4117, kind := .frameSent } dueTray.bytes).HeadReturns chart { item := 4117, kind := .frameSent } []
      dueTray.bytes ∧ (taken dueTray).label = .due ∧
    (headState { item := 4117, kind := .frameSent } dueTray.bytes).released 4117 = false :=
  ⟨headState_returns _ _, by decide +kernel, by decide⟩

theorem ackState_returns :
    ackState.HeadReturns chart { item := 4117, kind := .labelAck none } [] trayWaiting.bytes :=
  ⟨rfl, rfl, rfl, rfl, ⟨_, rfl⟩, ⟨rfl, rfl, rfl, rfl, rfl⟩, ⟨rfl, rfl, by show 0 + 1 ≤ 32; decide⟩⟩

/-- A waiting increase shown; a label not SENT; a late acknowledgment of a queued DUE label. -/
theorem witness_LabelAckRecordsTheShownPrice :
    ackState.HeadReturns chart { item := 4117, kind := .labelAck none } [] trayWaiting.bytes ∧
      (taken trayWaiting).label = .sent ∧ (taken trayWaiting).waiting = true ∧
      chargePrice 5 (taken trayWaiting).pNoMarkdown (taken trayWaiting).pBase (taken trayWaiting).pMarkdown
        (taken trayWaiting).pFloor ≤ (taken trayWaiting).sentPrice ∧
      (headState { item := 4117, kind := .labelAck none } tray.bytes).HeadReturns chart { item := 4117, kind := .labelAck none }
        [] tray.bytes ∧ (taken tray).label ≠ .sent ∧
      (headState { item := 4117, kind := .labelAck none } sentTray.bytes).HeadReturns chart
        { item := 4117, kind := .labelAck none } [] sentTray.bytes ∧ (taken sentTray).waiting = false ∧
      (headState { item := 4117, kind := .labelAck (some ⟨0x3A41C2, 41, true⟩) } { dueTray with queued := true }.bytes).HeadReturns
        chart { item := 4117, kind := .labelAck (some ⟨0x3A41C2, 41, true⟩) } [] { dueTray with queued := true }.bytes ∧
      (taken { dueTray with queued := true }).queued = true ∧ (taken { dueTray with queued := true }).sentGen = 41 :=
  ⟨ackState_returns, by decide +kernel, by decide +kernel, by decide +kernel, headState_returns _ _, by decide +kernel,
    headState_returns _ _, by decide +kernel, headState_returns _ _, by decide +kernel, by decide +kernel⟩

theorem full_list :
    (active.withBook { BookState.reset with timed := List.replicate 8192 ⟨1, 0, 0, false⟩ }).listCount = 8192 := by
  simp only [State.listCount, State.withBook, List.length_replicate]
  rfl

/-- A decrease for the last second of the day, one that goes over at once, an increase that must wait, and a full list. -/
theorem witness_StageMergesOneChange :
    (headState (stageRequest .atTime 3000 86399) tray.bytes).HeadReturns chart (stageRequest .atTime 3000 86399) [] tray.bytes ∧
      (86399 < 86400) ∧ active.phase.clock < 86400 ∧ (headState (stageRequest .atTime 3000 0) tray.bytes).listed 4117 = false ∧
      (headState (stageRequest .now 3000 0) tray.bytes).HeadReturns chart (stageRequest .now 3000 0) [] tray.bytes ∧
      chargePrice 5 false 1249 3000 0 ≤ (taken tray).charge ∧
      (headState (stageRequest .now 0 0) trayWaiting.bytes).HeadReturns chart (stageRequest .now 0 0) [] trayWaiting.bytes ∧
      (taken trayWaiting).charge < chargePrice 5 false 1249 0 0 ∧ (taken trayWaiting).label = .sent ∧
      (headState (stageRequest .atOpen 0 0) tray.bytes).HeadReturns chart (stageRequest .atOpen 0 0) [] tray.bytes ∧
      (active.withBook { BookState.reset with timed := List.replicate 8192 ⟨1, 0, 0, false⟩ }).listCount = 8192 :=
  ⟨headState_returns _ _, by decide, by decide, by decide, headState_returns _ _, by decide +kernel, headState_returns _ _,
    by decide +kernel, by decide +kernel, headState_returns _ _, full_list⟩

/-- The label's upkeep and assignment at a staging (R20, R21): a FAULT label whose target changes; a CONFIRMED label assigned to another
zone at once, out of its old zone's queue; and a NOW request whose unexamined second is beyond the day. -/
theorem witness_StageKeepsTheLabelUp :
    let fault : Entry := { tray with label := .fault, retry := 3 }
    let moved : Entry := { tray with label := .due, queued := true }
    let move : EntryReq := { item := 4117, kind := .stage (.setLabel 0x111111 4) .now 90000 .control false }
    let s : State := { headState move moved.bytes with
      sweep := { active.sweep with poolUsed := 1, queues := active.sweep.queues.set 7 [4117] } }
    let t := after .stage s
    (headState (stageRequest .atTime 0 0) fault.bytes).HeadReturns chart (stageRequest .atTime 0 0) [] fault.bytes ∧
      s.HeadReturns chart move [] moved.bytes ∧ s.noCancel ∧ ((taken fault).label = .fault ∧ (taken moved).queued = true ∧
      (written t).map Entry.label = some .unconfirmed ∧ (written t).map Entry.shown = some 0 ∧
      (written t).map Entry.queued = some true ∧ t.zoneQueue 7 = [] ∧ t.zoneQueue 4 = [4117] ∧ t.sweep.poolUsed = 1) :=
  ⟨headState_returns _ _, ⟨rfl, rfl, rfl, rfl, ⟨_, rfl⟩, ⟨rfl, rfl, rfl, rfl, rfl⟩, ⟨rfl, rfl, by show 0 + 1 ≤ 32; decide⟩⟩,
    noCancel_of_check _ rfl, by decide +kernel⟩

/-- Due at exactly the second; a second later; waiting past its deadline. -/
theorem witness_ChangeoverDueTakesTheItem :
    dueState.HeadReturns chart { item := 4117, kind := .changeoverDue } [] trayStaged.bytes ∧
      dueState.book.timed.find? (fun x => x.item == 4117) =
        some { item := 4117, key := 500300, due := 500300, marked := true } ∧
      (500300 : Word32).toNat ≤ dueState.phase.mono.toNat ∧ (taken trayStaged).waiting = false ∧
      (taken trayWaiting).waiting = true ∧
      (headState { item := 4117, kind := .changeoverDue } trayWaiting.bytes).HeadReturns chart
        { item := 4117, kind := .changeoverDue } [] trayWaiting.bytes ∧
      (headState { item := 4117, kind := .changeoverDue } trayWaiting.bytes).book.timed.find? (fun x => x.item == 4117) = none :=
  ⟨⟨rfl, rfl, rfl, rfl, ⟨_, rfl⟩, ⟨rfl, rfl, rfl, rfl, rfl⟩, ⟨rfl, rfl, by show 0 + 1 ≤ 32; decide⟩⟩, by decide +kernel, by decide +kernel,
    by decide +kernel, by decide +kernel, headState_returns _ _, by decide +kernel⟩

/-- A waiting item whose label deadline has passed is forced (R18). -/
theorem witness_ChangeoverDueForcesAWaitingItem :
    let s := headState { item := 4117, kind := .changeoverDue } trayWaiting.bytes
    let s : State := { s with
      phase := { s.phase with mono := 512000 }
      book := { s.book with timed := [{ item := 4117, key := 512000, due := 511100, marked := true }] } }
    s.HeadReturns chart { item := 4117, kind := .changeoverDue } [] trayWaiting.bytes ∧
      s.book.timed.find? (fun x => x.item == 4117) = some { item := 4117, key := 512000, due := 511100, marked := true } ∧
      (512000 : Word32).toNat ≤ s.phase.mono.toNat ∧ (taken trayWaiting).waiting = true ∧
      (written (after .changeoverDue s)).map Entry.forced = some true :=
  ⟨⟨rfl, rfl, rfl, rfl, ⟨_, rfl⟩, ⟨rfl, rfl, rfl, rfl, rfl⟩, ⟨rfl, rfl, by show 0 + 1 ≤ 32; decide⟩⟩, by decide +kernel,
    by decide, by decide +kernel, by decide +kernel⟩

/-- A record of a kind in hand at a till, which waits for its price. -/
def pricing (kind : Byte) (counted : JournalKind) (x : TillContext) : State :=
  let s := headState { item := 4117, kind := .priceCheck } tray.bytes
  let tx := lineOf kind 4117
  let h : JournalHand := { tx, clock := 68100, day := 9, mono := 500000, phase := some .trading, counted := some counted }
  ((s.setTill 0 x).setHand (some h)).withLink { s.link with accept := s.link.accept.setIfInBounds 1 [tx] }

def pricingState : State := pricing 2 .item basket

theorem witness_PriceCheckAnswersTheRecord :
    pricingState.book.queue = [{ item := 4117, kind := .priceCheck }] ∧ pricingState.book.headPhase = .reading ∧
      (∃ u, pricingState.takeRead .entryRead = some (tray.bytes, u)) ∧ pricingState.queueOf Class.till.index = [lineOf 2 4117] ∧
      pricingState.queueOf 0 = [] ∧ (lineOf 2 4117).wf = true ∧ journalTill (lineOf 2 4117).data < 48 ∧
      (lineOf 2 4117).data.length = 64 ∧ (lineOf 2 4117).start + (lineOf 2 4117).len ≤ pricingState.charterBase ∧
      pricingState.link.stream.length < 16 ∧ pricingState.noneWaits ∧ pricingState.ownFree 2 ∧
      (pricing 6 .refund ready).queueOf Class.till.index = [lineOf 6 4117] ∧
      (∃ u, (pricing 6 .refund ready).takeRead .entryRead = some (tray.bytes, u)) :=
  ⟨rfl, rfl, ⟨_, rfl⟩, by decide, by decide, by decide, by decide, by decide, by decide, by decide, rfl, ⟨rfl, rfl, by decide⟩,
    by decide, ⟨_, rfl⟩⟩

/-- The record's line is 1 unit at 870, where the shelf says 1,249: flagged, counted, and in the basket whatever the check finds. -/
theorem test_price_mismatch :
    ((after .priceCheck pricingState).till 0).basket = 1740 ∧ ((after .priceCheck pricingState).till 0).totals.mismatches = 1 ∧
      (after .priceCheck pricingState).link.stream.length = 1 := by decide +kernel

/-- A refund of 870 joins the day refunds. -/
theorem test_refund_settles :
    let s := after .priceCheck (pricing 6 .refund ready)
    (s.till 0).totals.refunds = 870 ∧ (s.till 0).totals.refundCount = 1 ∧ (s.till 0).block.refunds = 870 ∧
      (s.till 0).basket = 0 := by decide +kernel

/-- A refund that the open block has no room for (R132). -/
theorem witness_RefundSplitsTheBlock :
    let b : OpenBlock := { first := 1, last := 4, count := 4, refunds := 999999130, check := 0x1234, day := 9, start := true }
    let s := pricing 6 .refund { ready with block := { b with last := 5, count := 5 } }
    let s := s.withJournal { s.journal with hand := s.journal.hand.map (fun h => { h with before := b }) }
    let t := after .priceCheck s
    s.noneWaits ∧ s.ownFree 2 ∧ (∃ u, s.takeRead .entryRead = some (tray.bytes, u)) ∧ (s.journal.hand.map (·.before) = some b ∧
      999999999 < b.refunds + 870 ∧ (t.till 0).block.refunds = 870 ∧ (t.till 0).block.count = 1 ∧
      t.journal.upProducer = 1) :=
  ⟨rfl, ⟨rfl, rfl, by decide⟩, ⟨_, rfl⟩, by decide +kernel⟩

/-- A load that walks: a KEEP request of a FRESH charter, and one of a KEEP charter with a good and a bad check byte. -/
def walkState (keep : Bool) (d : List Byte) : State :=
  let s := headState { item := 99, kind := .keep } d
  { s with control := { s.control with
      part := .loading
      load := some { stage := .walking, charter := some { chart with keep, resume := some .night }, second := 600000 } } }

theorem witness_KeepWalkWritesFreshOrRecomputes :
    (walkState true tray.bytes).HeadReturns { chart with keep := true, resume := some .night } { item := 99, kind := .keep } []
        tray.bytes ∧ entryCheckOk tray.bytes = true ∧ entryCheckOk (0xFF :: tray.bytes.tail) = false ∧
      (walkState true (0xFF :: tray.bytes.tail)).HeadReturns { chart with keep := true, resume := some .night }
        { item := 99, kind := .keep } [] (0xFF :: tray.bytes.tail) ∧
      ({ walkState false [] with book := { BookState.reset with
        queue := [{ item := 99, kind := .keep }], headPhase := .freshWrite } } : State).bookCharter =
          some { chart with keep := false, resume := some .night } :=
  ⟨⟨rfl, rfl, rfl, rfl, ⟨_, rfl⟩, ⟨rfl, rfl, rfl, rfl, rfl⟩, ⟨rfl, rfl, by show 0 + 1 ≤ 32; decide⟩⟩, by decide +kernel, by decide +kernel,
    ⟨rfl, rfl, rfl, rfl, ⟨_, rfl⟩, ⟨rfl, rfl, rfl, rfl, rfl⟩, ⟨rfl, rfl, by show 0 + 1 ≤ 32; decide⟩⟩, rfl⟩

/-- Step 4 of R28: the staged change of the tray is due at the second of the load; with the list full it is discarded, and counted. -/
theorem witness_KeepWalkTakesThePending :
    let s (n : Nat) : State := { walkState true trayStaged.bytes with book := { (walkState true trayStaged.bytes).book with
      timed := List.replicate n ⟨5, 1, 1, false⟩ } }
    let c : Charter := { chart with keep := true, resume := some .night }
    let t := after .keep (s 1)
    let u := after .keep (s 8192)
    (s 8192).HeadReturns c { item := 99, kind := .keep } [] trayStaged.bytes ∧
      ((s 1).listed 99 = false ∧ t.book.timed = [⟨5, 1, 1, false⟩, ⟨99, 600000, 600000, false⟩] ∧
        u.book.timed.length = 8192 ∧ u.control.load.map Load.discarded = some 1) :=
  ⟨⟨rfl, rfl, rfl, rfl, ⟨_, rfl⟩, ⟨rfl, rfl, rfl, rfl, rfl⟩, ⟨rfl, rfl, by show 0 + 1 ≤ 32; decide⟩⟩, by decide +kernel⟩

/-- The own write of a head request that hands on `acts` has completed, in a state with a visit in hand. -/
def leaveState (acts : List LeaveAct) : State :=
  { listenState with
    book := { BookState.reset with
      queue := [{ item := 1, kind := .queueJoin }, { item := 2, kind := .queueJoin }], headPhase := .writing acts }
    link := { LinkState.reset with issued :=
      [.own { unit := .book, addr := 0x100040, body := .write tray.bytes, purpose := .entryWrite } []] } }

theorem witness_EntryWriteCompletes :
    (∀ acts, (leaveState acts).linkQuiet ∧ (leaveState acts).ownFree 4 ∧
      (∃ u, (leaveState acts).takeWritten (· == .entryWrite) = some (.entryWrite, u)) ∧
      (leaveState acts).bookCharter = some chart ∧ (leaveState acts).reportRoom chart ∧
      (leaveState acts).sweep.visit = some listening ∧ (leaveState acts).sweep.state ≠ .idle) ∧ listening.cancelled = false :=
  ⟨fun _ => ⟨⟨rfl, rfl, rfl, rfl, rfl⟩, ⟨rfl, rfl, by show 0 + 4 ≤ 32; decide⟩, ⟨_, rfl⟩, rfl,
    ⟨rfl, by show ((0 : Word32) - 0).toNat < (chart.window .report).slots; decide⟩, rfl, by show SweepState.listen ≠ .idle; decide⟩, rfl⟩

/-- What some of the requests bring: a report, a record's answer, a late record, a place in a zone queue, a frame. -/
theorem test_leave_acts :
    (after .entryWriteComplete (leaveState [.report (.labelFault 1 7 0x3A41C2 3)])).control.repProducer = 1 ∧
      ((after .entryWriteComplete (leaveState [.close 4117, .late 7 ⟨4117, 0x3A41C2, 43, 0⟩])).zoneRec 7).late =
        [⟨4117, 0x3A41C2, 43, 0⟩] ∧
      (after .entryWriteComplete (leaveState [.close 4117, .join 4117 7])).zoneQueue 7 = [4117] ∧
      (after .entryWriteComplete (leaveState [.close 4117])).sweep.visit = some { listening with table := [] } ∧
      (after .entryWriteComplete (leaveState [.frame 9 none])).sweep.visit = some listening := by decide +kernel

/-- A late join and a late record from one closing request. -/
theorem test_leave_joins_late :
    let t := after .entryWriteComplete (leaveState [.close 4117, .join 4117 7, .late 7 ⟨4117, 0x3A41C2, 43, 0⟩])
    t.zoneQueue 7 = [4117] ∧ (t.zoneRec 7).late = [⟨4117, 0x3A41C2, 43, 0⟩] ∧
      t.sweep.visit = some (listening.without 4117) := by decide +kernel

/-- The last record of a visit that the warning has cancelled leaves the table, in AUTO and MANUAL, and under the warning and with it
clear; an item that comes with a frame is returned at once (R95, R96). -/
def cancelledState (acts : List LeaveAct) (taken : List TakenItem) (manual warning : Bool) : State :=
  let s := leaveState acts
  { s with
    phase := { s.phase with warning }
    sweep := { s.sweep with state := .settle, manual, visit := some { listening with cancelled := true, taken } } }

theorem witness_EntryWriteEndsACancelledVisit :
    let last := [LeaveAct.close 4117, .join 4117 7]
    let frame := [LeaveAct.frame 9 (some ⟨9, 0x3A41C3, 870, 43, false⟩)]
    let t := fun (manual warning : Bool) => after .entryWriteComplete (cancelledState last [] manual warning)
    let u := after .entryWriteComplete (cancelledState frame [⟨9, false⟩] false true)
    (cancelledState last [] false false).linkQuiet ∧ (cancelledState last [] false false).ownFree 4 ∧
      (cancelledState frame [⟨9, false⟩] false true).entryFree 0 ∧
      ({ listening with cancelled := true } : Visit).without 4117 = { listening with cancelled := true, table := [] } ∧
      ((t false true).sweep.state = .idle ∧ (t false true).sweep.visit = none ∧ (t false true).sweep.current = 0 ∧
        (t true true).sweep.state = .manualWait ∧ (t false false).sweep.state = .txWait ∧ (t false false).sweep.current = 1 ∧
        u.book.queue = [{ item := 2, kind := .queueJoin }, { item := 9, kind := .labelReturn }] ∧
        (u.outStatus 9 = some .closing)) :=
  ⟨⟨rfl, rfl, rfl, rfl, rfl⟩, ⟨rfl, rfl, by show 0 + 4 ≤ 32; decide⟩, ⟨rfl, rfl, by decide⟩, by decide, by decide +kernel⟩

/-- The states of an apply: no block in hand, the last block with a record awaited, and with more. -/
theorem witness_EntryWriteAnswersTheIntake :
    let apply (block : Option (List Byte)) (awaiting : Nat) : State :=
      let s := leaveState [.staged (.intake 0 0) false false]
      s.withIntake { s.intake with state := .applying, producer := 1, batch := 5, block, next := 1, awaiting }
    let b : List Byte := padTo 256 (toLe 6 5 ++ [1, 1])
    (apply none 2).intake.state = .applying ∧ (apply none 2).noneWaits ∧ min 15 (byteAt b 6) ≤ 1 ∧
      ((apply (some b) 1).intake.producer - (apply (some b) 1).intake.consumer).toNat ≤ (apply (some b) 1).intake.applyBlock + 1 ∧
      (apply (some b) 1).ownFree 4 ∧ (after .entryWriteComplete (apply (some b) 1)).intake.state = .idle ∧
      (after .entryWriteComplete (apply (some b) 2)).intake.state = .applying ∧
      (after .entryWriteComplete (apply (some b) 2)).intake.awaiting = 1 :=
  ⟨rfl, rfl, by decide +kernel, by decide +kernel, ⟨rfl, rfl, by decide⟩, by decide +kernel, by decide +kernel, by decide +kernel⟩

/-- The last KEEP request of a walk has been performed, or the last but one. -/
theorem witness_EntryWriteEndsTheWalk :
    let l (performed : Nat) : Load := { stage := .walking, charter := some chart, performed }
    let s (performed : Nat) : State :=
      let s := leaveState [.kept]
      { s with
        control := { s.control with part := .loading, load := some (l performed) }, book := { s.book with cursor := 5000 } }
    (s 4999).control.load = some (l 4999) ∧ (s 4999).bookCharter = some chart ∧ (s 4999).linkQuiet ∧
      ((after .entryWriteComplete (s 4999)).control.load.map Load.stage) = some .walked ∧
      ((after .entryWriteComplete (s 4998)).control.load.map Load.stage) = some .walking :=
  ⟨rfl, rfl, ⟨rfl, rfl, rfl, rfl, rfl⟩, by decide +kernel, by decide +kernel⟩

/-- The largest fields of a whole entry. -/
theorem witness_EntryReadsBackAsWritten :
    let e : Entry := { tray with
      zone := 11, pZone := 11, base := 2 ^ 32 - 1, markdown := 2 ^ 16 - 1, address := 2 ^ 24 - 1, retry := 7, pending := true, eff := .atTime }
    e.zone ≤ 11 ∧ e.base < 2 ^ 32 ∧ e.markdown < 2 ^ 16 ∧ e.address < 2 ^ 24 ∧ e.retry ≤ 7 ∧
      (e.label = .noLabel ↔ e.address = 0) ∧ (e.pending = true → e.eff ≠ .unset) := by decide

theorem witness_ConfirmedLabelNeverBelowTheCharge : tray.label = .confirmed ∧ tray.charge ≤ tray.shown := by decide
/-! ### Seconds, power, pacing and the journal's work -/

/-- An open block of till 0 that has stood idle for 30 seconds at the second 500,000. -/
def stood : TillContext :=
  { ready with lastSecond := 499970, block := { first := 1, last := 4, count := 4, check := 0x1234, day := 9, sales := 870, start := true } }

theorem witness_SecondAdvanceMovesTheCounts :
    active.inReset = false ∧ active.charter = some chart ∧ active.control.part = .active ∧ active.ownFree 1 ∧
      State.reset.charter = none ∧
      (∃ n, n < chart.tillCount ∧ ((tillState stood).till n).block.count ≠ 0 ∧
        chart.idleClose ≤ ((tillState stood).phase.mono + 1 - ((tillState stood).till n).lastSecond).toNat) ∧
      ({ active with sweep := { active.sweep with state := .idle, manual := false, queues := active.sweep.queues.set 7 [4117] } }
        : State).zoneQueue 7 ≠ [] :=
  ⟨rfl, rfl, rfl, ⟨rfl, rfl, by decide⟩, rfl, ⟨0, by decide, by decide +kernel, by decide +kernel⟩, by decide⟩

/-- The clock at its last second becomes 0 (R181). -/
theorem test_clock_wraps :
    (after .secondAdvance { active with phase := { active.phase with clock := 86399, mono := 0xFFFFFFFF } }).phase.clock = 0 ∧
      (after .secondAdvance { active with phase := { active.phase with clock := 86399, mono := 0xFFFFFFFF } }).phase.mono = 0 := by
  decide +kernel

theorem witness_DueProcessingPlacesTheDueItems :
    let s : State := { active with book := { BookState.reset with dueTo := some 500000, timed :=
      [⟨3, 400000, 0, false⟩, ⟨4, 500000, 0, true⟩, ⟨5, 500000, 0, false⟩, ⟨6, 500001, 0, false⟩] } }
    s.control.part = .active ∧ s.book.wait = [] ∧
      (s.book.timed.takeWhile (fun x => decide (x.key.toNat ≤ (500000 : Word32).toNat))).filter (fun x => !x.marked) =
        [⟨3, 400000, 0, false⟩, ⟨5, 500000, 0, false⟩] ∧ s.book.queue.length + 2 ≤ 64 ∧
      (after .dueProcessing s).book.queue = [{ item := 3, kind := .changeoverDue }, { item := 5, kind := .changeoverDue }] ∧
      (List.replicate 64 ({ item := 1, kind := .queueJoin } : EntryReq)).length = 64 := by decide +kernel

/-- The eleven samples of section 9.4 end with the warning standing at the last of four in a row; here its last four. -/
theorem test_warning_stands :
    let s := after (.pfwSample true) (after (.pfwSample true) (after (.pfwSample true) (after (.pfwSample true) active)))
    s.phase.warning = true ∧ s.phase.runCount = 0 ∧ s.phase.handoffs = [true] := by decide +kernel

theorem witness_WarningFollowsTheFilter :
    ({ active with phase := { active.phase with runCount := 3 } } : State).filterInRange ∧
      ({ active with phase := { active.phase with warning := true, runCount := 15 } } : State).filterInRange ∧
      active.reportRoom chart ∧ active.ownFree 2 ∧ listening.cancelled = false ∧ listening.table ≠ [] ∧
      listenState.entryFree 1 ∧ ({ active with phase := { active.phase with handoffs := [true] } } : State).phase.handoffs = true :: [] ∧
      ({ active with phase := { active.phase with handoffs := [false] } } : State).phase.handoffs = false :: [] ∧
      active.sweep.state ≠ .idle ∧ active.intake.state ≠ .complete ∧ active.noneWaits ∧
      ((listening.table.filter (fun r => r.status == .opened || r.status == .answeredFault)).map OutRecord.item).Nodup ∧
      { listening with table := [] }.taken = [] ∧ active.control.part ≠ .loading ∧ active.phase.handoffs.head? = none ∧
      ({ active with phase := { active.phase with phase := some .night }, intake := { active.intake with state := .complete } }
        : State).control.part = .active ∧
      ({ active with sweep := { active.sweep with state := .idle, manual := false } } : State).sweep.state = .idle :=
  ⟨by unfold State.filterInRange; decide, by unfold State.filterInRange; decide, by unfold State.reportRoom; decide, ⟨rfl, rfl, by decide⟩,
    rfl, by decide, ⟨rfl, rfl, by decide⟩, rfl, rfl, by decide, by decide, rfl, by decide, rfl, by decide, rfl, rfl, rfl⟩

/-- Two transactions held; the second has no room in the budget of level 7 once the first is released. -/
theorem witness_PacingPeriodAdjustsAndReleases :
    let s : State := { active with guest := { active.guest with level := 7, floor := 7 }
                                   link := { LinkState.reset with hold := [rd 3 0x208000 64, rd 3 0x208040 64] } }
    s.linkQuiet ∧ s.link.hold.length ≤ 8 ∧ (∀ tx ∈ s.link.hold, tx.wordWritten s.charterBase ≠ some 1) ∧
      (after .pacingPeriodBoundary s).guest.level = 7 ∧ (after .pacingPeriodBoundary s).link.hold = [rd 3 0x208040 64] ∧
      (after .pacingPeriodBoundary s).guest.periodBytes = 64 :=
  ⟨⟨rfl, rfl, rfl, rfl, rfl⟩, by decide, by decide, by decide +kernel, by decide +kernel, by decide +kernel⟩

def workState (k : JournalWork) (x : TillContext) : State :=
  (tillState x).withJournal { (tillState x).journal with works := [k] }

/-- An open block that has stood idle; a full UPLOAD ring; a ring with room for the summaries of a night. -/
theorem witness_JournalWorksAreTaken :
    let s := workState .idleClose stood
    let full := s.withJournal { s.journal with upProducer := 4 }
    s.linkQuiet ∧ s.noneWaits ∧ JournalWork.idleClose ∈ s.journal.works ∧ [0].Sublist (List.range chart.tillCount) ∧
      chart.idleClose ≤ (s.phase.mono - (s.till 0).lastSecond).toNat ∧ s.ownFree 2 ∧
      (chart.window .upload).slots ≤ backlog full.journal.upProducer full.journal.upConsumer ∧
      (let n := workState .nightEntry { stood with signedOn := true }
       n.journal.holdList = [] ∧ chart.tillCount ≤ 48 ∧ n.ownFree 11 ∧ n.reportRoom chart ∧ n.link.hold = [] ∧
         n.intake.state ≠ .complete ∧ 3 ≤ (chart.window .upload).slots ∧
         (n.control.repProducer + 1 - n.control.repConsumer).toNat < (chart.window .report).slots ∧
         (after .nightEntry n).journal.upProducer = 3 ∧ (after .nightEntry n).link.own.length = 11) ∧
      (workState .newDay stood).journal.works = [.newDay] ∧
      JournalWork.powerClose ∉ (workState .newDay stood).journal.works :=
  ⟨⟨rfl, rfl, rfl, rfl, rfl⟩, rfl, by decide, by decide, by decide +kernel, ⟨rfl, rfl, by decide⟩, by decide,
    ⟨rfl, by decide, ⟨rfl, rfl, by decide⟩, by unfold State.reportRoom; decide, rfl, by decide, by decide, by decide,
      by decide +kernel, by decide +kernel⟩, rfl, by decide⟩

/-- At NIGHT two held transactions are refused PHASE, with two reports, behind PHASE_CHANGED and DAY_SUMMARY_READY; with the REPORT and
UPLOAD rings full the three reports are lost. -/
theorem witness_NightFlushesTheHoldQueue :
    let n := (workState .nightEntry ready).withLink { LinkState.reset with hold := [rd 3 0x208000 64, wr 3 0x208040 [1, 2]] }
    let full : State := { n with
      journal := { n.journal with upProducer := 4 }, control := { n.control with repProducer := 8 } }
    let t := after .nightEntry n
    n.linkQuiet ∧ n.noneWaits ∧ n.ownFree 11 ∧ full.reportFull chart ∧ (n.accepting = false ∧ 0 + 2 + 2 ≤ (chart.window .report).slots ∧
      t.link.hold = [] ∧ t.link.refusals = 2 ∧ t.control.repProducer = 4 ∧
      t.link.answers = [⟨3, true, List.replicate 64 0⟩, ⟨3, true, []⟩] ∧
      t.link.own.length = 11 ∧ (after .nightEntry full).control.lost = 3) :=
  ⟨⟨rfl, rfl, rfl, rfl, rfl⟩, rfl, ⟨rfl, rfl, by decide⟩, by unfold State.reportFull; decide, by decide +kernel⟩

/-- A night with the UPLOAD ring full: the TILL_DAY and BRANCH_DAY records wait in the hold list, and no report is written. -/
theorem test_night_holds_summaries :
    let n := workState .nightEntry { ready with signedOn := true }
    let s := after .nightEntry (n.withJournal { n.journal with upProducer := 4 })
    s.journal.holdList.length = 2 ∧ s.journal.upProducer = 4 ∧ s.control.repProducer = 1 := by decide +kernel

theorem test_night_entry :
    let s := after .nightEntry ((workState .nightEntry basket).withPhase { active.phase with phase := some .closing })
    s.phase.phase = some .night ∧ (s.till 0).state = .closed ∧ (s.till 0).totals.abandoned = 1 ∧ s.guest.level = 7 := by
  decide +kernel

/-- The forwarded record of till 0, its close with SIGN_OFF to follow. -/
def sentState (closes : BlockFlags) (report : Option Report) : State :=
  let tx := record 8 5 []
  let h : JournalHand := { tx, clock := 68100, day := 9, mono := 500000, phase := some .trading, stage := .sent, closes, report }
  ((tillState stood).setHand (some h)).withLink { LinkState.reset with
    issued := [.pass ⟨tx, .journalRecord⟩ []], accept := LinkState.reset.accept.setIfInBounds 1 [tx] }

theorem witness_ForwardedRecordLeavesHand :
    (sentState {} none).link.issued = [] ++ .pass ⟨record 8 5 [], .journalRecord⟩ [] :: [] ∧
      ((sentState {} none).queueOf Class.till.index).length = 1 ∧ (sentState {} none).queueOf 0 = [] ∧
      (sentState {} none).journal.works = [] ∧ (sentState {} none).ownFree 3 ∧ BlockFlags.anyCause {} = false ∧
      BlockFlags.anyCause { signOff := true } = true ∧ ((sentState { signOff := true } none).till 0).block.count ≠ 0 ∧
      (sentState { signOff := true } none).journal.holdList = [] ∧ (sentState {} (some .powerClear)).reportRoom chart :=
  ⟨rfl, by decide, by decide, rfl, ⟨rfl, rfl, by decide⟩, rfl, rfl, by decide +kernel, rfl,
    by unfold State.reportRoom; decide⟩

/-! ### Control records -/

/-- The control unit's read of a record has returned. -/
def recordState (s : State) (d : List Byte) : State :=
  { s with
    control := { s.control with record := some {}, ctlProducer := 1 }
    link := { s.link with issued := [.own { unit := .control, addr := 0x205040, body := .read 32, purpose := .controlRead } d] } }

/-- A control record: its kind, tag 0x77, and bytes 4 on. -/
def control (kind : Byte) (rest : List Byte) : List Byte := padTo 32 ([kind, 0, 0x77, 0] ++ rest)

theorem witness_TillResetClosesTheTill :
    (recordState (tillState stood) (control 5 [0])).RecordRead chart 5 (control 5 [0]) ∧
      (recordState (tillState stood) (control 5 [0])).linkQuiet ∧ byteAt (control 5 [3]) 4 < chart.tillCount ∧
      chart.tillCount ≤ byteAt (control 5 [4]) 4 ∧ (recordState active (control 5 [4])).RecordRead chart 5 (control 5 [4]) :=
  ⟨⟨rfl, rfl, by decide, ⟨_, rfl⟩⟩, ⟨rfl, rfl, rfl, rfl, rfl⟩, by decide, by decide, ⟨rfl, rfl, by decide, ⟨_, rfl⟩⟩⟩

/-! ### Visits -/

def building (kind : VisitKind) : Visit :=
  { slot := 1, zone := 7, kind, stage := .building, frames := [{ item := 4117, address := 0x3A41C2, price := 870, gen := 43, withdrawn := false }] }

def visitState (v : Visit) (st : SweepState) : State := { active with sweep := { active.sweep with state := st, visit := some v } }

theorem witness_VisitIsPublishedAndStarts :
    let scan : State := { active with sweep := { active.sweep with scanCursor := 4999, scan := some { start := 1, paused := false } } }
    (scan.itemCount = 5000 ∧ scan.book.wait = [] ∧ (after .rescanWalk scan).sweep.scanCursor = 1 ∧
      (after .rescanWalk scan).book.queue = [{ item := 4999, kind := .queueJoin }, { item := 0, kind := .queueJoin }]) ∧
      (visitState (building .price) .txWait).ownFree 2 ∧ (building .price).taken = [] ∧ (building .price).frames ≠ [] ∧
      { building .price with frames := [] }.frames = [] ∧ { building .price with stage := .publishing }.stage = .publishing ∧
      (0 < active.sweep.blank) ∧ (∃ r ∈ listening.table, r.status = .opened) :=
  ⟨by decide +kernel, ⟨rfl, rfl, by decide⟩, rfl, by decide, rfl, rfl, by decide, ⟨_, .head _, rfl⟩⟩

/-- The index write of a published visit has completed. -/
def startState (v : Visit) (blank : Nat) : State :=
  let q : OwnRequest :=
    { unit := .sweep, addr := 0x203000, body := .indexWords (some 1) none, purpose := .labelTxIndex 1 }
  { active with
    sweep := { active.sweep with state := .txWait, txProducer := 1, blank, visit := some { v with stage := .publishing } }
    link := { LinkState.reset with issued := [.own q []] } }

theorem witness_VisitStarts :
    (∀ v blank, ∃ q, (startState v blank).link.issued = [] ++ .own q [] :: [] ∧ q.purpose = .labelTxIndex 1 ∧
      q.body = .indexWords (some 1) none ∧ (startState v blank).sweep.txProducer = 1 ∧ (startState v blank).noneWaits) ∧
    (after .visitStart (startState (building .price) 12)).sweep.state = .blank ∧
    (after .visitStart (startState listening 0)).sweep.state = .listen ∧
    (after .visitStart (startState (building .sync) 0)).sweep.state = .settle ∧ (building .sync).zone < 12 :=
  ⟨fun _ _ => ⟨_, rfl, rfl, rfl, rfl, rfl⟩, by decide +kernel, by decide +kernel, by decide +kernel, by decide⟩

/-- The sweep floor (3) counts from the visit start to the end of LISTEN: the level 1 rises to it and stays (R154). -/
theorem test_sweep_floor :
    let s := after .visitStart (startState (building .price) 12)
    let t := after .forcedEnd (visitState listening .listen)
    let pace (u : State) : Nat × Nat := (u.guest.level, u.guest.floor)
    pace s = (3, 3) ∧ pace (after .blankEnd (visitState listening .blank)) = (3, 3) ∧ pace t = (1, 1) ∧
      pace (after .warningStands { s with phase := { s.phase with handoffs := [true] } }) = (3, 1) := by decide +kernel

/-- The frame of section 11.6 as published into slot 0 of LABEL_TX. -/
theorem test_frame_bytes :
    ((after .framePublish (visitState (building .price) .txWait)).link.own.map OwnRequest.body).head? =
      some (.write ([1, 7, 43, 0, 0xC2, 0x41, 0x3A, 0, 0x66, 0x03, 0, 0] ++ List.replicate 20 0)) := by decide +kernel

theorem witness_VisitEndsAndTeachesTheBase :
    (visitState listening .blank).sweep.state = .blank ∧ (∃ r ∈ listening.table, r.status = .opened) ∧ listening.zone < 12 ∧
      (visitState listening .listen).entryFree 1 ∧ { listening with table := [] }.isMatched = false ∧
      { listening with table := [], ending := .settled }.stage = .onAir ∧ chart.averaging = 2 ∧ active.sweep.manual = true := by
  refine ⟨rfl, ⟨_, .head _, rfl⟩, by decide, ⟨rfl, rfl, by decide⟩, rfl, rfl, rfl, rfl⟩

/-- The fourth forced PRICE visit in a row without an acknowledgment makes its zone DARK (R70), the third does not. -/
theorem witness_VisitCloseMakesAZoneDark :
    let s (n : Nat) : State :=
      (visitState { listening with table := [], ending := .forced } .settle).setZone 7 { emptyForced := n }
    ((s 3).zoneRec 7).emptyForced = 3 ∧ ((s 3).zoneRec 7).dark = false ∧ (s 3).noneWaits ∧ (s 3).reportRoom chart ∧
      (s 3).ownFree 2 ∧ ((after .visitClose (s 3)).zoneRec 7).dark = true ∧
      (after .visitClose (s 3)).control.repProducer = 1 ∧ ((after .visitClose (s 2)).zoneRec 7).dark = false :=
  ⟨by decide +kernel, by decide +kernel, rfl, by unfold State.reportRoom; decide, ⟨rfl, rfl, by decide⟩, by decide +kernel,
    by decide +kernel, by decide +kernel⟩

/-- A selection that passes slot 15 (R70, R71): from current slot 1, slot 1 itself qualifies for a probe only as the pass that is counted
makes it due; with none to visit the current slot is 0, with the pass counted. -/
theorem witness_SelectionPassesSlot15 :
    let z : ZoneRecord := { dark := true, emptyForced := 4, probeCycle := 15, lastSync := some 500000 }
    let s (q : List Nat) : State := ({ active with sweep := { active.sweep with
      state := .settle, manual := false, current := 1, poolUsed := q.length, queues := active.sweep.queues.set 7 q
      zones := active.sweep.zones.setIfInBounds 4 { lastSync := some 500000 }
      visit := some { listening with table := [], ending := .settled } } } : State).setZone 7 z
    let t := after .visitClose (s [4117])
    let u := after .visitClose (s [])
    (s [4117]).noneWaits ∧ (s [4117]).entryFree 1 ∧ ((s [4117]).passCounted.zoneRec 7).probeCycle = 16 ∧
      (t.sweep.current = 1 ∧ t.sweep.visit.map Visit.kind = some .probe ∧ (t.zoneRec 7).probeCycle = 0 ∧
      u.sweep.current = 0 ∧ u.sweep.state = .idle ∧ (u.zoneRec 7).probeCycle = 16) :=
  ⟨rfl, ⟨rfl, rfl, by decide⟩, by decide +kernel⟩

theorem witness_SelectionPassesSlot15_qualifies :
    State.slotQualifies { active with sweep := { active.sweep with
      queues := active.sweep.queues.set 7 [4117], zones := active.sweep.zones.setIfInBounds 7 { dark := true, probeCycle := 16 } } }
      chart 1 .probe := ⟨_, by decide, by decide, rfl, rfl, rfl, by decide, rfl, rfl⟩

/-- A forced visit that makes its zone DARK in AUTO, with nothing else to visit. -/
theorem test_dark_zone_in_auto :
    let s := ({ active with sweep := { active.sweep with
      state := .settle, manual := false, current := 1, zones := active.sweep.zones.setIfInBounds 4 { lastSync := some 500000 }
      visit := some { listening with table := [], ending := .forced } } } : State).setZone 7 { emptyForced := 3 }
    let t := after .visitClose s
    (t.zoneRec 7).dark = true ∧ (t.zoneRec 7).probeCycle = 1 ∧ t.sweep.state = .idle ∧ t.control.repProducer = 1 := by
  decide +kernel

/-- A silent visit of base 131 records 163 ticks (section 4.4). -/
theorem test_silent_visit :
    (after .visitClose (visitState { listening with table := [], ending := .forced, base := 131 } .settle)).sweep.history = [163] := by
  decide +kernel

/-! ### Batches -/

/-- The write of an upper half has completed, and its block waits for its transition. -/
def acceptedState (outcome : BlockOutcome) (st : BatchState) : State :=
  { active with
    intake := { active.intake with state := st, accepting := [some { halfOf 0 with outcome }] }
    link := { LinkState.reset with issued := [.pass ⟨upperWrite, .intakeUpper⟩ []] } }

def readBack (block : List Byte) (st : BatchState) : State :=
  let q : OwnRequest := { unit := .intake, addr := 0x202040, body := .read 128, purpose := .intakeRead }
  { active with
    intake := { active.intake with state := st, producer := 1 }
    link := { LinkState.reset with issued := [.own q (block.take 128), .own q (block.drop 128)] } }

theorem witness_BatchIsAcceptedAppliedDiscarded :
    (acceptedState .starts .idle).link.issued = [] ++ .pass ⟨upperWrite, .intakeUpper⟩ [] :: [] ∧
      (acceptedState .starts .idle).ownFree 4 ∧ (halfOf 0).header.ends = true ∧
      (∃ b u, (readBack (toLe 256 0) .applying).takeBlockReads = some (b, u)) ∧
      (readBack (toLe 256 0) .applying).book.queue.length ≤ 49 ∧
      ((readBack (toLe 256 0) .applying).intake.producer - (readBack (toLe 256 0) .applying).intake.consumer).toNat ≤ 0 + 1 ∧
      (recordState (acceptedState .starts .complete) (control 8 [])).RecordRead chart 8 (control 8 []) :=
  ⟨rfl, ⟨rfl, rfl, by decide⟩, by decide +kernel, ⟨_, _, rfl⟩, by decide, by decide +kernel, ⟨rfl, rfl, by decide, ⟨_, rfl⟩⟩⟩

/-- Block 0 of batch 5 as it completes: it starts in IDLE and BROKEN, continues batch 5 in RECEIVING, supersedes another
batch, and follows nothing in COMPLETE (log 38). -/
theorem witness_BatchIsAccepted :
    let s (st : BatchState) (batch : Word32) (n : Nat) : State :=
      { active with
        intake := { active.intake with
          state := st, batch, producer := BitVec.ofNat 32 n, accepting := [some { halfOf 0 with slot := n % 4 }] }
        link := { LinkState.reset with issued := [.pass ⟨upperWrite, .intakeUpper⟩ []] } }
    let t (st : BatchState) (batch : Word32) (n : Nat) : State := after .blockAccepted (s st batch n)
    ((s .receiving 6 2).ownFree 4 ∧ (s .receiving 6 2).reportRoom chart) ∧
      (halfOf 0).header.block = 0 ∧ (halfOf 0).header.batch = 5 ∧ (t .idle 3 0).intake.batch = 5 ∧ (t .idle 3 0).intake.producer = 1 ∧
      (t .broken 3 2).intake.consumer = 2 ∧ (t .broken 3 2).intake.producer = 3 ∧
      (t .receiving 5 0).intake.producer = 1 ∧ (t .receiving 5 0).intake.consumer = 0 ∧
      (t .receiving 6 2).intake.consumer = 2 ∧ (t .receiving 6 2).control.repProducer = 1 ∧
      (t .complete 5 2).intake.producer = 2 ∧ (t .complete 5 2).intake.state = .complete :=
  ⟨⟨⟨rfl, rfl, by decide +kernel⟩, by unfold State.reportRoom; decide +kernel⟩, by decide +kernel⟩

/-- A block forwarded before an accepted load is only completed (log 38). -/
theorem test_block_of_the_old_charter :
    let s := after .blockAccepted ((acceptedState .starts .idle).withIntake { active.intake with accepting := [none] })
    s.intake.producer = 0 ∧ s.intake.state = .idle ∧ s.intake.accepting = [] ∧ s.link.answers.length = 1 := by decide +kernel

/-- A block of one record, SET_PRICE 999 of item 4,117 from the next opening, and a record of an item beyond the item count. -/
theorem test_block_read_back :
    let rec1 : List Byte := [1, 2, 0, 0] ++ toLe 4 4117 ++ toLe 4 0 ++ toLe 4 999
    let rec2 : List Byte := [1, 2, 0, 0] ++ toLe 4 5000 ++ toLe 4 0 ++ toLe 4 999
    let s := after .intakeBlockRead (readBack (padTo 256 (padTo 16 (toLe 6 5 ++ [2, 1]) ++ rec1 ++ rec2)) .applying)
    s.book.queue = [{ item := 4117, kind := .stage (.setPrice 999) .atOpen 0 (.intake 0 0) false }] ∧
      s.intake.firstSkip = some { block := 0, record := 1, reason := .badItem } ∧ s.intake.awaiting = 1 := by decide +kernel

/-! ### Phases, prompt records and long ones, and loads -/

theorem witness_SetPhaseMakesTheNextPhase :
    (recordState active (control 1 [3])).RecordRead chart 1 (control 1 [3]) ∧ (recordState active (control 1 [3])).linkQuiet ∧
      Phase.ofCode (byteAt (control 1 [3]) 4) = some .closing ∧ Phase.ofCode (byteAt (control 1 [5]) 4) = none ∧
      Phase.ofCode (byteAt (control 1 [4]) 4) = some .night ∧ Phase.ofCode (byteAt (control 1 [1]) 4) = some .opening ∧
      Phase.ofCode (byteAt (control 1 [2]) 4) = some .trading ∧ (recordState active (control 1 [3])).reportRoom chart ∧
      (recordState active (control 1 [3])).ownFree 3 :=
  ⟨⟨rfl, rfl, by decide, ⟨_, rfl⟩⟩, ⟨rfl, rfl, rfl, rfl, rfl⟩, by decide, by decide, by decide, by decide, by decide,
    by unfold State.reportRoom; decide, ⟨rfl, rfl, by decide⟩⟩

theorem witness_PromptControlRecords :
    (recordState active (control 2 (toLe 4 86399))).RecordRead chart 2 (control 2 (toLe 4 86399)) ∧
      field (control 2 (toLe 4 86399)) 4 4 = 86399 ∧ field (control 2 (toLe 4 86400)) 4 4 = 86400 ∧
      (recordState active (control 0 [])).RecordRead chart 0 (control 0 []) ∧
      (recordState active (control 10 [])).RecordRead chart 10 (control 10 []) ∧
      (recordState active (control 6 [1])).RecordRead chart 6 (control 6 [1]) ∧ byteAt (control 6 [2]) 4 = 2 ∧
      (recordState active (control 7 [])).RecordRead chart 7 (control 7 []) ∧
      (recordState active (control 7 [])).sweep.state = .manualWait ∧ (recordState active (control 7 [])).phase.warning = false :=
  ⟨⟨rfl, rfl, by decide, ⟨_, rfl⟩⟩, by decide, by decide, ⟨rfl, rfl, by decide, ⟨_, rfl⟩⟩, ⟨rfl, rfl, by decide, ⟨_, rfl⟩⟩,
    ⟨rfl, rfl, by decide, ⟨_, rfl⟩⟩, by decide, ⟨rfl, rfl, by decide, ⟨_, rfl⟩⟩, rfl, rfl⟩

/-- A state whose slot 1 qualifies: STEP_SWEEP takes the item of zone 7. -/
def stepState : State :=
  recordState { active with sweep := { active.sweep with queues := active.sweep.queues.set 7 [4117], poolUsed := 1 } } (control 7 [])

theorem stepState_qualifies : stepState.slotQualifies chart 1 .price :=
  ⟨_, by decide, by decide, rfl, rfl, rfl, by decide, rfl⟩

/-- AUTO in MANUAL_WAIT with nothing to visit: the sync of zone 4 is not due. -/
def restedState : State :=
  recordState { active with sweep := { active.sweep with current := 1, zones := active.sweep.zones.set 4 { lastSync := some 499990 } } }
    (control 6 [0])

theorem witness_AutoFindsNothing :
    restedState.RecordRead chart 6 (control 6 [0]) ∧ restedState.noneWaits ∧ byteAt (control 6 [0]) 4 = 0 ∧
      restedState.nothingToVisit chart ∧ (restedState.sweep.manual = true ∧ restedState.sweep.state = .manualWait ∧
      restedState.phase.warning = false ∧ (after .sweepMode restedState).sweep.state = .idle ∧
      (after .sweepMode restedState).sweep.current = 0 ∧ (after .sweepMode restedState).sweep.manual = false) :=
  ⟨⟨rfl, rfl, by decide, ⟨_, rfl⟩⟩, rfl, by decide, ⟨fun z => by
      show (Vector.replicate 12 ([] : List Nat)).getD z [] = []
      simp [Vector.getD, Array.getD], fun sl h _ hs => by
      rcases List.mem_cons.1 h with rfl | h
      · cases hs
      · rcases List.mem_cons.1 h with rfl | h
        · exact ⟨499990, by decide, by decide⟩
        · cases h⟩, by decide +kernel⟩

theorem test_step_sweep :
    (after .stepSweep stepState).book.queue = [{ item := 4117, kind := .frameSent }] ∧
      (after .stepSweep stepState).sweep.current = 1 ∧ (after .stepSweep stepState).sweep.state = .txWait := by decide +kernel

theorem witness_LongControlRecords :
    (recordState active (control 3 (toLe 4 4999 ++ toLe 4 9001 ++ [3, 0, 0, 0] ++ toLe 4 86399))).RecordRead chart 3
        (control 3 (toLe 4 4999 ++ toLe 4 9001 ++ [3, 0, 0, 0] ++ toLe 4 86399)) ∧
      (recordState active (control 4 ([1, 0, 0, 0] ++ toLe 4 11))).RecordRead chart 4 (control 4 ([1, 0, 0, 0] ++ toLe 4 11)) ∧
      field (control 4 ([1, 0, 0, 0] ++ toLe 4 11)) 8 4 = 11 ∧ field (control 4 ([0, 0, 0, 0] ++ toLe 4 5000)) 8 4 = 5000 ∧
      byteAt (control 4 [2]) 4 = 2 ∧
      (let s := recordState (active.withPhase { active.phase with phase := some .night }) (control 9 [])
       s.RecordRead chart 9 (control 9 []) ∧ s.phase.phase = some .night ∧ s.ownFree 10 ∧ s.reportRoom chart ∧
         s.journal.hand = none ∧ s.sweep.visit = none) ∧
      (let s : State := { active with control := { active.control with record := some { fetched := true, result := some .done } } }
       s.ownFree 4 ∧ s.reportRoom chart) ∧
      (let q : OwnRequest := { unit := .control, addr := 0x206000, body := .indexWords (some 1) none, purpose := .reportIndex 0 1 }
       (active.withLink { active.link with issued := [.own q []] }).link.issued = [] ++ .own q [] :: []) :=
  ⟨⟨rfl, rfl, by decide, ⟨_, rfl⟩⟩, ⟨rfl, rfl, by decide, ⟨_, rfl⟩⟩, by decide, by decide, by decide,
    ⟨⟨rfl, rfl, by decide, ⟨_, rfl⟩⟩, rfl, ⟨rfl, rfl, by decide⟩, by unfold State.reportRoom; decide, rfl, rfl⟩,
    ⟨⟨rfl, rfl, by decide⟩, by unfold State.reportRoom; decide⟩, rfl⟩

/-- CONTROL_DONE with the REPORT ring full is lost and counted. -/
theorem witness_ControlDoneLost :
    let s : State := { active with control := { active.control with
      repProducer := 8, record := some { fetched := true, result := some .done } } }
    s.ownFree 4 ∧ s.reportFull chart ∧ (after .controlDone s).control.lost = 1 ∧ (after .controlDone s).link.own.length = 1 :=
  ⟨⟨rfl, rfl, by decide⟩, by unfold State.reportFull; decide, by decide +kernel⟩

/-- A zone resync with the queue empty: the requests of the first 64 items, and the walk kept (R94). -/
theorem witness_ZoneResyncFillsTheQueue :
    let d := control 4 ([1, 0, 0, 0] ++ toLe 4 11)
    let s := recordState active d
    s.bookCharter = some chart ∧ s.book.wait = [] ∧ 0 < chart.itemCount ∧ s.control.part ≠ .loading ∧
      (after .labelResync s).book.queue.length = 64 ∧
      (after .labelResync s).sweep.resync = some { zone := 11, next := 64 } := by decide +kernel

/-- With stage 4 of a load begun no further record of the old ring is read (R191). -/
theorem test_no_fetch_at_acceptance :
    let s : State := { active with control := { active.control with
      part := .loading, load := some { stage := .walked, charter := some chart }
      record := some { fetched := true, result := some .done }, ctlProducer := 2 } }
    (after .controlDone s).control.record = none ∧ (after .controlDone s).control.ctlConsumer = 1 ∧
      (after .controlDone { s with control := { s.control with part := .active, load := none } }).control.record =
        some {} := by decide +kernel

/-- The bytes of a small charter: its windows as those of `chart`, items 5,000, and the rest in range. -/
def charterBytes : List Byte :=
  let place := fun (k base size slots : Nat) => padTo 32 (toLe 4 k ++ toLe 4 base ++ toLe 4 size ++ toLe 4 slots)
  let head := toLe 8 0 ++ toLe 4 7 ++ [1, 0, 5, 0] ++ toLe 4 5000 ++ [4, 3, 4, 2] ++ toLe 2 900 ++ toLe 2 60 ++ [30, 10, 16, 24] ++
    toLe 2 40 ++ toLe 2 2000 ++ toLe 2 100 ++ [10, 3, 1, 2, 0, 0] ++ toLe 4 1 ++ toLe 4 3 ++
    toLe 4 4096 ++ toLe 4 2048 ++ toLe 4 1024 ++ toLe 4 512 ++ toLe 4 256 ++ toLe 4 128 ++ toLe 4 64 ++
    [1, 2, 3, 4, 5, 6, 7] ++ List.replicate 9 7 ++ padTo 8 [2, 0, 0, 1, 0, 2, 0] ++
    [1, 7, 1, 8, 1, 4, 2, 1] ++ (List.replicate 13 ([0, 0, 1, 1] : List Byte)).flatten
  padTo 768 (padTo 192 head ++ place 1 0x100000 0x80000 0 ++ place 2 0x200000 4096 4 ++ place 3 0x201000 4096 4 ++
    place 4 0x202000 4096 4 ++ place 5 0x203000 4096 4 ++ place 6 0x204000 4096 4 ++ place 7 0x205000 4096 4 ++
    place 8 0x206000 4096 8 ++ place 9 0x207000 4096 0)

def loadState (l : Load) : State :=
  { State.reset with chb := 1, control := { ControlState.reset with part := .loading, load := some l } }

/-- The six reads of a charter have returned. -/
def readState (b : List Byte) : State :=
  (loadState {}).withLink { LinkState.reset with issued := (List.range 6).map (fun k =>
    .own { unit := .control, addr := 0x1000000 + 128 * k, body := .read 128, purpose := .charterRead } ((b.drop (128 * k)).take 128)) }

theorem test_charter_accepted : charterRefusal 0x1000000 charterBytes = none := by decide +kernel

/-- A charter window among the windows: OVERLAP (17); a till count of 49: COUNT_RANGE (19); no price unit: COUNT_RANGE. -/
theorem test_charter_refused :
    charterRefusal 0x200000 charterBytes = some 17 ∧ charterRefusal 0x1000000 (charterBytes.set 20 49) = some 19 ∧
      charterRefusal 0x1000000 (charterBytes.set 192 0) = some 18 ∧ charterRefusal 0x1000000 (charterBytes.set 36 39) = some 20 := by
  decide +kernel

theorem reads_of_bytes (b : List Byte)
    (h : (State.takeCharterReads 6 (readState b)).map Prod.fst = some b) :
    ∃ u, State.takeCharterReads 6 (readState b) = some (b, u) := by
  obtain ⟨x, hx, hb⟩ := Option.map_eq_some_iff.mp h
  exact ⟨x.2, by rw [hx]; congr; exact Prod.ext hb rfl⟩

theorem charter_reads : ∃ u, State.takeCharterReads 6 (readState charterBytes) = some (charterBytes, u) :=
  reads_of_bytes _ (by decide +kernel)

/-- A charter with a till count of 49 is read, refused and answered with its code. -/
theorem witness_LoadRefusesACharter :
    (∃ u, State.takeCharterReads 6 (readState (charterBytes.set 20 49)) = some (charterBytes.set 20 49, u)) ∧
      charterRefusal (readState (charterBytes.set 20 49)).charterBase (charterBytes.set 20 49) = some 19 ∧
      (readState (charterBytes.set 20 49)).ownFree 1 ∧
      (after .charterCheck (readState (charterBytes.set 20 49))).control.part = .pass :=
  ⟨reads_of_bytes _ (by decide +kernel), by decide +kernel, ⟨rfl, rfl, by decide⟩, by decide +kernel⟩

theorem witness_LoadChecksWalksAccepts :
    (∃ u, State.takeCharterReads 6 (readState charterBytes) = some (charterBytes, u)) ∧
      (loadState { stage := .checked, charter := some chart }).book.queue = [] ∧
      (loadState { stage := .checked, charter := some chart }).sweep.visit = none ∧
      (loadState { stage := .walked, charter := some chart }).linkQuiet ∧
      (loadState { stage := .walked, charter := some chart }).control.record = none ∧ 0 < chart.averaging ∧
      chart.baseMin ≤ chart.baseInitial ∧ chart.baseInitial ≤ chart.baseMax ∧
      (readState charterBytes).noneWaits ∧ (loadState { stage := .walked, charter := some chart }).ownFree 23 ∧
      (loadState { stage := .checked, charter := some chart }).link.tasks = [] ∧
      (let s : State := { active with control := { active.control with
         part := .loading, load := some { stage := .walked, charter := some chart }, record := some { fetched := true } } }
       s.charter = some chart ∧ s.control.record = some { fetched := true }) :=
  ⟨charter_reads, rfl, rfl, ⟨rfl, rfl, rfl, rfl, rfl⟩, rfl, by decide, by decide, by decide, rfl, ⟨rfl, rfl, by decide⟩, rfl, rfl,
    rfl⟩

/-- Stage 4 of a reload with a record to finish: 1 index write and CONTROL_DONE in the old rings, 12 index writes, CHARTER_LOADED, the
result word and the status block; KEEP_REPAIRED first when the walk counted; and a KEEP load that resumes TRADING. -/
theorem witness_StageFourInOrder :
    let load (n : Nat) : Load := { stage := .walked, charter := some chart, repaired := n }
    let s (n : Nat) : State := { active.withPhase { active.phase with phase := some .night } with control := { active.control with
      part := .loading, load := some (load n), record := some { fetched := true, result := some .done } } }
    let t (n : Nat) : State := after .charterAccept (s n)
    let keep : Charter := { chart with keep := true, resume := some .trading }
    let k := after .charterAccept (loadState { stage := .walked, charter := some keep })
    (s 0).linkQuiet ∧ (s 0).ownFree 23 ∧ (s 0).reportRoom chart ∧ (∀ r, (s 0).control.record = some r → r.result.isSome = true) ∧
      ((t 0).link.own.length = 19 ∧ (t 0).control.repProducer = 1 ∧ (t 1).link.own.length = 21 ∧ (t 1).control.repProducer = 2 ∧
      ((t 0).link.own.map OwnRequest.body)[0]? = some (.indexWords none (some 1)) ∧
      ((t 0).link.own.map OwnRequest.body)[17]? = some (.resultWord 2) ∧
      k.phase.phase = some .trading ∧ k.guest.level = 1 ∧ k.guest.floor = 1) :=
  ⟨⟨rfl, rfl, rfl, rfl, rfl⟩, ⟨rfl, rfl, by decide⟩, by unfold State.reportRoom; decide, fun r h => by cases h; rfl,
    by decide +kernel⟩

/-- Stage 4 that finds the own-request queue full: the counts are given up, and a block forwarded before makes no transition (R63). -/
theorem witness_StageFourWaits :
    let load : Load := { stage := .walked, charter := some chart }
    let s : State := { acceptedState .starts .idle with
      control := { active.control with part := .loading, load := some load }
      link := { LinkState.reset with
        own := List.replicate 32 (plainOwn 0 false), issued := [.pass ⟨upperWrite, .intakeUpper⟩ []] } }
    let t := after .charterAccept s
    let u := after .blockAccepted t
    s.linkQuiet ∧ (s.noneWaits ∧ s.link.own.length = 32) ∧
      (t.control.load.map Load.stage = some .accepted ∧ t.charter = some chart ∧ t.intake.accepting = [none] ∧
        u.intake.accepting = [] ∧ u.intake.producer = 0 ∧ u.intake.state = .idle ∧ u.link.own = s.link.own) :=
  ⟨⟨rfl, rfl, rfl, rfl, rfl⟩, ⟨rfl, by decide⟩, by decide +kernel⟩

/-- A first load that waits for room after its POWER_WARNING was decided: a warning and its clearing leave nothing to hand on (R185);
one that stands when the part goes ACTIVE is handed on (R184, log 50). -/
theorem test_warning_late_in_a_first_load :
    let s (warning : Bool) : State :=
      let s0 := loadState { stage := .accepted, charter := some chart }
      { s0 with
        phase := { s0.phase with warning, runCount := if warning then 15 else 3 }
        link := { s0.link with
          ownWait := [.control], tasks := [(.control, .own { plainOwn 0 false with unit := .control }), (.control, .activate)] } }
    (after (.pfwSample false) (s true)).phase.handoffs = [] ∧ (after (.pfwSample true) (s false)).phase.warning = true ∧
      (after .ownRequestQueueRoom (after (.pfwSample true) (s false))).phase.handoffs = [true] ∧
      (after .ownRequestQueueRoom (s false)).phase.handoffs = [] := by decide +kernel

/-- A first load of a FRESH charter goes to NIGHT and ACTIVE, with CHARTER_LOADED published next. -/
theorem test_first_load :
    let s := after .charterAccept (loadState { stage := .walked, charter := some chart })
    s.control.part = .active ∧ s.phase.phase = some .night ∧ s.control.repProducer = 1 ∧ s.guest.level = 7 := by decide +kernel

end Sys2Proof.Tests
end

section
/-! The stages of the charge calculator (chapter Charge Price Arithmetic), one law per stage in the order of Machine/Charge.lean,
and the statements O11 and O12 assembled from them. -/

namespace Sys2Proof.Machine

/-! ## The discount stage (R33) -/

/-- The quotient and remainder of R33 are the ones that the model divides out. -/
theorem discounted_of_product_eq {b m q r : Nat} (hraw : b * (10000 - m) = 10000 * q + r) (hr : r ≤ 9999) :
    discounted b m = if 5000 < r then q + 1 else q := by
  have hdiv : (10000 * q + r) / 10000 = q := by omega
  have hmod : (10000 * q + r) % 10000 = r := by omega
  simp only [discounted, hraw, hdiv, hmod, gt_iff_lt]

/-- The model's own division, as an instance of R33's. -/
theorem discounted_eq (b m : Nat) :
    discounted b m =
      if 5000 < b * (10000 - m) % 10000 then b * (10000 - m) / 10000 + 1 else b * (10000 - m) / 10000 :=
  rfl

@[simp] theorem discounted_zero_base (m : Nat) : discounted 0 m = 0 := by simp [discounted]

/-- A remainder that is rounded up is not 0, so the quotient is then still below the base. -/
theorem discounted_le_base (b m : Nat) : discounted b m ≤ b := by
  have hraw : b * (10000 - m) ≤ b * 10000 := Nat.mul_le_mul_left b (Nat.sub_le 10000 m)
  rw [discounted_eq]
  split <;> omega

/-- The largest product is that of the largest base and the smallest markdown. -/
theorem discountProduct_le {b m : Nat} (hb : b ≤ 99999999) (hm : 1 ≤ m) : b * (10000 - m) ≤ 999899990001 :=
  calc b * (10000 - m) ≤ 99999999 * 9999 := Nat.mul_le_mul hb (by omega)
    _ = 999899990001 := rfl

/-! ## The price-point stage (R32, R34) -/

@[simp] theorem pointed_no_markdown (b u : Nat) : pointed b 0 u = b := rfl

theorem pointed_of_markdown {m : Nat} (hm : 0 < m) (b u : Nat) : pointed b m u = discounted b m / u * u :=
  if_neg (Nat.ne_of_gt hm)

theorem pointed_le_base (b m u : Nat) : pointed b m u ≤ b := by
  obtain rfl | hm := Nat.eq_zero_or_pos m
  · exact Nat.le_refl b
  · calc pointed b m u = discounted b m / u * u := pointed_of_markdown hm b u
      _ ≤ discounted b m := Nat.div_mul_le_self _ u
      _ ≤ b := discounted_le_base b m

/-! ## The floor stage (R34, R35) -/

theorem effectiveFloor_le_chargeOf (b m f u : Nat) : min f b ≤ chargeOf b m f u := Nat.le_max_right _ _

theorem chargeOf_le_base (b m f u : Nat) : chargeOf b m f u ≤ b :=
  Nat.max_le.mpr ⟨pointed_le_base b m u, Nat.min_le_right f b⟩

@[simp] theorem chargeOf_no_markdown (b f u : Nat) : chargeOf b 0 f u = b :=
  Nat.max_eq_left (Nat.min_le_right f b)

theorem chargeOf_eq_point {b m f u : Nat} (hm : 0 < m) (h : min f b ≤ discounted b m / u * u) :
    chargeOf b m f u = discounted b m / u * u := by
  rw [chargeOf, pointed_of_markdown hm, Nat.max_eq_left h]

theorem chargeOf_eq_effectiveFloor {b m f u : Nat} (hm : 0 < m) (h : discounted b m / u * u < min f b) :
    chargeOf b m f u = min f b := by
  rw [chargeOf, pointed_of_markdown hm, Nat.max_eq_right (Nat.le_of_lt h)]

/-- The values that the computation uses (R30, R31): the tuple's own, each limited to its range. -/
theorem chargePrice_eq_chargeOf (unit : Nat) (noMarkdown : Bool) (base markdown floor : Nat) :
    chargePrice unit noMarkdown base markdown floor =
      chargeOf (min base 99999999) (if noMarkdown then 0 else min markdown 9000) (min floor 99999999) unit :=
  rfl

/-! ## Line amounts (R36, R37) -/

@[simp] theorem exactLine_unit (q p : Nat) : exactLine false q p = q * p := rfl

theorem exactLine_weighed (g p : Nat) : exactLine true g p = (g * p + 500) / 1000 := rfl

/-- R37: the weighed amount is the nearest minor unit, an exact half rounded up. -/
theorem exactLine_weighed_nearest (g p : Nat) :
    1000 * exactLine true g p ≤ g * p + 500 ∧ g * p + 500 < 1000 * exactLine true g p + 1000 := by
  rw [exactLine_weighed]
  omega

theorem exactLine_weighed_of_below_half {g p : Nat} (h : g * p < 500) : exactLine true g p = 0 := by
  rw [exactLine_weighed]
  omega

/-! ## The statements -/

/-- Settles O11, stage by stage: the charge is the larger of the price point and the effective floor, both at most the base. -/
theorem chargeWithinFloorAndBase : Obligations.ChargeWithinFloorAndBase := by
  intro unit base markdown floor noMarkdown _
  simp only [chargePrice_eq_chargeOf]
  generalize min base 99999999 = b
  generalize min floor 99999999 = f
  generalize (if noMarkdown then 0 else min markdown 9000) = m
  refine ⟨⟨effectiveFloor_le_chargeOf b m f unit, chargeOf_le_base b m f unit⟩, ?noMarkdown, ?atPoint, ?atFloor⟩
  case noMarkdown =>
    rintro rfl
    exact chargeOf_no_markdown b f unit
  case atPoint =>
    intro hm hpoint
    have hc := chargeOf_eq_point hm hpoint
    exact ⟨hc, hc ▸ Nat.dvd_mul_left unit _⟩
  case atFloor => exact fun hm hfloor => chargeOf_eq_effectiveFloor hm hfloor

/-- Settles O12, from the law of the discount stage and those of the two kinds of line. -/
theorem discountAndLineAmountsRound : Obligations.DiscountAndLineAmountsRound := by
  refine ⟨?discount, ?unitLine, exactLine_weighed_nearest, ?noGrams, ?belowHalf, ?oneGram⟩
  case discount =>
    intro b m hb hm _
    exact ⟨fun _ _ hraw hr => discounted_of_product_eq hraw hr, discountProduct_le hb hm, by decide,
      discounted_le_base b m, discounted_zero_base m⟩
  case unitLine => exact fun q p => ⟨exactLine_unit q p, (exactLine_unit 0 p).trans (Nat.zero_mul p)⟩
  case noGrams =>
    intro p
    have hp : 0 * p < 500 := by omega
    exact exactLine_weighed_of_below_half hp
  case belowHalf => exact fun _ _ h => exactLine_weighed_of_below_half h
  case oneGram =>
    have h : 1 * 499 < 500 := by decide
    exact exactLine_weighed_of_below_half h

end Sys2Proof.Machine
end
